-- ==== Sys2Proof/Word.lean ====
section
/-! DEFINITION. The word types of the part: a data byte, the 32-bit and 16-bit counts, and the
40-bit byte address that both ports carry (R137). Byte order and field layouts stand in
Machine/Bytes.lean, Machine/Operands.lean and Machine/Formats.lean. -/

namespace Sys2Proof

/-- One byte of data on a port or in a buffer. -/
abbrev Byte := BitVec 8

/-- A 16-bit word: a software tag, a report index, the mirror count. -/
abbrev Half := BitVec 16

/-- A 32-bit word: the time base, a wrapping count, an argument word. -/
abbrev Word := BitVec 32

/-- A 40-bit byte address of either port (R137). -/
abbrev Addr := BitVec 40

end Sys2Proof
end

