-- ==== Sys2Proof/Syntax.lean ====
section
/-! DEFINITION. The commands of the part: one constructor for each row of spec/opcode_table.json,
with what the outside world supplies with it. A take of a command slot carries no operand: the
command's fields stand in the Command Unit's copy of the slot (R160, R164). -/

namespace Sys2Proof

/-- A read request of a port (R137): master tag, byte address, length in 16-byte beats, and the
request number the response returns. -/
structure ReadReq where
  tag   : Byte
  addr  : Addr
  beats : Nat
  num   : Nat
deriving DecidableEq, Repr

/-- A write request of a port (R137): a read's fields with one data byte and one byte strobe for each
byte of its beats. -/
structure WriteReq where
  tag     : Byte
  addr    : Addr
  beats   : Nat
  num     : Nat
  data    : List Byte
  strobes : List Bool
deriving DecidableEq, Repr

/-- A request on either channel (R137). -/
inductive Request where
  | read (r : ReadReq)
  | write (w : WriteReq)
deriving DecidableEq, Repr

/-- The response code of a request (R137). -/
inductive RespCode where
  | okay
  | error
deriving DecidableEq, Repr

/-- A response of memory to one request, all its beats (R138): its code, and a read's data. -/
structure MemResp where
  code : RespCode
  data : List Byte
deriving DecidableEq, Repr

/-- The steps of the part: one constructor for each row of spec/opcode_table.json. -/
inductive Instr where
  /-- POWER_ON_RESET (R187). -/
  | powerOnReset
  /-- POWER_ON_HOLD_END (R187), with the levels of STRAP_CP and STRAP_CLK sampled there (R185). -/
  | powerOnHoldEnd (cp : BitVec 4) (clk : BitVec 2)
  /-- PIN_RESET (R188): RST_N goes low. -/
  | pinReset
  /-- RST_N_RELEASE (R188): RST_N returns high, with the strap levels sampled there (R185). -/
  | rstNRelease (cp : BitVec 4) (clk : BitVec 2)
  /-- END_OF_INITIALIZATION (R190). -/
  | endOfInitialization
  /-- PASS_THROUGH_REQUEST (R141). -/
  | passThroughRequest (q : Request)
  /-- CAMERA_READ (R10). -/
  | cameraRead (r : ReadReq)
  /-- CAMERA_WRITE (R11). -/
  | cameraWrite (w : WriteReq)
  /-- CONTROL_PAGE_WRITE (R143). -/
  | controlPageWrite (w : WriteReq)
  /-- APERTURE_READ (R146). -/
  | apertureRead (r : ReadReq)
  /-- APERTURE_WRITE_REFUSED (R147). -/
  | apertureWriteRefused (w : WriteReq)
  /-- HOLD_LIMIT_EXPIRY (R130) of a held read of view `v`. -/
  | holdLimitExpiry (v : Fin 2)
  /-- IDLE_TIMER_EXPIRY (R91) of view `v`. -/
  | idleTimerExpiry (v : Fin 2)
  /-- WATCHDOG_EXPIRY (R27) of source `i`. -/
  | watchdogExpiry (i : Fin 4)
  /-- ARBITER_GRANT (R151): the memory port can take a request. -/
  | arbiterGrant
  /-- RESPONSE_RELAY (R141): memory answers outstanding entry `e`. -/
  | responseRelay (e : Fin 64) (m : MemResp)
  /-- DISCARDED_RESPONSE (R148). -/
  | discardedResponse (e : Fin 64) (m : MemResp)
  /-- FETCH_COMPLETION (R125). -/
  | fetchCompletion (e : Fin 64) (m : MemResp)
  /-- CALIBRATION_LOAD_END (R35). -/
  | calibrationLoadEnd (e : Fin 64) (m : MemResp)
  /-- NOP (R169): the take of a slot holding NOP. -/
  | nop
  /-- SOURCE_SETUP (R5). -/
  | sourceSetup
  /-- SOURCE_CONTROL_ENABLE (R6). -/
  | sourceControlEnable
  /-- SOURCE_CONTROL_DISABLE (R7). -/
  | sourceControlDisable
  /-- VIEW_SETUP (R82). -/
  | viewSetup
  /-- VIEW_CONTROL_ENABLE (R83). -/
  | viewControlEnable
  /-- VIEW_CONTROL_DISABLE (R84). -/
  | viewControlDisable
  /-- CAL_LOAD (R34). -/
  | calLoad
  /-- ZOOM_SET (R44). -/
  | zoomSet
  /-- EVENT_SETUP (R179). -/
  | eventSetup
  /-- EVENT_FORCE (R180). -/
  | eventForce
  /-- PART_RESET (R170). -/
  | partReset
  /-- UNKNOWN_COMMAND_TAKE (R164). -/
  | unknownCommandTake
  /-- OWN_REQUEST_RESPONSE (R138). -/
  | ownRequestResponse (e : Fin 64) (m : MemResp)
deriving DecidableEq, Repr

end Sys2Proof
end

