-- ==== Sys2Proof/Decode.lean ====
section
/-! DEFINITION. The commands that a word of spec/opcode_table.json spells. The table gives no row any
bits (each row's "fields" is empty and none has a "fixed" pattern), because its rows are steps of the
part and not words of an instruction stream, so no word spells a command. What the part does decode,
the command code and body of a slot, stands in Machine/Operands.lean. -/

namespace Sys2Proof

/-- The command that a word spells by the table's bits: no row has any, so none. Log entry 2. -/
def decodeTableWord (_nbits _w : Nat) : Option Instr := none

end Sys2Proof
end

