-- ==== Sys2Proof/Config.lean ====
section
/-! DEFINITION. The values the spec leaves open while the part goes on. Each is an opaque constant:
no proof can see what it is, so a claim that holds for the model holds for every choice. The
argument of each is either what it is asked about or `State.draws`, the model's own counter, which
rises at every draw so that two draws need not agree. -/

namespace Sys2Proof

/-- Which channel's head the Window Decoder accepts first when a read and a write are both acceptable
at one moment: true for the read. R137: "may be accepted in either order". Log entry 5. -/
opaque Config.readFirst : Nat → Bool

/-- Which of several FAILED rows of one read FETCH_ERROR names. R132 speaks of "the failed row" and
does not say which of two. Log entry 18. -/
opaque Config.failedRowChoice : Nat → Nat

/-- Argument word 1 of UNDERRUN ("first row the read touches", R131) for a read filled at a frame
opening that touches no row. The spec gives no value there. Log entry 19. -/
opaque Config.untouchedRowArgument : Nat → Word

/-- Argument word 1 of APERTURE_WRITE for a write whose offset from the aperture base does not fit
32 bits. R195 gives the word the offset and states no value for a wider one. Log entry 20. -/
opaque Config.wideOffsetArgument : Nat → Word

/-- A coordinate of an effective centre, in units of 2⁻¹⁶, whose rounded value lies outside the signed
16.16 form in which R55 has it held. The spec does not say what is held then. Log entry 39. -/
opaque Config.wideCentre : Int → Word

/-- Of two READY stores of one source with the same close order, by their numbers, whether the first is
taken for the newer. The close orders of two stores agree when one closed exactly 2³² READY closes after the
other, and the distance of R13 does not tell them apart. Log entry 46. -/
opaque Config.newerOfEqual : Nat → Nat → Bool

/-- Of two evictable entries of one row cache with the same completion order, by their numbers, whether the
first is taken for the older: the same question for R119 and its 32-bit completion count. Log entry 46. -/
opaque Config.olderOfEqual : Nat → Nat → Bool

end Sys2Proof
end

