-- ==== Sys2Proof/WellFormed.lean ====
section
/-! DEFINITION. The shape R137 gives every request of a port and R138 every response: 1 to 16 beats
of 16 bytes, no 4 KiB boundary crossed, one data byte and one strobe for each byte of a write. -/

namespace Sys2Proof

/-- A request covers 1 to 16 beats from its address and crosses no 4 KiB boundary (R137). -/
def spanOk (addr : Addr) (beats : Nat) : Bool :=
  1 ≤ beats && beats ≤ 16 && addr.toNat % 4096 + 16 * beats ≤ 4096

/-- The shape of a read request (R137). -/
def ReadReq.wf (r : ReadReq) : Bool := spanOk r.addr r.beats

/-- The shape of a write request (R137): as a read's, with a data byte and a strobe for each byte. -/
def WriteReq.wf (w : WriteReq) : Bool :=
  spanOk w.addr w.beats && w.data.length == 16 * w.beats && w.strobes.length == 16 * w.beats

/-- The shape of a request of either channel (R137). -/
def Request.wf : Request → Bool
  | .read r  => r.wf
  | .write w => w.wf

/-- The shape of a response (R138): whole beats, 16 at most. That a read's response has the beats the
read asked for is tested against the outstanding entry, when the response arrives. -/
def MemResp.wf (m : MemResp) : Bool := m.data.length % 16 == 0 && m.data.length ≤ 256

/-- A well-formed command: its request or its response has the shape of R137 and R138. -/
def Instr.wf : Instr → Bool
  | .passThroughRequest q   => q.wf
  | .cameraRead r           => r.wf
  | .cameraWrite w          => w.wf
  | .controlPageWrite w     => w.wf
  | .apertureRead r         => r.wf
  | .apertureWriteRefused w => w.wf
  | .responseRelay _ m      => m.wf
  | .discardedResponse _ m  => m.wf
  | .fetchCompletion _ m    => m.wf
  | .calibrationLoadEnd _ m => m.wf
  | .ownRequestResponse _ m => m.wf
  | .powerOnReset           => true
  | .powerOnHoldEnd _ _     => true
  | .pinReset               => true
  | .rstNRelease _ _        => true
  | .endOfInitialization    => true
  | .holdLimitExpiry _      => true
  | .idleTimerExpiry _      => true
  | .watchdogExpiry _       => true
  | .arbiterGrant           => true
  | .nop                    => true
  | .sourceSetup            => true
  | .sourceControlEnable    => true
  | .sourceControlDisable   => true
  | .viewSetup              => true
  | .viewControlEnable      => true
  | .viewControlDisable     => true
  | .calLoad                => true
  | .zoomSet                => true
  | .eventSetup             => true
  | .eventForce             => true
  | .partReset              => true
  | .unknownCommandTake     => true

end Sys2Proof
end

