-- ==== Sys2Proof/Machine/State.lean ====
section
/-! DEFINITION. The state of the part as plain data, block by block, and the state right after a
power-on reset. Each field's docstring names the rule of spec/ that gives it. -/

namespace Sys2Proof.Machine

/-! ### Signals and resets (chapter 12) -/

/-- Where the part stands between a reset and its running (R187, R188, R190). -/
inductive Phase where
  /-- The power-on hold: the supplies settle and RST_N is awaited high (R187). -/
  | powerOnHold
  /-- A pin reset is held by RST_N low (R188). -/
  | pinHold
  /-- Initialization: the time base runs from 0 toward 256 (R190). -/
  | initializing
  /-- Initialization has ended (R149). -/
  | running
deriving DecidableEq, Repr

/-- The cause recorded for the last reset taken (R183). -/
inductive ResetCause where
  | power
  | pin
  | soft
deriving DecidableEq, Repr

/-! ### The window table (R139) -/

/-- The kind of a window (R139). -/
inductive WindowKind where
  | control
  | camera (i : Fin 4) (k : Nat)
  | aperture (v : Fin 2)
deriving DecidableEq, Repr

/-- One window of the window table (R139). -/
structure Window where
  base   : Nat
  length : Nat
  kind   : WindowKind
  active : Bool
deriving DecidableEq, Repr

/-! ### The two ports (R137, R138) -/

/-- A response given on an upstream response channel (R137): the requester's tag and request number,
the code, and for a read its beats and data. -/
structure UpResponse where
  tag    : Byte
  num    : Nat
  code   : RespCode
  isRead : Bool
  beats  : Nat
  data   : List Byte
deriving DecidableEq, Repr

/-- The upstream port (R137): requests that wait unaccepted at the head of each channel (R128, R153),
oldest first, and every response given so far, oldest first (the model's record of the response
channels, log entry 8). -/
structure Upstream where
  reads     : List ReadReq
  writes    : List WriteReq
  responses : List UpResponse
deriving DecidableEq, Repr

/-- A run of beats that one own read asks for. -/
structure Span where
  addr  : Nat
  beats : Nat
deriving DecidableEq, Repr

/-- Whom a response on the memory port belongs to (R138). -/
inductive Owner where
  /-- A forwarded request: its master tag, upstream request number, direction and beats. -/
  | forwarded (tag : Byte) (num : Nat) (isRead : Bool) (beats : Nat)
  /-- One read of the fetch into entry `e` of view `v`'s row cache. -/
  | fetch (v : Fin 2) (e : Fin 16) (span : Span)
  /-- One read of the calibration load in flight. -/
  | load (span : Span)
  | recordWrite
  | mirrorWrite
deriving DecidableEq, Repr

/-- An entry of the outstanding list (R138), with the mark a reset sets on own requests (R148). -/
structure OutEntry where
  owner     : Owner
  discarded : Bool
deriving DecidableEq, Repr

/-! ### Sources and the frame pool (chapter 1) -/

/-- The state of a frame store (R12). -/
inductive StoreState where
  | free
  | filling
  | ready
  | short
deriving DecidableEq, Repr

/-- A statistics accumulator (R24). -/
structure Accum where
  sumY  : Nat
  sumCb : Nat
  sumCr : Nat
  count : Nat
deriving DecidableEq, Repr

/-- A rectangle of source pixels, bounds inclusive (R29). -/
structure Rect where
  x0 : Nat
  y0 : Nat
  x1 : Nat
  y1 : Nat
deriving DecidableEq, Repr

/-- The record of one frame store (R12). -/
structure FrameStore where
  state      : StoreState
  pins       : Nat
  torn       : Bool
  closeOrder : Option Word
  landed     : Nat
  inner      : Accum
  full       : Accum
  rect       : Rect
deriving DecidableEq, Repr

/-- A source record (R3). Bases are byte addresses. -/
structure SourceRecord where
  tag        : Byte
  width      : Nat
  height     : Nat
  stride     : Nat
  positions  : Nat
  spares     : Nat
  watchdog   : Nat
  posBases   : List Nat
  spareBases : List Nat
deriving DecidableEq, Repr

/-- The state of a source (section 1.2). -/
inductive SourceState where
  | unset
  | off
  | waiting
  | running
  | stalled
deriving DecidableEq, Repr

/-- One Source Tracker (chapter 1): state, record, ring map (R9), frame stores (R12), READY close
count (R13), the frame watchdog's last load when it runs (R27), and the recovery run (R28). -/
structure Source where
  state       : SourceState
  record      : Option SourceRecord
  ringMap     : List Nat
  stores      : List FrameStore
  readyCount  : Word
  watchdog    : Option Word
  recoveryRun : Nat
deriving DecidableEq, Repr

/-! ### The Calibration Store (chapter 2) -/

/-- A calibrated source's record (R29): `k`, `oU`, `oV` in units of 2⁻¹⁶, the floor as a zoom code. -/
structure CalSource where
  k     : Nat
  oU    : Int
  oV    : Int
  floor : Nat
  rect  : Option Rect
deriving DecidableEq, Repr

/-- A pair record (R30). -/
structure CalPair where
  up           : Nat
  down         : Nat
  margin       : Nat
  step         : Nat
  relax        : Nat
  prepareLimit : Nat
deriving DecidableEq, Repr

/-- A calibration set (R29, R30), with the CRC field of its block (R39). -/
structure CalSet where
  count   : Nat
  crc     : Word
  sources : List CalSource
  pairs   : List CalPair
deriving DecidableEq, Repr

/-- The load in flight (R34, R35): the block's address and length, the load buffer, the reads not yet
granted, the responses still owed, and the lowest block offset answered ERROR so far. -/
structure Load where
  addr   : Nat
  length : Nat
  buffer : List Byte
  todo   : List Span
  owed   : Nat
  error  : Option Nat
deriving DecidableEq, Repr

/-- The Calibration Store (chapter 2): active set, staged set, load in flight; any may be absent. -/
structure CalStore where
  active : Option CalSet
  staged : Option CalSet
  load   : Option Load
deriving DecidableEq, Repr

/-! ### The Zoom Controller (R42) -/

/-- The Zoom Controller's state (R42). Zoom values are 5.11 codes; the pan target is in units of 2⁻¹⁶. -/
structure Zoom where
  target    : Nat
  current   : Nat
  slew      : Nat
  panX      : Int
  panY      : Int
  reachArm  : Bool
  floorHold : Bool
deriving DecidableEq, Repr

/-! ### The Hand-off Controller (R57) -/

/-- The direction of a hand-off on a pair: up from p to p+1, down from p+1 to p. -/
inductive PairDir where
  | up
  | down
deriving DecidableEq, Repr

/-- The direction in which a blend's weight moves (R57). -/
inductive BlendDir where
  | forward
  | reverse
deriving DecidableEq, Repr

/-- The hand-off state with the fields present in it (R57). The to-source of PREPARE and BLEND is the
other source of the pair (`Handoff.toSrc`). -/
inductive HandoffState where
  | settled
  | prepare (p : Fin 3) (d : PairDir) (count : Nat)
  | blend (p : Fin 3) (d : PairDir) (motion : BlendDir)
  | frozen
deriving DecidableEq, Repr

/-- A photometric correction (R57): gain as an 8.8 code, and the two chroma offsets. -/
structure Correction where
  gain : Nat
  dCb  : Int
  dCr  : Int
deriving DecidableEq, Repr

/-- The Hand-off Controller's state (R57). -/
structure Handoff where
  state     : HandoffState
  fromSrc   : Fin 4
  weight    : Nat
  fromCorr  : Correction
  toCorr    : Correction
  relaxPair : Option (Fin 3)
  armUp     : Vector Bool 3
  armDown   : Vector Bool 3
  supUp     : Vector Bool 3
  supDown   : Vector Bool 3
deriving DecidableEq, Repr

/-! ### Views (chapters 5 and 7) -/

/-- The side of a plan. -/
inductive Side where
  | fromSide
  | toSide
deriving DecidableEq, Repr

/-- A present side of a plan (R95): source, store, geometry in units of 2⁻¹⁶ (R105, R106),
correction, and column segment (R117). -/
structure SidePlan where
  source : Fin 4
  store  : Nat
  step   : Nat
  u0     : Int
  v0     : Int
  corr   : Correction
  cmin   : Nat
  cmax   : Nat
deriving DecidableEq, Repr

/-- A frame plan (R95). It is a fill frame when both sides are absent (`Plan.isFill`). -/
structure Plan where
  number   : Word
  zoom     : Nat
  centreX  : Int
  centreY  : Int
  fromSide : Option SidePlan
  toSide   : Option SidePlan
  weight   : Nat
deriving DecidableEq, Repr

/-- The key of a source row (R116, R118): side, source and store, source row. -/
structure RowKey where
  side   : Side
  source : Fin 4
  store  : Nat
  row    : Nat
deriving DecidableEq, Repr

/-- An entry of a row cache with the fields its state has (R116). -/
inductive CacheEntry where
  | empty
  | fetching (key : RowKey) (urgent : Bool) (data : List Byte)
  | valid (key : RowKey) (order : Word) (pixels : List Byte)
  | failed (key : RowKey) (order : Word)
  | discarding
deriving DecidableEq, Repr

/-- A view's fetch queue in its two parts (R120), each naming cache entries in order. -/
structure FetchQueue where
  urgent : List (Fin 16)
  normal : List (Fin 16)
deriving DecidableEq, Repr

/-- A held read (R127): the request, its time of acceptance, the frame it belongs to, the rows it
touches, the rows it needs, and its expired flag. -/
structure HeldRead where
  req      : ReadReq
  accepted : Word
  frame    : Option Word
  rows     : List Nat
  needed   : List RowKey
  expired  : Bool
deriving DecidableEq, Repr

/-- The record of the open output frame (R87); `idleLoad` is the idle timer's last load (R91). -/
structure FrameRecord where
  number    : Word
  highest   : Nat
  underruns : Nat
  warned    : Bool
  idleLoad  : Word
deriving DecidableEq, Repr

/-- The state of a view (section 5.2), with the frame record while it is OPEN. -/
inductive ViewState where
  | disabled
  | idle
  | opened (f : FrameRecord)
deriving DecidableEq, Repr

/-- The degrade level (R100). -/
inductive DegradeLevel where
  | full
  | single
deriving DecidableEq, Repr

/-- A view record (R81). The base is a byte address, the hold limit in µs, the idle timeout in ms. -/
structure ViewRecord where
  width         : Nat
  height        : Nat
  stride        : Nat
  base          : Nat
  fillY         : Byte
  fillCb        : Byte
  fillCr        : Byte
  lookahead     : Nat
  warnLead      : Nat
  holdLimit     : Nat
  underrunLimit : Nat
  idleTimeout   : Nat
deriving DecidableEq, Repr

/-- One View Composer (chapters 5 and 7). -/
structure View where
  /-- R81 -/
  record           : Option ViewRecord
  state            : ViewState
  /-- R87 -/
  framesOpened     : Word
  /-- R131 -/
  totalUnderruns   : Nat
  /-- R100 to R102 -/
  degrade          : DegradeLevel
  cleanRun         : Nat
  /-- R95 -/
  plan             : Option Plan
  /-- R127 -/
  held             : List HeldRead
  /-- R116 -/
  cache            : Vector CacheEntry 16
  completionCount  : Word
  /-- R120 -/
  fetchQ           : FetchQueue
  /-- R118 -/
  markRow          : Nat
  /-- R131, R132, R133 -/
  underrunRaised   : Bool
  fetchErrorRaised : Bool
  warnRaised       : Bool
  /-- R134 -/
  warnedRun        : Nat
  saturated        : Bool
deriving DecidableEq, Repr

/-- A fetch of the Fetch Engine's in-flight list (R123): view and entry, reads granted, their total,
responses owed, the reads not yet granted, the address of the segment's first byte, and the two flags. -/
structure Fetch where
  view    : Fin 2
  entry   : Fin 16
  granted : Nat
  total   : Nat
  owed    : Nat
  todo    : List Span
  segBase : Nat
  urgent  : Bool
  error   : Bool
deriving DecidableEq, Repr

/-! ### The Memory Port Arbiter (chapter 9) -/

/-- The Arbiter's age counts (R156) and round-robin pointers (R155). -/
structure Arbiter where
  ageView     : Vector Nat 2
  ageReport   : Nat
  ageCal      : Nat
  urgentPtr   : Fin 2
  prefetchPtr : Fin 2
deriving DecidableEq, Repr

/-! ### The Command Unit (R160) -/

/-- The state of a slot (R160). TAKEN stands only inside the one event of a take (R164). -/
inductive SlotState where
  | free
  | ready
  | taken
deriving DecidableEq, Repr

/-- One command slot (R160): copy, written marks, state, incomplete mark, overrun flag. -/
structure Slot where
  bytes      : Vector Byte 64
  marks      : Vector Bool 64
  state      : SlotState
  incomplete : Bool
  overrun    : Bool
deriving DecidableEq, Repr

/-- The result of a command (R164). -/
inductive CmdResult where
  | ok
  | unknown
  | incomplete
  | check
  | state
  | range
  | conflict
  | busy
deriving DecidableEq, Repr

/-- The last slot, last result and last tag (R160). -/
structure LastCommand where
  slot   : Fin 32
  result : CmdResult
  tag    : Half
deriving DecidableEq, Repr

/-- The Command Unit (R160). -/
structure CommandUnit where
  slots       : Vector Slot 32
  next        : Fin 32
  consumed    : Word
  checkEnable : Bool
  last        : Option LastCommand
deriving DecidableEq, Repr

/-! ### The Report Unit (chapter 11) -/

/-- The 29 event kinds, in the order of the table of section 11.8. -/
inductive EventKind where
  | frameShort
  | storeRemapped
  | zoomReached
  | handoffStart
  | handoffDone
  | handoffReversed
  | resetDone
  | cmdRefused
  | streamRunning
  | warmRequest
  | cameraIdle
  | zoomClamped
  | handoffAbandoned
  | handoffAborted
  | frozenExit
  | latencyWarn
  | degradeEnter
  | degradeExit
  | calActive
  | apertureWrite
  | cmdOverrun
  | streamStalled
  | frameTorn
  | handoffCut
  | frozenEnter
  | underrun
  | fetchError
  | calBad
  | eventForced
deriving DecidableEq, Repr

/-- An event as a block raises it (R174), but for its time. -/
structure Event where
  kind    : EventKind
  level   : Nat
  subject : Nat
  arg0    : Word
  arg1    : Word
deriving DecidableEq, Repr

/-- A report record before its grant gives it a sequence (R172), and an entry of the pending-kind
list, which holds the same fields (R175). -/
structure Record where
  kind    : EventKind
  level   : Nat
  subject : Nat
  count   : Nat
  first   : Word
  last    : Word
  arg0    : Word
  arg1    : Word
deriving DecidableEq, Repr

/-- An item of the Report Unit's output sequence (R176): a queued record or the mirror writing. -/
inductive OutItem where
  | record (r : Record)
  | mirror
deriving DecidableEq, Repr

/-- The Report Unit (chapter 11). The output queue is the records of `output`; the waiting mirror
writing, when there is one, stands in `output` at its place (R181). -/
structure Report where
  /-- R173 -/
  writeIndex   : Half
  ackIndex     : Half
  /-- R178 -/
  alertFlags   : Vector Bool 256
  /-- R176 -/
  output       : List OutItem
  /-- R175 -/
  pendingKinds : List Record
  /-- R179 -/
  floor        : Nat
  mask         : BitVec 29
  /-- R144 -/
  ackCopy      : Vector Byte 4
  /-- R181 -/
  mirrorCount  : Half
  /-- R183 -/
  cause        : ResetCause
deriving DecidableEq, Repr

/-! ### The whole part -/

/-- The state of the part, with the model's own queue of waiting commands. -/
structure State where
  /-- The commands that wait, first in, first out: the model's own field. -/
  pending     : List Instr
  phase       : Phase
  /-- The level of the RST_N pin, true for high (R188). -/
  rstN        : Bool
  /-- The sampled codes of STRAP_CP and STRAP_CLK (R185). -/
  strapCp     : BitVec 4
  strapClk    : BitVec 2
  /-- The time base, in µs (R186). -/
  timeBase    : Word
  up          : Upstream
  /-- The window table (R139). -/
  windows     : List Window
  /-- The pass-through queue (R153), oldest first, addresses as forwarded. -/
  passQueue   : List Request
  /-- The outstanding list (R138). -/
  outstanding : Vector (Option OutEntry) 64
  /-- Every request issued on the memory port so far, oldest first: the model's record of the memory
  port's request channels, each with its entry number as request number (log entry 8). -/
  memRequests : List Request
  arb         : Arbiter
  cmd         : CommandUnit
  sources     : Vector Source 4
  cal         : CalStore
  zoom        : Zoom
  handoff     : Handoff
  views       : Vector View 2
  /-- The Fetch Engine's in-flight list (R123), oldest first. -/
  inflight    : List Fetch
  report      : Report
  /-- How many free values have been drawn (Config): the model's own field. -/
  draws       : Nat
deriving DecidableEq, Repr

/-- Why the part stops. Each is raised only where the outside breaks the shape of a port. -/
inductive Fault where
  /-- A request that has not the shape R137 gives every request (`Instr.wf`): the interconnect
  presents no such request, and the spec gives it no effect. Safe: the model stops where no request
  of the spec is. Raised by the six request commands. -/
  | malformedRequest
  /-- A response for an outstanding entry that is free. R138 gives each response an entry that its
  request took. Safe. Raised by the five response commands. -/
  | unmatchedResponse
  /-- A response whose data are not the beats its request asked for (R137, R138). Safe. Raised by the
  five response commands. -/
  | malformedResponse
deriving DecidableEq, Repr

/-- Why a command has no meaning. -/
inductive Refusal where
  /-- An arm of `exec` without a meaning; no arm is left so. Safe. -/
  | notModelled (mnemonic : String)
deriving DecidableEq, Repr

/-! ### Reset values -/

/-- An accumulator cleared (R24). -/
def Accum.zero : Accum := ⟨0, 0, 0, 0⟩

/-- A source after any reset: UNSET (R8). -/
def Source.reset : Source :=
  { state := .unset, record := none, ringMap := [], stores := [], readyCount := 0, watchdog := none,
    recoveryRun := 0 }

/-- The Calibration Store after any reset: no set and no load (R33). -/
def CalStore.reset : CalStore := { active := none, staged := none, load := none }

/-- The Zoom Controller after any reset (R43). -/
def Zoom.reset : Zoom :=
  { target := 2048, current := 2048, slew := 0, panX := 2048 * 65536, panY := 1536 * 65536,
    reachArm := false, floorHold := false }

/-- The neutral correction: unity gain, no offsets (R57). -/
def Correction.neutral : Correction := ⟨256, 0, 0⟩

/-- The Hand-off Controller after any reset (R58). -/
def Handoff.reset : Handoff :=
  { state := .settled, fromSrc := 0, weight := 0, fromCorr := .neutral, toCorr := .neutral,
    relaxPair := none, armUp := Vector.replicate 3 true, armDown := Vector.replicate 3 true,
    supUp := Vector.replicate 3 false, supDown := Vector.replicate 3 false }

/-- A view after any reset (R85, R116, R134, R135). -/
def View.reset : View :=
  { record := none, state := .disabled, framesOpened := 0, totalUnderruns := 0, degrade := .full,
    cleanRun := 0, plan := none, held := [], cache := Vector.replicate 16 .empty,
    completionCount := 0, fetchQ := ⟨[], []⟩, markRow := 0, underrunRaised := false,
    fetchErrorRaised := false, warnRaised := false, warnedRun := 0, saturated := false }

/-- The Arbiter after any reset: ages 0, both pointers at view 0 (R155, R156). -/
def Arbiter.reset : Arbiter :=
  { ageView := Vector.replicate 2 0, ageReport := 0, ageCal := 0, urgentPtr := 0, prefetchPtr := 0 }

/-- A slot freed: every byte 0, every mark and flag clear (R160, R166). -/
def Slot.freed : Slot :=
  { bytes := Vector.replicate 64 0, marks := Vector.replicate 64 false, state := .free,
    incomplete := false, overrun := false }

/-- The Command Unit after any reset (R160). -/
def CommandUnit.reset : CommandUnit :=
  { slots := Vector.replicate 32 Slot.freed, next := 0, consumed := 0, checkEnable := true,
    last := none }

/-- The Report Unit after a reset of the given cause (R144, R173, R179, R181, R183). -/
def Report.reset (c : ResetCause) : Report :=
  { writeIndex := 0, ackIndex := 0, alertFlags := Vector.replicate 256 false, output := [],
    pendingKinds := [], floor := 1, mask := 0x1FFFFFC0#29, ackCopy := Vector.replicate 4 0,
    mirrorCount := 0, cause := c }

/-- The part right after a power-on reset has been taken, in the power-on hold (R187): every block at
its reset values and every holding empty. The strap codes and the RST_N level have no value in the
spec before the hold ends; log entry 9 names those chosen here. -/
def State.reset : State :=
  { pending := [], phase := .powerOnHold, rstN := true, strapCp := 0, strapClk := 0, timeBase := 0,
    up := ⟨[], [], []⟩,
    windows := [{ base := 0x3FFF0000, length := 0x10000, kind := .control, active := false }], passQueue := [],
    outstanding := Vector.replicate 64 none, memRequests := [], arb := Arbiter.reset,
    cmd := CommandUnit.reset, sources := Vector.replicate 4 Source.reset, cal := CalStore.reset,
    zoom := Zoom.reset, handoff := Handoff.reset, views := Vector.replicate 2 View.reset,
    inflight := [], report := Report.reset .power, draws := 0 }

end Sys2Proof.Machine
end

