-- ==== Sys2Proof/Machine/Bytes.lean ====
section
/-! DEFINITION. Byte order, address arithmetic, exact rounding and the CRC: the helpers that every
layout and every computation of the part shares (R36, R105, R124, R191). -/

namespace Sys2Proof.Machine

/-- A 16-bit field, least significant byte first (R191). -/
def le16 (n : Nat) : List Byte := [BitVec.ofNat 8 n, BitVec.ofNat 8 (n / 256)]

/-- A 32-bit field, least significant byte first (R191). -/
def le32 (n : Nat) : List Byte := le16 n ++ le16 (n / 65536)

/-- The number that `len` bytes from `off` hold, least significant byte first (R191). -/
def readLE (bs : List Byte) (off len : Nat) : Nat :=
  ((bs.drop off).take len).foldr (fun b acc => b.toNat + 256 * acc) 0

/-- A 32-bit field read as two's complement (R191). -/
def signed32 (n : Nat) : Int := (BitVec.ofNat 32 n).toInt

/-- A one-byte number that stands alone in an argument word (R195). -/
def argWord (n : Nat) : Word := BitVec.ofNat 32 n

/-- The number `n` in 16.16 form: its low 32 bits, two's complement (R191). -/
def fixedWord (i : Int) : Word := BitVec.ofInt 32 i

/-- `n` rounded up to a whole multiple of 4 KiB (R3, R81). -/
def roundUpPage (n : Nat) : Nat := (n + 4095) / 4096 * 4096

/-- Whether two address ranges, given by base and length, share a byte (R4, R82). -/
def rangesOverlap (a b : Nat × Nat) : Bool := a.1 < b.1 + b.2 && b.1 < a.1 + a.2

/-- The top of the 40-bit address space (R4, R34, R82). -/
def addressTop : Nat := 2 ^ 40

/-- `beats` beats from the 16-byte aligned address `addr`, divided in address order into reads that end
at the nearest of 16 beats, the next 4 KiB boundary and the last beat (R124). -/
def splitReads : Nat → Nat → Nat → List Span
  | 0, _, _ => []
  | fuel + 1, addr, beats =>
    if beats = 0 then []
    else
      let n := min (min 16 ((4096 - addr % 4096) / 16)) beats
      ⟨addr, n⟩ :: splitReads fuel (addr + 16 * n) (beats - n)

/-- The reads that bring in the beats holding the bytes from `first` to `last` (R35, R124). -/
def readsFor (first last : Nat) : List Span :=
  let beats := last / 16 - first / 16 + 1
  splitReads beats (first / 16 * 16) beats

/-- A buffer whose byte 0 stands at address `base`, after `data` has arrived for the bytes from
address `addr`: bytes of `data` outside the buffer are dropped (R35, R124, R125). -/
def placeBytes (base : Nat) (buf : List Byte) (addr : Nat) (data : List Byte) : List Byte :=
  buf.mapIdx fun i b =>
    if addr ≤ base + i then (data[base + i - addr]?).getD b else b

/-- One byte of the CRC-32 of R36: combined into the low end of the remainder, which is then shifted
eight times toward its low end. -/
def crcByte (rem : Word) (b : Byte) : Word :=
  (List.range 8).foldl
    (fun r _ => if r.getLsbD 0 then (r >>> 1) ^^^ 0xEDB88320#32 else r >>> 1)
    (rem ^^^ b.setWidth 32)

/-- The CRC-32 of R36. -/
def crc32 (bs : List Byte) : Word := bs.foldl crcByte 0xFFFFFFFF#32 ^^^ 0xFFFFFFFF#32

/-- The nearest integer, ties away from zero (R55, R105, R106). -/
def roundAway (r : ℚ) : Int := if 0 ≤ r then (r + 1 / 2).floor else -(-r + 1 / 2).floor

/-- `v` limited to the interval from `a` to `b` (R1, Conventions). -/
def clampNat (v a b : Nat) : Nat := max a (min v b)

/-- `v` limited to the interval from `a` to `b` (R1, Conventions). -/
def clampInt (v a b : Int) : Int := max a (min v b)

/-- The elapsed difference of a timer: the time base less its load, modulo 2³² (R186). -/
def elapsed (now load : Word) : Nat := (now - load).toNat

/-- The next source number up, when there is one. -/
def nextUp (i : Fin 4) : Option (Fin 4) := if h : i.val + 1 < 4 then some ⟨i.val + 1, h⟩ else none

/-- The next source number down, when there is one. -/
def nextDown (i : Fin 4) : Option (Fin 4) :=
  if i.val = 0 then none else some ⟨i.val - 1, by omega⟩

end Sys2Proof.Machine
end

