-- ==== Sys2Proof/Machine/Flags.lean ====
section
/-! DEFINITION. The computed flags and counts of the Report Unit: the unacknowledged count, the
queue's count, room in the ring (R173) and the level of EVT_N (R178); and the event levels and
codes of section 11.8. -/

namespace Sys2Proof.Machine

/-- The code of an event level (R191): INFO. -/
def levelInfo : Nat := 1
/-- The code of an event level (R191): NOTICE. -/
def levelNotice : Nat := 2
/-- The code of an event level (R191): FAULT. -/
def levelFault : Nat := 3

/-- The code of an event kind: 1 to 29 in the order of the table of section 11.8 (R191). -/
def EventKind.code (k : EventKind) : Nat := k.ctorIdx + 1

/-- The kind's fixed level (section 11.8). EVENT_FORCED has none of its own: the command gives it. -/
def EventKind.level : EventKind → Nat
  | .frameShort | .storeRemapped | .zoomReached | .handoffStart | .handoffDone
  | .handoffReversed => levelInfo
  | .resetDone | .cmdRefused | .streamRunning | .warmRequest | .cameraIdle | .zoomClamped
  | .handoffAbandoned | .handoffAborted | .frozenExit | .latencyWarn | .degradeEnter | .degradeExit
  | .calActive | .apertureWrite => levelNotice
  | .cmdOverrun | .streamStalled | .frameTorn | .handoffCut | .frozenEnter | .underrun | .fetchError
  | .calBad => levelFault
  | .eventForced => levelInfo

/-- An event of a kind with a fixed level (R174). -/
def Event.mk' (k : EventKind) (subject : Nat) (arg0 arg1 : Word) : Event :=
  ⟨k, k.level, subject, arg0, arg1⟩

/-- Whether an item of the output sequence is a record. -/
def OutItem.isRecord : OutItem → Bool
  | .record _ => true
  | .mirror   => false

/-- The output queue's count Q (R173). -/
def Report.queued (r : Report) : Nat := r.output.countP OutItem.isRecord

/-- The number of unacknowledged records (R173). -/
def Report.unacked (r : Report) : Nat := (r.writeIndex - r.ackIndex).toNat

/-- Whether the ring has room for one more record (R173). -/
def Report.hasRoom (r : Report) : Bool := r.queued < 4 && r.unacked + r.queued < 256

/-- The alert flag of the ring position of a sequence. -/
def Report.flagAt (r : Report) (seq : Nat) : Bool :=
  r.alertFlags[seq % 256]'(Nat.mod_lt _ (by decide))

/-- EVT_N is low while an unacknowledged position carries its alert flag (R178). -/
def Report.evtLow (r : Report) : Bool :=
  (List.range r.unacked).any fun i => r.flagAt (r.ackIndex.toNat + i)

/-- The level of the EVT_N pin, true for high (R178). -/
def State.evtN (s : State) : Bool := !s.report.evtLow

/-- Whether a mirror writing waits (R181). -/
def Report.mirrorWaiting (r : Report) : Bool := r.output.any fun i => !i.isRecord

/-- The alert mask flag of a kind (R179, R193): bit (code − 1). -/
def Report.alerts (r : Report) (k : EventKind) : Bool := r.mask.getLsbD (k.code - 1)

end Sys2Proof.Machine
end

