-- ==== Sys2Proof/Machine/Report.lean ====
section
/-! DEFINITION. The Report Unit's work: raising an event (R174), the pending-kind list (R175), the
grant of a record (R176), the acknowledge word (R144, R177), the mirror request (R181). -/

namespace Sys2Proof.Machine

/-- The record of a single event raised at time `now` (R172, R174). -/
def Event.toRecord (e : Event) (now : Word) : Record :=
  ⟨e.kind, e.level, e.subject, 1, now, now, e.arg0, e.arg1⟩

/-- An event folded into the pending entry of its kind (R175): the place, the first time and the kind
stay; the count rises up to 65,535, and the last event's fields replace the others. -/
def Record.fold (p : Record) (e : Event) (now : Word) : Record :=
  ⟨p.kind, e.level, e.subject, min 65535 (p.count + 1), p.first, now, e.arg0, e.arg1⟩

/-- An event that joins the pending-kind list (R175). -/
def joinPending (ps : List Record) (e : Event) (now : Word) : List Record :=
  if ps.any (fun p => p.kind == e.kind) then
    ps.map fun p => if p.kind = e.kind then p.fold e now else p
  else ps ++ [e.toRecord now]

/-- A record joins the tail of the output queue (R174). -/
def Report.enqueue (r : Report) (rec : Record) : Report :=
  { r with output := r.output ++ [.record rec] }

/-- An event reaches the Report Unit (R174). -/
def Report.raise (r : Report) (now : Word) (e : Event) : Report :=
  if e.level < r.floor then r
  else if r.pendingKinds.isEmpty && r.hasRoom then r.enqueue (e.toRecord now)
  else { r with pendingKinds := joinPending r.pendingKinds e now }

/-- The given pending entries move to the output queue while the ring has room, oldest first (R175);
those left become the pending-kind list. -/
def Report.moveEntries : List Record → Report → Report
  | [], r => { r with pendingKinds := [] }
  | p :: ps, r =>
    if r.hasRoom then Report.moveEntries ps (r.enqueue p) else { r with pendingKinds := p :: ps }

/-- The test for room after a grant of a record and after an acknowledge value taken (R175). -/
def Report.testRoom (r : Report) : Report := Report.moveEntries r.pendingKinds r

/-- The grant of the record write at the head of the output sequence (R176). -/
def Report.grantRecord (r : Report) (rec : Record) : Report :=
  Report.testRoom
    { r with
      writeIndex := r.writeIndex + 1
      alertFlags := r.alertFlags.set (r.writeIndex.toNat % 256) (r.alerts rec.kind)
        (Nat.mod_lt _ (by decide))
      output := r.output.tail }

/-- The grant of a mirror writing at the head of the output sequence (R181). -/
def Report.grantMirror (r : Report) : Report :=
  { r with mirrorCount := r.mirrorCount + 1, output := r.output.tail }

/-- A request for a mirror writing (R181): merged into a waiting one, else placed behind the records
now in the output queue. -/
def Report.requestMirror (r : Report) : Report :=
  if r.mirrorWaiting then r else { r with output := r.output ++ [.mirror] }

/-- The index that the acknowledge copy offers (R177): bytes 0800h and 0801h, the first the less
significant. -/
def Report.offered (r : Report) : Half :=
  BitVec.ofNat 16 (r.ackCopy[0].toNat + 256 * r.ackCopy[1].toNat)

/-- A new acknowledge value is compared with the indices (R177). -/
def Report.takeAck (r : Report) : Report :=
  let n := r.offered
  let behind := (r.ackIndex - n).toNat
  if 1 ≤ behind ∧ behind ≤ 256 then r
  else if (n - r.ackIndex).toNat ≤ (r.writeIndex - r.ackIndex).toNat then
    Report.testRoom { r with ackIndex := n }
  else Report.testRoom { r with ackIndex := r.writeIndex }

/-- The bytes of the acknowledge word that one write copies, each with its offset 0 to 3 in the word;
they replace those bytes of the copy, and a copy of at least one byte is a new value (R144). DESIGN CHOICE:
a write of bytes 0802h or 0803h alone, while the copy's index differs from the acknowledged one (it was
clamped or ignored, and the write index has risen since), is compared by the table of R177 and may be
taken or clamped anew, although the rule's last sentence has it "taken without change". Log entry 43. -/
def Report.copyAck (r : Report) (bytes : List (Fin 4 × Byte)) : Report :=
  if bytes.isEmpty then r
  else
    Report.takeAck
      { r with ackCopy := bytes.foldl (fun c b => c.set b.1.val b.2 b.1.isLt) r.ackCopy }

/-- An event raised by a block within a step (R174). During a reset and initialization the Report Unit
takes no event (R183). -/
def State.raise (s : State) (e : Event) : State :=
  if s.phase = .running then { s with report := s.report.raise s.timeBase e } else s

/-- Events raised in order within one step (R174). -/
def State.raiseAll (s : State) (es : List Event) : State := es.foldl State.raise s

/-- The Report Unit is asked to write the status mirror (R181). -/
def State.requestMirror (s : State) : State := { s with report := s.report.requestMirror }

end Sys2Proof.Machine
end

