-- ==== Sys2Proof/Machine/Frames.lean ====
section
/-! DEFINITION. The frame pool of one source (chapter 1): store sizes and bases, the ring map and
translation (R9, R10), frame open (R14 to R17), progress and close (R19 to R21), statistics (R24 to
R26), pins (R22, R23), source states after a close (R28), and the watchdog (R27). -/

namespace Sys2Proof.Machine

/-- The store size of a source: H × stride rounded up to 4 KiB (R3). -/
def SourceRecord.storeSize (r : SourceRecord) : Nat := roundUpPage (r.height * r.stride)

/-- The base of store `p`: a position base, or a spare base for `p` at or above R (R3). -/
def SourceRecord.storeBase (r : SourceRecord) (p : Nat) : Nat :=
  ((r.posBases ++ r.spareBases)[p]?).getD 0

/-- The number of frame stores, R + S (R3). -/
def SourceRecord.storeCount (r : SourceRecord) : Nat := r.positions + r.spares

/-- The ranges of a source's windows and stores (R4). Window `p` and store `p` coincide. -/
def SourceRecord.ranges (r : SourceRecord) : List (Nat × Nat) :=
  (r.posBases ++ r.spareBases).map fun b => (b, r.storeSize)

/-- The offset of the last active byte of a frame (R20). -/
def SourceRecord.lastActive (r : SourceRecord) : Nat := (r.height - 1) * r.stride + 4 * r.width - 1

/-- Whether the byte at a window offset is an active byte of the frame (R19). -/
def SourceRecord.activeByte (r : SourceRecord) (off : Nat) : Bool :=
  off / r.stride < r.height && off % r.stride < 4 * r.width

/-- The whole active frame (R24). -/
def SourceRecord.wholeFrame (r : SourceRecord) : Rect := ⟨0, 0, r.width - 1, r.height - 1⟩

/-- The identity ring map (R5). -/
def identityMap (positions : Nat) : List Nat := List.range positions

/-- The pin count of store `p`; 0 when the source has no such store. -/
def Source.pinsOf (src : Source) (p : Nat) : Nat := ((src.stores[p]?).map FrameStore.pins).getD 0

/-- Whether store `p` is in the given state. -/
def Source.storeIs (src : Source) (p : Nat) (st : StoreState) : Bool :=
  (src.stores[p]?).any fun x => x.state == st

/-- The address that offset `off` of the window of position `k` translates to (R10). -/
def Source.translate (src : Source) (k off : Nat) : Option Nat :=
  match src.record, src.ringMap[k]? with
  | some r, some p => some (r.storeBase p + off)
  | _, _ => none

/-- The distance of a close order behind the READY close count, modulo 2³² (R13). -/
def Source.behind (src : Source) (o : Word) : Nat := (src.readyCount - o).toNat

/-- The numbers of the READY stores with their distance behind the count. -/
def Source.readyStores (src : Source) : List (Nat × Nat) :=
  (List.range src.stores.length).filterMap fun p =>
    match src.stores[p]? with
    | some st =>
      if st.state = .ready then st.closeOrder.map fun o => (p, src.behind o) else none
    | none => none

/-- The candidate, a store with its distance, at the smallest distance (R13). Of two at the same distance a
free value takes one. Log entry 46, DESIGN CHOICE. -/
def leastSecond : List (Nat × Nat) → Option (Nat × Nat)
  | [] => none
  | x :: xs =>
    match leastSecond xs with
    | some y =>
      if y.2 < x.2 ∨ (y.2 = x.2 ∧ Config.newerOfEqual y.1 x.1 = true) then some y else some x
    | none => some x

/-- The newest READY store of a source (R13). -/
def Source.newestReady (src : Source) : Option Nat := (leastSecond src.readyStores).map Prod.fst

/-- A source is available when it is RUNNING and has a READY store (R60). -/
def Source.available (src : Source) : Bool :=
  src.state == .running && src.stores.any fun st => st.state == .ready

/-- A store cleared to FREE: no torn mark, nothing landed, accumulators cleared, no close order (R6,
R23). Its pin count and its rectangle stay. -/
def FrameStore.freed (st : FrameStore) : FrameStore :=
  { st with state := .free, torn := false, closeOrder := none, landed := 0, inner := .zero,
            full := .zero }

/-- A store of a new frame-store table (R5). Its rectangle is read only while it is FILLING, after an
open has latched one; log entry 10. -/
def FrameStore.fresh (rect : Rect) : FrameStore :=
  { state := .free, pins := 0, torn := false, closeOrder := none, landed := 0, inner := .zero,
    full := .zero, rect }

/-- A store opened for a new frame (R15, R17). -/
def FrameStore.opened (rect : Rect) (torn : Bool) (st : FrameStore) : FrameStore :=
  { state := .filling, pins := st.pins, torn, closeOrder := none, landed := 0, inner := .zero,
    full := .zero, rect }

/-- A store closed SHORT (R21). -/
def FrameStore.closedShort (st : FrameStore) : FrameStore :=
  { st with state := .short, torn := false, closeOrder := none }

/-- A store closed READY with its close order (R20). -/
def FrameStore.closedReady (order : Word) (st : FrameStore) : FrameStore :=
  { st with state := .ready, torn := false, closeOrder := some order }

/-! ### Statistics (R24 to R26) -/

/-- One pixel added to an accumulator, its sums and its count held at their limits (R24, R25). -/
def Accum.add (a : Accum) (y cb cr : Byte) : Accum :=
  { sumY := min (2 ^ 40 - 1) (a.sumY + y.toNat)
    sumCb := min (2 ^ 40 - 1) (a.sumCb + cb.toNat)
    sumCr := min (2 ^ 40 - 1) (a.sumCr + cr.toNat)
    count := min (2 ^ 32 - 1) (a.count + 1) }

/-- The mean of a sum over a count, unsigned 8.8, by the formula of R26 and R115. DESIGN CHOICE: once a
count has stopped at 2³² − 1 while its sum still rises to 2⁴⁰ − 1 (R24), the formula gives up to 65,536,
above the 65,280 that both rules name as the top; the formula is followed. Log entry 42. -/
def meanOf (sum count : Nat) : Nat := if count = 0 then 0 else (256 * sum + count / 2) / count

/-- Whether a rectangle holds a pixel (R25). An empty rectangle holds none. -/
def Rect.holds (r : Rect) (col row : Nat) : Bool :=
  r.x0 ≤ col && col ≤ r.x1 && r.y0 ≤ row && row ≤ r.y1

/-- The INNER rectangle that source `i` latches at a frame open (R24): the active set's rectangle with
its far bounds limited to the active frame, or the whole active frame when there is none. -/
def latchRect (active : Option CalSet) (i : Fin 4) (r : SourceRecord) : Rect :=
  match active with
  | some c =>
    if i.val < c.count then
      match (c.sources[i.val]?).bind CalSource.rect with
      | some q => ⟨q.x0, q.y0, min q.x1 (r.width - 1), min q.y1 (r.height - 1)⟩
      | none => r.wholeFrame
    else r.wholeFrame
  | none => r.wholeFrame

/-- The pixels that a write gives whole within one beat, each with the index of its Y byte in the
write (R25). `off` is the window offset of the write's first byte. -/
def wholePixels (off : Nat) (w : WriteReq) : List (Nat × Byte × Byte × Byte) :=
  (List.range w.data.length).filterMap fun i =>
    if (off + i) % 4 = 0 ∧ i % 16 + 2 < 16 then
      match w.strobes[i]?, w.strobes[i + 1]?, w.strobes[i + 2]?,
            w.data[i]?, w.data[i + 1]?, w.data[i + 2]? with
      | some true, some true, some true, some y, some cb, some cr => some (i, y, cb, cr)
      | _, _, _, _, _, _ => none
    else none

/-- One whole pixel added to a store's accumulators (R25). -/
def FrameStore.addPixel (r : SourceRecord) (off : Nat) (st : FrameStore)
    (px : Nat × Byte × Byte × Byte) : FrameStore :=
  let o := off + px.1
  let row := o / r.stride
  let col := o % r.stride / 4
  if col < r.width ∧ row < r.height then
    let st := { st with full := st.full.add px.2.1 px.2.2.1 px.2.2.2 }
    if st.rect.holds col row then
      { st with inner := st.inner.add px.2.1 px.2.2.1 px.2.2.2 }
    else st
  else st

/-- The active bytes that a write lands, at window offset `off` (R19). -/
def landedBy (r : SourceRecord) (off : Nat) (w : WriteReq) : Nat :=
  (List.range w.strobes.length).countP fun i =>
    w.strobes[i]? == some true && r.activeByte (off + i)

/-- The progress count and the statistics of a write to a FILLING store (R19, R25). -/
def FrameStore.progress (r : SourceRecord) (off : Nat) (w : WriteReq) (st : FrameStore) : FrameStore :=
  let st := { st with landed := min (2 ^ 32 - 1) (st.landed + landedBy r off w) }
  (wholePixels off w).foldl (FrameStore.addPixel r off) st

/-- Whether a write's strobes include the last active byte (R20). -/
def coversLast (r : SourceRecord) (off : Nat) (w : WriteReq) : Bool :=
  off ≤ r.lastActive && w.strobes[r.lastActive - off]? == some true

/-! ### Frame open and close -/

/-- FRAME_SHORT for a store (R21, R195). -/
def frameShortEvent (i : Fin 4) (p landed : Nat) : Event :=
  .mk' .frameShort i.val (argWord p) (argWord landed)

/-- A SHORT close of store `p` (R21); in STALLED it resets the recovery run (R28). -/
def Source.closeShort (src : Source) (p : Nat) : Source :=
  { src with
    stores := src.stores.modify p FrameStore.closedShort
    recoveryRun := if src.state = .stalled then 0 else src.recoveryRun }

/-- A store that is FILLING is first closed SHORT, with FRAME_SHORT (R14, R16). -/
def Source.shortenFilling (src : Source) (i : Fin 4) (p : Nat) : Source × List Event :=
  match src.stores[p]? with
  | some st =>
    if st.state = .filling then (src.closeShort p, [frameShortEvent i p st.landed]) else (src, [])
  | none => (src, [])

/-- The spares of a source: stores mapped to no position with pin count 0, lowest first (R16). -/
def Source.spareStores (src : Source) : List Nat :=
  (List.range src.stores.length).filter fun q => !src.ringMap.contains q && src.pinsOf q == 0

/-- Store `p` is opened (R15, R17). -/
def Source.openStore (src : Source) (p : Nat) (rect : Rect) (torn : Bool) : Source :=
  { src with stores := src.stores.modify p (FrameStore.opened rect torn) }

/-- A frame open on position `k` (R14 to R17). -/
def Source.frameOpen (src : Source) (i : Fin 4) (rect : Rect) (k : Nat) : Source × List Event :=
  match src.ringMap[k]? with
  | none => (src, [])
  | some p =>
    let (src, ep) := src.shortenFilling i p
    if src.pinsOf p = 0 then (src.openStore p rect false, ep)
    else
      match src.spareStores.head? with
      | some q =>
        let (src, eq) := src.shortenFilling i q
        let src := src.openStore q rect false
        ({ src with ringMap := src.ringMap.set k q },
          ep ++ eq ++
            [.mk' .storeRemapped i.val (argWord k) (argWord (p + 256 * q))])
      | none =>
        (src.openStore p rect true,
          ep ++ [.mk' .frameTorn i.val (argWord k) (argWord (p + 256 * src.pinsOf p))])

/-- The code of a source state (R191). -/
def SourceState.code : SourceState → Nat
  | .unset => 0
  | .off => 1
  | .waiting => 2
  | .running => 3
  | .stalled => 4

/-- STREAM_RUNNING (R28, R195). -/
def streamRunningEvent (i : Fin 4) (left : SourceState) (p : Nat) : Event :=
  .mk' .streamRunning i.val (argWord left.code) (argWord p)

/-- The source state's answer to a READY close of store `p` at time `now` (R28). -/
def Source.afterReady (src : Source) (i : Fin 4) (now : Word) (p : Nat) : Source × List Event :=
  match src.state with
  | .waiting =>
    ({ src with state := .running, watchdog := some now }, [streamRunningEvent i .waiting p])
  | .running => ({ src with watchdog := some now }, [])
  | .stalled =>
    if src.recoveryRun + 1 = 2 then
      ({ src with state := .running, watchdog := some now, recoveryRun := 0 },
        [streamRunningEvent i .stalled p])
    else ({ src with recoveryRun := src.recoveryRun + 1 }, [])
  | .unset | .off => (src, [])

/-- The close test of a write that covers the last active byte of FILLING store `p` (R20, R21). -/
def Source.closeStore (src : Source) (i : Fin 4) (now : Word) (r : SourceRecord) (p : Nat) :
    Source × List Event :=
  match src.stores[p]? with
  | none => (src, [])
  | some st =>
    if 4 * r.width * r.height ≤ st.landed then
      let count := src.readyCount + 1
      Source.afterReady
        { src with readyCount := count, stores := src.stores.modify p (FrameStore.closedReady count) }
        i now p
    else (src.closeShort p, [frameShortEvent i p st.landed])

/-- The progress count, statistics and close test of a write from the bound master, on the store
behind position `k` as it now stands (R11, R19 to R21, R25). -/
def Source.progress (src : Source) (i : Fin 4) (now : Word) (r : SourceRecord) (k off : Nat)
    (w : WriteReq) : Source × List Event :=
  match src.ringMap[k]? with
  | none => (src, [])
  | some p =>
    if src.storeIs p .filling then
      let src := { src with stores := src.stores.modify p (FrameStore.progress r off w) }
      if coversLast r off w then src.closeStore i now r p else (src, [])
    else (src, [])

/-- What a Source Tracker does with a write reported in the active window of position `k` at offset
`off` (R11): a write from the bound master is tested for a frame open (R14), counted, gathered into
the statistics, and tested for a close; a write from another master does none of these. -/
def Source.onWrite (src : Source) (i : Fin 4) (active : Option CalSet) (now : Word) (k off : Nat)
    (w : WriteReq) : Source × List Event :=
  match src.record with
  | none => (src, [])
  | some r =>
    if w.tag = r.tag then
      let (src, eo) :=
        if off = 0 then src.frameOpen i (latchRect active i r) k else (src, [])
      let (src, ep) := src.progress i now r k off w
      (src, eo ++ ep)
    else (src, [])

/-! ### Pins (R22, R23) -/

/-- A pin on store `p` (R22). -/
def Source.pin (src : Source) (p : Nat) : Source :=
  { src with stores := src.stores.modify p fun st => { st with pins := st.pins + 1 } }

/-- A release of store `p` (R22); the last release while the source is OFF frees the store (R23). -/
def Source.release (src : Source) (p : Nat) : Source :=
  { src with
    stores := src.stores.modify p fun st =>
      let st := { st with pins := st.pins - 1 }
      if st.pins = 0 ∧ src.state = .off then st.freed else st }

/-! ### The frame watchdog (R27) -/

/-- The watchdog timeout of a code, in ms (R27). -/
def watchdogMs : Nat → Nat
  | 0 => 25
  | 1 => 40
  | 2 => 60
  | 3 => 80
  | 4 => 120
  | 5 => 250
  | 6 => 500
  | _ => 1000

/-- The watchdog timeout of a source, in ms. -/
def Source.timeoutMs (src : Source) : Nat := (src.record.map fun r => watchdogMs r.watchdog).getD 0

/-- Whether the watchdog expires at time `now` (R27). -/
def Source.watchdogDue (src : Source) (now : Word) : Bool :=
  match src.watchdog with
  | some load => (src.state == .waiting || src.state == .running) &&
      1000 * src.timeoutMs ≤ elapsed now load
  | none => false

/-- The watchdog's expiry (R27). -/
def Source.stall (src : Source) (i : Fin 4) : Source × List Event :=
  ({ src with state := .stalled, watchdog := none, recoveryRun := 0 },
    [.mk' .streamStalled i.val (argWord src.state.code) (argWord src.timeoutMs)])

/-- A step of one Source Tracker with the events it raises. -/
def State.onSource (s : State) (i : Fin 4) (f : Source → Source × List Event) : State :=
  let (src, es) := f s.sources[i]
  State.raiseAll { s with sources := s.sources.set i.val src i.isLt } es

end Sys2Proof.Machine
end

