-- ==== Sys2Proof/Machine/Calibration.lean ====
section
/-! DEFINITION. The Calibration Store (chapter 2): what the active set gives a source or a pair (R31),
the default mapping (R32), the calibration state (R33), the start of a load (R34), the block's layout
(R198) and its checks (R36, R37), staging (R38) and activation (R39). -/

namespace Sys2Proof.Machine

/-! ### What the active set gives -/

/-- The record of source `i` in a set; none when `i` is uncalibrated (R31). -/
def calSource (active : Option CalSet) (i : Fin 4) : Option CalSource :=
  active.bind fun c => if i.val < c.count then c.sources[i.val]? else none

/-- Whether source `i` is calibrated (R31). -/
def calibrated (active : Option CalSet) (i : Fin 4) : Bool := active.any fun c => i.val < c.count

/-- The record of pair `p`; none when the pair does not exist (R60). -/
def pairRecord (active : Option CalSet) (p : Fin 3) : Option CalPair :=
  active.bind fun c => if p.val + 1 < c.count then c.pairs[p.val]? else none

/-- The floor of a source as the Zoom Controller and the Hand-off Controller use it (R48). -/
def floorOf (active : Option CalSet) (i : Fin 4) : Nat :=
  ((calSource active i).map CalSource.floor).getD 2048

/-- The default mapping of a source record, exact in units of 2⁻¹⁶ (R32). -/
def defaultMapping (r : SourceRecord) : CalSource :=
  { k := 16 * r.width
    oU := -32768
    oV := 32768 * (r.height - 1 : Int) - 24576 * r.width
    floor := 2048
    rect := none }

/-- The mapping of a source: the active set's when calibrated, else the default (R31). -/
def mappingOf (active : Option CalSet) (i : Fin 4) (r : SourceRecord) : CalSource :=
  (calSource active i).getD (defaultMapping r)

/-- The code of the calibration state (R33, R191): 0 NONE, 1 LOADING, 2 STAGED, 3 ACTIVE. -/
def CalStore.stateCode (c : CalStore) : Nat :=
  if c.load.isSome then 1 else if c.staged.isSome then 2 else if c.active.isSome then 3 else 0

/-! ### The block (R198) -/

/-- The size of the block header (R198). -/
def headerSize : Nat := 16

/-- The size that `count` source records and their pair records need (R37 code 2, R198). -/
def blockSize (count : Nat) : Nat := 16 + 24 * count + 12 * (count - 1)

/-- The INNER rectangle of the source record at offset `o` (R198). -/
def blockRect (bs : List Byte) (o : Nat) : Rect :=
  ⟨readLE bs (o + 16) 2, readLE bs (o + 18) 2, readLE bs (o + 20) 2, readLE bs (o + 22) 2⟩

/-- The record of source `i` in a block of `count` sources (R198). -/
def blockSource (bs : List Byte) (count i : Nat) : CalSource :=
  let o := 16 + 24 * i
  { k := readLE bs o 4
    oU := signed32 (readLE bs (o + 4) 4)
    oV := signed32 (readLE bs (o + 8) 4)
    floor := readLE bs (o + 12) 2
    rect := if i + 1 = count then none else some (blockRect bs o) }

/-- The record of pair `p` in a block of `count` sources (R198). -/
def blockPair (bs : List Byte) (count p : Nat) : CalPair :=
  let o := 16 + 24 * count + 12 * p
  { up := readLE bs o 2
    down := readLE bs (o + 2) 2
    margin := readLE bs (o + 4) 2
    step := readLE bs (o + 6) 2
    relax := readLE bs (o + 8) 1
    prepareLimit := readLE bs (o + 9) 1 }

/-- The calibrated source count field of a block (R198). -/
def blockCount (bs : List Byte) : Nat := readLE bs 7 1

/-- The CRC field of a block (R198). -/
def blockCrc (bs : List Byte) : Word := BitVec.ofNat 32 (readLE bs 2 4)

/-- The set that a block holds (R198). -/
def blockSet (bs : List Byte) : CalSet :=
  let c := blockCount bs
  { count := c
    crc := blockCrc bs
    sources := (List.range c).map (blockSource bs c)
    pairs := (List.range (c - 1)).map (blockPair bs c) }

/-! ### The checks -/

/-- A failed load's reason, detail and subject (R38). -/
structure LoadFailure where
  reason  : Nat
  detail  : Word
  subject : Nat
deriving DecidableEq, Repr

/-- The code of the reason IDENT (R195). -/
def reasonIdent : Nat := 1
/-- The code of the reason CRC (R195). -/
def reasonCrc : Nat := 2
/-- The code of the reason RANGE (R195). -/
def reasonRange : Nat := 3
/-- The code of the reason MEMORY (R195). -/
def reasonMemory : Nat := 4

/-- The header checks, then the CRC (R36). -/
def checkHeader (bs : List Byte) (length : Nat) : Option LoadFailure :=
  if readLE bs 0 2 ≠ 0x5A4C then some ⟨reasonIdent, 1, 0⟩
  else if readLE bs 6 1 ≠ 1 then some ⟨reasonIdent, 2, 0⟩
  else if readLE bs 8 2 ≠ length then some ⟨reasonIdent, 3, 0⟩
  else
    let crc := crc32 ((bs.take length).drop 6)
    if crc ≠ blockCrc bs then some ⟨reasonCrc, crc, 0⟩ else none

/-- The first index below `n`, ascending, at which check `code` fails; its subject is that index plus
`shift` (R37). -/
def firstFailing (code n shift : Nat) (bad : Nat → Bool) : Option (Nat × Nat) :=
  ((List.range n).find? bad).map fun i => (code, i + shift)

/-- Whether an INNER rectangle lies within the frame of a source that has a record (R37 code 8). -/
def Rect.within (q : Rect) (r : SourceRecord) : Bool :=
  q.x0 < r.width && q.x1 < r.width && q.y0 < r.height && q.y1 < r.height

/-- The record of source number `i` when it has one. -/
def recordOf (sources : Vector Source 4) (i : Nat) : Option SourceRecord :=
  if h : i < 4 then sources[i].record else none

/-- The range checks in the order of their codes, each giving its code and subject (R37). -/
def rangeChecks (c : CalSet) (length : Nat) (sources : Vector Source 4) :
    List (Option (Nat × Nat)) :=
  let floor := fun i => ((c.sources[i]?).map CalSource.floor).getD 0
  let rect := fun i => (c.sources[i]?).bind CalSource.rect
  let pair := fun (f : CalPair → Nat) i => ((c.pairs[i]?).map f).getD 0
  let n := c.count
  let m := c.count - 1
  [ if n < 1 ∨ 4 < n then some (1, 0) else none,
    if length < blockSize n then some (2, 0) else none,
    firstFailing 3 n 0 fun i => (c.sources[i]?).any fun x => x.k == 0,
    if floor 0 < 1024 then some (4, 0) else none,
    firstFailing 5 n 0 fun i => 24576 < floor i,
    firstFailing 6 m 1 fun i => floor (i + 1) ≤ floor i,
    firstFailing 7 n 0 fun i => (rect i).any fun q => q.x1 < q.x0 || q.y1 < q.y0,
    firstFailing 8 n 0 fun i => (rect i).any fun q => (recordOf sources i).any fun r => !q.within r,
    firstFailing 9 m 0 fun i => pair CalPair.down i < floor (i + 1),
    firstFailing 10 m 0 fun i => pair CalPair.up i ≤ pair CalPair.down i,
    firstFailing 11 m 0 fun i => pair CalPair.up i - pair CalPair.down i < pair CalPair.margin i,
    firstFailing 12 m 0 fun i => 24576 < pair CalPair.up i,
    firstFailing 13 m 0 fun i => pair CalPair.step i < 1 || 256 < pair CalPair.step i,
    firstFailing 14 m 0 fun i => pair CalPair.relax i < 1 || 64 < pair CalPair.relax i,
    firstFailing 15 m 0 fun i => pair CalPair.prepareLimit i < 1 || 255 < pair CalPair.prepareLimit i ]

/-- The first failing range check (R37). Past a bad count (codes 1 and 2) no later check is made. -/
def checkRange (bs : List Byte) (length : Nat) (sources : Vector Source 4) : Option LoadFailure :=
  ((rangeChecks (blockSet bs) length sources).findSome? id).map fun f =>
    ⟨reasonRange, argWord f.1, f.2⟩

/-- Everything that may fail a load that has ended, in the order of R35 to R37. -/
def checkLoad (l : Load) (sources : Vector Source 4) : Option LoadFailure :=
  match l.error with
  | some o => some ⟨reasonMemory, argWord o, 0⟩
  | none => (checkHeader l.buffer l.length).or (checkRange l.buffer l.length sources)

/-- CAL_BAD (R38, R195). -/
def calBadEvent (f : LoadFailure) : Event := .mk' .calBad f.subject (argWord f.reason) f.detail

/-- The end of a load: its block is staged, or CAL_BAD is raised and the sets stay (R38). -/
def CalStore.endLoad (c : CalStore) (sources : Vector Source 4) : CalStore × List Event :=
  match c.load with
  | none => (c, [])
  | some l =>
    match checkLoad l sources with
    | some f => ({ c with load := none }, [calBadEvent f])
    | none => ({ c with load := none, staged := some (blockSet l.buffer) }, [])

/-! ### A load in flight (R34, R35) -/

/-- The load in flight that CAL_LOAD starts for the block at `addr` (R34, R35). -/
def Load.start (addr length : Nat) : Load :=
  { addr, length
    buffer := List.replicate length 0
    todo := readsFor addr (addr + length - 1)
    owed := 0
    error := none }

/-- The lowest offset within the block of the bytes that a read asked for (R35). -/
def Load.offsetOf (l : Load) (sp : Span) : Nat := max sp.addr l.addr - l.addr

/-- A response to one read of the load arrives: its bytes are placed, or its ERROR noted (R35). -/
def Load.respond (l : Load) (sp : Span) (m : MemResp) : Load :=
  match m.code with
  | .okay =>
    { l with owed := l.owed - 1, buffer := placeBytes l.addr l.buffer sp.addr m.data }
  | .error =>
    { l with owed := l.owed - 1
             error := some (min (l.offsetOf sp) (l.error.getD (l.offsetOf sp))) }

/-- Whether responses for all of the load's requests have arrived (R35). -/
def Load.ended (l : Load) : Bool := l.todo.isEmpty && l.owed == 0

/-! ### Activation (R39) -/

/-- Whether the hand-off state lets a staged set be activated (R39). -/
def HandoffState.allowsActivation : HandoffState → Bool
  | .settled | .frozen => true
  | .prepare .. | .blend .. => false

/-- Every warm-request arming flag armed again (R39, R62). -/
def Handoff.rearmAll (h : Handoff) : Handoff :=
  { h with armUp := Vector.replicate 3 true, armDown := Vector.replicate 3 true }

/-- The activation stage of a lead frame opening (R39). -/
def State.activationStage (s : State) : State :=
  match s.cal.staged with
  | some c =>
    if s.handoff.state.allowsActivation then
      State.raise
        { s with
          cal := { s.cal with active := some c, staged := none }
          handoff := s.handoff.rearmAll }
        (.mk' .calActive 0 (argWord c.count) c.crc)
    else s
  | none => s

end Sys2Proof.Machine
end

