-- ==== Sys2Proof/Machine/Pixel.lean ====
section
/-! DEFINITION. Pixel arithmetic (chapter 6) and the pan clamp (section 3.5): coverage boxes (R54), the
effective centre (R55), plan geometry (R105, R106), source positions and their limits (R107, R108),
the rows an output row needs (R109), segments (R117), interpolation, correction and blend (R110 to
R112), and the matching arithmetic (R71, R72, R115). -/

namespace Sys2Proof.Machine

/-! ### The pan clamp (R54, R55) -/

/-- A coverage box in scene units, exact (R54). -/
structure Box where
  xLo : ℚ
  xHi : ℚ
  yLo : ℚ
  yHi : ℚ

/-- The coverage box of a source with mapping `m` (R54). The factors 2⁻¹⁶ of `k`, `oU` and `oV` cancel
but for the frame's size. -/
def coverageBox (m : CalSource) (r : SourceRecord) : Box :=
  { xLo := (0 - (m.oU : ℚ)) / m.k
    xHi := ((r.width - 1) * 65536 - (m.oU : ℚ)) / m.k
    yLo := (0 - (m.oV : ℚ)) / m.k
    yHi := ((r.height - 1) * 65536 - (m.oV : ℚ)) / m.k }

/-- The intersection of two boxes (R54). -/
def Box.inter (a b : Box) : Box :=
  ⟨max a.xLo b.xLo, min a.xHi b.xHi, max a.yLo b.yLo, min a.yHi b.yHi⟩

/-- The width of scene that an output at zoom code `z` shows, in scene units (R55). -/
def spanOf (z : Nat) : ℚ := 4096 * 2048 / z

/-- One coordinate of the effective centre (R55): `c` limited to the box's interval drawn in by the
half extent, or the midpoint when that interval is empty. -/
def clampCentre (c lo hi half : ℚ) : ℚ :=
  if lo + half ≤ hi - half then max (lo + half) (min c (hi - half)) else (lo + hi) / 2

/-- A rounded coordinate held in signed 16.16 form (R55, step 5). One outside the form is a free value of
that form; log entry 39. -/
def holdFixed (i : Int) : Int :=
  if -(2 ^ 31) ≤ i ∧ i < 2 ^ 31 then i else (Config.wideCentre i).toInt

/-- The effective centre in units of 2⁻¹⁶, in signed 16.16 form (R55). -/
def effectiveCentre (z width height : Nat) (panX panY : Int) (box : Option Box) : Int × Int :=
  match box with
  | none => (panX, panY)
  | some b =>
    let hx := spanOf z * (width - 1) / (2 * width)
    let hy := spanOf z * (height - 1) / (2 * width)
    (holdFixed (roundAway (65536 * clampCentre (panX / 65536) b.xLo b.xHi hx)),
      holdFixed (roundAway (65536 * clampCentre (panY / 65536) b.yLo b.yHi hy)))

/-! ### Plan geometry (R105, R106, R117) -/

/-- The exact step in source pixels (R105). -/
def exactStep (m : CalSource) (z width : Nat) : ℚ := (m.k / 65536) * spanOf z / width

/-- The held step, in units of 2⁻¹⁶ (R105). -/
def heldStep (m : CalSource) (z width : Nat) : Nat := (roundAway (65536 * exactStep m z width)).toNat

/-- A held origin in units of 2⁻¹⁶ (R106): for the column from `oU`, the centre's x and Wo, for the row
from `oV`, the centre's y and Ho. -/
def heldOrigin (m : CalSource) (o centre : Int) (z width extent : Nat) : Int :=
  roundAway
    (65536 *
      ((o : ℚ) / 65536 + (m.k / 65536) * ((centre : ℚ) / 65536)
        - exactStep m z width * (extent - 1) / 2))

/-- A source coordinate limited to columns or rows 0 to `n` − 1 (R117). -/
def limitTo (i : Int) (n : Nat) : Nat := min i.toNat (n - 1)

/-- The geometry and segment of a side (R104 to R106, R117). -/
def sideGeometry (src : Fin 4) (store : Nat) (corr : Correction) (m : CalSource) (r : SourceRecord)
    (z width height : Nat) (centre : Int × Int) : SidePlan :=
  let step := heldStep m z width
  let u0 := heldOrigin m m.oU centre.1 z width width
  let v0 := heldOrigin m m.oV centre.2 z width height
  { source := src, store, step, u0, v0, corr
    cmin := limitTo (u0 / 65536) r.width
    cmax := limitTo ((u0 + (width - 1 : Int) * step) / 65536 + 1) r.width }

/-! ### Source positions (R107, R108) -/

/-- A source position on one axis after the limits of R108. -/
structure AxisPos where
  cell : Nat
  frac : Nat
  next : Nat
deriving DecidableEq, Repr

/-- The position of output coordinate `x` on one axis, limited to `n` source cells (R107, R108). -/
def axisPos (origin : Int) (step x n : Nat) : AxisPos :=
  let q := origin + (x : Int) * step
  let i := q / 65536
  if i < 0 then ⟨0, 0, 1⟩
  else if (n : Int) - 1 ≤ i then ⟨n - 1, 0, n - 1⟩
  else ⟨i.toNat, (q % 65536 / 256).toNat, i.toNat + 1⟩

/-- The source rows that output row `y` needs from a side, lower first (R109). -/
def SidePlan.rows (p : SidePlan) (height y : Nat) : List Nat :=
  let a := axisPos p.v0 p.step y height
  if a.next = a.cell then [a.cell] else [a.cell, a.next]

/-! ### Interpolation, correction, blend (R110 to R112) -/

/-- Interpolation of four samples by the fractions `fu` and `fv` (R110). -/
def interpolate (p00 p01 p10 p11 fu fv : Nat) : Nat :=
  let top := p00 * (256 - fu) + p01 * fu
  let bot := p10 * (256 - fu) + p11 * fu
  (top * (256 - fv) + bot * fv + 32768) / 65536

/-- The corrected Y (R111). -/
def correctY (gain y : Nat) : Nat := min 255 ((y * gain + 128) / 256)

/-- A corrected chroma value (R111). -/
def correctC (d : Int) (c : Nat) : Nat := (clampInt (c + d) 0 255).toNat

/-- The correction of a channel: 0 is Y, 1 is Cb, 2 is Cr (R86, R111). -/
def Correction.apply (k : Correction) (channel v : Nat) : Nat :=
  match channel with
  | 0 => correctY k.gain v
  | 1 => correctC k.dCb v
  | _ => correctC k.dCr v

/-- The mix of the two sides' corrected values by the plan's weight (R112). -/
def mixSides (a b w : Nat) : Nat := (a * (256 - w) + b * w + 128) / 256

/-- A side's corrected value of channel `ch` at output pixel (`x`, `y`), with `sample row column` the
source samples (R107 to R111). A column outside the segment, which R117 says enters with weight 0, is
taken at the segment's nearest column. -/
def SidePlan.value (p : SidePlan) (r : SourceRecord) (sample : Nat → Nat → Nat) (x y ch : Nat) : Nat :=
  let h := axisPos p.u0 p.step x r.width
  let v := axisPos p.v0 p.step y r.height
  let col := fun c => clampNat c p.cmin p.cmax
  p.corr.apply ch
    (interpolate (sample v.cell (col h.cell)) (sample v.cell (col h.next))
      (sample v.next (col h.cell)) (sample v.next (col h.next)) h.frac v.frac)

/-! ### Matching (R70 to R72, R115) -/

/-- The to gain from the two Y means and the from gain (R71, R115). -/
def matchGain (gf yf yt : Nat) : Nat :=
  if yt = 0 then (if yf = 0 then 256 else 512)
  else clampNat ((2 * gf * yf + yt) / (2 * yt)) 128 512

/-- A chroma step from a difference of means, halves away from zero (R72, R115). -/
def chromaStep (d : Int) : Int := if 0 ≤ d then (d + 128) / 256 else -((-d + 128) / 256)

/-- A to offset from the from offset and the two means (R72, R115). -/
def matchOffset (df : Int) (cf ct : Nat) : Int := clampInt (df + chromaStep ((cf : Int) - ct)) (-32) 32

/-- The to correction from the two windows' accumulators and the from correction (R70 to R72). -/
def matchCorrection (kf : Correction) (af at' : Accum) : Correction :=
  { gain := matchGain kf.gain (meanOf af.sumY af.count) (meanOf at'.sumY at'.count)
    dCb := matchOffset kf.dCb (meanOf af.sumCb af.count) (meanOf at'.sumCb at'.count)
    dCr := matchOffset kf.dCr (meanOf af.sumCr af.count) (meanOf at'.sumCr at'.count) }

end Sys2Proof.Machine
end

