-- ==== Sys2Proof/Machine/Handoff.lean ====
section
/-! DEFINITION. The Hand-off Controller's stage in a lead frame opening (chapter 4): band tests (R61,
R62), the transition of each state (R64 to R76), relax (R77) and warm requests (R63). -/

namespace Sys2Proof.Machine

/-- The store that a side on source `i` takes (R96): the source's newest READY store, else the store
that the plan about to be retired names for that source. -/
def Plan.storeFor (p : Plan) (i : Fin 4) : Option Nat :=
  match p.fromSide with
  | some a =>
    if a.source = i then some a.store
    else (p.toSide.filter fun b => b.source == i).map SidePlan.store
  | none => (p.toSide.filter fun b => b.source == i).map SidePlan.store

/-- The store choice of R96 for source `i`. It serves every plan, one latched after an exit from FROZEN too: R76
says that a source with no READY store then gives plans with no side, which is taken of a source for which the
retiring plan has no store either. Log entry 45, DEDUCED. -/
def chooseStore (sources : Vector Source 4) (retiring : Option Plan) (i : Fin 4) : Option Nat :=
  (sources[i].newestReady).or (retiring.bind fun p => p.storeFor i)

/-! ### Pairs -/

/-- The narrower source of a pair. -/
def pairHigh (p : Fin 3) : Fin 4 := p.succ

/-- The wider source of a pair. -/
def pairLow (p : Fin 3) : Fin 4 := p.castSucc

/-- The source a hand-off on pair `p` moves to (R57). -/
def toOf (p : Fin 3) : PairDir → Fin 4
  | .up => pairHigh p
  | .down => pairLow p

/-- The source a hand-off on pair `p` leaves (R57). -/
def fromOf (p : Fin 3) : PairDir → Fin 4
  | .up => pairLow p
  | .down => pairHigh p

/-- The to-source, present in PREPARE and BLEND (R57). -/
def Handoff.toSrc (h : Handoff) : Option (Fin 4) :=
  match h.state with
  | .prepare p d _ | .blend p d _ => some (toOf p d)
  | .settled | .frozen => none

/-- The sources that the hand-off state names (R57). -/
def Handoff.named (h : Handoff) : List (Fin 4) := h.fromSrc :: h.toSrc.toList

/-- The pair that leads up from source `f`. -/
def pairAbove (f : Fin 4) : Option (Fin 3) := if h : f.val < 3 then some ⟨f.val, h⟩ else none

/-- The pair that leads down from source `f`. -/
def pairBelow (f : Fin 4) : Option (Fin 3) := if f.val = 0 then none else some ⟨f.val - 1, by omega⟩

/-- What the controller reads at its stage: the proposed zoom, the active set, the sources, and the
plan that the lead view is about to retire (R59, R70). -/
structure StageInput where
  z        : Nat
  active   : Option CalSet
  sources  : Vector Source 4
  retiring : Option Plan

/-- Whether source `i` is RUNNING. -/
def StageInput.runs (n : StageInput) (i : Fin 4) : Bool := n.sources[i].state == .running

/-- Whether source `i` is available (R60). -/
def StageInput.avail (n : StageInput) (i : Fin 4) : Bool := n.sources[i].available

/-- The record of a pair under the active set; none when the pair does not exist (R60). -/
def StageInput.pair (n : StageInput) (p : Fin 3) : Option CalPair := pairRecord n.active p

/-- The floor of a source (R48). -/
def StageInput.floor (n : StageInput) (i : Fin 4) : Nat := floorOf n.active i

/-! ### Step 1: band tests (R61, R62) -/

/-- Whether the zoom has left the up warm band of pair `p` downward, or the pair does not exist. -/
def StageInput.upBandLeft (n : StageInput) (p : Fin 3) : Bool :=
  match n.pair p with
  | some c => n.z < c.up - c.margin
  | none => true

/-- Whether the zoom has left the down warm band of pair `p` upward, or the pair does not exist. -/
def StageInput.downBandLeft (n : StageInput) (p : Fin 3) : Bool :=
  match n.pair p with
  | some c => c.down + c.margin ≤ n.z
  | none => true

/-- The band tests of one pair: suppression clears (R61), arming re-arms (R62). -/
def Handoff.bandTest (n : StageInput) (h : Handoff) (p : Fin 3) : Handoff :=
  let up := n.upBandLeft p
  let down := n.downBandLeft p
  { h with
    supUp := h.supUp.set p.val (h.supUp[p] && !up) p.isLt
    armUp := h.armUp.set p.val (h.armUp[p] || up) p.isLt
    supDown := h.supDown.set p.val (h.supDown[p] && !down) p.isLt
    armDown := h.armDown.set p.val (h.armDown[p] || down) p.isLt }

/-- Step 1 of the stage: the band tests of every pair (R59). -/
def Handoff.bandTests (n : StageInput) (h : Handoff) : Handoff :=
  ([0, 1, 2] : List (Fin 3)).foldl (Handoff.bandTest n) h

/-! ### Step 2: transitions -/

/-- Whether an up hand-off from `f` is desired in SETTLED (R60), and its pair. -/
def Handoff.upDesired (n : StageInput) (h : Handoff) : Option (Fin 3 × CalPair) :=
  (pairAbove h.fromSrc).bind fun p =>
    (n.pair p).bind fun c => if c.up ≤ n.z ∧ h.supUp[p] = false then some (p, c) else none

/-- Whether a down hand-off from `f` is desired in SETTLED (R60), and its pair. -/
def Handoff.downDesired (n : StageInput) (h : Handoff) : Option (Fin 3 × CalPair) :=
  (pairBelow h.fromSrc).bind fun p =>
    (n.pair p).bind fun c => if n.z < c.down ∧ h.supDown[p] = false then some (p, c) else none

/-- The desired hand-off: the up one when both are (R60). -/
def Handoff.desired (n : StageInput) (h : Handoff) : Option (Fin 3 × PairDir × CalPair) :=
  match h.upDesired n with
  | some (p, c) => some (p, .up, c)
  | none => (h.downDesired n).map fun x => (x.1, .down, x.2)

/-- The accumulator of a store that matching reads: the INNER one of the wider source, the FULL one
of the narrower (R70). -/
def FrameStore.matchWindow (st : FrameStore) (wider : Bool) : Accum :=
  if wider then st.inner else st.full

/-- The window that matching reads on source `i` (R70). -/
def StageInput.window (n : StageInput) (i : Fin 4) (wider : Bool) : Option Accum :=
  (chooseStore n.sources n.retiring i).bind fun p =>
    (n.sources[i].stores[p]?).map fun st => st.matchWindow wider

/-- The to correction by matching (R70 to R72). With no store for a side, it is the from correction. -/
def Handoff.matching (n : StageInput) (h : Handoff) (p : Fin 3) (d : PairDir) : Correction :=
  match n.window (fromOf p d) (d == .up), n.window (toOf p d) (d == .down) with
  | some af, some wt => matchCorrection h.fromCorr af wt
  | _, _ => h.fromCorr

/-- A blend starts on pair `p` (R69). -/
def Handoff.startBlend (n : StageInput) (h : Handoff) (p : Fin 3) (d : PairDir) (c : CalPair) :
    Handoff × List Event :=
  let k := h.matching n p d
  ({ h with state := .blend p d .forward, weight := c.step, toCorr := k },
    [.mk' .handoffStart p.val (argWord h.fromSrc.val) (argWord k.gain)])

/-- The code of the reason RESCUE of HANDOFF_CUT (R195). -/
def cutRescue : Nat := 1
/-- The code of the reason OUTGOING of HANDOFF_CUT (R195). -/
def cutOutgoing : Nat := 2

/-- A rescue to source `b` (R65): SETTLED, weight 0, neutral correction, no relax pair. -/
def Handoff.rescueTo (h : Handoff) (b : Fin 4) : Handoff × List Event :=
  ({ h with state := .settled, fromSrc := b, weight := 0, fromCorr := .neutral, toCorr := .neutral,
            relaxPair := none },
    [.mk' .handoffCut b.val (argWord cutRescue) (argWord h.fromSrc.val)])

/-- The code of a hand-off state (R191). -/
def HandoffState.code : HandoffState → Nat
  | .settled => 0
  | .prepare .. => 1
  | .blend .. => 2
  | .frozen => 3

/-- The state enters FROZEN (R75): the from-source, the weight and both corrections are kept. -/
def Handoff.freeze (h : Handoff) : Handoff × List Event :=
  ({ h with state := .frozen },
    [.mk' .frozenEnter h.fromSrc.val (argWord h.state.code)
      (argWord ((h.toSrc.map Fin.val).getD 255))])

/-- The source that a rescue takes: by R65 when the from-source is calibrated, else by R66. -/
def Handoff.rescueChoice (n : StageInput) (h : Handoff) : Option (Fin 4) :=
  let f := h.fromSrc
  if calibrated n.active f then
    let above := (nextUp f).filter fun i => n.runs i && decide (n.floor i ≤ n.z)
    let below := (nextDown f).filter fun i => n.runs i
    above.or below
  else ([0, 1, 2, 3] : List (Fin 4)).find? fun i => n.runs i && i != f

/-- A rescue from a from-source that is not RUNNING, or the entry into FROZEN when none qualifies
(R65, R66). -/
def Handoff.rescue (n : StageInput) (h : Handoff) : Handoff × List Event :=
  match h.rescueChoice n with
  | some b => h.rescueTo b
  | none => h.freeze

/-- The transition of SETTLED (R64 to R66). -/
def Handoff.stepSettled (n : StageInput) (h : Handoff) : Handoff × List Event :=
  if n.runs h.fromSrc then
    match h.desired n with
    | some (p, d, c) =>
      if n.avail (toOf p d) then h.startBlend n p d c
      else ({ h with state := .prepare p d 0 }, [])
    | none => (h, [])
  else h.rescue n

/-- The code of the reason CANCELLED of HANDOFF_ABANDONED (R195). -/
def abandonCancelled : Nat := 1
/-- The code of the reason TIMEOUT of HANDOFF_ABANDONED (R195). -/
def abandonTimeout : Nat := 2

/-- PREPARE ends without a blend: SETTLED on the from-source, its correction kept (R67, R68). -/
def Handoff.abandon (h : Handoff) (p : Fin 3) (d : PairDir) (reason : Nat) : Handoff × List Event :=
  ({ h with state := .settled, weight := 0 },
    [.mk' .handoffAbandoned p.val (argWord reason) (argWord (toOf p d).val)])

/-- The suppression flag of a pair and direction is set (R68). -/
def Handoff.suppress (h : Handoff) (p : Fin 3) : PairDir → Handoff
  | .up => { h with supUp := h.supUp.set p.val true p.isLt }
  | .down => { h with supDown := h.supDown.set p.val true p.isLt }

/-- Whether the desire of a hand-off under way in PREPARE is still present (R60). -/
def stillDesired (c : CalPair) (z : Nat) : PairDir → Bool
  | .up => c.up ≤ z
  | .down => z < c.down

/-- The transition of PREPARE (R67, R68). The pair of a PREPARE always exists, because no set is
activated in PREPARE (R39, R67); were it absent, its desire would be gone. -/
def Handoff.stepPrepare (n : StageInput) (h : Handoff) (p : Fin 3) (d : PairDir) (count : Nat) :
    Handoff × List Event :=
  if n.runs h.fromSrc then
    match n.pair p with
    | none => h.abandon p d abandonCancelled
    | some c =>
      if !stillDesired c n.z d then h.abandon p d abandonCancelled
      else if n.avail (toOf p d) then h.startBlend n p d c
      else if count + 1 = c.prepareLimit then (h.suppress p d).abandon p d abandonTimeout
      else ({ h with state := .prepare p d (count + 1) }, [])
  else if n.avail (toOf p d) then h.rescueTo (toOf p d)
  else h.rescue n

/-- The direction that a blend takes from the zoom (R74). -/
def blendMotion (c : CalPair) (z : Nat) (d : PairDir) (was : BlendDir) : BlendDir :=
  match d with
  | .up => if z < c.down then .reverse else if c.up ≤ z then .forward else was
  | .down => if c.up ≤ z then .reverse else if z < c.down then .forward else was

/-- The to-side becomes the from-side, its matched correction a residual on pair `p` (R73, R74). -/
def Handoff.settleOnTo (h : Handoff) (p : Fin 3) (d : PairDir) : Handoff :=
  { h with state := .settled, fromSrc := toOf p d, weight := 0, fromCorr := h.toCorr,
           toCorr := .neutral, relaxPair := some p }

/-- The from-side serves alone again, its correction kept (R73, R74). -/
def Handoff.settleOnFrom (h : Handoff) : Handoff :=
  { h with state := .settled, weight := 0, toCorr := .neutral }

/-- The weight after one step of a blend (R74). -/
def stepWeight (w step : Nat) : BlendDir → Nat
  | .forward => min 256 (w + step)
  | .reverse => w - step

/-- The transition of BLEND (R73, R74). The pair of a BLEND always exists (R39). -/
def Handoff.stepBlend (n : StageInput) (h : Handoff) (p : Fin 3) (d : PairDir) (motion : BlendDir) :
    Handoff × List Event :=
  let f := h.fromSrc
  let t := toOf p d
  if n.runs f ∧ n.runs t then
    match n.pair p with
    | none => (h, [])
    | some c =>
      let motion := blendMotion c n.z d motion
      let w := stepWeight h.weight c.step motion
      if motion = .forward ∧ w = 256 then
        (h.settleOnTo p d,
          [.mk' .handoffDone p.val (argWord f.val) (argWord t.val),
           .mk' .cameraIdle f.val (argWord p.val) (argWord t.val)])
      else if motion = .reverse ∧ w = 0 then
        (h.settleOnFrom, [.mk' .handoffReversed p.val (argWord f.val) (argWord t.val)])
      else ({ h with state := .blend p d motion, weight := w }, [])
  else if n.runs f then
    (h.settleOnFrom, [.mk' .handoffAborted p.val (argWord f.val) (argWord t.val)])
  else if n.runs t then
    (h.settleOnTo p d, [.mk' .handoffCut t.val (argWord cutOutgoing) (argWord f.val)])
  else h.freeze

/-- The source to which the part leaves FROZEN (R76). -/
def frozenChoice (n : StageInput) : Option (Fin 4) :=
  (([3, 2, 1, 0] : List (Fin 4)).find? fun i => n.runs i && decide (n.floor i ≤ n.z)).or
    (([0, 1, 2, 3] : List (Fin 4)).find? fun i => n.runs i)

/-- The transition of FROZEN (R76). -/
def Handoff.stepFrozen (n : StageInput) (h : Handoff) : Handoff × List Event :=
  match frozenChoice n with
  | some b =>
    ({ h with state := .settled, fromSrc := b, weight := 0, fromCorr := .neutral,
              toCorr := .neutral, relaxPair := none },
      [.mk' .frozenExit b.val (argWord (n.floor b)) (argWord n.z)])
  | none => (h, [])

/-- Step 2 of the stage: at most one transition (R59). -/
def Handoff.transition (n : StageInput) (h : Handoff) : Handoff × List Event :=
  match h.state with
  | .settled => h.stepSettled n
  | .prepare p d count => h.stepPrepare n p d count
  | .blend p d motion => h.stepBlend n p d motion
  | .frozen => h.stepFrozen n

/-! ### Step 3: relax (R77) -/

/-- A gain moved toward 256 by at most `step` (R77). -/
def relaxGain (g step : Nat) : Nat := if 256 < g then max 256 (g - step) else min 256 (g + step)

/-- An offset moved toward 0 by 1 (R77). -/
def relaxOffset (d : Int) : Int := if 0 < d then d - 1 else if d < 0 then d + 1 else 0

/-- A correction after one relax: the given gain, and each offset moved by 1 (R77). -/
def Correction.relaxed (k : Correction) (gain : Nat) : Correction :=
  ⟨gain, relaxOffset k.dCb, relaxOffset k.dCr⟩

/-- The from correction after one relax. A relax pair that no longer exists under the active set ends the
residual at once, its offsets with its gain (R77, R78); the bullets of R77 read alone would move the offsets
by 1 there. Log entry 40, DEDUCED. -/
def Handoff.relaxedCorr (n : StageInput) (h : Handoff) : Correction :=
  match h.relaxPair with
  | some p =>
    match n.pair p with
    | some c => h.fromCorr.relaxed (relaxGain h.fromCorr.gain c.relax)
    | none => .neutral
  | none => h.fromCorr.relaxed 256

/-- The from correction and the relax pair after one relax (R77). -/
def Handoff.relax (n : StageInput) (h : Handoff) : Handoff :=
  let k := h.relaxedCorr n
  { h with fromCorr := k, relaxPair := if k = .neutral then none else h.relaxPair }

/-! ### Step 4: warm requests (R63) -/

/-- The code of the direction up in WARM_REQUEST (R195). -/
def warmUp : Nat := 1
/-- The code of the direction down in WARM_REQUEST (R195). -/
def warmDown : Nat := 2

/-- The up warm request (R63). -/
def Handoff.warmAbove (n : StageInput) (h : Handoff) : Handoff × List Event :=
  match pairAbove h.fromSrc with
  | none => (h, [])
  | some p =>
    match n.pair p with
    | none => (h, [])
    | some c =>
      if h.armUp[p] ∧ c.up - c.margin ≤ n.z ∧ n.z < c.up then
        ({ h with armUp := h.armUp.set p.val false p.isLt },
          [.mk' .warmRequest (pairHigh p).val (argWord p.val) (argWord warmUp)])
      else (h, [])

/-- The down warm request (R63). -/
def Handoff.warmBelow (n : StageInput) (h : Handoff) : Handoff × List Event :=
  match pairBelow h.fromSrc with
  | none => (h, [])
  | some p =>
    match n.pair p with
    | none => (h, [])
    | some c =>
      if h.armDown[p] ∧ c.down ≤ n.z ∧ n.z < c.down + c.margin then
        ({ h with armDown := h.armDown.set p.val false p.isLt },
          [.mk' .warmRequest (pairLow p).val (argWord p.val) (argWord warmDown)])
      else (h, [])

/-- Step 4 of the stage: both warm requests, up first (R63). -/
def Handoff.warmRequests (n : StageInput) (h : Handoff) : Handoff × List Event :=
  let (h, eu) := h.warmAbove n
  let (h, ed) := h.warmBelow n
  (h, eu ++ ed)

/-- The controller's stage (R59): band tests, transition, relax, warm requests. -/
def Handoff.stage (n : StageInput) (h : Handoff) : Handoff × List Event :=
  let h := h.bandTests n
  let (h2, et) := h.transition n
  let h3 :=
    if h.state = .settled ∧ h2.state = .settled ∧ h2.fromSrc = h.fromSrc then h2.relax n else h2
  if h3.state = .settled then
    let (h4, ew) := h3.warmRequests n
    (h4, et ++ ew)
  else (h3, et)

end Sys2Proof.Machine
end

