-- ==== Sys2Proof/Machine/Zoom.lean ====
section
/-! DEFINITION. The Zoom Controller (chapter 3): ZOOM_SET (R44, R45), the advance (R47), the served
floor (R48), the floor clamp (R49), the floor hold (R50) and the reach report (R51). -/

namespace Sys2Proof.Machine

/-- The codes that reasons of ZOOM_CLAMPED carry (R195): RANGE. -/
def clampRange : Nat := 1
/-- The codes that reasons of ZOOM_CLAMPED carry (R195): FLOOR. -/
def clampFloor : Nat := 2

/-- ZOOM_CLAMPED with its two zoom codes in one word (R195). -/
def zoomClampedEvent (subject reason lo hi : Nat) : Event :=
  .mk' .zoomClamped subject (argWord reason) (argWord (lo + 65536 * hi))

/-- The pan target that ZOOM_SET carries, or none when its keep-pan flag is set (R44). -/
abbrev PanField := Option (Int × Int)

/-- The effect of a ZOOM_SET whose slew is in range (R44, R45). `lead` says whether some view is enabled:
without one, R52 has the command change only target, slew and pan target, which is read as the exception
to step 4 of R44, so the reach report stays (DEDUCED, log entry 38). A report that so stays armed under a
target equal to zoom current raises nothing later: `Zoom.clampStage` disarms it. -/
def Zoom.set (zm : Zoom) (lead : Bool) (code slew : Nat) (pan : PanField) : Zoom × List Event :=
  let taken := clampNat code 1024 24576
  let pan := pan.getD (zm.panX, zm.panY)
  ({ zm with target := taken, slew, panX := pan.1, panY := pan.2,
             reachArm := if lead then decide (taken ≠ zm.current) else zm.reachArm },
    if taken = code then [] else [zoomClampedEvent 0 clampRange code taken])

/-- The advance (R47): the proposed zoom. -/
def Zoom.proposed (zm : Zoom) : Nat :=
  if zm.slew = 0 then zm.target
  else if zm.current ≤ zm.target + zm.slew ∧ zm.target ≤ zm.current + zm.slew then zm.target
  else if zm.current < zm.target then zm.current + zm.slew
  else zm.current - zm.slew

/-- The floor source among the sources that a hand-off state names: the largest floor, the lower
number of two with the same (R48). -/
def floorSource (active : Option CalSet) (h : Handoff) : Fin 4 :=
  h.named.foldl
    (fun b i =>
      if floorOf active b < floorOf active i ∨ (floorOf active b = floorOf active i ∧ i < b) then i
      else b)
    h.fromSrc

/-- The served floor (R48). -/
def servedFloor (active : Option CalSet) (h : Handoff) : Nat := floorOf active (floorSource active h)

/-- The floor clamp, the examination of the floor hold and the reach test (R49 to R51), after the
Hand-off Controller's stage under `h`, for the proposed zoom `z`. DEDUCED: an opening at which zoom current
already equals the target disarms the report without an event, because R52 has such an opening raise nothing
and R44 has a ZOOM_SET to zoom current raise no ZOOM_REACHED later. Log entry 44. -/
def Zoom.clampStage (zm : Zoom) (active : Option CalSet) (h : Handoff) (z : Nat) (now : Word) :
    Zoom × List Event :=
  let src := floorSource active h
  let floor := servedFloor active h
  let current := max z floor
  let holding := z < floor ∧ zm.target < floor
  let owed := zm.reachArm && decide (zm.current ≠ zm.target)
  let reached := owed ∧ current = zm.target
  ({ zm with current, floorHold := decide holding, reachArm := owed && !decide reached },
    (if holding ∧ zm.floorHold = false then
      [zoomClampedEvent src.val clampFloor floor zm.target] else []) ++
    (if reached then [.mk' .zoomReached 0 (argWord zm.target) now] else []))

end Sys2Proof.Machine
end

