-- ==== Sys2Proof/Machine/Plans.lean ====
section
/-! DEFINITION. Frame plans (chapter 5): the sides a hand-off state names (R80, R96), the store choice
(R96), the arrangement of sides (R97), FROZEN repeats (R98), the degrade drop (R100), the latch with
its centre and geometry (R104, R117), and pins and releases (R99). -/

namespace Sys2Proof.Machine

/-- A fill frame has neither side (R95). -/
def Plan.isFill (p : Plan) : Bool := p.fromSide.isNone && p.toSide.isNone

/-- The present sides of a plan, the from-side first. -/
def Plan.sides (p : Plan) : List (Side × SidePlan) :=
  (p.fromSide.toList.map fun a => (Side.fromSide, a)) ++ (p.toSide.toList.map fun a => (Side.toSide, a))

/-- A named side of a plan. -/
def Plan.side (p : Plan) : Side → Option SidePlan
  | .fromSide => p.fromSide
  | .toSide => p.toSide

/-- The stores that a plan names (R99). -/
def Plan.stores (p : Plan) : List (Fin 4 × Nat) :=
  (p.sides.map fun a => (a.2.source, a.2.store)).eraseDups

/-- A side before its geometry: source, store and correction. -/
structure SideChoice where
  source : Fin 4
  store  : Nat
  corr   : Correction
deriving DecidableEq, Repr

/-- The sides and weight of a plan before its geometry (R96 to R98). -/
structure Arrangement where
  fromSide : Option SideChoice
  toSide   : Option SideChoice
  weight   : Nat
deriving DecidableEq, Repr

/-- The weight of an arrangement of sides: 0 for a from-side alone or no side, 256 for a to-side
alone, `w` for both (R95). -/
def sidesWeight (a b : Option SideChoice) (w : Nat) : Nat :=
  match a, b with
  | some _, some _ => w
  | none, some _ => 256
  | _, none => 0

/-- The sources named for the two sides outside FROZEN (R96). -/
def Handoff.sideSources (h : Handoff) : Fin 4 × Option (Fin 4) :=
  match h.state with
  | .blend p d _ => (h.fromSrc, some (toOf p d))
  | .settled | .prepare .. | .frozen => (h.fromSrc, none)

/-- The arrangement outside FROZEN: stores chosen by R96, settled by R97. -/
def chosenArrangement (h : Handoff) (sources : Vector Source 4) (retiring : Option Plan) :
    Arrangement :=
  let named := h.sideSources
  let a := (chooseStore sources retiring named.1).map fun p => SideChoice.mk named.1 p h.fromCorr
  let b := named.2.bind fun t =>
    (chooseStore sources retiring t).map fun p => SideChoice.mk t p h.toCorr
  ⟨a, b, sidesWeight a b h.weight⟩

/-- The arrangement in FROZEN: the sides of the current plan, with the corrections the hand-off state
holds (R98). -/
def frozenArrangement (h : Handoff) (current : Option Plan) : Arrangement :=
  let a := (current.bind Plan.fromSide).map fun x => SideChoice.mk x.source x.store h.fromCorr
  let b := (current.bind Plan.toSide).map fun x => SideChoice.mk x.source x.store h.toCorr
  ⟨a, b, sidesWeight a b h.weight⟩

/-- The degrade level SINGLE keeps the dominant side of an arrangement with both (R100). -/
def Arrangement.degraded (a : Arrangement) (level : DegradeLevel) : Arrangement :=
  match level, a.fromSide, a.toSide with
  | .single, some _, some _ =>
    if a.weight < 128 then { a with toSide := none, weight := 0 }
    else { a with fromSide := none, weight := 256 }
  | _, _, _ => a

/-- The arrangement that a view latches (R96 to R98, R100). -/
def arrangement (h : Handoff) (sources : Vector Source 4) (current : Option Plan)
    (level : DegradeLevel) : Arrangement :=
  (if h.state = .frozen then frozenArrangement h current
    else chosenArrangement h sources current).degraded level

/-- The coverage box of a side under the mapping its source now has (R54). A source without a record
has no store, so no side names it. -/
def SideChoice.box (a : SideChoice) (active : Option CalSet) (sources : Vector Source 4) :
    Option Box :=
  (sources[a.source].record).map fun r => coverageBox (mappingOf active a.source r) r

/-- The box of a plan's present sides (R54). -/
def Arrangement.box (a : Arrangement) (active : Option CalSet) (sources : Vector Source 4) :
    Option Box :=
  match a.fromSide.bind fun x => x.box active sources, a.toSide.bind fun x => x.box active sources with
  | some x, some y => some (x.inter y)
  | some x, none => some x
  | none, y => y

/-- A side with its geometry and segment (R104 to R106, R117). -/
def SideChoice.latch (a : SideChoice) (active : Option CalSet) (sources : Vector Source 4)
    (z width height : Nat) (centre : Int × Int) : Option SidePlan :=
  (sources[a.source].record).map fun r =>
    sideGeometry a.source a.store a.corr (mappingOf active a.source r) r z width height centre

/-- The plan that a view with record `r` latches at a frame opening (R95 to R98, R100, R104). -/
def latchPlan (r : ViewRecord) (number : Word) (level : DegradeLevel) (current : Option Plan)
    (sources : Vector Source 4) (active : Option CalSet) (zm : Zoom) (h : Handoff) : Plan :=
  let a := arrangement h sources current level
  let centre := effectiveCentre zm.current r.width r.height zm.panX zm.panY (a.box active sources)
  let latch := fun x : Option SideChoice =>
    x.bind fun x => x.latch active sources zm.current r.width r.height centre
  { number
    zoom := zm.current
    centreX := centre.1
    centreY := centre.2
    fromSide := latch a.fromSide
    toSide := latch a.toSide
    weight := a.weight }

/-! ### Pins and releases (R99) -/

/-- A step of the source that a plan's store belongs to. -/
def onStore (f : Source → Nat → Source) (sources : Vector Source 4) (x : Fin 4 × Nat) :
    Vector Source 4 :=
  sources.set x.1.val (f sources[x.1] x.2) x.1.isLt

/-- A plan's stores are pinned, each once (R99). -/
def pinPlan (sources : Vector Source 4) (p : Option Plan) : Vector Source 4 :=
  ((p.map Plan.stores).getD []).foldl (onStore Source.pin) sources

/-- A plan's stores are released (R99). -/
def releasePlan (sources : Vector Source 4) (p : Option Plan) : Vector Source 4 :=
  ((p.map Plan.stores).getD []).foldl (onStore Source.release) sources

end Sys2Proof.Machine
end

