-- ==== Sys2Proof/Machine/Cache.lean ====
section
/-! DEFINITION. The row cache, the fetch queue and the held reads of one view (chapter 7): the rows a
read needs (R118), taking an entry (R119), requests (R120), prefetch (R121), the demand pass (R122),
clearing (R126), answers (R129 to R133), underruns (R131), and the examination of a frame at its
close (R101, R134). -/

namespace Sys2Proof.Machine

/-- What a view's own step reads besides the view: its number, its record, the time base and the
sources. -/
structure ViewEnv where
  idx     : Fin 2
  conf    : ViewRecord
  now     : Word
  sources : Vector Source 4

/-- What a view's own step changes: the view, the shared in-flight list, the events raised and the
answers given so far in the step, and the count of free values drawn. -/
structure ViewWork where
  view     : View
  inflight : List Fetch
  events   : List Event
  answers  : List UpResponse
  draws    : Nat

/-- The active height of a source's record. A pinned store's source always has one. -/
def ViewEnv.heightOf (e : ViewEnv) (i : Fin 4) : Nat :=
  ((e.sources[i].record).map SourceRecord.height).getD 0

/-- An event raised in a view's step. -/
def ViewWork.emit (w : ViewWork) (ev : Event) : ViewWork := { w with events := w.events ++ [ev] }

/-! ### Rows (R86, R118) -/

/-- The offsets from the aperture base of the bytes that a read covers (R86). -/
def readOffsets (r : ReadReq) (base : Nat) : List Nat :=
  (List.range (16 * r.beats)).map fun i => r.addr.toNat - base + i

/-- Whether an aperture offset holds an active byte (R86). -/
def ViewRecord.activeByte (v : ViewRecord) (off : Nat) : Bool :=
  off / v.stride < v.height && off % v.stride < 4 * v.width

/-- The rows that a read touches, ascending (R86). -/
def ViewRecord.touched (v : ViewRecord) (r : ReadReq) : List Nat :=
  (((readOffsets r v.base).filter v.activeByte).map fun o => o / v.stride).eraseDups

/-- The offset of the last byte of the last output row (R90). -/
def ViewRecord.lastByte (v : ViewRecord) : Nat := (v.height - 1) * v.stride + 4 * v.width - 1

/-- Whether a read covers the last byte of the last output row (R90). -/
def ViewRecord.coversLast (v : ViewRecord) (r : ReadReq) : Bool :=
  (readOffsets r v.base).contains v.lastByte

/-- The highest row of a list of rows. -/
def highestRow (rows : List Nat) : Nat := rows.foldl max 0

/-- The rows that output row `y` needs under a plan, from-side first, lower row first (R118, R121). -/
def rowKeys (e : ViewEnv) (p : Plan) (y : Nat) : List RowKey :=
  p.sides.flatMap fun a =>
    (a.2.rows (e.heightOf a.2.source) y).map fun row => ⟨a.1, a.2.source, a.2.store, row⟩

/-- The rows that several output rows need, each once, in the order of R121. -/
def neededRows (e : ViewEnv) (p : Option Plan) (rows : List Nat) : List RowKey :=
  match p with
  | some p => (rows.flatMap (rowKeys e p)).eraseDups
  | none => []

/-- The output rows from `y` to `y` + L, rows at or beyond Ho left out (R118, R121). -/
def lookRows (e : ViewEnv) (y : Nat) : List Nat :=
  ((List.range (e.conf.lookahead + 1)).map fun i => y + i).filter fun i => i < e.conf.height

/-- The mark window: the rows that output rows mark to mark + L need (R118). -/
def markWindow (e : ViewEnv) (v : View) : List RowKey := neededRows e v.plan (lookRows e v.markRow)

/-! ### Entries (R116, R119) -/

/-- The cache entries in ascending order. -/
def entryNumbers : List (Fin 16) := List.finRange 16

/-- The key of a live entry: FETCHING, VALID or FAILED (R116). -/
def CacheEntry.liveKey : CacheEntry → Option RowKey
  | .fetching k _ _ => some k
  | .valid k _ _ => some k
  | .failed k _ => some k
  | .empty | .discarding => none

/-- The key and completion order of a VALID or FAILED entry. -/
def CacheEntry.completed : CacheEntry → Option (RowKey × Word)
  | .valid k o _ => some (k, o)
  | .failed k o => some (k, o)
  | .empty | .fetching .. | .discarding => none

/-- The live entry of a row, if any. -/
def View.entryOf (v : View) (k : RowKey) : Option (Fin 16) :=
  entryNumbers.find? fun e => v.cache[e].liveKey == some k

/-- An entry set. -/
def View.setEntry (v : View) (e : Fin 16) (c : CacheEntry) : View :=
  { v with cache := v.cache.set e.val c e.isLt }

/-- Whether a row's entry is VALID. -/
def View.rowValid (v : View) (k : RowKey) : Bool :=
  match v.entryOf k with
  | some e => match v.cache[e] with
    | .valid .. => true
    | _ => false
  | none => false

/-- Whether a row's entry is FAILED. -/
def View.rowFailed (v : View) (k : RowKey) : Bool :=
  match v.entryOf k with
  | some e => match v.cache[e] with
    | .failed .. => true
    | _ => false
  | none => false

/-- Whether a row's entry is VALID or FAILED. -/
def View.rowReady (v : View) (k : RowKey) : Bool := v.rowValid k || v.rowFailed k

/-- The evictable entries with the distance of their completion order behind the count (R119). -/
def evictable (e : ViewEnv) (v : View) : List (Fin 16 × Nat) :=
  let kept := v.held.flatMap HeldRead.needed ++ markWindow e v
  entryNumbers.filterMap fun n =>
    match v.cache[n].completed with
    | some (k, o) => if kept.contains k then none else some (n, (v.completionCount - o).toNat)
    | none => none

/-- The candidate, an entry with its distance, at the greatest distance (R119). Of two at the same distance a
free value takes one. Log entry 46, DESIGN CHOICE. -/
def greatestSecond : List (Fin 16 × Nat) → Option (Fin 16 × Nat)
  | [] => none
  | x :: xs =>
    match greatestSecond xs with
    | some y =>
      if x.2 < y.2 ∨ (y.2 = x.2 ∧ Config.olderOfEqual y.1.val x.1.val = true) then some y else some x
    | none => some x

/-- The entry that the view takes for a new row (R119): the lowest EMPTY one, else the evictable one
whose completion is oldest. -/
def chooseEntry (e : ViewEnv) (v : View) : Option (Fin 16) :=
  match entryNumbers.find? fun n => v.cache[n] == .empty with
  | some n => some n
  | none => (greatestSecond (evictable e v)).map Prod.fst

/-! ### Requests (R120 to R122) -/

/-- The number of requests in the fetch queue. -/
def FetchQueue.length (q : FetchQueue) : Nat := q.urgent.length + q.normal.length

/-- Whether the fetch queue is full (R120). -/
def FetchQueue.full (q : FetchQueue) : Bool := 8 ≤ q.length

/-- A request that is not urgent, for a row with no live entry (R120, R121); none when it fails. -/
def requestNormal (e : ViewEnv) (v : View) (k : RowKey) : Option View :=
  if v.fetchQ.full then none
  else
    (chooseEntry e v).map fun n =>
      { v.setEntry n (.fetching k false []) with
        fetchQ := { v.fetchQ with normal := v.fetchQ.normal ++ [n] } }

/-- The newest request that is not urgent leaves the queue and its entry becomes EMPTY (R120). -/
def displace (v : View) : Option View :=
  v.fetchQ.normal.getLast?.map fun n =>
    { v.setEntry n .empty with fetchQ := { v.fetchQ with normal := v.fetchQ.normal.dropLast } }

/-- An urgent request takes an entry and joins the end of the urgent part; none when it fails. -/
def placeUrgent (e : ViewEnv) (v : View) (k : RowKey) : Option View :=
  if v.fetchQ.full then none
  else
    (chooseEntry e v).map fun n =>
      { v.setEntry n (.fetching k true []) with
        fetchQ := { v.fetchQ with urgent := v.fetchQ.urgent ++ [n] } }

/-- An urgent request for a row with no live entry, displacing a request that is not urgent when the
queue is full or no entry can be taken (R120); none when it fails. -/
def requestUrgent (e : ViewEnv) (v : View) (k : RowKey) : Option View :=
  match placeUrgent e v k with
  | some v => some v
  | none => (displace v).bind fun v => placeUrgent e v k

/-- The prefetch of the given rows in order, stopping at the first that cannot be requested (R121). -/
def prefetchKeys (e : ViewEnv) : List RowKey → View → View
  | [], v => v
  | k :: ks, v =>
    if (v.entryOf k).isSome then prefetchKeys e ks v
    else
      match requestNormal e v k with
      | some v => prefetchKeys e ks v
      | none => v

/-- The prefetch for output rows `y` to `y` + L (R121). -/
def ViewWork.prefetch (e : ViewEnv) (y : Nat) (w : ViewWork) : ViewWork :=
  { w with view := prefetchKeys e (neededRows e w.view.plan (lookRows e y)) w.view }

/-- The in-flight fetch of an entry of a view becomes urgent (R122). -/
def markUrgent (v : Fin 2) (n : Fin 16) (fs : List Fetch) : List Fetch :=
  fs.map fun f => if f.view = v ∧ f.entry = n then { f with urgent := true } else f

/-- A row that a held read waits for, whose entry is FETCHING and not urgent, becomes urgent: queued,
its request moves to the end of the urgent part; issued, its fetch is marked (R122). -/
def ViewWork.promote (e : ViewEnv) (w : ViewWork) (n : Fin 16) (k : RowKey) (data : List Byte) :
    ViewWork :=
  let v := w.view.setEntry n (.fetching k true data)
  if w.view.fetchQ.normal.contains n then
    { w with
      view := { v with
        fetchQ := { urgent := v.fetchQ.urgent ++ [n], normal := v.fetchQ.normal.erase n } } }
  else { w with view := v, inflight := markUrgent e.idx n w.inflight }

/-- The demand pass's work on one row: none when its urgent request fails (R122). -/
def ViewWork.demandRow (e : ViewEnv) (w : ViewWork) (k : RowKey) : Option ViewWork :=
  match w.view.entryOf k with
  | none => (requestUrgent e w.view k).map fun v => { w with view := v }
  | some n =>
    match w.view.cache[n] with
    | .fetching key false data => some (w.promote e n key data)
    | _ => some w

/-- The demand pass over the given rows, stopping at the first failure (R122). -/
def ViewWork.demandRows (e : ViewEnv) : List RowKey → ViewWork → ViewWork
  | [], w => w
  | k :: ks, w =>
    match w.demandRow e k with
    | some w => ViewWork.demandRows e ks w
    | none => w

/-- The demand pass (R122): held reads in acceptance order, expired ones passed over. -/
def ViewWork.demandPass (e : ViewEnv) (w : ViewWork) : ViewWork :=
  w.demandRows e ((w.view.held.filter fun h => !h.expired).flatMap HeldRead.needed)

/-! ### Clearing (R126) -/

/-- An entry at a clearing (R126): issued ones become DISCARDING, or EMPTY when no response is owed;
ones already DISCARDING stay; every other becomes EMPTY. -/
def clearedEntry (v : Fin 2) (fs : List Fetch) (n : Fin 16) (c : CacheEntry) : CacheEntry :=
  match c with
  | .discarding => .discarding
  | .fetching .. =>
    if fs.any fun f => f.view == v && f.entry == n && f.owed != 0 then .discarding else .empty
  | .empty | .valid .. | .failed .. => .empty

/-- The in-flight list at a clearing of view `v` (R126): reads not granted are withdrawn, and a fetch
that is owed nothing leaves the list. -/
def clearedInflight (v : Fin 2) (fs : List Fetch) : List Fetch :=
  (fs.map fun f => if f.view = v then { f with todo := [], total := f.granted } else f).filter
    fun f => f.view != v || f.owed != 0

/-- The row cache and the fetch queue are cleared (R126). -/
def ViewWork.clear (i : Fin 2) (w : ViewWork) : ViewWork :=
  { w with
    inflight := clearedInflight i w.inflight
    view := { w.view with
      cache := Vector.ofFn fun n => clearedEntry i w.inflight n w.view.cache[n]
      fetchQ := ⟨[], []⟩
      markRow := 0 } }

/-! ### Answers (R86, R113, R129) -/

/-- The bytes of an answer: `pixel x y channel` in each active byte, and 0 in spare bytes, padding and
rows past the picture (R86). -/
def ViewRecord.answerData (v : ViewRecord) (r : ReadReq) (pixel : Nat → Nat → Nat → Nat) :
    List Byte :=
  (readOffsets r v.base).map fun o =>
    if v.activeByte o then
      let b := o % v.stride
      if b % 4 = 3 then 0 else BitVec.ofNat 8 (pixel (b / 4) (o / v.stride) (b % 4))
    else 0

/-- The fill colour by channel (R113). -/
def ViewRecord.fillPixel (v : ViewRecord) (ch : Nat) : Nat :=
  match ch with
  | 0 => v.fillY.toNat
  | 1 => v.fillCb.toNat
  | _ => v.fillCr.toNat

/-- The answer to an aperture read: OKAY, the beats it asked for, the given bytes (R86, R146). -/
def okayAnswer (r : ReadReq) (data : List Byte) : UpResponse :=
  ⟨r.tag, r.num, .okay, true, r.beats, data⟩

/-- The answer of a read with fill: the fill colour in its active bytes, zeros elsewhere (R86, R113). -/
def ViewRecord.fillAnswer (v : ViewRecord) (r : ReadReq) : UpResponse :=
  okayAnswer r (v.answerData r fun _ _ ch => v.fillPixel ch)

/-- The source sample of a row, column and channel, from the VALID entry of the row (R109). The
segment's bytes begin at column cmin (R117). -/
def View.sample (v : View) (side : Side) (p : SidePlan) (row col ch : Nat) : Nat :=
  match v.entryOf ⟨side, p.source, p.store, row⟩ with
  | some n =>
    match v.cache[n] with
    | .valid _ _ px => ((px[4 * (col - p.cmin) + ch]?).map BitVec.toNat).getD 0
    | _ => 0
  | none => 0

/-- A side's corrected value of a channel at an output pixel (R107 to R111). -/
def sideValue (e : ViewEnv) (v : View) (side : Side) (p : SidePlan) (x y ch : Nat) : Nat :=
  match e.sources[p.source].record with
  | some r => p.value r (fun row col => v.sample side p row col ch) x y ch
  | none => 0

/-- The composed value of a channel at an output pixel (R112). -/
def composedPixel (e : ViewEnv) (v : View) (p : Plan) (x y ch : Nat) : Nat :=
  match p.fromSide, p.toSide with
  | some a, some b =>
    mixSides (sideValue e v .fromSide a x y ch) (sideValue e v .toSide b x y ch) p.weight
  | some a, none => sideValue e v .fromSide a x y ch
  | none, some b => sideValue e v .toSide b x y ch
  | none, none => e.conf.fillPixel ch

/-- How a read can be answered (R129). -/
inductive AnswerKind where
  | zeros
  | fill
  | failed
  | composed
deriving DecidableEq, Repr

/-- Whether a held read is answerable, and how: the cases of R129 in order. -/
def View.answerable (v : View) (h : HeldRead) : Option AnswerKind :=
  if h.rows.isEmpty then some .zeros
  else
    match v.plan with
    | none => some .fill
    | some p =>
      if p.isFill then some .fill
      else if h.expired then some .fill
      else if h.needed.all v.rowReady then
        if h.needed.any v.rowFailed then some .failed else some .composed
      else none

/-- The open frame that a held read belongs to, if it is still open (R131, R133). -/
def View.openFrameOf (v : View) (h : HeldRead) : Option FrameRecord :=
  match v.state with
  | .opened f => if h.frame = some f.number then some f else none
  | .disabled | .idle => none

/-- The lead: the consecutive output rows after `y`, up to `y` + L, whose rows are all VALID (R133). -/
def leadFrom (e : ViewEnv) (v : View) (p : Plan) : Nat → Nat → Nat
  | 0, _ => 0
  | n + 1, y =>
    if e.conf.height ≤ y + 1 ∨ (rowKeys e p (y + 1)).all v.rowValid then leadFrom e v p n (y + 1) + 1
    else 0

/-- The latency test of a served read at mark row `y` (R133). -/
def ViewWork.latencyTest (e : ViewEnv) (p : Plan) (h : HeldRead) (y : Nat) (w : ViewWork) : ViewWork :=
  match w.view.openFrameOf h with
  | none => w
  | some f =>
    let lead := leadFrom e w.view p e.conf.lookahead y
    if e.conf.lookahead ≤ y ∧ lead < e.conf.warnLead then
      let raised := w.view.warnRaised
      let w := { w with
        view := { w.view with state := .opened { f with warned := true }, warnRaised := true } }
      if raised ∨ w.view.saturated then w
      else w.emit (.mk' .latencyWarn e.idx.val f.number (argWord lead))
    else w

/-- The read at the head is answered and leaves the queue. -/
def ViewWork.respond (w : ViewWork) (a : UpResponse) : ViewWork :=
  { w with view := { w.view with held := w.view.held.tail }, answers := w.answers ++ [a] }

/-- The first fill for a FAILED row since the view's last opening or close raises FETCH_ERROR (R132).
Of several FAILED rows a free value names one. -/
def ViewWork.fetchError (e : ViewEnv) (h : HeldRead) (w : ViewWork) : ViewWork :=
  if w.view.fetchErrorRaised then w
  else
    let raise := fun (k : RowKey) (w : ViewWork) =>
      ({ w with view := { w.view with fetchErrorRaised := true } } : ViewWork).emit
        (.mk' .fetchError e.idx.val (argWord (k.source.val + 256 * k.store)) (argWord k.row))
    match h.needed.filter w.view.rowFailed with
    | [] => w
    | [k] => raise k w
    | k :: ks =>
      raise (((k :: ks)[Config.failedRowChoice w.draws % (ks.length + 1)]?).getD k)
        { w with draws := w.draws + 1 }

/-- A read composed: the mark row moves, prefetch starts, latency is tested (R118, R121, R129, R133). -/
def ViewWork.serve (e : ViewEnv) (p : Plan) (h : HeldRead) (w : ViewWork) : ViewWork :=
  let y := highestRow h.rows
  let w := w.respond (okayAnswer h.req (e.conf.answerData h.req fun x y ch => composedPixel e w.view p x y ch))
  let w := { w with view := { w.view with markRow := y } }
  (w.prefetch e y).latencyTest e p h y

/-- The answer to the head of the queue, given how it is answerable, and the demand pass that follows
every answer (R122, R129). -/
def ViewWork.answerHead (e : ViewEnv) (h : HeldRead) (kind : AnswerKind) (w : ViewWork) : ViewWork :=
  let w :=
    match kind, w.view.plan with
    | .composed, some p => w.serve e p h
    | .failed, _ => (w.fetchError e h).respond (e.conf.fillAnswer h.req)
    | _, _ => w.respond (e.conf.fillAnswer h.req)
  w.demandPass e

/-- The head of the queue is answered while it is answerable (R129); `n` bounds the answers by the
queue's length. -/
def ViewWork.answerReads (e : ViewEnv) : Nat → ViewWork → ViewWork
  | 0, w => w
  | n + 1, w =>
    match w.view.held with
    | [] => w
    | h :: _ =>
      match w.view.answerable h with
      | some kind => ViewWork.answerReads e n (w.answerHead e h kind)
      | none => w

/-- Every answer the queue can now give (R129). -/
def ViewWork.answerAll (e : ViewEnv) (w : ViewWork) : ViewWork :=
  w.answerReads e w.view.held.length

/-! ### Underruns and the frame's close (R101, R102, R131, R134) -/

/-- The frame's underrun count rises, and the view degrades when it reaches the limit at FULL (R102). -/
def ViewWork.countInFrame (e : ViewEnv) (f : FrameRecord) (w : ViewWork) : ViewWork :=
  let f := { f with underruns := f.underruns + 1 }
  let w := { w with view := { w.view with state := .opened f } }
  if f.underruns = e.conf.underrunLimit ∧ w.view.degrade = .full then
    ({ w with view := { w.view with degrade := .single, cleanRun := 0 } } : ViewWork).emit
      (.mk' .degradeEnter e.idx.val f.number (argWord e.conf.underrunLimit))
  else w

/-- An underrun counts in the open frame that its read belongs to, if any (R131). -/
def ViewWork.countOwn (e : ViewEnv) (h : HeldRead) (w : ViewWork) : ViewWork :=
  match w.view.openFrameOf h with
  | some f => w.countInFrame e f
  | none => w

/-- The first underrun since the view's last opening or close raises UNDERRUN (R131). -/
def ViewWork.raiseUnderrun (e : ViewEnv) (h : HeldRead) (w : ViewWork) : ViewWork :=
  if w.view.underrunRaised then w
  else
    let w := { w with view := { w.view with underrunRaised := true } }
    let frame := h.frame.getD w.view.framesOpened
    match h.rows with
    | y :: _ => w.emit (.mk' .underrun e.idx.val frame (argWord y))
    | [] =>
      ({ w with draws := w.draws + 1 } : ViewWork).emit
        (.mk' .underrun e.idx.val frame (Config.untouchedRowArgument w.draws))

/-- The view's total underruns rise (R131). -/
def ViewWork.countTotal (w : ViewWork) : ViewWork :=
  { w with view := { w.view with totalUnderruns := min 65535 (w.view.totalUnderruns + 1) } }

/-- One underrun of a held read (R131). -/
def ViewWork.underrun (e : ViewEnv) (h : HeldRead) (w : ViewWork) : ViewWork :=
  ((w.countOwn e h).countTotal).raiseUnderrun e h

/-- The warned run and the saturation flag at a frame's examination (R134). -/
def View.examineWarned (v : View) (warned : Bool) : View :=
  if warned then
    { v with warnedRun := min 6 (v.warnedRun + 1)
             saturated := v.saturated || decide (6 ≤ v.warnedRun + 1) }
  else { v with warnedRun := 0, saturated := false }

/-- The open frame closes and is examined (R101, R134); the two raised flags clear (R131, R132). -/
def ViewWork.closeFrame (e : ViewEnv) (f : FrameRecord) (w : ViewWork) : ViewWork :=
  let clean := f.underruns == 0 && !f.warned
  let v := { w.view.examineWarned f.warned with
    state := .idle, underrunRaised := false, fetchErrorRaised := false }
  match v.degrade with
  | .full => { w with view := v }
  | .single =>
    if !clean then { w with view := { v with cleanRun := 0 } }
    else if v.cleanRun + 1 = 8 then
      ({ w with view := { v with degrade := .full, cleanRun := 0 } } : ViewWork).emit
        (.mk' .degradeExit e.idx.val f.number (argWord v.totalUnderruns))
    else { w with view := { v with cleanRun := v.cleanRun + 1 } }

/-- One held read is filled at a frame opening, counting an underrun (R92). -/
def ViewWork.flushRead (e : ViewEnv) (w : ViewWork) (h : HeldRead) : ViewWork :=
  (w.respond (e.conf.fillAnswer h.req)).underrun e h

/-- The open frame, if any, closes cut short at an opening (R89, R93). -/
def ViewWork.cutShort (e : ViewEnv) (w : ViewWork) : ViewWork :=
  match w.view.state with
  | .opened f => w.closeFrame e f
  | .idle | .disabled => w

/-- Stage 1 of a frame opening (R92, R93): held reads are filled, and an open frame closes cut short.
The raised flags clear after it (R131 to R133). -/
def ViewWork.openingStage1 (e : ViewEnv) (w : ViewWork) : ViewWork :=
  let w := (w.view.held.foldl (ViewWork.flushRead e) w).cutShort e
  { w with view := { w.view with
      underrunRaised := false, fetchErrorRaised := false, warnRaised := false } }

/-- Stage 2 of a frame opening (R87, R93), by a read that touches `rows`. -/
def ViewWork.openingStage2 (e : ViewEnv) (rows : List Nat) (w : ViewWork) : ViewWork :=
  let n := w.view.framesOpened + 1
  { w with view := { w.view with
      framesOpened := n
      state := .opened ⟨n, highestRow rows, 0, false, e.now⟩ } }

/-- Held reads answered with fill without an underrun or an event: at a disable and at a reset (R84,
R189). -/
def fillHeld (v : View) : List UpResponse :=
  match v.record with
  | some r => v.held.map fun h => r.fillAnswer h.req
  | none => []

/-! ### A view's step inside the part -/

/-- A step of view `i`, with the events it raises and the answers it gives. A view without a record
holds nothing and makes no step. -/
def State.onView (s : State) (i : Fin 2) (f : ViewEnv → ViewWork → ViewWork) : State :=
  match s.views[i].record with
  | none => s
  | some r =>
    let w := f ⟨i, r, s.timeBase, s.sources⟩ ⟨s.views[i], s.inflight, [], [], s.draws⟩
    State.raiseAll
      { s with
        views := s.views.set i.val w.view i.isLt
        inflight := w.inflight
        up := { s.up with responses := s.up.responses ++ w.answers }
        draws := w.draws }
      w.events

end Sys2Proof.Machine
end

