-- ==== Sys2Proof/Machine/Openings.lean ====
section
/-! DEFINITION. The frame opening (R93) and the acceptance of an aperture read (R86 to R92, R127 to
R129, R146), with the idle timer (R91) and the hold limit (R130). -/

namespace Sys2Proof.Machine

/-- Whether a view is enabled. -/
def View.enabled (v : View) : Bool :=
  match v.state with
  | .disabled => false
  | .idle | .opened _ => true

/-- The lead view: the lowest-numbered enabled one (R93). -/
def State.isLead (s : State) (i : Fin 2) : Bool :=
  ([0, 1] : List (Fin 2)).find? (fun j => s.views[j].enabled) == some i

/-- Whether some view is enabled, so that lead frame openings occur (R52, R93). -/
def State.hasLead (s : State) : Bool := s.views[(0 : Fin 2)].enabled || s.views[(1 : Fin 2)].enabled

/-- What the Hand-off Controller reads at stage 5 of an opening of lead view `i` (R59, R70). -/
def State.stageInput (s : State) (i : Fin 2) (z : Nat) : StageInput :=
  ⟨z, s.cal.active, s.sources, s.views[i].plan⟩

/-- Stages 4 to 6 of a lead frame opening (R93): the advance, the Hand-off Controller's stage, and the
floor clamp with its examinations. -/
def State.zoomAndHandoff (s : State) (i : Fin 2) : State :=
  let z := s.zoom.proposed
  let (h, eh) := s.handoff.stage (s.stageInput i z)
  let (zm, ez) := s.zoom.clampStage s.cal.active h z s.timeBase
  State.raiseAll { s with handoff := h, zoom := zm } (eh ++ ez)

/-- Stages 3 to 6 of a lead frame opening (R93). -/
def State.leadStages (s : State) (i : Fin 2) : State := s.activationStage.zoomAndHandoff i

/-- Stages 7 to 9 of a frame opening (R93): the plan is latched, its stores pinned and the retired
plan's released, the row cache cleared and rows 0 to L requested. -/
def State.latchStages (s : State) (i : Fin 2) : State :=
  match s.views[i].record with
  | none => s
  | some r =>
    let old := s.views[i].plan
    let new := latchPlan r s.views[i].framesOpened s.views[i].degrade old s.sources s.cal.active
      s.zoom s.handoff
    State.onView
      { s with
        sources := releasePlan (pinPlan s.sources (some new)) old
        views := s.views.set i.val { s.views[i] with plan := some new } i.isLt }
      i fun e w => (w.clear i).prefetch e 0

/-- The frame opening of view `i` by a read that touches `rows` (R93). -/
def State.openFrame (s : State) (i : Fin 2) (rows : List Nat) : State :=
  let lead := s.isLead i
  let s := s.onView i fun e w => (w.openingStage1 e).openingStage2 e rows
  let s := if lead then s.leadStages i else s
  let s := s.latchStages i
  if lead then s.requestMirror else s

/-- Whether a read that touches `rows` opens a frame of the view (R88, R89). -/
def View.opensFrame (v : View) (rows : List Nat) : Bool :=
  match v.state, v.record with
  | .idle, _ => rows.contains 0
  | .opened f, some r => rows.contains 0 && decide (r.height / 2 ≤ f.highest)
  | _, _ => false

/-- A read taken into the open frame (R87, R89, R91): it restarts the idle timer, and raises the
highest row served when it touches rows. -/
def FrameRecord.take (f : FrameRecord) (rows : List Nat) (now : Word) : FrameRecord :=
  { f with highest := max f.highest (highestRow rows), idleLoad := now }

/-- A read joins the held-read queue (R127), in the open frame when it touches rows (R86, R88). -/
def ViewWork.join (e : ViewEnv) (q : ReadReq) (rows : List Nat) (w : ViewWork) : ViewWork :=
  let frame :=
    match w.view.state with
    | .opened f => if rows.isEmpty then none else some f.number
    | .idle | .disabled => none
  let state :=
    match w.view.state with
    | .opened f => .opened (f.take rows e.now)
    | .idle => .idle
    | .disabled => .disabled
  let held : HeldRead := ⟨q, e.now, frame, rows, neededRows e w.view.plan rows, false⟩
  { w with view := { w.view with state, held := w.view.held ++ [held] } }

/-- A read that covers the last byte of the last row closes the open frame normally (R90). The close
comes before the read's answer; log entry 16. -/
def ViewWork.closeNormal (e : ViewEnv) (q : ReadReq) (w : ViewWork) : ViewWork :=
  match w.view.state with
  | .opened f => if e.conf.coversLast q then w.closeFrame e f else w
  | .idle | .disabled => w

/-- A read accepted by its view, after any opening: it joins the queue, may close the frame, and the
queue gives the answers it can (R90, R122, R127, R129). -/
def ViewWork.acceptRead (e : ViewEnv) (q : ReadReq) (rows : List Nat) (w : ViewWork) : ViewWork :=
  ((((w.join e q rows).closeNormal e q).answerAll e).demandPass e)

/-- A read accepted in view `i`'s active aperture (R146). -/
def State.acceptAperture (s : State) (i : Fin 2) (q : ReadReq) : State :=
  match s.views[i].record with
  | none => s
  | some r =>
    let rows := r.touched q
    let s := if s.views[i].opensFrame rows then s.openFrame i rows else s
    s.onView i fun e w => w.acceptRead e q rows

/-! ### The timers of a view -/

/-- Whether a held read's limit has passed with a needed row outstanding (R130). -/
def View.holdDue (v : View) (limit : Nat) (now : Word) (h : HeldRead) : Bool :=
  !h.expired && decide (limit ≤ elapsed now h.accepted) && h.needed.any fun k => !v.rowReady k

/-- The expiry of the held read at place `n` (R130, R131). -/
def ViewWork.expireAt (e : ViewEnv) (n : Nat) (w : ViewWork) : ViewWork :=
  match w.view.held[n]? with
  | some h =>
    ({ w with view := { w.view with
        held := w.view.held.modify n fun h => { h with expired := true } } } : ViewWork).underrun e h
  | none => w

/-- The first held read whose hold limit has passed expires, and the queue gives the answers it can
(R129, R130). With none due, nothing happens. -/
def ViewWork.expireHold (e : ViewEnv) (w : ViewWork) : ViewWork :=
  match w.view.held.findIdx? (w.view.holdDue e.conf.holdLimit e.now) with
  | some n => (w.expireAt e n).answerAll e
  | none => w

/-- The idle timer's expiry closes the open frame, timed out (R91). Not due, nothing happens. -/
def ViewWork.expireIdle (e : ViewEnv) (w : ViewWork) : ViewWork :=
  match w.view.state with
  | .opened f =>
    if 1000 * e.conf.idleTimeout ≤ elapsed e.now f.idleLoad then w.closeFrame e f else w
  | .idle | .disabled => w

end Sys2Proof.Machine
end

