-- ==== Sys2Proof/Machine/Operands.lean ====
section
/-! DEFINITION. What a command slot holds: its fields and its check (R160, R165, R193), the ten command
codes with the words their fields occupy (R191, R193), and the body of each command (R193). Unused
bytes and bits are not read (R194). -/

namespace Sys2Proof.Machine

/-! ### Fields of a slot -/

/-- The byte at a position of the slot copy. -/
def Slot.byte (sl : Slot) (i : Nat) : Nat := ((sl.bytes[i]?).getD 0).toNat

/-- The 16-bit field at a position of the slot copy (R191). -/
def Slot.half (sl : Slot) (i : Nat) : Nat := sl.byte i + 256 * sl.byte (i + 1)

/-- The 32-bit field at a position of the slot copy (R191). -/
def Slot.word (sl : Slot) (i : Nat) : Nat := sl.half i + 65536 * sl.half (i + 2)

/-- The signed 32-bit field at a position of the slot copy (R191). -/
def Slot.signed (sl : Slot) (i : Nat) : Int := signed32 (sl.word i)

/-- Bit 0 of a byte: a flag (R193, R194). -/
def Slot.flag (sl : Slot) (i : Nat) : Bool := sl.byte i % 2 == 1

/-- The address whose page number stands at a position of the slot copy (R191). -/
def Slot.page (sl : Slot) (i : Nat) : Nat := 4096 * sl.word i

/-- The written mark of a position. -/
def Slot.marked (sl : Slot) (i : Nat) : Bool := (sl.marks[i]?).getD false

/-- A word is seen when the marks of its four bytes are set (R160). -/
def Slot.seen (sl : Slot) (n : Nat) : Bool :=
  sl.marked (4 * n) && sl.marked (4 * n + 1) && sl.marked (4 * n + 2) && sl.marked (4 * n + 3)

/-- The command code (R193). -/
def Slot.code (sl : Slot) : Nat := sl.byte 0

/-- The body length, in words (R193). -/
def Slot.bodyLength (sl : Slot) : Nat := sl.byte 1

/-- The trailer marker (R193). -/
def Slot.marker (sl : Slot) : Nat := sl.byte 61

/-- The marker that makes a trailer a trigger (R162). -/
def markerReady : Nat := 0xA5

/-- The software tag (R193). -/
def Slot.tag (sl : Slot) : Half := BitVec.ofNat 16 (sl.half 62)

/-- The check of R165: words 0 to the body length and the check byte add up to a multiple of 256. -/
def Slot.checkPasses (sl : Slot) : Bool :=
  (((List.range (4 * (sl.bodyLength + 1))).map sl.byte).sum + sl.byte 60) % 256 == 0

/-! ### Command codes -/

/-- The ten commands of the ring (R168). -/
inductive CmdCode where
  | nop
  | sourceSetup
  | sourceControl
  | viewSetup
  | viewControl
  | calLoad
  | zoomSet
  | eventSetup
  | eventForce
  | partReset
deriving DecidableEq, Repr

/-- The command of a code, when it is one of the ten (R191). -/
def CmdCode.ofByte : Nat → Option CmdCode
  | 1 => some .nop
  | 2 => some .sourceSetup
  | 3 => some .sourceControl
  | 4 => some .viewSetup
  | 5 => some .viewControl
  | 6 => some .calLoad
  | 7 => some .zoomSet
  | 8 => some .eventSetup
  | 9 => some .eventForce
  | 10 => some .partReset
  | _ => none

/-- The number of words that a command's fields occupy (R193). -/
def CmdCode.words : CmdCode → Nat
  | .nop => 0
  | .partReset => 0
  | .sourceControl => 1
  | .viewControl => 1
  | .calLoad => 2
  | .eventSetup => 2
  | .eventForce => 2
  | .zoomSet => 4
  | .viewSetup => 7
  | .sourceSetup => 10

/-- The command that a slot holds; none when its word 0 was never seen or its code is not one of the
ten (UNKNOWN_COMMAND_TAKE). -/
def Slot.command (sl : Slot) : Option CmdCode := if sl.seen 0 then CmdCode.ofByte sl.code else none

/-- The action code of SOURCE_CONTROL and VIEW_CONTROL: enable (R191). -/
def actionEnable : Nat := 1
/-- The action code of SOURCE_CONTROL and VIEW_CONTROL: disable (R191). -/
def actionDisable : Nat := 2

/-- The source index, view index or record floor or level, in byte 0 of word 1 (R193). -/
def Slot.index (sl : Slot) : Nat := sl.byte 4

/-- The action, in byte 1 of word 1 (R193). -/
def Slot.action (sl : Slot) : Nat := sl.byte 5

/-- The source that a slot names, when the index is in 0 to 3. -/
def Slot.source (sl : Slot) : Option (Fin 4) :=
  if h : sl.index < 4 then some ⟨sl.index, h⟩ else none

/-- The view that a slot names, when the index is 0 or 1. -/
def Slot.view (sl : Slot) : Option (Fin 2) :=
  if h : sl.index < 2 then some ⟨sl.index, h⟩ else none

/-! ### Bodies -/

/-- The source record that SOURCE_SETUP carries (R3, R193). -/
def Slot.sourceRecord (sl : Slot) : SourceRecord :=
  { tag := BitVec.ofNat 8 (sl.byte 5)
    width := sl.half 8
    height := sl.half 10
    stride := sl.word 12
    positions := sl.byte 6
    spares := sl.byte 7
    watchdog := sl.byte 16
    posBases := (List.range (sl.byte 6)).map fun k => sl.page (20 + 4 * k)
    spareBases := (List.range (sl.byte 7)).map fun j => sl.page (36 + 4 * j) }

/-- Every field of a source record lies in its range (R3, R4 check 2). -/
def SourceRecord.inRange (r : SourceRecord) : Bool :=
  64 ≤ r.width && r.width ≤ 4096 && 64 ≤ r.height && r.height ≤ 3072 &&
  r.stride % 64 == 0 && 4 * r.width ≤ r.stride &&
  2 ≤ r.positions && r.positions ≤ 4 && 1 ≤ r.spares && r.spares ≤ 2 && r.watchdog ≤ 7 &&
  (r.posBases ++ r.spareBases).all
    fun b => b % 4096 == 0 && b + roundUpPage (r.height * r.stride) ≤ addressTop

/-- The view record that VIEW_SETUP carries (R81, R193): with the defaults flag set, the six fields
that have defaults take them. -/
def Slot.viewRecord (sl : Slot) : ViewRecord :=
  let own : ViewRecord :=
    { width := sl.half 8
      height := sl.half 10
      stride := sl.word 12
      base := sl.page 16
      fillY := 16
      fillCb := 128
      fillCr := 128
      lookahead := 4
      warnLead := 2
      holdLimit := 64
      underrunLimit := 4
      idleTimeout := 50 }
  if sl.flag 5 then own
  else
    { own with
      fillY := BitVec.ofNat 8 (sl.byte 20)
      fillCb := BitVec.ofNat 8 (sl.byte 21)
      fillCr := BitVec.ofNat 8 (sl.byte 22)
      lookahead := sl.byte 24
      warnLead := sl.byte 25
      underrunLimit := sl.byte 26
      idleTimeout := sl.byte 27
      holdLimit := sl.half 28 }

/-- The aperture size of a view (R81). -/
def ViewRecord.apertureSize (r : ViewRecord) : Nat := roundUpPage (r.height * r.stride)

/-- The aperture of a view as an address range (R81). -/
def ViewRecord.aperture (r : ViewRecord) : Nat × Nat := (r.base, r.apertureSize)

/-- Every field of a view record lies in its range (R81, R82 check 3). -/
def ViewRecord.inRange (r : ViewRecord) : Bool :=
  64 ≤ r.width && r.width ≤ 3840 && 64 ≤ r.height && r.height ≤ 2160 &&
  r.stride % 16 == 0 && 4 * r.width ≤ r.stride && r.base % 4096 == 0 &&
  1 ≤ r.lookahead && r.lookahead ≤ 8 && r.warnLead ≤ 8 &&
  4 ≤ r.holdLimit && r.holdLimit ≤ 1020 && r.holdLimit % 4 == 0 &&
  1 ≤ r.underrunLimit && r.underrunLimit ≤ 15 && 1 ≤ r.idleTimeout && r.idleTimeout ≤ 255 &&
  r.base + r.apertureSize ≤ addressTop

/-- The offset within the page that CAL_LOAD carries (R34, R193). -/
def Slot.loadOffset (sl : Slot) : Nat := sl.half 8

/-- The length that CAL_LOAD carries (R34, R193). -/
def Slot.loadLength (sl : Slot) : Nat := sl.half 10

/-- The address of the block that CAL_LOAD carries (R34, R193). -/
def Slot.loadAddr (sl : Slot) : Nat := sl.page 4 + sl.loadOffset

/-- The zoom target code that ZOOM_SET carries (R193). -/
def Slot.zoomTarget (sl : Slot) : Nat := sl.half 4

/-- The slew that ZOOM_SET carries (R193). -/
def Slot.zoomSlew (sl : Slot) : Nat := sl.half 6

/-- The pan target that ZOOM_SET carries; none with the keep-pan flag set (R44, R193). -/
def Slot.zoomPan (sl : Slot) : Option (Int × Int) :=
  if sl.flag 16 then none else some (sl.signed 8, sl.signed 12)

/-- The alert mask that EVENT_SETUP carries (R193). -/
def Slot.eventMask (sl : Slot) : BitVec 29 := BitVec.ofNat 29 (sl.word 8)

/-- The argument word that EVENT_FORCE carries (R193). -/
def Slot.forceArg (sl : Slot) : Word := BitVec.ofNat 32 (sl.word 8)

end Sys2Proof.Machine
end

