-- ==== Sys2Proof/Machine/Formats.lean ====
section
/-! DEFINITION. The control page's place and layout (R185, R192), the codes of R191, and the bytes of a
report record (R195, R197) and of a status mirror writing (R196, R197). -/

namespace Sys2Proof.Machine

/-! ### The control page -/

/-- The control page base under a STRAP_CP code (R185). -/
def controlBase (cp : BitVec 4) : Nat := (cp.toNat + 1) * 2 ^ 30 - 65536

/-- The length of the control page (R139). -/
def controlLength : Nat := 65536

/-- The control page as an address range. -/
def controlPage (cp : BitVec 4) : Nat × Nat := (controlBase cp, controlLength)

/-- The offset of the end of the command ring (R192). -/
def ringEnd : Nat := 0x0800
/-- The offset of the acknowledge word (R192). -/
def ackOffset : Nat := 0x0800
/-- The offset of the status mirror (R192). -/
def mirrorOffset : Nat := 0x0900
/-- The offset of the report ring (R192). -/
def reportOffset : Nat := 0x1000

/-- The address of the ring position of a sequence (R172, R192). -/
def recordAddr (cp : BitVec 4) (seq : Half) : Nat :=
  controlBase cp + reportOffset + 32 * (seq.toNat % 256)

/-- The address of the status mirror (R192). -/
def mirrorAddr (cp : BitVec 4) : Nat := controlBase cp + mirrorOffset

/-! ### Codes (R191) -/

/-- The code of a command result (R191). -/
def CmdResult.code : CmdResult → Nat
  | .ok => 0
  | .unknown => 1
  | .incomplete => 2
  | .check => 3
  | .state => 4
  | .range => 5
  | .conflict => 6
  | .busy => 7

/-- The code of a reset cause (R191). -/
def ResetCause.code : ResetCause → Nat
  | .power => 1
  | .pin => 2
  | .soft => 3

/-- The code of a view state (R191). -/
def ViewState.code : ViewState → Nat
  | .disabled => 0
  | .idle => 1
  | .opened _ => 2

/-- The code of a degrade level (R191). -/
def DegradeLevel.code : DegradeLevel → Nat
  | .full => 0
  | .single => 1

/-- The code of a blend direction (R191). -/
def BlendDir.code : BlendDir → Nat
  | .forward => 1
  | .reverse => 2

/-- The code of the hand-off state's direction, 0 outside BLEND (R191, R197). -/
def HandoffState.directionCode : HandoffState → Nat
  | .blend _ _ m => m.code
  | .settled | .prepare .. | .frozen => 0

/-- One byte of a number. -/
def byteOf (n : Nat) : Byte := BitVec.ofNat 8 n

/-- The value of a one-byte field that may be none (R191). -/
def byteOrNone (n : Option Nat) : Byte := byteOf (n.getD 255)

/-! ### The report record (R195) -/

/-- The 32 bytes of a report record with its sequence (R195, R197). -/
def Record.bytes (r : Record) (seq : Half) : List Byte :=
  le16 seq.toNat ++ [byteOf r.kind.code, byteOf r.level, byteOf r.subject, 0] ++ le16 r.count ++
  le32 r.first.toNat ++ le32 r.last.toNat ++ le32 r.arg0.toNat ++ le32 r.arg1.toNat ++
  List.replicate 8 0

/-! ### The status mirror (R196) -/

/-- The part code (R182). -/
def partCode : Nat := 0x0740
/-- The revision (R182). -/
def revision : Nat := 1

/-- The 8 bytes of a source's record in the mirror (R196). -/
def Source.mirrorBytes (src : Source) : List Byte :=
  [byteOf src.state.code, byteOrNone src.newestReady, 0, 0] ++ le32 src.readyCount.toNat

/-- The 16 bytes of a view's record in the mirror (R196). -/
def View.mirrorBytes (v : View) : List Byte :=
  [byteOf v.state.code, byteOf v.degrade.code, byteOf v.saturated.toNat, 0] ++
  le32 v.framesOpened.toNat ++ le16 v.totalUnderruns ++ List.replicate 6 0

/-- The command group of the mirror, bytes 8 to 15 (R196). -/
def CommandUnit.mirrorBytes (c : CommandUnit) : List Byte :=
  le32 c.consumed.toNat ++
  [byteOrNone (c.last.map fun l => l.slot.val), byteOrNone (c.last.map fun l => l.result.code)] ++
  le16 ((c.last.map fun l => l.tag.toNat).getD 0)

/-- The zoom group of the mirror, bytes 20 to 31 (R196). -/
def Zoom.mirrorBytes (z : Zoom) : List Byte :=
  le16 z.target ++ le16 z.current ++ le32 (fixedWord z.panX).toNat ++ le32 (fixedWord z.panY).toNat

/-- The hand-off group of the mirror, bytes 32 to 37 (R196). -/
def Handoff.mirrorBytes (h : Handoff) : List Byte :=
  [byteOf h.state.code, byteOf h.fromSrc.val, byteOrNone (h.toSrc.map Fin.val),
   byteOf h.state.directionCode] ++ le16 h.weight

/-- The 256 bytes of a status mirror writing (R182, R196, R197), with the mirror count as it stands. -/
def State.mirrorBytes (s : State) : List Byte :=
  le16 s.report.mirrorCount.toNat ++ le16 partCode ++
  [byteOf revision, byteOf s.report.cause.code, 0, 0] ++
  s.cmd.mirrorBytes ++
  le16 s.report.writeIndex.toNat ++ le16 s.report.ackIndex.toNat ++
  s.zoom.mirrorBytes ++ s.handoff.mirrorBytes ++
  [byteOf s.cal.stateCode, 0] ++
  s.sources.toList.flatMap Source.mirrorBytes ++
  s.views.toList.flatMap View.mirrorBytes ++
  List.replicate 150 0 ++
  le16 s.report.mirrorCount.toNat

end Sys2Proof.Machine
end

