-- ==== Sys2Proof/Machine/Arbiter.lean ====
section
/-! DEFINITION. The Memory Port Arbiter (chapter 9): the candidates (R123, R152), the ranking (R154),
the pointers (R155), the ages (R156), and the grant of each kind of request (R138, R151, R176, R181). -/

namespace Sys2Proof.Machine

/-! ### Candidates -/

/-- The fetch that entry `n` of view `v` asks for, before its first grant (R123, R124). -/
def State.formFetch (s : State) (v : Fin 2) (n : Fin 16) : Option Fetch :=
  match s.views[v].cache[n] with
  | .fetching key urgent _ =>
    match (s.views[v].plan.bind fun p => p.side key.side), s.sources[key.source].record with
    | some side, some r =>
      let first := r.storeBase key.store + key.row * r.stride + 4 * side.cmin
      let reads := readsFor first (first + 4 * (side.cmax - side.cmin) + 3)
      some { view := v, entry := n, granted := 0, total := reads.length, owed := 0, todo := reads,
             segBase := first, urgent, error := false }
    | _, _ => none
  | .empty | .valid .. | .failed .. | .discarding => none

/-- The oldest issued fetch of a view that has reads not yet granted and meets a test. -/
def State.issuedFetch (s : State) (v : Fin 2) (test : Fetch → Bool) : Option Fetch :=
  s.inflight.find? fun f => f.view == v && !f.todo.isEmpty && test f

/-- The fetch whose next read a view offers, by the order of R123. A fetch with no read granted yet is
still in the view's fetch queue. Outside running a view offers nothing (R157). -/
def State.viewOffer (s : State) (v : Fin 2) : Option Fetch :=
  if s.phase = .running then
    (s.issuedFetch v Fetch.urgent).or
      ((s.views[v].fetchQ.urgent.head?.bind (s.formFetch v)).or
        ((s.issuedFetch v fun _ => true).or
          (s.views[v].fetchQ.normal.head?.bind (s.formFetch v))))
  else none

/-- What the Report Unit offers (R157, R176). -/
def State.reportOffer (s : State) : Option OutItem :=
  if s.phase = .running then s.report.output.head? else none

/-- What the Calibration Store offers: the next read of the load in flight (R35, R152, R157). -/
def State.calOffer (s : State) : Option Span :=
  if s.phase = .running then s.cal.load.bind fun l => l.todo.head? else none

/-- What the pass-through queue offers (R153). -/
def State.passOffer (s : State) : Option Request := s.passQueue.head?

/-! ### Ages (R156) -/

/-- The age at which a candidate is aged (R156). -/
def agedAt : Nat := 64

/-- Whether view `v` offers an urgent candidate. -/
def State.urgentOffer (s : State) (v : Fin 2) : Bool := (s.viewOffer v).any Fetch.urgent

/-- Whether view `v` offers a prefetch candidate. -/
def State.prefetchOffer (s : State) (v : Fin 2) : Bool := (s.viewOffer v).any fun f => !f.urgent

/-- Whether view `v` offers an aged prefetch candidate (R154, R156). -/
def State.agedPrefetch (s : State) (v : Fin 2) : Bool :=
  s.prefetchOffer v && s.arb.ageView[v] == agedAt

/-- The count of a requester that offers no candidate is 0 (R156). -/
def State.settleAges (s : State) : State :=
  { s with arb := { s.arb with
      ageView := Vector.ofFn fun v => if (s.viewOffer v).isSome then s.arb.ageView[v] else 0
      ageReport := if s.reportOffer.isSome then s.arb.ageReport else 0
      ageCal := if s.calOffer.isSome then s.arb.ageCal else 0 } }

/-! ### Ranking (R154, R155) -/

/-- A requester to which the port can be granted (R152). -/
inductive Requester where
  | pass
  | view (v : Fin 2)
  | report
  | cal
deriving DecidableEq, Repr

/-- The other view. -/
def otherView (v : Fin 2) : Fin 2 := 1 - v

/-- The round-robin between the views (R155): the one the pointer names when it offers, else the other
when that one offers. -/
def roundRobin (pointer : Fin 2) (offers : Fin 2 → Bool) : Option Requester :=
  if offers pointer then some (.view pointer)
  else if offers (otherView pointer) then some (.view (otherView pointer))
  else none

/-- The six ranks of R154, each with the requester it would grant. -/
def State.ranks (s : State) : List (Option Requester) :=
  [ roundRobin s.arb.urgentPtr s.urgentOffer,
    (roundRobin s.arb.prefetchPtr s.agedPrefetch).or
      (if s.reportOffer.isSome ∧ s.arb.ageReport = agedAt then some .report
       else if s.calOffer.isSome ∧ s.arb.ageCal = agedAt then some .cal
       else none),
    if s.passOffer.isSome then some .pass else none,
    roundRobin s.arb.prefetchPtr s.prefetchOffer,
    if s.reportOffer.isSome then some .report else none,
    if s.calOffer.isSome then some .cal else none ]

/-- The requester that ranks first (R154). -/
def State.winner (s : State) : Option Requester := s.ranks.findSome? id

/-- An age after a grant: 0 for the requester granted and for one that offers nothing, else one more,
up to 64 (R156). -/
def nextAge (granted offering : Bool) (age : Nat) : Nat :=
  if granted then 0 else if offering then min agedAt (age + 1) else 0

/-- The ages and pointers after a grant to `g`, from the offers at the grant (R155, R156). -/
def State.arbAfter (s : State) (g : Requester) : Arbiter :=
  { ageView := Vector.ofFn fun v =>
      nextAge (g == .view v) (s.viewOffer v).isSome s.arb.ageView[v]
    ageReport := nextAge (g == .report) s.reportOffer.isSome s.arb.ageReport
    ageCal := nextAge (g == .cal) s.calOffer.isSome s.arb.ageCal
    urgentPtr :=
      match g with
      | .view v => if s.urgentOffer v then otherView v else s.arb.urgentPtr
      | .pass | .report | .cal => s.arb.urgentPtr
    prefetchPtr :=
      match g with
      | .view v => if s.prefetchOffer v then otherView v else s.arb.prefetchPtr
      | .pass | .report | .cal => s.arb.prefetchPtr }

/-! ### Issuing a request (R138, R151) -/

/-- The lowest-numbered free entry of the outstanding list (R151). -/
def State.freeEntry (s : State) : Option (Fin 64) :=
  (List.finRange 64).find? fun e => s.outstanding[e].isNone

/-- A request with the entry's number as its request number (R138). -/
def numbered (q : Request) (e : Fin 64) : Request :=
  match q with
  | .read r => .read { r with num := e.val }
  | .write w => .write { w with num := e.val }

/-- A request leaves on the memory port under entry `e` (R138, R151). -/
def State.issue (s : State) (e : Fin 64) (o : Owner) (q : Request) : State :=
  { s with
    outstanding := s.outstanding.set e.val (some ⟨o, false⟩) e.isLt
    memRequests := s.memRequests ++ [numbered q e] }

/-- The master tag of every own request (R138). -/
def ownTag : Byte := 255

/-- An own read request (R124, R138). -/
def ownRead (sp : Span) : Request := .read ⟨ownTag, BitVec.ofNat 40 sp.addr, sp.beats, 0⟩

/-- An own write request, with all its bytes strobed (R138, R197). -/
def ownWrite (addr : Nat) (data : List Byte) : Request :=
  .write ⟨ownTag, BitVec.ofNat 40 addr, data.length / 16, 0, data,
    List.replicate data.length true⟩

/-- Whom the response to a forwarded request belongs to (R138). -/
def ownerOf : Request → Owner
  | .read r => .forwarded r.tag r.num true r.beats
  | .write w => .forwarded w.tag w.num false w.beats

/-! ### The four grants -/

/-- The pass-through queue's oldest request is granted (R153). -/
def State.grantPass (s : State) (e : Fin 64) : State :=
  match s.passQueue with
  | q :: qs => State.issue { s with passQueue := qs } e (ownerOf q) q
  | [] => s

/-- A fetch with its next read granted (R123). -/
def Fetch.grant (f : Fetch) : Fetch :=
  { f with granted := f.granted + 1, owed := f.owed + 1, todo := f.todo.tail }

/-- The data field of a FETCHING entry as its fetch is issued: as many bytes as the segment has, all
zero until they arrive (R117, R125). Log entry 25. -/
def issuedEntry (segment : Nat) : CacheEntry → CacheEntry
  | .fetching key urgent _ => .fetching key urgent (List.replicate segment 0)
  | .empty => .empty
  | .valid k o px => .valid k o px
  | .failed k o => .failed k o
  | .discarding => .discarding

/-- The bytes of the segment that entry `n` of view `v` holds (R117). -/
def State.segmentBytes (s : State) (v : Fin 2) (n : Fin 16) : Nat :=
  match s.views[v].cache[n] with
  | .fetching key _ _ =>
    ((s.views[v].plan.bind fun p => p.side key.side).map fun side =>
      4 * (side.cmax - side.cmin + 1)).getD 0
  | .empty | .valid .. | .failed .. | .discarding => 0

/-- The first read of a queued fetch is granted: its request leaves the fetch queue, the fetch joins
the in-flight list, and its entry is issued (R123). -/
def State.issueFetch (s : State) (f : Fetch) : State :=
  let v := s.views[f.view]
  { s with
    inflight := s.inflight ++ [f.grant]
    views := s.views.set f.view.val
      { v with
        fetchQ := ⟨v.fetchQ.urgent.erase f.entry, v.fetchQ.normal.erase f.entry⟩
        cache := v.cache.set f.entry.val
          (issuedEntry (s.segmentBytes f.view f.entry) v.cache[f.entry]) f.entry.isLt }
      f.view.isLt }

/-- A later read of an issued fetch is granted (R123). -/
def State.continueFetch (s : State) (f : Fetch) : State :=
  { s with inflight :=
      s.inflight.map fun g => if g.view = f.view ∧ g.entry = f.entry then g.grant else g }

/-- The candidate read of view `v` is granted (R123). -/
def State.grantView (s : State) (e : Fin 64) (v : Fin 2) : State :=
  match s.viewOffer v with
  | some f =>
    match f.todo with
    | sp :: _ =>
      State.issue (if f.granted = 0 then s.issueFetch f else s.continueFetch f) e
        (.fetch v f.entry sp) (ownRead sp)
    | [] => s
  | none => s

/-- The head of the Report Unit's output sequence is granted (R176, R181). A mirror writing's contents
are taken here, with the mirror count already raised. -/
def State.grantReport (s : State) (e : Fin 64) : State :=
  match s.reportOffer with
  | some (.record r) =>
    State.issue { s with report := s.report.grantRecord r } e .recordWrite
      (ownWrite (recordAddr s.strapCp s.report.writeIndex) (r.bytes s.report.writeIndex))
  | some .mirror =>
    let s := { s with report := s.report.grantMirror }
    s.issue e .mirrorWrite (ownWrite (mirrorAddr s.strapCp) s.mirrorBytes)
  | none => s

/-- A load with its next read granted (R35). -/
def Load.grant (l : Load) : Load := { l with todo := l.todo.tail, owed := l.owed + 1 }

/-- The next read of the load in flight is granted (R35). -/
def State.grantCal (s : State) (e : Fin 64) : State :=
  match s.calOffer with
  | some sp =>
    State.issue { s with cal := { s.cal with load := s.cal.load.map Load.grant } } e (.load sp)
      (ownRead sp)
  | none => s

/-- The request of a requester is granted entry `e`. -/
def State.grantTo (s : State) (e : Fin 64) : Requester → State
  | .pass => s.grantPass e
  | .view v => s.grantView e v
  | .report => s.grantReport e
  | .cal => s.grantCal e

/-- A grant to requester `g` under entry `e`, with the ages and pointers it moves (R151, R155, R156). -/
def State.grantedTo (s : State) (e : Fin 64) (g : Requester) : State :=
  { s.grantTo e g with arb := s.arbAfter g }

/-- One grant of the memory port (R151): with no free entry or no candidate, none is made. -/
def State.grant (s : State) : State :=
  match s.freeEntry, s.winner with
  | some e, some g => s.grantedTo e g
  | _, _ => s

end Sys2Proof.Machine
end

