-- ==== Sys2Proof/Machine/Ops.lean ====
section
/-! DEFINITION. The memory path (chapter 8): the window table (R139), classification (R140), the
pass-through queue (R141, R153), translation (R142), the copy of control-page writes (R143, R144,
R161 to R163), aperture reads and refused aperture writes (R146, R147), and the acceptance of the
requests that wait on the two upstream channels (R128, R137, R153). -/

namespace Sys2Proof.Machine

/-! ### The window table (R139) -/

/-- The CONTROL window under a STRAP_CP code (R139, R185). -/
def controlWindow (cp : BitVec 4) (active : Bool) : Window :=
  { base := controlBase cp, length := controlLength, kind := .control, active }

/-- Whether a window contains the byte at an address (R140). -/
def Window.contains (w : Window) (a : Nat) : Bool := w.base ≤ a && a < w.base + w.length

/-- Whether a window is a camera window of source `i`. -/
def Window.ofSource (w : Window) (i : Fin 4) : Bool :=
  match w.kind with
  | .camera j _ => i == j
  | .control | .aperture _ => false

/-- Whether a window is the aperture of view `v`. -/
def Window.ofView (w : Window) (v : Fin 2) : Bool :=
  match w.kind with
  | .aperture u => v == u
  | .control | .camera .. => false

/-- The windows that a predicate selects get an active flag (R139). -/
def setActive (sel : Window → Bool) (active : Bool) (ws : List Window) : List Window :=
  ws.map fun w => if sel w then { w with active } else w

/-- The camera windows of a source record, inactive (R3, R5). -/
def cameraWindows (i : Fin 4) (r : SourceRecord) : List Window :=
  r.posBases.mapIdx fun k b =>
    { base := b, length := r.storeSize, kind := .camera i k, active := false }

/-- The window table after an executed SOURCE_SETUP (R5). -/
def replaceCamera (i : Fin 4) (r : SourceRecord) (ws : List Window) : List Window :=
  ws.filter (fun w => !w.ofSource i) ++ cameraWindows i r

/-- The aperture of a view record, inactive (R81). -/
def apertureWindow (v : Fin 2) (r : ViewRecord) : Window :=
  { base := r.base, length := r.apertureSize, kind := .aperture v, active := false }

/-- The window table after an executed VIEW_SETUP (R82). -/
def replaceAperture (v : Fin 2) (r : ViewRecord) (ws : List Window) : List Window :=
  ws.filter (fun w => !w.ofView v) ++ [apertureWindow v r]

/-! ### Classification (R140) -/

/-- The active window that contains an address (R140). Outside running nothing is classified (R148). -/
def State.windowAt (s : State) (a : Addr) : Option Window :=
  if s.phase = .running then s.windows.find? fun w => w.active && w.contains a.toNat else none

/-- The view in whose active aperture an address lies. -/
def State.apertureAt (s : State) (a : Addr) : Option (Fin 2) :=
  match s.windowAt a with
  | some ⟨_, _, .aperture v, _⟩ => some v
  | _ => none

/-- The address that a request in the window of source `i` at position `k` goes on with (R10). -/
def State.translated (s : State) (i : Fin 4) (k : Nat) (w : Window) (a : Addr) : Addr :=
  ((s.sources[i].translate k (a.toNat - w.base)).map (BitVec.ofNat 40)).getD a

/-! ### The pass-through queue (R153) -/

/-- Whether a request is a read. -/
def isReadRequest : Request → Bool
  | .read _ => true
  | .write _ => false

/-- The reads in the pass-through queue. -/
def State.queuedReads (s : State) : Nat := s.passQueue.countP isReadRequest

/-- The writes in the pass-through queue. -/
def State.queuedWrites (s : State) : Nat := s.passQueue.countP fun q => !isReadRequest q

/-- A forwarded request joins the pass-through queue at its end (R141, R153). -/
def State.forward (s : State) (q : Request) : State := { s with passQueue := s.passQueue ++ [q] }

/-! ### The copy of a control-page write (R143, R161 to R163) -/

/-- The strobed bytes of a write with their offsets from the control page base (R143). -/
def copiedBytes (off : Nat) (w : WriteReq) : List (Nat × Byte) :=
  ((w.strobes.zip w.data).mapIdx fun i b => (off + i, b)).filterMap fun x =>
    if x.2.1 then some (x.1, x.2.2) else none

/-- The copied bytes that name slot `n`, each with its position (R143, R161). -/
def slotBytes (n : Fin 32) (bs : List (Nat × Byte)) : List (Fin 64 × Byte) :=
  bs.filterMap fun b =>
    if b.1 / 64 = n.val then some (⟨b.1 % 64, Nat.mod_lt _ (by decide)⟩, b.2) else none

/-- The copied bytes of the acknowledge word, each with its place in the word (R143, R144). -/
def ackBytes (bs : List (Nat × Byte)) : List (Fin 4 × Byte) :=
  bs.filterMap fun b =>
    if ackOffset ≤ b.1 ∧ b.1 < ackOffset + 4 then
      some (⟨b.1 % 4, Nat.mod_lt _ (by decide)⟩, b.2)
    else none

/-- One byte captured (R161). -/
def Slot.captureByte (sl : Slot) (b : Fin 64 × Byte) : Slot :=
  { sl with
    bytes := sl.bytes.set b.1.val b.2 b.1.isLt
    marks := sl.marks.set b.1.val true b.1.isLt }

/-- Whether a slot becoming READY lacks a word that its command needs (R162). -/
def Slot.lacksWords (sl : Slot) : Bool :=
  !sl.seen 0 ||
    (sl.bodyLength ≤ 14 && (List.range sl.bodyLength).any fun n => !sl.seen (n + 1))

/-- The written marks of word 15 cleared (R162). -/
def Slot.clearTrailer (sl : Slot) : Slot :=
  { sl with marks := (((sl.marks.set 60 false).set 61 false).set 62 false).set 63 false }

/-- The trailer test of a write that marked word 15 (R162). -/
def Slot.testTrailer (sl : Slot) : Slot :=
  if sl.seen 15 then
    if sl.marker = markerReady then { sl with state := .ready, incomplete := sl.lacksWords }
    else sl.clearTrailer
  else sl

/-- The bytes of one write captured by a FREE slot, and the trailer test (R161, R162). -/
def Slot.capture (sl : Slot) (bs : List (Fin 64 × Byte)) : Slot :=
  let sl := bs.foldl Slot.captureByte sl
  if bs.any fun b => 60 ≤ b.1.val then sl.testTrailer else sl

/-- CMD_OVERRUN (R163, R195). -/
def cmdOverrunEvent (n : Fin 32) (position : Nat) (consumed : Word) : Event :=
  .mk' .cmdOverrun n.val (argWord position) consumed

/-- The lowest position of some copied bytes. -/
def lowestPosition (bs : List (Fin 64 × Byte)) : Nat := (bs.map fun b => b.1.val).foldl min 63

/-- One slot takes its bytes of a write: captured when it is FREE; else not captured, and the first
such write of a READY period sets the overrun flag and raises CMD_OVERRUN (R161 to R163). -/
def CommandUnit.copySlot (bs : List (Nat × Byte)) (x : CommandUnit × List Event) (n : Fin 32) :
    CommandUnit × List Event :=
  let mine := slotBytes n bs
  let sl := x.1.slots[n]
  if mine.isEmpty then x
  else
    match sl.state with
    | .free => ({ x.1 with slots := x.1.slots.set n.val (sl.capture mine) n.isLt }, x.2)
    | .ready | .taken =>
      if sl.overrun then x
      else
        ({ x.1 with slots := x.1.slots.set n.val { sl with overrun := true } n.isLt },
          x.2 ++ [cmdOverrunEvent n (lowestPosition mine) x.1.consumed])

/-- The Command Unit takes the copied bytes of one write together, slot by slot (R161). -/
def CommandUnit.copy (c : CommandUnit) (bs : List (Nat × Byte)) : CommandUnit × List Event :=
  (List.finRange 32).foldl (CommandUnit.copySlot bs) (c, [])

/-- The copy of a write at an offset of the active CONTROL window: to the Command Unit, then to the
acknowledge copy (R143). Log entry 21 names the order. -/
def State.copyControl (s : State) (off : Nat) (w : WriteReq) : State :=
  let bs := copiedBytes off w
  let (c, es) := s.cmd.copy bs
  let s := State.raiseAll { s with cmd := c } es
  { s with report := s.report.copyAck (ackBytes bs) }

/-! ### Accepting a request (R140) -/

/-- A read accepted (R140): handed to a view, translated, or forwarded unchanged. -/
def State.acceptRead (s : State) (r : ReadReq) : State :=
  match s.windowAt r.addr with
  | some ⟨_, _, .aperture v, _⟩ => (s.acceptAperture v r).settleAges
  | some ⟨b, l, .camera i k, a⟩ =>
    s.forward (.read { r with addr := s.translated i k ⟨b, l, .camera i k, a⟩ r.addr })
  | some ⟨_, _, .control, _⟩ => s.forward (.read r)
  | none => s.forward (.read r)

/-- APERTURE_WRITE (R147, R195). An offset that does not fit its word is a free value; log entry 20. -/
def apertureWriteEvent (v : Fin 2) (tag : Byte) (off : Nat) : Event :=
  .mk' .apertureWrite v.val (argWord tag.toNat)
    (if off < 2 ^ 32 then argWord off else Config.wideOffsetArgument off)

/-- The answer to a refused write (R147). -/
def errorAnswer (w : WriteReq) : UpResponse := ⟨w.tag, w.num, .error, false, 0, []⟩

/-- A response given on an upstream response channel (R137). -/
def State.answer (s : State) (a : UpResponse) : State :=
  { s with up := { s.up with responses := s.up.responses ++ [a] } }

/-- A write accepted in an active aperture is refused (R147). -/
def State.refuseWrite (s : State) (v : Fin 2) (off : Nat) (w : WriteReq) : State :=
  (s.answer (errorAnswer w)).raise (apertureWriteEvent v w.tag off)

/-- A write accepted in an active camera window: the tracker acts on it, and the address it goes on
with is the one the ring map then gives (R10, R11, R14, R142). Log entry 11. -/
def State.cameraWrite (s : State) (win : Window) (i : Fin 4) (k : Nat) (w : WriteReq) : State :=
  let s := s.onSource i fun src =>
    src.onWrite i s.cal.active s.timeBase k (w.addr.toNat - win.base) w
  s.forward (.write { w with addr := s.translated i k win w.addr })

/-- A write accepted (R140): refused, reported and translated, copied, or forwarded unchanged. -/
def State.acceptWrite (s : State) (w : WriteReq) : State :=
  match s.windowAt w.addr with
  | some ⟨b, _, .aperture v, _⟩ => s.refuseWrite v (w.addr.toNat - b) w
  | some ⟨b, l, .camera i k, a⟩ => s.cameraWrite ⟨b, l, .camera i k, a⟩ i k w
  | some ⟨b, _, .control, _⟩ => (s.copyControl (w.addr.toNat - b) w).forward (.write w)
  | none => s.forward (.write w)

/-! ### Waiting channels (R128, R137, R153) -/

/-- The most reads a view holds (R127). -/
def heldLimit : Nat := 8
/-- The most requests of each kind that the pass-through queue holds (R153). -/
def passLimit : Nat := 16

/-- Whether a read at the head of its channel can be accepted (R128, R146, R153). -/
def State.canAcceptRead (s : State) (r : ReadReq) : Bool :=
  match s.apertureAt r.addr with
  | some v => s.views[v].held.length < heldLimit
  | none => s.queuedReads < passLimit

/-- Whether a write at the head of its channel can be accepted (R147, R153). -/
def State.canAcceptWrite (s : State) (w : WriteReq) : Bool :=
  match s.apertureAt w.addr with
  | some _ => true
  | none => s.queuedWrites < passLimit

/-- The read at the head of its channel is accepted. -/
def State.takeRead (s : State) (r : ReadReq) : State :=
  State.acceptRead { s with up := { s.up with reads := s.up.reads.tail } } r

/-- The write at the head of its channel is accepted. -/
def State.takeWrite (s : State) (w : WriteReq) : State :=
  State.acceptWrite { s with up := { s.up with writes := s.up.writes.tail } } w

/-- The acceptance of one waiting request, when the head of a channel can be accepted. When both heads
can, the order is open (R137): a free value decides. Log entry 5. -/
def State.acceptOne (s : State) : Option State :=
  match s.up.reads.head?.filter s.canAcceptRead, s.up.writes.head?.filter s.canAcceptWrite with
  | some r, none => some (s.takeRead r)
  | none, some w => some (s.takeWrite w)
  | some r, some w =>
    let t := { s with draws := s.draws + 1 }
    if Config.readFirst s.draws then some (t.takeRead r) else some (t.takeWrite w)
  | none, none => none

/-- Acceptances go on while a head can be accepted; `n` bounds them by the number waiting. -/
def State.acceptUpTo : Nat → State → State
  | 0, s => s
  | n + 1, s =>
    match s.acceptOne with
    | some t => State.acceptUpTo n t
    | none => s

/-- Every acceptance that the part can now make. Log entry 5. -/
def State.acceptWaiting (s : State) : State :=
  s.acceptUpTo (s.up.reads.length + s.up.writes.length)

/-- A read is presented at the end of the read channel (R137). -/
def State.presentRead (s : State) (r : ReadReq) : State :=
  State.acceptWaiting { s with up := { s.up with reads := s.up.reads ++ [r] } }

/-- A write is presented at the end of the write channel (R137). -/
def State.presentWrite (s : State) (w : WriteReq) : State :=
  State.acceptWaiting { s with up := { s.up with writes := s.up.writes ++ [w] } }

/-- A request is presented at its channel (R137). -/
def State.present (s : State) : Request → State
  | .read r => s.presentRead r
  | .write w => s.presentWrite w

/-- A request of the shape of R137 is presented; another stops the part. Log entry 6. -/
def State.request (s : State) (q : Request) : Host.Outcome State Fault Refusal :=
  if q.wf then .next (s.present q) else .fault .malformedRequest

end Sys2Proof.Machine
end

