-- ==== Sys2Proof/Machine/Responses.lean ====
section
/-! DEFINITION. Responses on the memory port (R138): relayed (R141), dropped (R148), placed in a row
cache entry (R125) or in the load buffer (R35), or ending a record or mirror writing (R176, R181). -/

namespace Sys2Proof.Machine

/-- The data bytes that a response to an outstanding request carries (R137, R138). -/
def Owner.dataLength : Owner → Nat
  | .forwarded _ _ isRead beats => if isRead then 16 * beats else 0
  | .fetch _ _ sp => 16 * sp.beats
  | .load sp => 16 * sp.beats
  | .recordWrite => 0
  | .mirrorWrite => 0

/-- The response relayed to a requester (R137, R141). -/
def relayed (tag : Byte) (num : Nat) (isRead : Bool) (beats : Nat) (m : MemResp) : UpResponse :=
  ⟨tag, num, m.code, isRead, if isRead then beats else 0, m.data⟩

/-- An outstanding entry is freed (R138). -/
def State.freeOutstanding (s : State) (e : Fin 64) : State :=
  { s with outstanding := s.outstanding.set e.val none e.isLt }

/-! ### Fetches (R125) -/

/-- Whether a fetch is the one into entry `n` of view `v`. -/
def Fetch.isOf (v : Fin 2) (n : Fin 16) (f : Fetch) : Bool := f.view == v && f.entry == n

/-- The data of an OKAY response placed in a FETCHING entry (R124, R125). -/
def placeInEntry (segBase : Nat) (sp : Span) (m : MemResp) : CacheEntry → CacheEntry
  | .fetching key urgent data =>
    match m.code with
    | .okay => .fetching key urgent (placeBytes segBase data sp.addr m.data)
    | .error => .fetching key urgent data
  | .empty => .empty
  | .valid k o px => .valid k o px
  | .failed k o => .failed k o
  | .discarding => .discarding

/-- A fetch after one of its responses (R123, R125). -/
def Fetch.responded (f : Fetch) (m : MemResp) : Fetch :=
  { f with owed := f.owed - 1, error := f.error || m.code == .error }

/-- Whether a fetch has all its reads granted and no response owed (R125). -/
def Fetch.done (f : Fetch) : Bool := f.todo.isEmpty && f.owed == 0

/-- The entry of a completed fetch, with the view's completion count (R116, R125). -/
def View.completeEntry (v : View) (n : Fin 16) (error : Bool) : View :=
  let count := v.completionCount + 1
  match v.cache[n] with
  | .fetching key _ data =>
    { v.setEntry n (if error then .failed key count else .valid key count data) with
      completionCount := count }
  | .discarding => v.setEntry n .empty
  | .empty | .valid .. | .failed .. => v

/-- A fetch completes: it leaves the in-flight list, its entry changes, and a demand pass and the
answers that the queue can then give follow (R122, R125). No prefetch is made when a DISCARDING entry
becomes EMPTY: a prefetch that stopped short resumes at the next read answered with composed pixels, as
R121 gives it, and "It resumes as they empty" of R126 is read by R121. Log entry 41. -/
def ViewWork.completeFetch (e : ViewEnv) (n : Fin 16) (error : Bool) (w : ViewWork) : ViewWork :=
  ((({ w with
      view := w.view.completeEntry n error
      inflight := w.inflight.filter fun f => !f.isOf e.idx n } : ViewWork).demandPass e).answerAll e)

/-- A response of a fetch that is not its last: the fetch stands with one response less owed. -/
def ViewWork.continueFetch (e : ViewEnv) (n : Fin 16) (m : MemResp) (w : ViewWork) : ViewWork :=
  { w with inflight := w.inflight.map fun f => if f.isOf e.idx n then f.responded m else f }

/-- One response to the fetch into entry `n` of the view (R125). -/
def ViewWork.fetchResponse (e : ViewEnv) (n : Fin 16) (sp : Span) (m : MemResp) (w : ViewWork) :
    ViewWork :=
  match w.inflight.find? fun f => f.isOf e.idx n with
  | none => w
  | some f =>
    let w := { w with view := w.view.setEntry n (placeInEntry f.segBase sp m w.view.cache[n]) }
    let g := f.responded m
    if g.done then w.completeFetch e n g.error else w.continueFetch e n m

/-! ### The calibration load (R35, R38) -/

/-- One response to the load in flight; the last ends it (R35). -/
def State.loadResponse (s : State) (sp : Span) (m : MemResp) : State :=
  match s.cal.load with
  | none => s
  | some l =>
    let l := l.respond sp m
    let cal := { s.cal with load := some l }
    if l.ended then
      let (cal, es) := cal.endLoad s.sources
      State.raiseAll { s with cal } es
    else { s with cal }

/-! ### The hand-over of a response -/

/-- A response handed to its owner (R138). A record or mirror writing counts as written whatever the
code (R176, R181). -/
def State.hand (s : State) (o : Owner) (m : MemResp) : State :=
  match o with
  | .forwarded tag num isRead beats => s.answer (relayed tag num isRead beats m)
  | .fetch v n sp => (s.onView v fun e w => w.fetchResponse e n sp m).settleAges
  | .load sp => s.loadResponse sp m
  | .recordWrite => s
  | .mirrorWrite => s

/-- A response arrives for a taken entry: the entry is freed, and the response is dropped when the entry
is marked discarded (R148), else handed to its owner. -/
def State.arrive (s : State) (e : Fin 64) (o : OutEntry) (m : MemResp) : State :=
  let s := s.freeOutstanding e
  if o.discarded then s else s.hand o.owner m

/-- Memory answers entry `e` (R138). A response for a free entry, or with other data than its request
asked for, stops the part; log entry 7. -/
def State.respond (s : State) (e : Fin 64) (m : MemResp) : Host.Outcome State Fault Refusal :=
  match s.outstanding[e] with
  | none => .fault .unmatchedResponse
  | some o =>
    if m.data.length = o.owner.dataLength then .next (s.arrive e o m).acceptWaiting
    else .fault .malformedResponse

end Sys2Proof.Machine
end

