-- ==== Sys2Proof/Machine/PortSteps.lean ====
section
/-! DEFINITION. The meanings of the memory port family: ARBITER_GRANT and the five rows of a response.
The outstanding entry names the response's owner (R138), so each response row hands its response over
by that entry; log entry 4. -/

namespace Sys2Proof.Machine

/-- ARBITER_GRANT (R151): a grant of a forwarded request may make room for a waiting one (R153). -/
def execArbiterGrant (s : State) : Host.Outcome State Fault Refusal := .next s.grant.acceptWaiting

/-- RESPONSE_RELAY (R141). -/
def execResponseRelay (e : Fin 64) (m : MemResp) (s : State) : Host.Outcome State Fault Refusal :=
  s.respond e m

/-- DISCARDED_RESPONSE (R148). -/
def execDiscardedResponse (e : Fin 64) (m : MemResp) (s : State) :
    Host.Outcome State Fault Refusal := s.respond e m

/-- FETCH_COMPLETION (R125). -/
def execFetchCompletion (e : Fin 64) (m : MemResp) (s : State) : Host.Outcome State Fault Refusal :=
  s.respond e m

/-- CALIBRATION_LOAD_END (R35). -/
def execCalibrationLoadEnd (e : Fin 64) (m : MemResp) (s : State) :
    Host.Outcome State Fault Refusal := s.respond e m

/-- OWN_REQUEST_RESPONSE (R138). -/
def execOwnRequestResponse (e : Fin 64) (m : MemResp) (s : State) :
    Host.Outcome State Fault Refusal := s.respond e m

end Sys2Proof.Machine
end

