-- ==== Sys2Proof/Machine/RequestSteps.lean ====
section
/-! DEFINITION. The meanings of the request family: a master presents a request on the upstream port.
The Window Decoder's classification at the request's acceptance decides what becomes of it (R140), so
each row presents its request and the memory path of Machine/Ops.lean routes it; log entry 4. -/

namespace Sys2Proof.Machine

/-- PASS_THROUGH_REQUEST (R141). -/
def execPassThroughRequest (q : Request) (s : State) : Host.Outcome State Fault Refusal :=
  s.request q

/-- CAMERA_READ (R10). -/
def execCameraRead (r : ReadReq) (s : State) : Host.Outcome State Fault Refusal :=
  s.request (.read r)

/-- CAMERA_WRITE (R11). -/
def execCameraWrite (w : WriteReq) (s : State) : Host.Outcome State Fault Refusal :=
  s.request (.write w)

/-- CONTROL_PAGE_WRITE (R143). -/
def execControlPageWrite (w : WriteReq) (s : State) : Host.Outcome State Fault Refusal :=
  s.request (.write w)

/-- APERTURE_READ (R146). -/
def execApertureRead (r : ReadReq) (s : State) : Host.Outcome State Fault Refusal :=
  s.request (.read r)

/-- APERTURE_WRITE_REFUSED (R147). -/
def execApertureWriteRefused (w : WriteReq) (s : State) : Host.Outcome State Fault Refusal :=
  s.request (.write w)

end Sys2Proof.Machine
end

