-- ==== Sys2Proof/Machine/Reset.lean ====
section
/-! DEFINITION. The three resets and initialization (chapter 12): what every reset does (R148, R189),
the straps (R185), and the end of initialization (R149, R183, R190). -/

namespace Sys2Proof.Machine

/-- The mark that a reset leaves on an outstanding entry: own requests are discarded, forwarded ones
kept (R148). -/
def OutEntry.atReset (o : OutEntry) : OutEntry :=
  match o.owner with
  | .forwarded .. => o
  | .fetch .. | .load _ | .recordWrite | .mirrorWrite => { o with discarded := true }

/-- The answers that a reset gives to the held reads: fill, view 0's first (R135, R189). Log entry 22
names the order between the views. -/
def State.resetAnswers (s : State) : List UpResponse := s.views.toList.flatMap fillHeld

/-- Every block at its reset values, with the CONTROL window alone, inactive (R8, R33, R43, R58, R85,
R135, R139, R155, R156, R160, R183). -/
def State.blocksReset (s : State) (c : ResetCause) : State :=
  { s with
    timeBase := 0
    windows := [controlWindow s.strapCp false]
    arb := Arbiter.reset
    cmd := CommandUnit.reset
    sources := Vector.replicate 4 Source.reset
    cal := CalStore.reset
    zoom := Zoom.reset
    handoff := Handoff.reset
    views := Vector.replicate 2 View.reset
    inflight := []
    report := Report.reset c }

/-- A reset of kind `c` taken with traffic under way, leaving the part in `phase` (R148, R189). The
requests of the pass-through queue and of the two channels are kept; log entry 30. -/
def State.takeReset (s : State) (c : ResetCause) (phase : Phase) : State :=
  let answers := s.resetAnswers
  let s := s.blocksReset c
  State.acceptWaiting
    { s with
      phase
      up := { s.up with responses := s.up.responses ++ answers }
      outstanding := s.outstanding.map fun o => o.map OutEntry.atReset }

/-- A power-on reset (R187): everything at its reset values and every holding empty. The held reads are
answered as at every reset (R189); the level of RST_N is the pin's own, and the model's records and its
queue go on. Log entry 29. -/
def State.powerOn (s : State) : State :=
  { State.reset with
    pending := s.pending
    rstN := s.rstN
    up := { State.reset.up with responses := s.up.responses ++ s.resetAnswers }
    memRequests := s.memRequests
    draws := s.draws }

/-- The straps are sampled, which places the CONTROL window (R139, R185). -/
def State.sampleStraps (s : State) (cp : BitVec 4) (clk : BitVec 2) : State :=
  { s with strapCp := cp, strapClk := clk, windows := [controlWindow cp false] }

/-- Initialization begins: the time base starts from 0 (R186, R190). -/
def State.beginInit (s : State) : State := { s with phase := .initializing, timeBase := 0 }

/-- The end of a power-on hold, with RST_N high (R187). -/
def State.endHold (s : State) (cp : BitVec 4) (clk : BitVec 2) : State :=
  if s.phase = .powerOnHold ∧ s.rstN = true then (s.sampleStraps cp clk).beginInit else s

/-- RST_N goes low (R187, R188). In a power-on hold it only lengthens the hold. Already low, it stays
so. -/
def State.lowerRstN (s : State) : State :=
  match s.phase with
  | .powerOnHold => { s with rstN := false }
  | .pinHold => s
  | .initializing | .running => State.takeReset { s with rstN := false } .pin .pinHold

/-- RST_N returns high, and the straps are sampled (R185, R188). In a power-on hold the hold goes on
until its own end (R187). -/
def State.raiseRstN (s : State) (cp : BitVec 4) (clk : BitVec 2) : State :=
  match s.phase with
  | .pinHold => ({ s with rstN := true } : State).sampleStraps cp clk |>.beginInit
  | .powerOnHold =>
    if s.rstN then s else ({ s with rstN := true } : State).sampleStraps cp clk
  | .initializing | .running => s

/-- The time, in µs, that initialization lasts (R190). -/
def initTime : Nat := 256

/-- RESET_DONE (R183, R195). -/
def resetDoneEvent (c : ResetCause) : Event :=
  .mk' .resetDone 0 (argWord c.code) (argWord revision)

/-- Whether a window is the CONTROL window. -/
def Window.isControl (w : Window) : Bool :=
  match w.kind with
  | .control => true
  | .camera .. | .aperture _ => false

/-- The end of initialization (R149, R183, R190). -/
def State.endInit (s : State) : State :=
  if s.phase = .initializing ∧ initTime ≤ s.timeBase.toNat then
    (State.raise
      { s with phase := .running, windows := setActive Window.isControl true s.windows }
      (resetDoneEvent s.report.cause)).requestMirror
  else s

/-- The REFCLK frequency, in kHz, that a STRAP_CLK code selects (R185). -/
def refclkKHz (clk : BitVec 2) : Nat :=
  match clk.toNat with
  | 0 => 19200
  | 1 => 26000
  | 2 => 38400
  | _ => 19200

/-- What the time base does while REFCLK runs for some thousandths of its period: it advances by one for
each microsecond that the part derives from REFCLK under the sampled code, whatever REFCLK's own
frequency (R185, R186). It stands in a power-on hold and while RST_N is held low. The thousandths are
counted from a count of the time base. Log entry 28. -/
def State.passRefclk (s : State) (thousandths : Nat) : State :=
  match s.phase with
  | .powerOnHold | .pinHold => s
  | .initializing | .running =>
    { s with timeBase := s.timeBase + BitVec.ofNat 32 (thousandths / refclkKHz s.strapClk) }

/-- An idle step: REFCLK runs for as long as the part takes for a microsecond (R186). Log entry 1. -/
def State.tick (s : State) : State := s.passRefclk (refclkKHz s.strapClk)

end Sys2Proof.Machine
end

