-- ==== Sys2Proof/Machine/ResetSteps.lean ====
section
/-! DEFINITION. The meanings of the reset family: POWER_ON_RESET, POWER_ON_HOLD_END, PIN_RESET,
RST_N_RELEASE and END_OF_INITIALIZATION (chapter 12). A row that is not due leaves the state as it is;
log entry 3. -/

namespace Sys2Proof.Machine

/-- POWER_ON_RESET (R187). -/
def execPowerOnReset (s : State) : Host.Outcome State Fault Refusal := .next s.powerOn

/-- POWER_ON_HOLD_END (R185, R187). -/
def execPowerOnHoldEnd (cp : BitVec 4) (clk : BitVec 2) (s : State) :
    Host.Outcome State Fault Refusal := .next (s.endHold cp clk)

/-- PIN_RESET (R188). -/
def execPinReset (s : State) : Host.Outcome State Fault Refusal := .next s.lowerRstN

/-- RST_N_RELEASE (R185, R188). -/
def execRstNRelease (cp : BitVec 4) (clk : BitVec 2) (s : State) :
    Host.Outcome State Fault Refusal := .next (s.raiseRstN cp clk)

/-- END_OF_INITIALIZATION (R149, R190). -/
def execEndOfInitialization (s : State) : Host.Outcome State Fault Refusal := .next s.endInit

end Sys2Proof.Machine
end

