-- ==== Sys2Proof/Machine/Commands.lean ====
section
/-! DEFINITION. The take of a command slot (R164 to R167) and what each owning block does with its
command (chapters 1, 2, 3, 5, 10 and 11). An owner answers a result and the state its effect leaves;
with a result other than OK it leaves the state as it was (R167). -/

namespace Sys2Proof.Machine

/-! ### The take -/

/-- The Command Unit's own checks: rows 1 to 6 of R164. -/
def ownCheck (sl : Slot) (checkEnable : Bool) : Option CmdResult :=
  if sl.incomplete ∧ sl.seen 0 = false then some .incomplete
  else if 14 < sl.bodyLength then some .range
  else if sl.incomplete then some .incomplete
  else if checkEnable ∧ sl.checkPasses = false then some .check
  else
    match CmdCode.ofByte sl.code with
    | none => some .unknown
    | some c => if sl.bodyLength < c.words then some .range else none

/-- The slot that the next-slot pointer names, when it is READY (R164). -/
def State.readySlot (s : State) : Option Slot :=
  let sl := s.cmd.slots[s.cmd.next]
  if sl.state = .ready then some sl else none

/-- The slot at the pointer becomes TAKEN (R164). -/
def State.markTaken (s : State) : State :=
  { s with cmd := { s.cmd with
      slots := s.cmd.slots.set s.cmd.next.val
        { s.cmd.slots[s.cmd.next] with state := .taken } s.cmd.next.isLt } }

/-- The Command Unit after a take of slot `sl` with a result: steps 1 to 4 of R166. -/
def CommandUnit.complete (c : CommandUnit) (sl : Slot) (r : CmdResult) : CommandUnit :=
  { c with
    slots := c.slots.set c.next.val Slot.freed c.next.isLt
    next := c.next + 1
    consumed := c.consumed + 1
    last := some ⟨c.next, r, sl.tag⟩ }

/-- CMD_REFUSED (R167, R195). -/
def cmdRefusedEvent (n : Fin 32) (sl : Slot) (r : CmdResult) : Event :=
  .mk' .cmdRefused n.val (argWord (sl.code + 256 * r.code)) (argWord sl.tag.toNat)

/-- The completion of a take (R166). -/
def State.completeTake (s : State) (sl : Slot) (r : CmdResult) : State :=
  let n := s.cmd.next
  let s := { s with cmd := s.cmd.complete sl r }
  (if r = .ok then s else s.raise (cmdRefusedEvent n sl r)).requestMirror

/-- An owning block's answer to its command. -/
abbrev OwnerAct := Slot → State → CmdResult × State

/-- The take of a READY slot: the Command Unit's checks, then the owner's, then the completion (R164). -/
def State.runTake (s : State) (sl : Slot) (act : OwnerAct) : State :=
  let s := s.markTaken
  match ownCheck sl s.cmd.checkEnable with
  | some r => s.completeTake sl r
  | none =>
    let (r, t) := act sl s
    (if r = .ok then t else s).completeTake sl r

/-- The take that one row of the table stands for: the slot at the pointer is READY and holds the row's
command. Otherwise the row is not what the part does, and the state stays; log entry 3. -/
def State.take (s : State) (mine : Slot → Bool) (act : OwnerAct) : State :=
  match s.readySlot with
  | some sl => if mine sl then s.runTake sl act else s
  | none => s

/-- Whether a slot holds a command of the given code. -/
def holds (c : CmdCode) (sl : Slot) : Bool := sl.command == some c

/-- Whether a slot holds a control command that a disable row does not own (R6, R83). One whose action
is neither is owned by both rows; log entry 26. -/
def holdsEnable (c : CmdCode) (sl : Slot) : Bool := holds c sl && sl.action != actionDisable

/-- Whether a slot holds a control command that an enable row does not own (R7, R84). -/
def holdsDisable (c : CmdCode) (sl : Slot) : Bool := holds c sl && sl.action != actionEnable

/-! ### NOP (R169) -/

/-- NOP has no effect (R169). -/
def actNop : OwnerAct := fun _ s => (.ok, s)

/-! ### SOURCE_SETUP (R4, R5) -/

/-- Whether two of some address ranges overlap. -/
def anyOverlap : List (Nat × Nat) → Bool
  | [] => false
  | x :: xs => xs.any (rangesOverlap x) || anyOverlap xs

/-- The windows and stores of the sources other than `i` that are not UNSET (R4). -/
def State.otherRanges (s : State) (i : Fin 4) : List (Nat × Nat) :=
  (List.finRange 4).flatMap fun j =>
    if j = i then [] else ((s.sources[j].record).map SourceRecord.ranges).getD []

/-- The windows and stores of every source that is not UNSET (R82). -/
def State.sourceRanges (s : State) : List (Nat × Nat) :=
  s.sources.toList.flatMap fun src => ((src.record).map SourceRecord.ranges).getD []

/-- The apertures of the views that have been set up (R4). -/
def State.apertures (s : State) : List (Nat × Nat) :=
  s.views.toList.filterMap fun v => v.record.map ViewRecord.aperture

/-- Whether the ranges of a new source record conflict (R4 check 3). -/
def State.sourceConflict (s : State) (i : Fin 4) (r : SourceRecord) : Bool :=
  anyOverlap r.ranges ||
    r.ranges.any fun x =>
      (controlPage s.strapCp :: (s.otherRanges i ++ s.apertures)).any (rangesOverlap x)

/-- Whether another source that is not UNSET has the same master tag (R4 check 4). -/
def State.tagTaken (s : State) (i : Fin 4) (tag : Byte) : Bool :=
  (List.finRange 4).any fun j => j != i && (s.sources[j].record).any fun r => r.tag == tag

/-- Whether a source is UNSET or OFF (R4 check 1). -/
def SourceState.settable : SourceState → Bool
  | .unset | .off => true
  | .waiting | .running | .stalled => false

/-- The checks of SOURCE_SETUP in their order (R4). -/
def State.sourceSetupResult (s : State) (i : Fin 4) (r : SourceRecord) : CmdResult :=
  if s.sources[i].state.settable = false then .state
  else if r.inRange = false then .range
  else if s.sourceConflict i r then .conflict
  else if s.tagTaken i r.tag then .conflict
  else if s.sources[i].stores.any fun st => 0 < st.pins then .busy
  else .ok

/-- A source just set up (R5). -/
def Source.setUp (r : SourceRecord) : Source :=
  { state := .off
    record := some r
    ringMap := identityMap r.positions
    stores := List.replicate r.storeCount (FrameStore.fresh r.wholeFrame)
    readyCount := 0
    watchdog := none
    recoveryRun := 0 }

/-- The effect of an executed SOURCE_SETUP (R5). -/
def State.setUpSource (s : State) (i : Fin 4) (r : SourceRecord) : State :=
  { s with
    sources := s.sources.set i.val (Source.setUp r) i.isLt
    windows := replaceCamera i r s.windows }

/-- SOURCE_SETUP (R4, R5). An index outside 0 to 3 is refused with RANGE. -/
def actSourceSetup : OwnerAct := fun sl s =>
  match sl.source with
  | none => (.range, s)
  | some i => (s.sourceSetupResult i sl.sourceRecord, s.setUpSource i sl.sourceRecord)

/-! ### SOURCE_CONTROL (R6, R7) -/

/-- A store at an enable: an unpinned READY or SHORT store becomes FREE (R6). -/
def FrameStore.atEnable (st : FrameStore) : FrameStore :=
  if st.pins = 0 ∧ (st.state = .ready ∨ st.state = .short) then st.freed else st

/-- A source enabled at time `now` (R6, R27). -/
def Source.enable (src : Source) (now : Word) : Source :=
  { src with
    state := .waiting
    stores := src.stores.map FrameStore.atEnable
    watchdog := some now
    recoveryRun := 0 }

/-- The effect of an executed SOURCE_CONTROL enable (R6). -/
def State.enableSource (s : State) (i : Fin 4) : State :=
  { s with
    sources := s.sources.set i.val (s.sources[i].enable s.timeBase) i.isLt
    windows := setActive (fun w => w.ofSource i) true s.windows }

/-- SOURCE_CONTROL enable (R6). -/
def actSourceEnable : OwnerAct := fun sl s =>
  match sl.source with
  | none => (.range, s)
  | some i =>
    if sl.action ≠ actionEnable then (.range, s)
    else if s.sources[i].state = .off then (.ok, s.enableSource i)
    else (.state, s)

/-- A source disabled (R7). -/
def Source.disable (src : Source) : Source :=
  { src with
    state := .off
    ringMap := identityMap ((src.record.map SourceRecord.positions).getD 0)
    watchdog := none
    recoveryRun := 0 }

/-- The effect of an executed SOURCE_CONTROL disable of a source that is not OFF (R7). -/
def State.disableSource (s : State) (i : Fin 4) : State :=
  { s with
    sources := s.sources.set i.val s.sources[i].disable i.isLt
    windows := setActive (fun w => w.ofSource i) false s.windows }

/-- SOURCE_CONTROL disable (R7). -/
def actSourceDisable : OwnerAct := fun sl s =>
  match sl.source with
  | none => (.range, s)
  | some i =>
    if sl.action ≠ actionDisable then (.range, s)
    else
      match s.sources[i].state with
      | .unset => (.state, s)
      | .off => (.ok, s)
      | .waiting | .running | .stalled => (.ok, s.disableSource i)

/-! ### VIEW_SETUP (R82) -/

/-- Whether a new aperture conflicts (R82 check 4). -/
def State.apertureConflict (s : State) (v : Fin 2) (r : ViewRecord) : Bool :=
  (controlPage s.strapCp ::
      (s.sourceRanges ++ ((s.views[otherView v].record).map ViewRecord.aperture).toList)).any
    (rangesOverlap r.aperture)

/-- The checks of VIEW_SETUP after the index (R82). -/
def State.viewSetupResult (s : State) (v : Fin 2) (r : ViewRecord) : CmdResult :=
  if s.views[v].enabled then .state
  else if r.inRange = false then .range
  else if s.apertureConflict v r then .conflict
  else .ok

/-- A view just set up (R82, R134). -/
def View.setUp (v : View) (r : ViewRecord) : View :=
  { v with
    record := some r
    framesOpened := 0
    totalUnderruns := 0
    degrade := .full
    cleanRun := 0
    warnedRun := 0
    saturated := false }

/-- The effect of an executed VIEW_SETUP (R82). -/
def State.setUpView (s : State) (v : Fin 2) (r : ViewRecord) : State :=
  { s with
    views := s.views.set v.val (s.views[v].setUp r) v.isLt
    windows := replaceAperture v r s.windows }

/-- VIEW_SETUP (R82). -/
def actViewSetup : OwnerAct := fun sl s =>
  match sl.view with
  | none => (.range, s)
  | some v => (s.viewSetupResult v sl.viewRecord, s.setUpView v sl.viewRecord)

/-! ### VIEW_CONTROL (R83, R84) -/

/-- A view enabled (R83). Its cache keeps the entries that still wait for a discarded fetch; log
entry 23. -/
def View.enable (v : View) : View :=
  { v with state := .idle, plan := none, degrade := .full, cleanRun := 0, markRow := 0 }

/-- The effect of an executed VIEW_CONTROL enable (R83). -/
def State.enableView (s : State) (v : Fin 2) : State :=
  { s with
    views := s.views.set v.val s.views[v].enable v.isLt
    windows := setActive (fun w => w.ofView v) true s.windows }

/-- VIEW_CONTROL enable (R83). -/
def actViewEnable : OwnerAct := fun sl s =>
  match sl.view with
  | none => (.range, s)
  | some v =>
    if sl.action ≠ actionEnable then (.range, s)
    else if s.views[v].record.isSome ∧ s.views[v].enabled = false then (.ok, s.enableView v)
    else (.state, s)

/-- A view disabled, once its held reads are answered and its cache is cleared (R84). -/
def View.disable (v : View) : View := { v with state := .disabled, plan := none, held := [] }

/-- The effect of an executed VIEW_CONTROL disable of an enabled view, in the order of R84. -/
def State.disableView (s : State) (v : Fin 2) : State :=
  let old := s.views[v]
  let s := { s with
    up := { s.up with responses := s.up.responses ++ fillHeld old }
    sources := releasePlan s.sources old.plan }
  let s := s.onView v fun _ w => w.clear v
  State.settleAges
    { s with
      views := s.views.set v.val s.views[v].disable v.isLt
      windows := setActive (fun w => w.ofView v) false s.windows }

/-- VIEW_CONTROL disable (R84). -/
def actViewDisable : OwnerAct := fun sl s =>
  match sl.view with
  | none => (.range, s)
  | some v =>
    if sl.action ≠ actionDisable then (.range, s)
    else if s.views[v].record.isNone then (.state, s)
    else if s.views[v].enabled then (.ok, s.disableView v)
    else (.ok, s)

/-! ### CAL_LOAD (R34) -/

/-- The checks of CAL_LOAD (R34). -/
def State.calLoadResult (s : State) (sl : Slot) : CmdResult :=
  if s.cal.load.isSome then .busy
  else if 4095 < sl.loadOffset ∨ sl.loadLength < headerSize ∨ 1024 < sl.loadLength ∨
      addressTop < sl.loadAddr + sl.loadLength then .range
  else .ok

/-- CAL_LOAD (R34). -/
def actCalLoad : OwnerAct := fun sl s =>
  (s.calLoadResult sl,
    { s with cal := { s.cal with load := some (Load.start sl.loadAddr sl.loadLength) } })

/-! ### ZOOM_SET (R44, R45) -/

/-- The largest slew (R42, R44). -/
def slewLimit : Nat := 4096

/-- ZOOM_SET (R44, R45, R52). -/
def actZoomSet : OwnerAct := fun sl s =>
  if slewLimit < sl.zoomSlew then (.range, s)
  else
    let (zm, es) := s.zoom.set s.hasLead sl.zoomTarget sl.zoomSlew sl.zoomPan
    (.ok, State.raiseAll { s with zoom := zm } es)

/-! ### EVENT_SETUP and EVENT_FORCE (R179, R180) -/

/-- Whether a number is an event level or a record floor (R179, R180). -/
def isLevel (n : Nat) : Bool := 1 ≤ n && n ≤ 3

/-- EVENT_SETUP (R169, R179). -/
def actEventSetup : OwnerAct := fun sl s =>
  if isLevel sl.index then
    (.ok,
      { s with
        report := { s.report with floor := sl.index, mask := sl.eventMask }
        cmd := { s.cmd with checkEnable := sl.flag 5 } })
  else (.range, s)

/-- EVENT_FORCED (R180, R195). -/
def eventForcedEvent (sl : Slot) : Event :=
  ⟨.eventForced, sl.index, 0, sl.forceArg, argWord sl.tag.toNat⟩

/-- EVENT_FORCE (R180). -/
def actEventForce : OwnerAct := fun sl s =>
  if isLevel sl.index then (.ok, s.raise (eventForcedEvent sl)) else (.range, s)

/-! ### PART_RESET (R170) -/

/-- The take of a PART_RESET: refused by the Command Unit's checks as any command is; else its slot is
freed and counted, and a soft reset follows within the take (R170, R190). -/
def State.takePartReset (s : State) : State :=
  match s.readySlot with
  | some sl =>
    if holds .partReset sl then
      let s := s.markTaken
      match ownCheck sl s.cmd.checkEnable with
      | some r => s.completeTake sl r
      | none =>
        State.takeReset { s with cmd := { s.cmd.complete sl .ok with last := s.cmd.last } } .soft
          .initializing
    else s
  | none => s

/-! ### Commands that no block owns -/

/-- The take of a slot that holds none of the ten commands: always refused by the checks (R164). -/
def actUnknown : OwnerAct := fun _ s => (.unknown, s)

/-- Whether a slot holds none of the ten commands. -/
def holdsNone (sl : Slot) : Bool := sl.command.isNone

end Sys2Proof.Machine
end

