-- ==== Sys2Proof/Machine/TakeSteps.lean ====
section
/-! DEFINITION. The meanings of the command family: the take of the slot at the next-slot pointer
(R164), one row for each command of the ring and one for a slot that holds none of them. A change of
an aperture's active flag may let a waiting request be accepted (R84, R128). -/

namespace Sys2Proof.Machine

/-- NOP (R169). -/
def execNop (s : State) : Host.Outcome State Fault Refusal := .next (s.take (holds .nop) actNop)

/-- SOURCE_SETUP (R3 to R5). -/
def execSourceSetup (s : State) : Host.Outcome State Fault Refusal :=
  .next (s.take (holds .sourceSetup) actSourceSetup)

/-- SOURCE_CONTROL_ENABLE (R6). -/
def execSourceControlEnable (s : State) : Host.Outcome State Fault Refusal :=
  .next (s.take (holdsEnable .sourceControl) actSourceEnable)

/-- SOURCE_CONTROL_DISABLE (R7). -/
def execSourceControlDisable (s : State) : Host.Outcome State Fault Refusal :=
  .next (s.take (holdsDisable .sourceControl) actSourceDisable)

/-- VIEW_SETUP (R81, R82). -/
def execViewSetup (s : State) : Host.Outcome State Fault Refusal :=
  .next (s.take (holds .viewSetup) actViewSetup)

/-- VIEW_CONTROL_ENABLE (R83). -/
def execViewControlEnable (s : State) : Host.Outcome State Fault Refusal :=
  .next (s.take (holdsEnable .viewControl) actViewEnable).acceptWaiting

/-- VIEW_CONTROL_DISABLE (R84). -/
def execViewControlDisable (s : State) : Host.Outcome State Fault Refusal :=
  .next (s.take (holdsDisable .viewControl) actViewDisable).acceptWaiting

/-- CAL_LOAD (R34). -/
def execCalLoad (s : State) : Host.Outcome State Fault Refusal :=
  .next (s.take (holds .calLoad) actCalLoad)

/-- ZOOM_SET (R44, R45). -/
def execZoomSet (s : State) : Host.Outcome State Fault Refusal :=
  .next (s.take (holds .zoomSet) actZoomSet)

/-- EVENT_SETUP (R179). -/
def execEventSetup (s : State) : Host.Outcome State Fault Refusal :=
  .next (s.take (holds .eventSetup) actEventSetup)

/-- EVENT_FORCE (R180). -/
def execEventForce (s : State) : Host.Outcome State Fault Refusal :=
  .next (s.take (holds .eventForce) actEventForce)

/-- PART_RESET (R170). -/
def execPartReset (s : State) : Host.Outcome State Fault Refusal := .next s.takePartReset

/-- UNKNOWN_COMMAND_TAKE (R164). -/
def execUnknownCommandTake (s : State) : Host.Outcome State Fault Refusal :=
  .next (s.take holdsNone actUnknown)

end Sys2Proof.Machine
end

