-- ==== Sys2Proof/Machine/TimerSteps.lean ====
section
/-! DEFINITION. The meanings of the timer family: HOLD_LIMIT_EXPIRY (R130), IDLE_TIMER_EXPIRY (R91) and
WATCHDOG_EXPIRY (R27). A timer that is not due leaves the state as it is; log entry 3. -/

namespace Sys2Proof.Machine

/-- HOLD_LIMIT_EXPIRY (R129 to R131): a place in a full queue may come free for a waiting read (R128). -/
def execHoldLimitExpiry (v : Fin 2) (s : State) : Host.Outcome State Fault Refusal :=
  .next (s.onView v fun e w => w.expireHold e).acceptWaiting

/-- IDLE_TIMER_EXPIRY (R91). -/
def execIdleTimerExpiry (v : Fin 2) (s : State) : Host.Outcome State Fault Refusal :=
  .next (s.onView v fun e w => w.expireIdle e)

/-- WATCHDOG_EXPIRY (R27). -/
def execWatchdogExpiry (i : Fin 4) (s : State) : Host.Outcome State Fault Refusal :=
  .next (if s.sources[i].watchdogDue s.timeBase then s.onSource i fun src => src.stall i else s)

end Sys2Proof.Machine
end

