-- ==== Sys2Proof/Machine/Dispatch.lean ====
section
/-! DEFINITION. The meaning of every command of the table, one arm for each. -/

namespace Sys2Proof.Machine

def exec (i : Instr) (s : State) : Host.Outcome State Fault Refusal :=
  match i with
  | .powerOnReset => Sys2Proof.Machine.execPowerOnReset s
  | .powerOnHoldEnd cp clk => Sys2Proof.Machine.execPowerOnHoldEnd cp clk s
  | .pinReset => Sys2Proof.Machine.execPinReset s
  | .rstNRelease cp clk => Sys2Proof.Machine.execRstNRelease cp clk s
  | .endOfInitialization => Sys2Proof.Machine.execEndOfInitialization s
  | .passThroughRequest q => Sys2Proof.Machine.execPassThroughRequest q s
  | .cameraRead r => Sys2Proof.Machine.execCameraRead r s
  | .cameraWrite w => Sys2Proof.Machine.execCameraWrite w s
  | .controlPageWrite w => Sys2Proof.Machine.execControlPageWrite w s
  | .apertureRead r => Sys2Proof.Machine.execApertureRead r s
  | .apertureWriteRefused w => Sys2Proof.Machine.execApertureWriteRefused w s
  | .holdLimitExpiry v => Sys2Proof.Machine.execHoldLimitExpiry v s
  | .idleTimerExpiry v => Sys2Proof.Machine.execIdleTimerExpiry v s
  | .watchdogExpiry n => Sys2Proof.Machine.execWatchdogExpiry n s
  | .arbiterGrant => Sys2Proof.Machine.execArbiterGrant s
  | .responseRelay e m => Sys2Proof.Machine.execResponseRelay e m s
  | .discardedResponse e m => Sys2Proof.Machine.execDiscardedResponse e m s
  | .fetchCompletion e m => Sys2Proof.Machine.execFetchCompletion e m s
  | .calibrationLoadEnd e m => Sys2Proof.Machine.execCalibrationLoadEnd e m s
  | .nop => Sys2Proof.Machine.execNop s
  | .sourceSetup => Sys2Proof.Machine.execSourceSetup s
  | .sourceControlEnable => Sys2Proof.Machine.execSourceControlEnable s
  | .sourceControlDisable => Sys2Proof.Machine.execSourceControlDisable s
  | .viewSetup => Sys2Proof.Machine.execViewSetup s
  | .viewControlEnable => Sys2Proof.Machine.execViewControlEnable s
  | .viewControlDisable => Sys2Proof.Machine.execViewControlDisable s
  | .calLoad => Sys2Proof.Machine.execCalLoad s
  | .zoomSet => Sys2Proof.Machine.execZoomSet s
  | .eventSetup => Sys2Proof.Machine.execEventSetup s
  | .eventForce => Sys2Proof.Machine.execEventForce s
  | .partReset => Sys2Proof.Machine.execPartReset s
  | .unknownCommandTake => Sys2Proof.Machine.execUnknownCommandTake s
  | .ownRequestResponse e m => Sys2Proof.Machine.execOwnRequestResponse e m s

end Sys2Proof.Machine
end

