-- ==== Sys2Proof/Safety.lean ====
section
/-! DEFINITION. What counts as a sound state of the part, in the terms the statements use: the
invariants that the spec states of its counts, queues, ring maps, pins and windows. -/

namespace Sys2Proof.Machine

/-! ### Situations that statements name -/

/-- No request waits on either upstream channel. -/
def State.quiet (s : State) : Prop := s.up.reads = [] ∧ s.up.writes = []

/-- The state with other requests waiting on the two upstream channels. -/
def State.withChannels (s : State) (reads : List ReadReq) (writes : List WriteReq) : State :=
  { s with up := { s.up with reads, writes } }

/-- The rows after which a request that waits at the head of a channel may find room, or another window
(R84, R128, R140, R153). -/
def Instr.makesRoom : Instr → Bool
  | .arbiterGrant | .holdLimitExpiry _ | .responseRelay .. | .discardedResponse .. | .fetchCompletion ..
  | .calibrationLoadEnd .. | .ownRequestResponse .. | .viewControlEnable | .viewControlDisable => true
  | .powerOnReset | .powerOnHoldEnd .. | .pinReset | .rstNRelease .. | .endOfInitialization
  | .passThroughRequest _ | .cameraRead _ | .cameraWrite _ | .controlPageWrite _ | .apertureRead _
  | .apertureWriteRefused _ | .idleTimerExpiry _ | .watchdogExpiry _ | .nop | .sourceSetup
  | .sourceControlEnable | .sourceControlDisable | .viewSetup | .calLoad | .zoomSet | .eventSetup
  | .eventForce | .partReset | .unknownCommandTake => false

/-- The slot at the next-slot pointer is READY, holds command `c`, and passes the Command Unit's own
checks (rows 1 to 6 of R164). -/
def State.offers (s : State) (c : CmdCode) (sl : Slot) : Prop :=
  s.readySlot = some sl ∧ sl.command = some c ∧ ownCheck sl s.cmd.checkEnable = none

/-- What the take of slot `sl` leaves when its command's own effect has given `s` and its result is OK:
steps 1 to 4 and 6 of R166. -/
def State.executed (s : State) (sl : Slot) : State :=
  { s with cmd := s.cmd.complete sl .ok, report := s.report.requestMirror }

/-- What the take of slot `sl` leaves when its result is `r`, not OK: the completion of R166 and
CMD_REFUSED, and nothing else (R167). -/
def State.refused (s : State) (sl : Slot) (r : CmdResult) : State :=
  { s with
    cmd := s.cmd.complete sl r
    report := (s.report.raise s.timeBase (cmdRefusedEvent s.cmd.next sl r)).requestMirror }

/-- The rows of the table that take a slot, each with the slots it takes and its owner's part. A
PART_RESET has no owner: past the Command Unit's checks nothing refuses it (R170). -/
def commandRow : Instr → Option ((Slot → Bool) × OwnerAct)
  | .nop => some (holds .nop, actNop)
  | .sourceSetup => some (holds .sourceSetup, actSourceSetup)
  | .sourceControlEnable => some (holdsEnable .sourceControl, actSourceEnable)
  | .sourceControlDisable => some (holdsDisable .sourceControl, actSourceDisable)
  | .viewSetup => some (holds .viewSetup, actViewSetup)
  | .viewControlEnable => some (holdsEnable .viewControl, actViewEnable)
  | .viewControlDisable => some (holdsDisable .viewControl, actViewDisable)
  | .calLoad => some (holds .calLoad, actCalLoad)
  | .zoomSet => some (holds .zoomSet, actZoomSet)
  | .eventSetup => some (holds .eventSetup, actEventSetup)
  | .eventForce => some (holds .eventForce, actEventForce)
  | .partReset => some (holds .partReset, actNop)
  | .unknownCommandTake => some (holdsNone, actUnknown)
  | .powerOnReset | .powerOnHoldEnd .. | .pinReset | .rstNRelease .. | .endOfInitialization
  | .passThroughRequest _ | .cameraRead _ | .cameraWrite _ | .controlPageWrite _ | .apertureRead _
  | .apertureWriteRefused _ | .holdLimitExpiry _ | .idleTimerExpiry _ | .watchdogExpiry _
  | .arbiterGrant | .responseRelay .. | .discardedResponse .. | .fetchCompletion ..
  | .calibrationLoadEnd .. | .ownRequestResponse .. => none

/-- Entry `e` is the lowest-numbered free entry of the outstanding list (R151). -/
def State.lowestFree (s : State) (e : Fin 64) : Prop :=
  s.outstanding[e] = none ∧ ∀ j : Fin 64, j < e → s.outstanding[j] ≠ none

/-- What a clearing of view `v` with in-flight list `fs` makes of its row cache (R126): a FETCHING entry whose
issued fetch is owed responses becomes DISCARDING, a DISCARDING one stays so, every other becomes EMPTY. -/
def ClearedTo (v : Fin 2) (fs : List Fetch) (old new : Vector CacheEntry 16) : Prop :=
  ∀ n : Fin 16,
    let owed := ∃ f ∈ fs, f.view = v ∧ f.entry = n ∧ f.owed ≠ 0
    (old[n] = .discarding → new[n] = .discarding) ∧
    (∀ key urgent data, old[n] = .fetching key urgent data →
      (owed → new[n] = .discarding) ∧ (¬ owed → new[n] = .empty)) ∧
    (old[n] ≠ .discarding → (∀ key urgent data, old[n] ≠ .fetching key urgent data) → new[n] = .empty)

/-! ### Invariants -/

/-- The Report Unit's room is kept (R173): the output queue holds at most 4 records, and the
unacknowledged count and the queue together at most 256. -/
def Report.Bounded (r : Report) : Prop := r.queued ≤ 4 ∧ r.unacked + r.queued ≤ 256

/-- The consumed count modulo 32 is the next-slot pointer (R166). -/
def CommandUnit.InStep (c : CommandUnit) : Prop := c.consumed.toNat % 32 = c.next.val

/-- Each view has at most 8 held reads (R127). -/
def State.HeldBounded (s : State) : Prop := ∀ v : Fin 2, s.views[v].held.length ≤ heldLimit

/-- The pass-through queue holds at most 16 reads and at most 16 writes (R153). -/
def State.PassBounded (s : State) : Prop :=
  s.queuedReads ≤ passLimit ∧ s.queuedWrites ≤ passLimit

/-- The ring map of a source that is not UNSET assigns its R positions to R distinct stores of its R + S
stores (R9). -/
def Source.MapOk (src : Source) : Prop :=
  src.state ≠ .unset →
    ∃ r, src.record = some r ∧ src.ringMap.length = r.positions ∧
      src.stores.length = r.positions + r.spares ∧ src.ringMap.Nodup ∧
      ∀ p ∈ src.ringMap, p < src.stores.length

/-- The ring map of every source is sound (R9). -/
def State.MapsOk (s : State) : Prop := ∀ i : Fin 4, s.sources[i].MapOk

/-- Whether the current plan of a view names store `p` of source `i` (R22). -/
def View.names (v : View) (i : Fin 4) (p : Nat) : Bool :=
  v.plan.any fun pl => pl.stores.contains (i, p)

/-- The number of views whose current plan names store `p` of source `i` (R22). -/
def State.namedBy (s : State) (i : Fin 4) (p : Nat) : Nat :=
  s.views.toList.countP fun v => v.names i p

/-- The law of pins (R22): each store's pin count is the number of views whose current plan names it;
every store that a plan names exists; and a DISABLED view has no plan (section 5.2). -/
def State.PinsOk (s : State) : Prop :=
  (∀ (i : Fin 4) (p : Nat) (st : FrameStore),
    s.sources[i].stores[p]? = some st → st.pins = s.namedBy i p) ∧
  (∀ (v : Fin 2) (i : Fin 4) (p : Nat),
    s.views[v].names i p = true → p < s.sources[i].stores.length) ∧
  (∀ v : Fin 2, s.views[v].state = .disabled → s.views[v].plan = none)

/-- A store that is FILLING while its pin count is above zero carries the torn mark (R17). -/
def State.TornOk (s : State) : Prop :=
  ∀ (i : Fin 4) (p : Nat) (st : FrameStore), s.sources[i].stores[p]? = some st →
    st.state = .filling → 0 < st.pins → st.torn = true

/-- No two live entries of a view's row cache hold the same row (R116), and its fetch queue holds at
most 8 requests (R120). -/
def View.CacheOk (v : View) : Prop :=
  (∀ (m n : Fin 16) (k : RowKey),
    v.cache[m].liveKey = some k → v.cache[n].liveKey = some k → m = n) ∧ v.fetchQ.length ≤ 8

/-- The row cache and fetch queue of each view are sound. -/
def State.CachesOk (s : State) : Prop := ∀ v : Fin 2, s.views[v].CacheOk

/-- What the range checks of R37 leave of a calibration set: every floor at or below 12.0 (code 5), and
every blend step at most 256 (code 13). -/
def CalSet.InRange (c : CalSet) : Prop :=
  (∀ x ∈ c.sources, x.floor ≤ 24576) ∧ ∀ p ∈ c.pairs, p.step ≤ 256

/-- Every set that the Calibration Store holds is in range (R37, R38). -/
def CalStore.InRange (c : CalStore) : Prop :=
  (∀ x, c.active = some x → x.InRange) ∧ ∀ x, c.staged = some x → x.InRange

/-- The zoom target and the zoom current lie in 1024 to 24576 and the slew in 0 to 4096 (R42), and zoom
current is at or above the floor of every source that the hand-off state names (R49). -/
def State.ZoomOk (s : State) : Prop :=
  1024 ≤ s.zoom.target ∧ s.zoom.target ≤ 24576 ∧ 1024 ≤ s.zoom.current ∧ s.zoom.current ≤ 24576 ∧
  s.zoom.slew ≤ slewLimit ∧ ∀ i ∈ s.handoff.named, floorOf s.cal.active i ≤ s.zoom.current

/-- A correction in range: a gain of 128 to 512, offsets of −32 to +32 (R57). -/
def Correction.InRange (k : Correction) : Prop :=
  128 ≤ k.gain ∧ k.gain ≤ 512 ∧ -32 ≤ k.dCb ∧ k.dCb ≤ 32 ∧ -32 ≤ k.dCr ∧ k.dCr ≤ 32

/-- The Hand-off Controller's weight and corrections lie in their ranges, and in SETTLED and PREPARE
the weight is 0 and the to correction neutral (R57, R74). -/
def Handoff.InRange (h : Handoff) : Prop :=
  h.weight ≤ 256 ∧ h.fromCorr.InRange ∧ h.toCorr.InRange ∧
  (h.state = .settled → h.weight = 0 ∧ h.toCorr = .neutral) ∧
  ∀ p d n, h.state = .prepare p d n → h.weight = 0 ∧ h.toCorr = .neutral

/-- The weight and the corrections of a plan lie in their ranges (R57, R95). -/
def Plan.InRange (p : Plan) : Prop := p.weight ≤ 256 ∧ ∀ x ∈ p.sides, x.2.corr.InRange

/-- Every weight and correction held by the Hand-off Controller or a plan is in range (R57). -/
def State.CorrectionsOk (s : State) : Prop :=
  s.handoff.InRange ∧ ∀ (v : Fin 2) (p : Plan), s.views[v].plan = some p → p.InRange

/-- The number of an open frame is its view's frames-opened count (R87). -/
def State.NumbersOk (s : State) : Prop :=
  ∀ (v : Fin 2) (f : FrameRecord), s.views[v].state = .opened f → f.number = s.views[v].framesOpened

/-- Whether a source's camera windows are active (R139): in WAITING, RUNNING and STALLED. -/
def SourceState.windowsActive : SourceState → Bool
  | .waiting | .running | .stalled => true
  | .unset | .off => false

/-- What R139 says of a window's active flag: CONTROL after initialization, a camera window while its
source is enabled, an aperture while its view is enabled. -/
def State.flagOf (s : State) (w : Window) : Bool :=
  match w.kind with
  | .control => s.phase == .running
  | .camera i _ => s.sources[i].state.windowsActive
  | .aperture v => s.views[v].enabled

/-- Every window's active flag is as R139 gives it. -/
def State.FlagsOk (s : State) : Prop := ∀ w ∈ s.windows, w.active = s.flagOf w

/-- A window as an address range. -/
def Window.range (w : Window) : Nat × Nat := (w.base, w.length)

/-- A window stands where its record puts it: CONTROL at the control page (R185), a camera window at a
window or store of its source (R3), an aperture at its view's (R81). -/
def State.Placed (s : State) (w : Window) : Prop :=
  match w.kind with
  | .control => w.range = controlPage s.strapCp
  | .camera i _ => ∃ r, s.sources[i].record = some r ∧ w.range ∈ r.ranges
  | .aperture v => ∃ r, s.views[v].record = some r ∧ w.range = r.aperture

/-- The window table is sound (R139): no two windows overlap, every base is 4 KiB aligned, every length
is a whole multiple of 4 KiB, and every window stands where its record puts it. -/
def State.TableOk (s : State) : Prop :=
  s.windows.Pairwise (fun a b => rangesOverlap a.range b.range = false) ∧
  ∀ w ∈ s.windows, w.base % 4096 = 0 ∧ w.length % 4096 = 0 ∧ s.Placed w

/-- The age counts lie in 0 to 64 (R156). -/
def Arbiter.AgesOk (a : Arbiter) : Prop :=
  (∀ v : Fin 2, a.ageView[v] ≤ agedAt) ∧ a.ageReport ≤ agedAt ∧ a.ageCal ≤ agedAt

end Sys2Proof.Machine
end

