-- ==== Sys2Proof/Certificates/Slice0/Obligations.lean ====
section
/-! DEFINITION. The statements for the provers: what each command of the part does, in record equations
that say what stays as well as what changes, the rules of the single blocks, and the laws that every step
keeps. -/

open Sys2Proof Sys2Proof.Machine

/-! ### The queue of commands -/

/-- A step with command `c` at the front of the queue is `exec` of `c` on the state with the rest. -/
def Obligations.FrontCommandRuns : Prop :=
  ∀ (c : Instr) (cs : List Instr) (s : State),
    step { s with pending := c :: cs } = exec c { s with pending := cs }

/-- What the model chose about time and about traffic that the spec does not describe. With no command
waiting, a step is one microsecond of the time base, which stands in a power-on hold and while RST_N is
held low (R186); that an empty queue ticks is log entry 1. A row that is not what the part does at its
moment leaves the state (log entry 3): an end of initialization outside initialization, a timer that is
not running, a take while the slot at the next-slot pointer is not READY. A request without the shape of
R137, a response for a free entry, and a response with other data than its request asked for stop the
part (log entries 6 and 7). -/
def Obligations.IdleStepsUndueRowsAndBadTraffic : Prop :=
  (∀ s : State, s.pending = [] →
    (s.phase = .initializing ∨ s.phase = .running →
      step s = .next { s with timeBase := s.timeBase + 1 }) ∧
    (s.phase = .powerOnHold ∨ s.phase = .pinHold → step s = .next s)) ∧
  (∀ s : State, s.phase ≠ .initializing → exec .endOfInitialization s = .next s) ∧
  (∀ (s : State) (i : Fin 4), s.sources[i].watchdog = none → exec (.watchdogExpiry i) s = .next s) ∧
  (∀ (s : State) (v : Fin 2), s.views[v].state = .idle → exec (.idleTimerExpiry v) s = .next s) ∧
  (∀ (s : State) (v : Fin 2), s.quiet → s.views[v].held = [] →
    exec (.holdLimitExpiry v) s = .next s) ∧
  (∀ (s : State) (i : Instr), s.quiet → (commandRow i).isSome = true →
    s.cmd.slots[s.cmd.next].state ≠ .ready → exec i s = .next s) ∧
  (∀ (s : State) (q : Request), q.wf = false →
    exec (.passThroughRequest q) s = .fault .malformedRequest) ∧
  (∀ (s : State) (r : ReadReq), r.wf = false →
    exec (.cameraRead r) s = .fault .malformedRequest ∧
    exec (.apertureRead r) s = .fault .malformedRequest) ∧
  (∀ (s : State) (w : WriteReq), w.wf = false →
    exec (.cameraWrite w) s = .fault .malformedRequest ∧
    exec (.controlPageWrite w) s = .fault .malformedRequest ∧
    exec (.apertureWriteRefused w) s = .fault .malformedRequest) ∧
  (∀ (s : State) (e : Fin 64) (m : MemResp) (i : Instr),
    i ∈ [Instr.responseRelay e m, .discardedResponse e m, .fetchCompletion e m,
      .calibrationLoadEnd e m, .ownRequestResponse e m] →
    (s.outstanding[e] = none → exec i s = .fault .unmatchedResponse) ∧
    (∀ o, s.outstanding[e] = some o → m.data.length ≠ o.owner.dataLength →
      exec i s = .fault .malformedResponse))

/-! ### Resets and initialization (chapter 12) -/

/-- What every block holds after a reset of cause `c` (R8, R33, R43, R58, R85, R135, R139, R155, R156,
R160, R173, R179, R183). -/
def Obligations.BlocksTakeResetValues : Prop :=
  ∀ (s : State) (c : ResetCause),
    let t := s.blocksReset c
    t.timeBase = 0 ∧ t.inflight = [] ∧
    t.windows = [⟨controlBase s.strapCp, 65536, .control, false⟩] ∧
    t.zoom = ⟨2048, 2048, 0, 2048 * 65536, 1536 * 65536, false, false⟩ ∧
    t.handoff = ⟨.settled, 0, 0, ⟨256, 0, 0⟩, ⟨256, 0, 0⟩, none, #v[true, true, true],
      #v[true, true, true], #v[false, false, false], #v[false, false, false]⟩ ∧
    (∀ i : Fin 4, t.sources[i] = ⟨.unset, none, [], [], 0, none, 0⟩) ∧
    t.cal = ⟨none, none, none⟩ ∧
    (∀ v : Fin 2, t.views[v].record = none ∧ t.views[v].state = .disabled ∧ t.views[v].plan = none ∧
      t.views[v].framesOpened = 0 ∧ t.views[v].totalUnderruns = 0 ∧ t.views[v].degrade = .full ∧
      t.views[v].cleanRun = 0 ∧ t.views[v].warnedRun = 0 ∧ t.views[v].saturated = false ∧
      t.views[v].held = [] ∧ t.views[v].fetchQ = ⟨[], []⟩ ∧ t.views[v].markRow = 0 ∧
      t.views[v].completionCount = 0 ∧ t.views[v].underrunRaised = false ∧
      t.views[v].fetchErrorRaised = false ∧ t.views[v].warnRaised = false ∧
      ∀ n : Fin 16, t.views[v].cache[n] = .empty) ∧
    (∀ n : Fin 32, t.cmd.slots[n].state = .free ∧ t.cmd.slots[n].overrun = false ∧
      ∀ p : Fin 64, t.cmd.slots[n].bytes[p] = 0 ∧ t.cmd.slots[n].marks[p] = false) ∧
    t.cmd.next = 0 ∧ t.cmd.consumed = 0 ∧ t.cmd.checkEnable = true ∧ t.cmd.last = none ∧
    t.report.writeIndex = 0 ∧ t.report.ackIndex = 0 ∧ t.report.output = [] ∧
    t.report.pendingKinds = [] ∧ t.report.floor = 1 ∧ t.report.mirrorCount = 0 ∧
    t.report.cause = c ∧ t.report.mask = 0x1FFFFFC0#29 ∧
    (∀ n : Fin 256, t.report.alertFlags[n] = false) ∧ t.report.evtLow = false ∧
    (∀ b : Fin 4, t.report.ackCopy[b] = 0) ∧
    (∀ v : Fin 2, t.arb.ageView[v] = 0) ∧ t.arb.ageReport = 0 ∧ t.arb.ageCal = 0 ∧
    t.arb.urgentPtr = 0 ∧ t.arb.prefetchPtr = 0

/-- The three resets. POWER_ON_RESET: every holding of the part starts empty and every block takes its
reset values, in the power-on hold (R187); the level of RST_N, the strap codes and the answers stand as
log entries 9 and 29 say. PIN_RESET after the power-on hold, and a PART_RESET that passes the checks:
every block takes its reset values, own requests are marked discarded and forwarded ones kept, and the
straps stay (R148, R170, R188, R190). At each reset the held reads are answered with fill (R189), view 0's
first (log entry 22). Requests that wait on the two channels are kept, and as many as the pass-through queue has
room for are forwarded as they are, unclassified, since no window is active after a reset (R148, log entry 30):
what the part can then accept is what `acceptWaiting` takes from the state that the reset leaves, and with room
for no waiting write it is the oldest reads, in order, as far as the room goes. RST_N going low in a power-on
hold only lengthens the hold, and in a pin reset's hold it is low already (R187, R188). -/
def Obligations.ResetsTaken : Prop :=
  (∀ s : State, exec .powerOnReset s = .next
    { State.reset with
      pending := s.pending
      rstN := s.rstN
      memRequests := s.memRequests
      draws := s.draws
      up := ⟨[], [], s.up.responses ++ s.views.toList.flatMap fillHeld⟩ }) ∧
  (∀ s : State,
    let left := fun (c : ResetCause) (phase : Phase) (rstN : Bool) =>
      { s.blocksReset c with
        rstN
        phase
        up := { s.up with responses := s.up.responses ++ s.views.toList.flatMap fillHeld }
        outstanding := s.outstanding.map fun o => o.map OutEntry.atReset }
    let room := 16 - s.queuedReads
    let taken := fun t : State =>
      { t with
        up := { t.up with reads := s.up.reads.drop room }
        passQueue := s.passQueue ++ (s.up.reads.take room).map Request.read }
    (s.phase = .initializing ∨ s.phase = .running →
      exec .pinReset s = .next (State.acceptWaiting (left .pin .pinHold false)) ∧
      (s.up.writes = [] ∨ 16 ≤ s.queuedWrites →
        exec .pinReset s = .next (taken (left .pin .pinHold false)))) ∧
    (∀ sl : Slot, s.offers .partReset sl →
      exec .partReset s = .next (State.acceptWaiting (left .soft .initializing s.rstN)) ∧
      (s.up.writes = [] ∨ 16 ≤ s.queuedWrites →
        exec .partReset s = .next (taken (left .soft .initializing s.rstN)))) ∧
    (s.phase = .powerOnHold → exec .pinReset s = .next { s with rstN := false }) ∧
    (s.phase = .pinHold → exec .pinReset s = .next s)) ∧
  (∀ o : OutEntry, o.atReset =
    match o.owner with
    | .forwarded .. => o
    | .fetch .. | .load _ | .recordWrite | .mirrorWrite => ⟨o.owner, true⟩)

/-- POWER_ON_HOLD_END with RST_N high, and RST_N_RELEASE in a pin reset's hold: the straps are sampled, the
time base starts from 0 and initialization begins; a low RST_N lengthens the power-on hold (R187, R188).
END_OF_INITIALIZATION, from the Report Unit's reset values: the CONTROL window becomes active, RESET_DONE
joins the empty queue with the cause and the revision, and the mirror writing stands behind it (R183,
R190). That the row leaves the state before the time base reaches 256, and may come after it, is the
model's choice (log entries 1 and 3). The sampled STRAP_CLK code selects the REFCLK frequency; the time base
advances by one for each microsecond derived under it, at twice the pace with 38.4 MHz under code 0, and stands
in a hold (R185, R186; log entry 28). The control page ends where the (n + 1)-th GiB ends, for STRAP_CP code n
(R185). -/
def Obligations.InitializationBeginsAndEnds : Prop :=
  (∀ (s : State) (cp : BitVec 4) (clk : BitVec 2),
    let begun : State := { s with
      rstN := true
      strapCp := cp
      strapClk := clk
      windows := [⟨controlBase cp, 65536, .control, false⟩]
      phase := .initializing
      timeBase := 0 }
    (s.phase = .powerOnHold → s.rstN = true → exec (.powerOnHoldEnd cp clk) s = .next begun) ∧
    (s.phase = .powerOnHold → s.rstN = false → exec (.powerOnHoldEnd cp clk) s = .next s) ∧
    (s.phase = .pinHold → exec (.rstNRelease cp clk) s = .next begun)) ∧
  (∀ (s : State) (c : ResetCause), s.phase = .initializing → s.report = Report.reset c →
    (256 ≤ s.timeBase.toNat → exec .endOfInitialization s = .next
      { s with
        phase := .running
        windows := setActive Window.isControl true s.windows
        report := { s.report with output :=
          [.record ⟨.resetDone, 2, 0, 1, s.timeBase, s.timeBase, BitVec.ofNat 32 c.code, 1⟩, .mirror] } }) ∧
    (s.timeBase.toNat < 256 → exec .endOfInitialization s = .next s)) ∧
  (∀ cp : BitVec 4, controlBase cp + 65536 = (cp.toNat + 1) * 2 ^ 30) ∧
  controlBase 0 = 0x3FFF0000 ∧ controlBase 1 = 0x7FFF0000 ∧ controlBase 7 = 0x1FFFF0000 ∧
  controlBase 15 = 0x3FFFF0000 ∧
  refclkKHz 0 = 19200 ∧ refclkKHz 1 = 26000 ∧ refclkKHz 2 = 38400 ∧ refclkKHz 3 = 19200 ∧
  (∀ (s : State) (n : Nat),
    (s.phase = .initializing ∨ s.phase = .running →
      s.passRefclk (n * refclkKHz s.strapClk) = { s with timeBase := s.timeBase + BitVec.ofNat 32 n } ∧
      (s.strapClk = 0 → s.passRefclk (n * refclkKHz 2) =
        { s with timeBase := s.timeBase + BitVec.ofNat 32 (2 * n) })) ∧
    (s.phase = .powerOnHold ∨ s.phase = .pinHold → s.passRefclk n = s))

/-! ### The memory path (chapters 1, 5, 7 and 8) -/

/-- PASS_THROUGH_REQUEST: a request in no active window, and a read in the CONTROL window, is forwarded as the
requester made it (R141, R143). Outside running no window is consulted, so every request is (R148). A read in
the aperture of a view that holds 8 reads, and a request to be forwarded that finds the pass-through queue
full of its kind, wait at the head of their channel (R128, R153). -/
def Obligations.RequestsForwardedOrWaiting : Prop :=
  (∀ (s : State) (r : ReadReq), r.wf = true → s.quiet → s.windowAt r.addr = none →
    s.queuedReads < 16 →
      exec (.passThroughRequest (.read r)) s =
        .next { s with passQueue := s.passQueue ++ [.read r] }) ∧
  (∀ (s : State) (w : WriteReq), w.wf = true → s.quiet → s.windowAt w.addr = none →
    s.queuedWrites < 16 →
      exec (.passThroughRequest (.write w)) s =
        .next { s with passQueue := s.passQueue ++ [.write w] }) ∧
  (∀ (s : State) (a : Addr), s.phase ≠ .running → s.windowAt a = none) ∧
  (∀ (s : State) (r : ReadReq) (b l : Nat) (a : Bool), r.wf = true → s.quiet →
    s.windowAt r.addr = some ⟨b, l, .control, a⟩ → s.queuedReads < 16 →
      exec (.passThroughRequest (.read r)) s =
        .next { s with passQueue := s.passQueue ++ [.read r] }) ∧
  (∀ (s : State) (r : ReadReq) (v : Fin 2), r.wf = true → s.quiet → s.apertureAt r.addr = some v →
    s.views[v].held.length = 8 →
      exec (.apertureRead r) s = .next { s with up := { s.up with reads := [r] } }) ∧
  (∀ (s : State) (r : ReadReq), r.wf = true → s.quiet → s.apertureAt r.addr = none →
    s.queuedReads = 16 →
      exec (.passThroughRequest (.read r)) s = .next { s with up := { s.up with reads := [r] } }) ∧
  (∀ (s : State) (w : WriteReq), w.wf = true → s.quiet → s.apertureAt w.addr = none →
    s.queuedWrites = 16 →
      exec (.passThroughRequest (.write w)) s = .next { s with up := { s.up with writes := [w] } })

/-- CAMERA_READ: a read in an active camera window goes on at the base of the store behind the position,
plus its offset in the window, and changes nothing else (R10). CAMERA_WRITE: a write from a master that is
not the source's own is only translated; one from the bound master is acted on by the Source Tracker at
its acceptance, and goes on at the address that the ring map then gives (R10, R11; that the map is read
after an open is DEDUCED, log entry 11). -/
def Obligations.CameraRequestsTranslated : Prop :=
  (∀ (s : State) (r : ReadReq) (b l : Nat) (i : Fin 4) (k : Nat) (a : Bool) (rec : SourceRecord) (p : Nat),
    r.wf = true → s.quiet → s.windowAt r.addr = some ⟨b, l, .camera i k, a⟩ →
    s.sources[i].record = some rec → s.sources[i].ringMap[k]? = some p → s.queuedReads < 16 →
      exec (.cameraRead r) s = .next
        { s with passQueue := s.passQueue ++
            [.read { r with addr := BitVec.ofNat 40 (rec.storeBase p + (r.addr.toNat - b)) }] }) ∧
  (∀ (s : State) (w : WriteReq) (b l : Nat) (i : Fin 4) (k : Nat) (a : Bool) (rec : SourceRecord) (p : Nat),
    w.wf = true → s.quiet → s.windowAt w.addr = some ⟨b, l, .camera i k, a⟩ →
    s.sources[i].record = some rec → s.queuedWrites < 16 →
    (w.tag ≠ rec.tag → s.sources[i].ringMap[k]? = some p →
      exec (.cameraWrite w) s = .next
        { s with passQueue := s.passQueue ++
            [.write { w with addr := BitVec.ofNat 40 (rec.storeBase p + (w.addr.toNat - b)) }] }) ∧
    (w.tag = rec.tag →
      let u := s.sources[i].onWrite i s.cal.active s.timeBase k (w.addr.toNat - b) w
      u.1.ringMap[k]? = some p →
      exec (.cameraWrite w) s = .next
        { State.raiseAll { s with sources := s.sources.set i.val u.1 i.isLt } u.2 with
          passQueue := s.passQueue ++
            [.write { w with addr := BitVec.ofNat 40 (rec.storeBase p + (w.addr.toNat - b)) }] }))

/-- What a Source Tracker does with a write (R11): the frame open test, the progress count and statistics
of the store that the position then has, and the close test, in that order; a write of another master does
nothing. Bytes landed rise by the strobed active bytes (R19); each pixel given whole within one beat and
inside the frame joins FULL, and INNER when the latched rectangle holds it, with sums and counts held at
their limits (R24, R25). A request's beats are counted from its own address (log entry 13), and the
latched rectangle has its far bounds limited to the frame (log entry 12). -/
def Obligations.WritesTracked : Prop :=
  (∀ (src : Source) (i : Fin 4) (active : Option CalSet) (now : Word) (k off : Nat) (w : WriteReq)
      (r : SourceRecord), src.record = some r →
    (w.tag ≠ r.tag → src.onWrite i active now k off w = (src, [])) ∧
    (w.tag = r.tag →
      let o := if off = 0 then src.frameOpen i (latchRect active i r) k else (src, [])
      (∀ p, o.1.ringMap[k]? = some p → o.1.storeIs p .filling = false →
        src.onWrite i active now k off w = o) ∧
      (∀ p st, o.1.ringMap[k]? = some p → o.1.stores[p]? = some st → st.state = .filling →
        let counted : Source := { o.1 with stores := o.1.stores.set p (st.progress r off w) }
        let last := (r.height - 1) * r.stride + 4 * r.width - 1
        ((last < off ∨ w.strobes[last - off]? ≠ some true) →
          src.onWrite i active now k off w = (counted, o.2)) ∧
        (off ≤ last → w.strobes[last - off]? = some true →
          let c := counted.closeStore i now r p
          src.onWrite i active now k off w = (c.1, o.2 ++ c.2))))) ∧
  (∀ (r : SourceRecord) (off : Nat) (w : WriteReq) (st : FrameStore),
    let inFrame := fun x : Nat × Byte × Byte × Byte =>
      decide ((off + x.1) % r.stride / 4 < r.width ∧ (off + x.1) / r.stride < r.height)
    let inRect := fun x : Nat × Byte × Byte × Byte =>
      st.rect.holds ((off + x.1) % r.stride / 4) ((off + x.1) / r.stride)
    let add := fun (a : Accum) (x : Nat × Byte × Byte × Byte) => a.add x.2.1 x.2.2.1 x.2.2.2
    st.progress r off w = { st with
      landed := min 4294967295 (st.landed + ((List.range w.strobes.length).filter fun n =>
        w.strobes[n]? = some true ∧ (off + n) / r.stride < r.height ∧
          (off + n) % r.stride < 4 * r.width).length)
      full := ((wholePixels off w).filter inFrame).foldl add st.full
      inner := ((wholePixels off w).filter fun x => inFrame x && inRect x).foldl add st.inner }) ∧
  (∀ (off : Nat) (w : WriteReq) (n : Nat) (y cb cr : Byte), (n, y, cb, cr) ∈ wholePixels off w ↔
    (off + n) % 4 = 0 ∧ n % 16 + 2 < 16 ∧ w.strobes[n]? = some true ∧ w.strobes[n + 1]? = some true ∧
    w.strobes[n + 2]? = some true ∧ w.data[n]? = some y ∧ w.data[n + 1]? = some cb ∧
    w.data[n + 2]? = some cr) ∧
  (∀ (a : Accum) (y cb cr : Byte), a.add y cb cr =
    ⟨min 1099511627775 (a.sumY + y.toNat), min 1099511627775 (a.sumCb + cb.toNat),
      min 1099511627775 (a.sumCr + cr.toNat), min 4294967295 (a.count + 1)⟩) ∧
  (∀ (c : CalSet) (i : Fin 4) (r : SourceRecord) (m : CalSource),
    i.val < c.count → c.sources[i.val]? = some m →
    latchRect none i r = ⟨0, 0, r.width - 1, r.height - 1⟩ ∧
    (m.rect = none → latchRect (some c) i r = ⟨0, 0, r.width - 1, r.height - 1⟩) ∧
    ∀ q, m.rect = some q → latchRect (some c) i r =
      ⟨q.x0, q.y0, min q.x1 (r.width - 1), min q.y1 (r.height - 1)⟩) ∧
  (∀ (c : CalSet) (i : Fin 4) (r : SourceRecord), c.count ≤ i.val →
    latchRect (some c) i r = ⟨0, 0, r.width - 1, r.height - 1⟩)

/-- A frame open on position `k`. A store that is FILLING, behind the position or taken as the spare, is
first closed SHORT with FRAME_SHORT, which in STALLED resets the recovery run (R14, R16, R28). The open is
then in place when the store is unpinned (R15), an exchange with the lowest spare when it is pinned (R16),
else a tear (R17). -/
def Obligations.FrameOpens : Prop :=
  ∀ (src : Source) (i : Fin 4) (rect : Rect) (k p : Nat) (st : FrameStore),
    src.ringMap[k]? = some p → src.stores[p]? = some st →
    let short := fun (x : FrameStore) (n : Nat) =>
      if x.state = .filling then
        [(⟨.frameShort, 1, i.val, BitVec.ofNat 32 n, BitVec.ofNat 32 x.landed⟩ : Event)]
      else []
    let run := fun filling : Bool =>
      if filling = true ∧ src.state = .stalled then 0 else src.recoveryRun
    let isSpare := fun (q : Nat) =>
      q ∉ src.ringMap ∧ ∃ sq, src.stores[q]? = some sq ∧ sq.pins = 0
    (st.pins = 0 → src.frameOpen i rect k =
      ({ src with
          stores := src.stores.set p ⟨.filling, 0, false, none, 0, .zero, .zero, rect⟩
          recoveryRun := run (st.state == .filling) }, short st p)) ∧
    (∀ (q : Nat) (sq : FrameStore), 0 < st.pins → isSpare q → (∀ j < q, ¬ isSpare j) →
      src.stores[q]? = some sq → src.frameOpen i rect k =
      ({ src with
          stores := (src.stores.set p
              (if st.state = .filling then { st with state := .short, torn := false, closeOrder := none }
                else st)).set q ⟨.filling, 0, false, none, 0, .zero, .zero, rect⟩
          ringMap := src.ringMap.set k q
          recoveryRun := run (st.state == .filling || sq.state == .filling) },
        short st p ++ short sq q ++
          [⟨.storeRemapped, 1, i.val, BitVec.ofNat 32 k, BitVec.ofNat 32 (p + 256 * q)⟩])) ∧
    (0 < st.pins → (∀ q, ¬ isSpare q) → src.frameOpen i rect k =
      ({ src with
          stores := src.stores.set p ⟨.filling, st.pins, true, none, 0, .zero, .zero, rect⟩
          recoveryRun := run (st.state == .filling) },
        short st p ++ [⟨.frameTorn, 3, i.val, BitVec.ofNat 32 k, BitVec.ofNat 32 (p + 256 * st.pins)⟩]))

/-- A close of store `p`: READY with the next close order when at least 4W × H bytes have landed, else SHORT
with FRAME_SHORT. A READY close takes a WAITING source to RUNNING and loads the watchdog; in STALLED the first
one begins the recovery run and the second ends it in RUNNING (R20, R21, R28). -/
def Obligations.FrameCloses : Prop :=
  ∀ (src : Source) (i : Fin 4) (now : Word) (r : SourceRecord) (p : Nat) (st : FrameStore),
    src.stores[p]? = some st →
    (4 * r.width * r.height ≤ st.landed → src.state = .waiting →
      src.closeStore i now r p =
        ({ src with
            state := .running
            readyCount := src.readyCount + 1
            watchdog := some now
            stores := src.stores.set p
              { st with state := .ready, torn := false, closeOrder := some (src.readyCount + 1) } },
          [⟨.streamRunning, 2, i.val, 2, BitVec.ofNat 32 p⟩])) ∧
    (4 * r.width * r.height ≤ st.landed → src.state = .running →
      src.closeStore i now r p =
        ({ src with
            readyCount := src.readyCount + 1
            watchdog := some now
            stores := src.stores.set p
              { st with state := .ready, torn := false, closeOrder := some (src.readyCount + 1) } }, [])) ∧
    (4 * r.width * r.height ≤ st.landed → src.state = .stalled → src.recoveryRun = 0 →
      src.closeStore i now r p =
        ({ src with
            readyCount := src.readyCount + 1
            recoveryRun := 1
            stores := src.stores.set p
              { st with state := .ready, torn := false, closeOrder := some (src.readyCount + 1) } }, [])) ∧
    (4 * r.width * r.height ≤ st.landed → src.state = .stalled → src.recoveryRun = 1 →
      src.closeStore i now r p =
        ({ src with
            state := .running
            readyCount := src.readyCount + 1
            watchdog := some now
            recoveryRun := 0
            stores := src.stores.set p
              { st with state := .ready, torn := false, closeOrder := some (src.readyCount + 1) } },
          [⟨.streamRunning, 2, i.val, 4, BitVec.ofNat 32 p⟩])) ∧
    (st.landed < 4 * r.width * r.height →
      src.closeStore i now r p =
        ({ src with
            recoveryRun := if src.state = .stalled then 0 else src.recoveryRun
            stores := src.stores.set p { st with state := .short, torn := false, closeOrder := none } },
          [⟨.frameShort, 1, i.val, BitVec.ofNat 32 p, BitVec.ofNat 32 st.landed⟩]))

/-- CONTROL_PAGE_WRITE, whatever bytes of the page it covers: the strobed bytes are copied (R143). Each FREE
slot that they name captures its own (R161, R162); a READY one captures nothing and its first such write
raises CMD_OVERRUN with the lowest position and the consumed count (R163), for several slots in ascending
order (log entry 21); the acknowledge word takes the bytes at 0800h to 0803h (R144); the write is forwarded
unchanged. A slot's capture replaces the bytes named and sets their marks, and a write that marked word 15
and finds it seen makes the slot READY with marker A5h, with the incomplete mark when a word of its
command is unseen, and else clears the marks of word 15 (R162). -/
def Obligations.ControlPageCopies : Prop :=
  (∀ (s : State) (w : WriteReq) (b l : Nat) (a : Bool),
    w.wf = true → s.quiet → s.windowAt w.addr = some ⟨b, l, .control, a⟩ → s.queuedWrites < 16 →
    let bs := copiedBytes (w.addr.toNat - b) w
    let lost := fun n : Fin 32 => !(slotBytes n bs).isEmpty && s.cmd.slots[n].state != .free
    exec (.controlPageWrite w) s = .next
      { s with
        cmd := { s.cmd with
          slots := Vector.ofFn fun n : Fin 32 =>
            if slotBytes n bs = [] then s.cmd.slots[n]
            else if s.cmd.slots[n].state = .free then s.cmd.slots[n].capture (slotBytes n bs)
            else { s.cmd.slots[n] with overrun := true } }
        report := (((List.finRange 32).filter fun n => lost n && !s.cmd.slots[n].overrun).foldl
          (fun (r : Report) n => r.raise s.timeBase ⟨.cmdOverrun, 3, n.val,
            BitVec.ofNat 32 (lowestPosition (slotBytes n bs)), s.cmd.consumed⟩) s.report).copyAck
              (ackBytes bs)
        passQueue := s.passQueue ++ [.write w] }) ∧
  (∀ (off : Nat) (w : WriteReq) (o : Nat) (x : Byte),
    let bs := copiedBytes off w
    ((o, x) ∈ bs ↔ off ≤ o ∧ w.strobes[o - off]? = some true ∧ w.data[o - off]? = some x) ∧
    (bs.map Prod.fst).Nodup ∧
    (∀ (n : Fin 32) (p : Fin 64), (p, x) ∈ slotBytes n bs ↔ (64 * n.val + p.val, x) ∈ bs) ∧
    (∀ p : Fin 4, (p, x) ∈ ackBytes bs ↔ (2048 + p.val, x) ∈ bs)) ∧
  (∀ (sl : Slot) (bs : List (Fin 64 × Byte)), (bs.map Prod.fst).Nodup →
    let took : Slot := { sl with
      bytes := Vector.ofFn fun p => (bs.lookup p).getD sl.bytes[p]
      marks := Vector.ofFn fun p => sl.marks[p] || (bs.lookup p).isSome }
    let trailer := ∃ x ∈ bs, 60 ≤ x.1.val
    (¬ trailer ∨ took.seen 15 = false → sl.capture bs = took) ∧
    (trailer → took.seen 15 = true → took.byte 61 = 0xA5 →
      sl.capture bs = { took with
        state := .ready
        incomplete := !took.seen 0 || (decide (took.byte 1 ≤ 14) &&
          (List.range (took.byte 1)).any fun n => !took.seen (n + 1)) }) ∧
    (trailer → took.seen 15 = true → took.byte 61 ≠ 0xA5 →
      sl.capture bs = { took with
        marks := Vector.ofFn fun p => took.marks[p] && decide (p.val < 60) }))

/-- A write that replaces bytes of the acknowledge copy offers the index of its first two bytes, and one
that replaces none offers nothing (R144, R177). The index offered is ignored from 1 to 256 behind the
acknowledged index, taken up to the write index, and clamped to the write index beyond it; a value taken
tests room (R175), and the write index and the alert flags stay (R177). That a write of bytes 0802h or 0803h
alone is compared by the table too is the model's choice (log entry 43). -/
def Obligations.AcknowledgeTaken : Prop :=
  (∀ (r : Report) (n : Half),
    n = BitVec.ofNat 16 (r.ackCopy[0].toNat + 256 * r.ackCopy[1].toNat) →
    (1 ≤ (r.ackIndex - n).toNat → (r.ackIndex - n).toNat ≤ 256 → r.takeAck = r) ∧
    ((r.ackIndex = n ∨ 256 < (r.ackIndex - n).toNat) →
      (n - r.ackIndex).toNat ≤ (r.writeIndex - r.ackIndex).toNat →
        r.takeAck.ackIndex = n ∧ r.takeAck = Report.testRoom { r with ackIndex := n }) ∧
    ((r.ackIndex = n ∨ 256 < (r.ackIndex - n).toNat) →
      (r.writeIndex - r.ackIndex).toNat < (n - r.ackIndex).toNat →
        r.takeAck.ackIndex = r.writeIndex ∧
        r.takeAck = Report.testRoom { r with ackIndex := r.writeIndex }) ∧
    r.takeAck.writeIndex = r.writeIndex ∧ r.takeAck.alertFlags = r.alertFlags ∧
    r.takeAck.floor = r.floor ∧ r.takeAck.mask = r.mask ∧ r.takeAck.ackCopy = r.ackCopy) ∧
  (∀ (r : Report) (bs : List (Fin 4 × Byte)), (bs.map Prod.fst).Nodup →
    (bs = [] → r.copyAck bs = r) ∧
    (bs ≠ [] → r.copyAck bs = Report.takeAck
      { r with ackCopy := Vector.ofFn fun p => (bs.lookup p).getD r.ackCopy[p] }))

/-- APERTURE_READ: the read goes to its view and nowhere else. It is not forwarded; each response given is an
OKAY read response, and the view's held reads with the new one are each answered or still held (R127,
R146). The other view is untouched. In IDLE with no current plan and nothing held, a read that does not touch
row 0 is answered at once, with fill where it touches rows and with zeros elsewhere, and counts no underrun
(R86, R88, R129). -/
def Obligations.ApertureReadHandedToView : Prop :=
  (∀ (s : State) (r : ReadReq) (b l : Nat) (v : Fin 2) (a : Bool) (rec : ViewRecord),
    r.wf = true → s.quiet → s.windowAt r.addr = some ⟨b, l, .aperture v, a⟩ →
    s.views[v].record = some rec → s.views[v].held.length < 8 →
    ∃ t new, exec (.apertureRead r) s = .next t ∧
      t.passQueue = s.passQueue ∧ t.memRequests = s.memRequests ∧ t.outstanding = s.outstanding ∧
      t.cmd = s.cmd ∧ t.windows = s.windows ∧ t.timeBase = s.timeBase ∧ t.phase = s.phase ∧
      (∀ u : Fin 2, u ≠ v → t.views[u] = s.views[u]) ∧
      t.up = { s.up with responses := s.up.responses ++ new } ∧
      (∀ x ∈ new, x.code = .okay ∧ x.isRead = true) ∧
      new.length + t.views[v].held.length = s.views[v].held.length + 1) ∧
  (∀ (s : State) (r : ReadReq) (b l : Nat) (v : Fin 2) (a : Bool) (rec : ViewRecord),
    r.wf = true → s.quiet → s.windowAt r.addr = some ⟨b, l, .aperture v, a⟩ →
    s.views[v].record = some rec → s.views[v].state = .idle → s.views[v].plan = none →
    s.views[v].held = [] → (rec.touched r).contains 0 = false →
    exec (.apertureRead r) s = .next (State.settleAges
      { s with up := { s.up with responses := s.up.responses ++
          [⟨r.tag, r.num, .okay, true, r.beats,
            rec.answerData r fun _ _ ch => rec.fillPixel ch⟩] } }))

/-- Requests that wait. The head of a channel is accepted as soon as it has room: a read in an active aperture
when its view holds fewer than 8 reads, a write there always, any other request when the pass-through queue
holds fewer than 16 of its kind (R128, R147, R153); with room for both heads either may go first (R137, log
entry 5), and acceptance goes on until no head has room. Each is classified at its acceptance (R140), as a
request that meets empty channels is. A request presented waits behind the others. After a row that can make
room, whatever waits is looked at again; so an ARBITER_GRANT that takes a forwarded read lets the next one in
(R153), a HOLD_LIMIT_EXPIRY that empties a place lets a read into its view (R128), and after a disable a read
that waited for the view is forwarded unchanged (R84, R140). That a request row presents its request whatever
the decode makes of it, so that the three read rows do the same and the four write rows do the same, is the
model's choice (log entry 4, DESIGN CHOICE). -/
def Obligations.WaitingRequestsAccepted : Prop :=
  (∀ s : State,
    let readRoom := fun r : ReadReq =>
      (∀ v, s.apertureAt r.addr = some v → s.views[v].held.length < 8) ∧
      (s.apertureAt r.addr = none → s.queuedReads < 16)
    let writeRoom := fun w : WriteReq => s.apertureAt w.addr = none → s.queuedWrites < 16
    let readTaken := fun (t : State) (r : ReadReq) (rs : List ReadReq) =>
      State.acceptWaiting ((t.withChannels rs s.up.writes).acceptRead r)
    let writeTaken := fun (t : State) (w : WriteReq) (ws : List WriteReq) =>
      State.acceptWaiting ((t.withChannels s.up.reads ws).acceptWrite w)
    let noRead := ∀ r rs, s.up.reads = r :: rs → ¬ readRoom r
    let noWrite := ∀ w ws, s.up.writes = w :: ws → ¬ writeRoom w
    let drawn : State := { s with draws := s.draws + 1 }
    (noRead → noWrite → s.acceptWaiting = s) ∧
    (∀ r rs, s.up.reads = r :: rs → readRoom r → noWrite → s.acceptWaiting = readTaken s r rs) ∧
    (∀ w ws, s.up.writes = w :: ws → writeRoom w → noRead → s.acceptWaiting = writeTaken s w ws) ∧
    (∀ r rs w ws, s.up.reads = r :: rs → s.up.writes = w :: ws → readRoom r → writeRoom w →
      s.acceptWaiting = readTaken drawn r rs ∨ s.acceptWaiting = writeTaken drawn w ws) ∧
    (s.quiet → ∀ r, r.wf = true → readRoom r →
      exec (.passThroughRequest (.read r)) s = .next (s.acceptRead r)) ∧
    (s.quiet → ∀ w, w.wf = true → writeRoom w →
      exec (.passThroughRequest (.write w)) s = .next (s.acceptWrite w)) ∧
    (∀ reads writes r, (s.withChannels reads writes).acceptRead r = (s.acceptRead r).withChannels reads writes) ∧
    (∀ reads writes w,
      (s.withChannels reads writes).acceptWrite w = (s.acceptWrite w).withChannels reads writes)) ∧
  (∀ s : State,
    (∀ r, r.wf = true → ∀ i ∈ [Instr.passThroughRequest (.read r), .cameraRead r, .apertureRead r],
      exec i s = .next (State.acceptWaiting (s.withChannels (s.up.reads ++ [r]) s.up.writes))) ∧
    (∀ w, w.wf = true → ∀ i ∈ [Instr.passThroughRequest (.write w), .cameraWrite w, .controlPageWrite w,
        .apertureWriteRefused w],
      exec i s = .next (State.acceptWaiting (s.withChannels s.up.reads (s.up.writes ++ [w]))))) ∧
  (∀ (s t : State) (i : Instr), Instr.makesRoom i = true → exec i (s.withChannels [] []) = .next t →
    exec i s = .next (State.acceptWaiting (t.withChannels s.up.reads s.up.writes))) ∧
  (∀ (s : State) (e : Fin 64) (q r : ReadReq) (qs : List Request), s.lowestFree e → s.winner = some .pass →
    s.passQueue = .read q :: qs → s.queuedReads = 16 → s.up.reads = [r] → s.up.writes = [] →
    s.windowAt r.addr = none →
    exec .arbiterGrant s = .next
      { s with
        passQueue := qs ++ [.read r]
        up := { s.up with reads := [] }
        outstanding := s.outstanding.set e.val (some ⟨.forwarded q.tag q.num true q.beats, false⟩) e.isLt
        memRequests := s.memRequests ++ [.read { q with num := e.val }]
        arb := s.arbAfter .pass }) ∧
  (∀ (s : State) (v : Fin 2) (rec : ViewRecord) (h : HeldRead) (hs : List HeldRead) (r : ReadReq),
    s.views[v].record = some rec → s.views[v].held = h :: hs → (h :: hs).length = 8 → h.rows ≠ [] →
    h.expired = false → rec.holdLimit ≤ (s.timeBase - h.accepted).toNat →
    (∃ k ∈ h.needed, s.views[v].rowReady k = false) →
    s.up.reads = [r] → s.up.writes = [] → s.apertureAt r.addr = some v →
    ∃ t, exec (.holdLimitExpiry v) s = .next t ∧ t.up.reads = [] ∧ t.passQueue = s.passQueue) ∧
  (∀ (s : State) (sl : Slot) (v : Fin 2) (rec : ViewRecord) (r : ReadReq), s.offers .viewControl sl →
    sl.view = some v → sl.action = 2 → s.views[v].record = some rec → s.views[v].state ≠ .disabled →
    s.up.reads = [r] → s.up.writes = [] → s.apertureAt r.addr = some v → s.queuedReads < 16 →
    (∀ w ∈ s.windows, w.active = true → w.contains r.addr.toNat = true → w.ofView v = true) →
    ∃ t, exec .viewControlDisable s = .next t ∧ t.views[v].state = .disabled ∧ t.up.reads = [] ∧
      t.passQueue = s.passQueue ++ [.read r] ∧
      t.up.responses = s.up.responses ++ s.views[v].held.map fun h => rec.fillAnswer h.req)

/-- APERTURE_READ and the frames of its view. A read of row 0 opens a frame in IDLE, and in OPEN when rows
from Ho div 2 on have been served (R88, R89): the reads held are answered with fill and counted first,
each as one underrun of the total (R92), an open frame closes and is examined (R101, R134), the
frames-opened count rises, the plan latched carries the new number, and its stores are pinned and the
retired plan's released (R87, R93, R99). Any other read in OPEN belongs to the open frame, which keeps its
number and plan, and closes it when it covers the last byte of the last row (R89 to R91); that the close
comes before the answer is log entry 16. The held reads of the open frame count in it before it is examined, so
they may bring SINGLE, and keep it from being clean (R92, R101, R102); that a held read of no frame, or of a
frame before, does not count in it is the model's reading of R92 beside R131 (log entry 33, DEDUCED). -/
def Obligations.ApertureReadOpensOrStaysInFrame : Prop :=
  ∀ (s : State) (r : ReadReq) (b l : Nat) (v : Fin 2) (a : Bool) (rec : ViewRecord),
    r.wf = true → s.quiet → s.windowAt r.addr = some ⟨b, l, .aperture v, a⟩ →
    s.views[v].record = some rec → s.views[v].held.length < 8 →
    let old := s.views[v]
    let rows := rec.touched r
    let last := rec.coversLast r
    (rows.contains 0 = true →
      (old.state = .idle ∨ ∃ f, old.state = .opened f ∧ rec.height / 2 ≤ f.highest) →
      ∃ t p new, exec (.apertureRead r) s = .next t ∧
        t.views[v].framesOpened = old.framesOpened + 1 ∧
        t.views[v].plan = some p ∧ p.number = old.framesOpened + 1 ∧
        t.sources = releasePlan (pinPlan s.sources (some p)) old.plan ∧
        t.passQueue = s.passQueue ∧ t.memRequests = s.memRequests ∧
        (∀ u : Fin 2, u ≠ v → t.views[u] = s.views[u]) ∧
        t.up.responses = s.up.responses ++ (old.held.map fun h => rec.fillAnswer h.req) ++ new ∧
        new.length + t.views[v].held.length = 1 ∧
        (∀ x ∈ new, x.tag = r.tag ∧ x.num = r.num) ∧ (∀ h ∈ t.views[v].held, h.req = r) ∧
        (old.totalUnderruns ≤ 65535 →
          t.views[v].totalUnderruns = min 65535 (old.totalUnderruns + old.held.length)) ∧
        (last = false → ∃ g, t.views[v].state = .opened g ∧ g.number = old.framesOpened + 1 ∧
          g.highest = highestRow rows ∧ g.underruns = 0 ∧ g.idleLoad = s.timeBase) ∧
        (last = false → old.state = .idle → t.views[v].warnedRun = old.warnedRun ∧
          t.views[v].degrade = old.degrade ∧ t.views[v].cleanRun = old.cleanRun) ∧
        (∀ f, last = false → old.state = .opened f →
          t.views[v].warnedRun = (if f.warned then min 6 (old.warnedRun + 1) else 0) ∧
          let underruns := f.underruns + (old.held.filter fun h => h.frame = some f.number).length
          let entered := old.degrade = .full ∧ f.underruns < rec.underrunLimit ∧ rec.underrunLimit ≤ underruns
          let clean := underruns = 0 ∧ f.warned = false
          t.views[v].degrade =
            (if entered then .single
             else if old.degrade = .single ∧ clean ∧ old.cleanRun = 7 then .full else old.degrade) ∧
          t.views[v].cleanRun =
            (if entered then 0
             else if old.degrade = .full then old.cleanRun
             else if clean ∧ old.cleanRun ≠ 7 then old.cleanRun + 1 else 0)) ∧
        t.views[v].underrunRaised = false) ∧
    (∀ f, old.state = .opened f → (rows.contains 0 = false ∨ f.highest < rec.height / 2) →
      ∃ t, exec (.apertureRead r) s = .next t ∧
        t.views[v].framesOpened = old.framesOpened ∧ t.views[v].plan = old.plan ∧
        t.sources = s.sources ∧ t.zoom = s.zoom ∧ t.handoff = s.handoff ∧ t.cal = s.cal ∧
        (last = false → ∃ g, t.views[v].state = .opened g ∧ g.number = f.number ∧
          g.highest = max f.highest (highestRow rows) ∧ g.underruns = f.underruns ∧
          g.idleLoad = s.timeBase) ∧
        (last = true → t.views[v].state = .idle))

/-- APERTURE_READ that opens a frame, stage by stage (R93). Stage 1 fills the held reads, each counting an underrun
(R92), those of the open frame in that frame, with UNDERRUN and DEGRADE_ENTER (R102, R131); then the open frame is
examined, with DEGRADE_EXIT (R101, R134), and the three raised flags clear (R131 to R133). Stage 2 opens the new
frame with its record (R87). For the lead view, view 0 or the one enabled view, stages 3 to 6 follow; another
view's opening leaves zoom, hand-off and calibration as they are. Stage 7 latches the plan from the state that
stage 6 leaves, stage 8 pins its stores and releases the retired plan's, and stage 9 clears the row cache and
prefetches from row 0. A lead opening then requests the mirror, which waits in the output sequence (R181). The
read itself is taken after that. A read that opens no frame is taken at once (R88, R89): it joins the held reads
with the rows it touches and needs, may close the frame, and the answers that the queue can give and a demand
pass follow (R90, R122, R127, R129). Three points are the model's reading: the close by the covering read comes
before its answer (log entry 16, DEDUCED), the arbiter's counts settle once, at the end of the event (log
entry 24, DEDUCED), and of the held reads that stage 1 fills only those of the open frame count in that frame,
R92 being read beside R131 (log entry 33, DEDUCED). -/
def Obligations.OpeningRuns : Prop :=
  (∀ (s : State) (r : ReadReq) (b l : Nat) (v : Fin 2) (a : Bool) (rec : ViewRecord),
    r.wf = true → s.quiet → s.windowAt r.addr = some ⟨b, l, .aperture v, a⟩ →
    s.views[v].record = some rec → s.views[v].held.length < 8 →
    let rows := rec.touched r
    let old := s.views[v].plan
    let taken := fun t : State => State.settleAges (t.onView v fun e w => w.acceptRead e r rows)
    let opens := rows.contains 0 = true ∧ (s.views[v].state = .idle ∨
      ∃ f, s.views[v].state = .opened f ∧ rec.height / 2 ≤ f.highest)
    (¬ opens → exec (.apertureRead r) s = .next (taken s)) ∧
    (opens →
      let s2 := s.onView v fun e w => (w.openingStage1 e).openingStage2 e rows
      let lead := v = 0 ∨ s.views[(0 : Fin 2)].state = .disabled
      let opened := fun (s6 : State) (mirror : Report → Report) =>
        let p := latchPlan rec s6.views[v].framesOpened s6.views[v].degrade old s6.sources s6.cal.active
          s6.zoom s6.handoff
        let s8 : State := { s6 with
          sources := releasePlan (pinPlan s6.sources (some p)) old
          views := s6.views.set v.val { s6.views[v] with plan := some p } v.isLt }
        let s9 := s8.onView v fun e w => (w.clear v).prefetch e 0
        let t := taken { s9 with report := mirror s9.report }
        exec (.apertureRead r) s = .next t ∧ t.views[v].plan = some p ∧ t.zoom = s6.zoom ∧
          t.handoff = s6.handoff ∧ t.cal = s6.cal
      (lead → opened (s2.leadStages v) Report.requestMirror ∧
        ∀ t, exec (.apertureRead r) s = .next t → OutItem.mirror ∈ t.report.output) ∧
      (¬ lead → opened s2 id ∧ s2.zoom = s.zoom ∧ s2.handoff = s.handoff ∧ s2.cal = s.cal))) ∧
  (∀ (e : ViewEnv) (w : ViewWork) (r : ReadReq) (rows : List Nat),
    let needed := neededRows e w.view.plan rows
    (w.view.state = .idle → w.acceptRead e r rows = ViewWork.demandPass e (ViewWork.answerAll e
      { w with view := { w.view with
        held := w.view.held ++ [⟨r, e.now, none, rows, needed, false⟩] } })) ∧
    ∀ f, w.view.state = .opened f →
      let joined : ViewWork := { w with view := { w.view with
        state := .opened { f with highest := max f.highest (highestRow rows), idleLoad := e.now }
        held := w.view.held ++
          [⟨r, e.now, if rows = [] then none else some f.number, rows, needed, false⟩] } }
      (e.conf.coversLast r = false →
        w.acceptRead e r rows = (joined.answerAll e).demandPass e) ∧
      (e.conf.coversLast r = true → w.acceptRead e r rows = ((joined.closeFrame e
        { f with highest := max f.highest (highestRow rows), idleLoad := e.now }).answerAll e).demandPass e)) ∧
  (∀ (e : ViewEnv) (w : ViewWork),
    let filled := w.view.held.foldl (fun (u : ViewWork) h => ViewWork.underrun e h
      { u with
        view := { u.view with held := u.view.held.tail }
        answers := u.answers ++ [e.conf.fillAnswer h.req] }) w
    let cleared := fun u : ViewWork => ({ u with view := { u.view with
      underrunRaised := false, fetchErrorRaised := false, warnRaised := false } } : ViewWork)
    let limit := e.conf.underrunLimit
    filled.view.held = [] ∧
    filled.answers = w.answers ++ (w.view.held.map fun h => e.conf.fillAnswer h.req) ∧
    (∀ h hs y ys, w.view.held = h :: hs → h.rows = y :: ys → w.view.underrunRaised = false →
      ⟨.underrun, 3, e.idx.val, h.frame.getD w.view.framesOpened, BitVec.ofNat 32 y⟩ ∈ filled.events) ∧
    ((∀ f, w.view.state ≠ .opened f) → w.openingStage1 e = cleared filled) ∧
    (∀ f, w.view.state = .opened f →
      let underruns := f.underruns + (w.view.held.filter fun h => h.frame = some f.number).length
      let entered := w.view.degrade = .full ∧ f.underruns < limit ∧ limit ≤ underruns
      w.openingStage1 e = cleared (filled.closeFrame e { f with underruns }) ∧
      filled.view.degrade = (if entered then .single else w.view.degrade) ∧
      (entered → ⟨.degradeEnter, 2, e.idx.val, f.number, BitVec.ofNat 32 limit⟩ ∈ filled.events)) ∧
    (∀ rows, w.openingStage2 e rows = { w with view := { w.view with
      framesOpened := w.view.framesOpened + 1
      state := .opened ⟨w.view.framesOpened + 1, highestRow rows, 0, false, e.now⟩ } })) ∧
  (∀ (e : ViewEnv) (f : FrameRecord) (w : ViewWork),
    let v := w.view
    let closed : View := { v with
      state := .idle
      underrunRaised := false
      fetchErrorRaised := false
      warnedRun := if f.warned then min 6 (v.warnedRun + 1) else 0
      saturated := f.warned && (v.saturated || decide (6 ≤ v.warnedRun + 1)) }
    let clean := f.underruns = 0 ∧ f.warned = false
    (v.degrade = .full → w.closeFrame e f = { w with view := closed }) ∧
    (v.degrade = .single → ¬ clean → w.closeFrame e f = { w with view := { closed with cleanRun := 0 } }) ∧
    (v.degrade = .single → clean → v.cleanRun ≠ 7 →
      w.closeFrame e f = { w with view := { closed with cleanRun := v.cleanRun + 1 } }) ∧
    (v.degrade = .single → clean → v.cleanRun = 7 → w.closeFrame e f =
      { w with
        view := { closed with degrade := .full, cleanRun := 0 }
        events := w.events ++
          [⟨.degradeExit, 2, e.idx.val, f.number, BitVec.ofNat 32 v.totalUnderruns⟩] }))

/-- APERTURE_WRITE_REFUSED: the write is answered ERROR and APERTURE_WRITE is raised with the tag and the offset
from the aperture base; nothing is forwarded and the view is untouched (R147). An offset that does not fit its
argument word gives a free value there (log entry 20). That the ERROR answer has no beats and no data is the
model's reading (log entry 37, DEDUCED). -/
def Obligations.ApertureWriteRefused : Prop :=
  ∀ (s : State) (w : WriteReq) (b l : Nat) (v : Fin 2) (a : Bool),
    w.wf = true → s.quiet → s.windowAt w.addr = some ⟨b, l, .aperture v, a⟩ →
    ∃ offset : Word, (w.addr.toNat - b < 2 ^ 32 → offset.toNat = w.addr.toNat - b) ∧
      exec (.apertureWriteRefused w) s = .next
        { s with
          up := { s.up with responses := s.up.responses ++ [⟨w.tag, w.num, .error, false, 0, []⟩] }
          report := s.report.raise s.timeBase
            ⟨.apertureWrite, 2, v.val, BitVec.ofNat 32 w.tag.toNat, offset⟩ }

/-! ### Timers (chapters 1, 5 and 7) -/

/-- The three timers. WATCHDOG_EXPIRY: a WAITING or RUNNING source whose timeout has passed since the last load
goes to STALLED, with STREAM_STALLED; the watchdog code chooses the timeout from 25 ms to 1000 ms (R27).
IDLE_TIMER_EXPIRY: the open frame closes and is examined: the
warned run of R134, the clean run and the exit from SINGLE of R101; held reads and plan stay (R91).
HOLD_LIMIT_EXPIRY: a view's one held read, whose limit has passed with a needed row outstanding, is answered
with fill and counts one underrun in the view's total (R129 to R131). Of several held reads the first that is
due is marked expired in its place and counts its underrun at once; the queue then answers what it can, so it
is filled when it stands at the head, and behind a head that waits nothing is answered (R127, R129, R130). Before its time has passed a timer's
row leaves the state, and so does a watchdog's in another source state, and a hold limit's for a read that
has expired already or has every row it needs: the model's choice for a row that is not due (log entry 3). -/
def Obligations.TimersExpire : Prop :=
  (List.range 8).map watchdogMs = [25, 40, 60, 80, 120, 250, 500, 1000] ∧
  (∀ (s : State) (i : Fin 4) (load : Word) (r : SourceRecord), s.phase = .running →
    s.sources[i].state = .waiting ∨ s.sources[i].state = .running →
    s.sources[i].watchdog = some load → s.sources[i].record = some r →
    1000 * watchdogMs r.watchdog ≤ (s.timeBase - load).toNat →
    exec (.watchdogExpiry i) s = .next
      { s with
        sources := s.sources.set i.val
          { s.sources[i] with state := .stalled, watchdog := none, recoveryRun := 0 } i.isLt
        report := s.report.raise s.timeBase ⟨.streamStalled, 3, i.val,
          BitVec.ofNat 32 s.sources[i].state.code, BitVec.ofNat 32 (watchdogMs r.watchdog)⟩ }) ∧
  (∀ (s : State) (v : Fin 2) (r : ViewRecord) (f : FrameRecord), s.phase = .running →
    s.views[v].record = some r → s.views[v].state = .opened f →
    1000 * r.idleTimeout ≤ (s.timeBase - f.idleLoad).toNat →
    let old := s.views[v]
    let closed : View := { old with
      state := .idle
      underrunRaised := false
      fetchErrorRaised := false
      warnedRun := if f.warned then min 6 (old.warnedRun + 1) else 0
      saturated := f.warned && (old.saturated || decide (6 ≤ old.warnedRun + 1)) }
    let clean := f.underruns = 0 ∧ f.warned = false
    (old.degrade = .full → exec (.idleTimerExpiry v) s = .next
      { s with views := s.views.set v.val closed v.isLt }) ∧
    (old.degrade = .single → ¬ clean → exec (.idleTimerExpiry v) s = .next
      { s with views := s.views.set v.val { closed with cleanRun := 0 } v.isLt }) ∧
    (old.degrade = .single → clean → old.cleanRun ≠ 7 → exec (.idleTimerExpiry v) s = .next
      { s with views := s.views.set v.val { closed with cleanRun := old.cleanRun + 1 } v.isLt }) ∧
    (old.degrade = .single → clean → old.cleanRun = 7 → exec (.idleTimerExpiry v) s = .next
      { s with
        views := s.views.set v.val { closed with degrade := .full, cleanRun := 0 } v.isLt
        report := s.report.raise s.timeBase
          ⟨.degradeExit, 2, v.val, f.number, BitVec.ofNat 32 old.totalUnderruns⟩ })) ∧
  (∀ (s : State) (v : Fin 2) (r : ViewRecord) (h : HeldRead) (p : Plan) (k : RowKey), s.quiet →
    s.views[v].record = some r → s.views[v].held = [h] → s.views[v].plan = some p → h.rows ≠ [] →
    h.expired = false → r.holdLimit ≤ (s.timeBase - h.accepted).toNat →
    k ∈ h.needed → s.views[v].rowReady k = false →
    ∃ t, exec (.holdLimitExpiry v) s = .next t ∧ t.views[v].held = [] ∧
      t.up.responses = s.up.responses ++ [r.fillAnswer h.req] ∧
      t.views[v].totalUnderruns = min 65535 (s.views[v].totalUnderruns + 1) ∧
      t.views[v].underrunRaised = true ∧ t.views[v].plan = some p ∧
      t.views[v].markRow = s.views[v].markRow ∧ t.passQueue = s.passQueue ∧ t.sources = s.sources ∧
      (∀ u : Fin 2, u ≠ v → t.views[u] = s.views[u])) ∧
  (∀ (s : State) (v : Fin 2) (r : ViewRecord) (before after : List HeldRead) (h : HeldRead), s.quiet →
    s.views[v].record = some r → s.views[v].held = before ++ h :: after →
    let due := fun h : HeldRead => h.expired = false ∧ r.holdLimit ≤ (s.timeBase - h.accepted).toNat ∧
      ∃ k ∈ h.needed, s.views[v].rowReady k = false
    (∀ g ∈ before, ¬ due g) → due h →
    let env : ViewEnv := ⟨v, r, s.timeBase, s.sources⟩
    let held := before ++ { h with expired := true } :: after
    let w := ViewWork.answerAll env
      (ViewWork.underrun env h ⟨{ s.views[v] with held }, s.inflight, [], [], s.draws⟩)
    exec (.holdLimitExpiry v) s = .next (State.raiseAll
      { s with
        views := s.views.set v.val w.view v.isLt
        inflight := w.inflight
        up := { s.up with responses := s.up.responses ++ w.answers }
        draws := w.draws } w.events) ∧
    w.view.totalUnderruns = min 65535 (s.views[v].totalUnderruns + 1) ∧ w.view.underrunRaised = true ∧
    (before = [] → h.rows ≠ [] → ∃ more, w.answers = r.fillAnswer h.req :: more) ∧
    (∀ g gs p, before = g :: gs → g.rows ≠ [] → g.expired = false → s.views[v].plan = some p →
      ¬ (p.fromSide = none ∧ p.toSide = none) → (∃ k ∈ g.needed, s.views[v].rowReady k = false) →
      w.answers = [] ∧ w.view.held = held)) ∧
  (∀ (s : State) (i : Fin 4),
    (∀ (load : Word) (r : SourceRecord), s.sources[i].watchdog = some load → s.sources[i].record = some r →
      (s.timeBase - load).toNat < 1000 * watchdogMs r.watchdog →
      exec (.watchdogExpiry i) s = .next s) ∧
    (s.sources[i].state ≠ .waiting → s.sources[i].state ≠ .running →
      exec (.watchdogExpiry i) s = .next s)) ∧
  (∀ (s : State) (v : Fin 2) (r : ViewRecord) (f : FrameRecord),
    s.views[v].record = some r → s.views[v].state = .opened f →
    (s.timeBase - f.idleLoad).toNat < 1000 * r.idleTimeout → exec (.idleTimerExpiry v) s = .next s) ∧
  (∀ (s : State) (v : Fin 2) (r : ViewRecord), s.quiet → s.views[v].record = some r →
    (∀ h ∈ s.views[v].held, h.expired = true ∨ (s.timeBase - h.accepted).toNat < r.holdLimit ∨
      ∀ k ∈ h.needed, s.views[v].rowReady k = true) →
    exec (.holdLimitExpiry v) s = .next s)

/-! ### The memory port and the reports (chapters 8, 9, 11 and 13) -/

/-- ARBITER_GRANT: the candidate that ranks first is granted. Urgent candidates come first, the view that the
urgent pointer names when both offer one; then the aged ones, whose count is 64: a prefetch candidate by the
prefetch pointer, the report candidate, the calibration candidate; then the oldest forwarded request; then a
prefetch candidate by the prefetch pointer, a report candidate and a calibration candidate (R152, R154, R155).
Outside running the pass-through queue alone offers (R157). A grant sets the count of the requester granted and
of one that offers nothing to 0 and raises every other, up to 64 (R156); a view's grant moves the pointer of its
candidate's class to the other view (R155). After an event that changes an offer, the count of a requester that
offers nothing is 0 and the others stay (R156; that this happens at the end of the event is log entry 24). Whoever
wins, one request leaves under the lowest-numbered free entry, with its number as request number (R138, R151);
the oldest forwarded request leaves as it stands, its entry naming its requester (R153). With no free entry, or no candidate, nothing is granted (R151). -/
def Obligations.GrantsRanked : Prop :=
  (∀ s : State,
    let urgent := fun v : Fin 2 => ∃ f, s.viewOffer v = some f ∧ f.urgent = true
    let prefetch := fun v : Fin 2 => ∃ f, s.viewOffer v = some f ∧ f.urgent = false
    let aged := fun v : Fin 2 => prefetch v ∧ s.arb.ageView[v] = 64
    let report := s.reportOffer ≠ none
    let cal := s.calOffer ≠ none
    let first := fun (offers : Fin 2 → Prop) (pointer : Fin 2) => ∀ v : Fin 2,
      offers v → (offers (1 - v) → pointer = v) → s.winner = some (.view v)
    first urgent s.arb.urgentPtr ∧
    ((∀ v, ¬ urgent v) →
      first aged s.arb.prefetchPtr ∧
      ((∀ v, ¬ aged v) →
        (report → s.arb.ageReport = 64 → s.winner = some .report) ∧
        (¬ (report ∧ s.arb.ageReport = 64) →
          (cal → s.arb.ageCal = 64 → s.winner = some .cal) ∧
          (¬ (cal ∧ s.arb.ageCal = 64) →
            (s.passQueue ≠ [] → s.winner = some .pass) ∧
            (s.passQueue = [] →
              first prefetch s.arb.prefetchPtr ∧
              ((∀ v, ¬ prefetch v) →
                (report → s.winner = some .report) ∧
                (¬ report → cal → s.winner = some .cal) ∧
                (¬ report → ¬ cal → s.winner = none)))))))) ∧
  (∀ s : State,
    (s.phase = .running → s.reportOffer = s.report.output.head? ∧
      s.calOffer = s.cal.load.bind fun l => l.todo.head?) ∧
    (s.phase ≠ .running → (∀ v, s.viewOffer v = none) ∧ s.reportOffer = none ∧ s.calOffer = none)) ∧
  (∀ (s : State) (g : Requester),
    let age := fun (mine offers : Bool) (n : Nat) =>
      if mine then 0 else if offers then min 64 (n + 1) else 0
    let a := s.arbAfter g
    (∀ v : Fin 2, a.ageView[v] = age (g = .view v) (s.viewOffer v).isSome s.arb.ageView[v]) ∧
    a.ageReport = age (g = .report) s.reportOffer.isSome s.arb.ageReport ∧
    a.ageCal = age (g = .cal) s.calOffer.isSome s.arb.ageCal ∧
    (∀ (v : Fin 2) (f : Fetch), g = .view v → s.viewOffer v = some f →
      (f.urgent = true → a.urgentPtr = 1 - v ∧ a.prefetchPtr = s.arb.prefetchPtr) ∧
      (f.urgent = false → a.urgentPtr = s.arb.urgentPtr ∧ a.prefetchPtr = 1 - v)) ∧
    ((∀ v, g ≠ .view v) → a.urgentPtr = s.arb.urgentPtr ∧ a.prefetchPtr = s.arb.prefetchPtr)) ∧
  (∀ s : State, ∃ a : Arbiter, s.settleAges = { s with arb := a } ∧
    (∀ v : Fin 2, a.ageView[v] = if s.viewOffer v = none then 0 else s.arb.ageView[v]) ∧
    a.ageReport = (if s.reportOffer = none then 0 else s.arb.ageReport) ∧
    a.ageCal = (if s.calOffer = none then 0 else s.arb.ageCal) ∧
    a.urgentPtr = s.arb.urgentPtr ∧ a.prefetchPtr = s.arb.prefetchPtr) ∧
  (∀ (s : State) (e : Fin 64) (g : Requester), s.quiet → s.lowestFree e → s.winner = some g →
    ∃ t o q, exec .arbiterGrant s = .next t ∧ t.arb = s.arbAfter g ∧
      t.outstanding = s.outstanding.set e.val (some ⟨o, false⟩) e.isLt ∧
      t.memRequests = s.memRequests ++ [numbered q e] ∧
      (∀ q qs, g = .pass → s.passQueue = q :: qs → t =
        { s with
          passQueue := qs
          outstanding := s.outstanding.set e.val (some ⟨ownerOf q, false⟩) e.isLt
          memRequests := s.memRequests ++ [numbered q e]
          arb := s.arbAfter .pass })) ∧
  (∀ s : State, s.quiet → ((∀ e : Fin 64, s.outstanding[e] ≠ none) ∨ s.winner = none) →
    exec .arbiterGrant s = .next s)

/-- ARBITER_GRANT of an own read. A view offers the next read of its oldest urgent issued fetch that has one
left, else of the head of its queue when that is urgent, else of its oldest issued fetch, else of the head of
its queue (R123). A queued fetch covers the segment of its entry's row: it begins at the store's base plus the
row times the stride plus 4 × cmin, and ends with byte 4 × cmax + 3 of the row (R124). At the grant of its first
read the request leaves the fetch queue and the fetch joins the in-flight list with one read granted and one
response owed (R123); that the entry's bytes are zeros until they arrive is the model's choice (log entry 25). A
later grant raises the granted and the owed count of its fetch. The read of a fetch and the next read of the
load in flight (R35) leave with tag 255 under the lowest-numbered free entry, which records their owner (R138,
R151). -/
def Obligations.ReadsGranted : Prop :=
  (∀ (s : State) (v : Fin 2), s.phase = .running →
    let left := fun f : Fetch => f.view = v ∧ f.todo ≠ []
    let oldest := fun (test : Fetch → Prop) (f : Fetch) =>
      ∃ before after, s.inflight = before ++ f :: after ∧ test f ∧ ∀ g ∈ before, ¬ test g
    let queue := s.views[v].fetchQ
    (∀ f, oldest (fun g => left g ∧ g.urgent = true) f → s.viewOffer v = some f) ∧
    ((∀ g ∈ s.inflight, ¬ (left g ∧ g.urgent = true)) →
      (∀ n ns f, queue.urgent = n :: ns → s.formFetch v n = some f → s.viewOffer v = some f) ∧
      (queue.urgent = [] →
        (∀ f, oldest left f → s.viewOffer v = some f) ∧
        ((∀ g ∈ s.inflight, ¬ left g) →
          (∀ n ns f, queue.normal = n :: ns → s.formFetch v n = some f → s.viewOffer v = some f) ∧
          (queue.normal = [] → s.viewOffer v = none))))) ∧
  (∀ (s : State) (v : Fin 2) (n : Fin 16) (key : RowKey) (urgent : Bool) (data : List Byte) (p : Plan)
      (side : SidePlan) (r : SourceRecord) (base : Nat),
    s.views[v].cache[n] = .fetching key urgent data → s.views[v].plan = some p →
    (match key.side with | .fromSide => p.fromSide | .toSide => p.toSide) = some side →
    side.cmin ≤ side.cmax → s.sources[key.source].record = some r →
    (r.posBases ++ r.spareBases)[key.store]? = some base →
    let row := base + key.row * r.stride
    let reads := readsFor (row + 4 * side.cmin) (row + 4 * side.cmax + 3)
    let f : Fetch := ⟨v, n, 0, reads.length, 0, reads, row + 4 * side.cmin, urgent, false⟩
    s.formFetch v n = some f ∧
    ∀ (e : Fin 64) (sp : Span) (rest : List Span), s.quiet → s.lowestFree e → s.winner = some (.view v) →
      s.viewOffer v = some f → reads = sp :: rest →
      exec .arbiterGrant s = .next
        { s with
          inflight := s.inflight ++ [⟨v, n, 1, reads.length, 1, rest, row + 4 * side.cmin, urgent, false⟩]
          views := s.views.set v.val
            { s.views[v] with
              fetchQ := ⟨s.views[v].fetchQ.urgent.erase n, s.views[v].fetchQ.normal.erase n⟩
              cache := s.views[v].cache.set n.val
                (.fetching key urgent (List.replicate (4 * (side.cmax - side.cmin + 1)) 0)) n.isLt }
            v.isLt
          outstanding := s.outstanding.set e.val (some ⟨.fetch v n sp, false⟩) e.isLt
          memRequests := s.memRequests ++ [.read ⟨255, BitVec.ofNat 40 sp.addr, sp.beats, e.val⟩]
          arb := s.arbAfter (.view v) }) ∧
  (∀ (s : State) (e : Fin 64) (v : Fin 2) (f : Fetch) (sp : Span) (rest : List Span), s.quiet →
    s.lowestFree e → s.winner = some (.view v) → s.viewOffer v = some f → f.view = v → f.granted ≠ 0 →
    f.todo = sp :: rest →
    exec .arbiterGrant s = .next
      { s with
        inflight := s.inflight.map fun g =>
          if g.view = v ∧ g.entry = f.entry then
            { g with granted := g.granted + 1, owed := g.owed + 1, todo := g.todo.tail }
          else g
        outstanding := s.outstanding.set e.val (some ⟨.fetch v f.entry sp, false⟩) e.isLt
        memRequests := s.memRequests ++ [.read ⟨255, BitVec.ofNat 40 sp.addr, sp.beats, e.val⟩]
        arb := s.arbAfter (.view v) }) ∧
  (∀ (s : State) (e : Fin 64) (l : Load) (sp : Span) (rest : List Span), s.quiet → s.lowestFree e →
    s.winner = some .cal → s.cal.load = some l → l.todo = sp :: rest →
    exec .arbiterGrant s = .next
      { s with
        cal := { s.cal with load := some { l with todo := rest, owed := l.owed + 1 } }
        outstanding := s.outstanding.set e.val (some ⟨.load sp, false⟩) e.isLt
        memRequests := s.memRequests ++ [.read ⟨255, BitVec.ofNat 40 sp.addr, sp.beats, e.val⟩]
        arb := s.arbAfter .cal })

/-- The way of an event into the report ring. Outside running it is not taken (R183). Below the record
floor it is dropped; with an empty pending-kind list and room it joins the output queue; else it joins the
list, at its tail, or folded into the entry of its kind, whose place, kind and first time stay (R174,
R175). A room test moves the oldest entries into the queue, as many as there is room for (R175). A request
for the mirror is merged into a writing that waits, and else placed behind the queue (R181). -/
def Obligations.EventsRaised : Prop :=
  (∀ (s : State) (e : Event),
    (s.phase = .running → s.raise e = { s with report := s.report.raise s.timeBase e }) ∧
    (s.phase ≠ .running → s.raise e = s)) ∧
  (∀ (r : Report) (now : Word) (e : Event),
    let single : Record := ⟨e.kind, e.level, e.subject, 1, now, now, e.arg0, e.arg1⟩
    let room := r.queued < 4 ∧ r.unacked + r.queued < 256
    (e.level < r.floor → r.raise now e = r) ∧
    (r.floor ≤ e.level → r.pendingKinds = [] → room →
      r.raise now e = { r with output := r.output ++ [.record single] }) ∧
    (r.floor ≤ e.level → (r.pendingKinds ≠ [] ∨ ¬ room) →
      ((∀ p ∈ r.pendingKinds, p.kind ≠ e.kind) →
        r.raise now e = { r with pendingKinds := r.pendingKinds ++ [single] }) ∧
      (∀ before p after, r.pendingKinds = before ++ p :: after → p.kind = e.kind →
        (∀ x ∈ before ++ after, x.kind ≠ e.kind) →
        r.raise now e = { r with pendingKinds := before ++
          ⟨p.kind, e.level, e.subject, min 65535 (p.count + 1), p.first, now, e.arg0, e.arg1⟩ ::
            after }))) ∧
  (∀ r : Report,
    let n := min (4 - r.queued) (256 - (r.unacked + r.queued))
    r.testRoom = { r with
      output := r.output ++ (r.pendingKinds.take n).map .record
      pendingKinds := r.pendingKinds.drop n }) ∧
  (∀ r : Report,
    r.queued = (r.output.filter fun x => x != .mirror).length ∧
    r.unacked = (r.writeIndex - r.ackIndex).toNat ∧
    (OutItem.mirror ∈ r.output → r.requestMirror = r) ∧
    (OutItem.mirror ∉ r.output → r.requestMirror = { r with output := r.output ++ [.mirror] }))

/-- ARBITER_GRANT of the Report Unit's head: a record leaves as one write of 2 beats at its ring position
with the write index as its sequence; its position's alert flag becomes the mask flag of its kind, the
write index rises, and room is tested. A mirror writing leaves as one write of 16 beats with the mirror
count raised. Both carry tag 255 with every byte strobed (R172, R176, R181, R197). EVT_N is low exactly
while an unacknowledged position carries its alert flag (R178). -/
def Obligations.ReportGrants : Prop :=
  (∀ (s : State) (e : Fin 64), s.quiet → s.lowestFree e → s.winner = some .report →
    (∀ (r : Record) (rest : List OutItem), s.report.output = .record r :: rest →
      exec .arbiterGrant s = .next
        { s with
          report := Report.testRoom
            { s.report with
              writeIndex := s.report.writeIndex + 1
              alertFlags := Vector.ofFn fun n : Fin 256 =>
                if n.val = s.report.writeIndex.toNat % 256 then s.report.mask.getLsbD (r.kind.code - 1)
                else s.report.alertFlags[n]
              output := rest }
          outstanding := s.outstanding.set e.val (some ⟨.recordWrite, false⟩) e.isLt
          memRequests := s.memRequests ++ [.write ⟨255,
            BitVec.ofNat 40 (controlBase s.strapCp + 4096 + 32 * (s.report.writeIndex.toNat % 256)),
            2, e.val, r.bytes s.report.writeIndex, List.replicate 32 true⟩]
          arb := s.arbAfter .report } ∧
      (s.report.grantRecord r).writeIndex = s.report.writeIndex + 1) ∧
    (∀ rest : List OutItem, s.report.output = .mirror :: rest →
      let granted : Report := { s.report with mirrorCount := s.report.mirrorCount + 1, output := rest }
      exec .arbiterGrant s = .next
        { s with
          report := granted
          outstanding := s.outstanding.set e.val (some ⟨.mirrorWrite, false⟩) e.isLt
          memRequests := s.memRequests ++ [.write ⟨255,
            BitVec.ofNat 40 (controlBase s.strapCp + 2304), 16, e.val,
            State.mirrorBytes { s with report := granted }, List.replicate 256 true⟩]
          arb := s.arbAfter .report })) ∧
  (∀ s : State, s.evtN = false ↔ ∃ n : Nat, n < (s.report.writeIndex - s.report.ackIndex).toNat ∧
    ∃ p : Fin 256, p.val = (s.report.ackIndex.toNat + n) % 256 ∧ s.report.alertFlags[p] = true)

/-- The bytes that the part writes, each field least significant byte first (R191): the 32 bytes of a
report record (R195) and the 256 of a mirror writing (R182, R196), each field at its offset, an absent
last slot, result, to-source or newest READY store as FFh, and every unused byte 0 (R197). Kind codes run
from 1 to 29 in the order of section 11.8, with the levels of that table; command codes, results, source and
view states, degrade levels, reset causes, hand-off states, directions and calibration states have the codes of
R191. -/
def Obligations.RecordAndMirrorLayout : Prop :=
  (∀ (r : Record) (seq : Half),
    let field := readLE (r.bytes seq)
    (r.bytes seq).length = 32 ∧ field 0 2 = seq.toNat ∧ field 2 1 = r.kind.code ∧
    field 3 1 = r.level % 256 ∧ field 4 1 = r.subject % 256 ∧ field 5 1 = 0 ∧
    field 6 2 = r.count % 65536 ∧ field 8 4 = r.first.toNat ∧ field 12 4 = r.last.toNat ∧
    field 16 4 = r.arg0.toNat ∧ field 20 4 = r.arg1.toNat ∧ field 24 8 = 0) ∧
  ([.frameShort, .storeRemapped, .zoomReached, .handoffStart, .handoffDone, .handoffReversed, .resetDone,
    .cmdRefused, .streamRunning, .warmRequest, .cameraIdle, .zoomClamped, .handoffAbandoned,
    .handoffAborted, .frozenExit, .latencyWarn, .degradeEnter, .degradeExit, .calActive, .apertureWrite,
    .cmdOverrun, .streamStalled, .frameTorn, .handoffCut, .frozenEnter, .underrun, .fetchError, .calBad,
    .eventForced] : List EventKind).map EventKind.code = List.range' 1 29 ∧
  ([.frameShort, .storeRemapped, .zoomReached, .handoffStart, .handoffDone, .handoffReversed, .resetDone,
    .cmdRefused, .streamRunning, .warmRequest, .cameraIdle, .zoomClamped, .handoffAbandoned,
    .handoffAborted, .frozenExit, .latencyWarn, .degradeEnter, .degradeExit, .calActive, .apertureWrite,
    .cmdOverrun, .streamStalled, .frameTorn, .handoffCut, .frozenEnter, .underrun, .fetchError,
    .calBad] : List EventKind).map EventKind.level =
      List.replicate 6 1 ++ List.replicate 14 2 ++ List.replicate 8 3 ∧
  ((List.range' 1 10).map CmdCode.ofByte = [some .nop, some .sourceSetup, some .sourceControl,
      some .viewSetup, some .viewControl, some .calLoad, some .zoomSet, some .eventSetup, some .eventForce,
      some .partReset] ∧
    ∀ n : Nat, n = 0 ∨ 10 < n → CmdCode.ofByte n = none) ∧
  ([.ok, .unknown, .incomplete, .check, .state, .range, .conflict, .busy] : List CmdResult).map
    CmdResult.code = List.range 8 ∧
  ([.unset, .off, .waiting, .running, .stalled] : List SourceState).map SourceState.code = List.range 5 ∧
  (∀ f : FrameRecord, ([.disabled, .idle, .opened f] : List ViewState).map ViewState.code = List.range 3) ∧
  ([.full, .single] : List DegradeLevel).map DegradeLevel.code = List.range 2 ∧
  ([.power, .pin, .soft] : List ResetCause).map ResetCause.code = [1, 2, 3] ∧
  (∀ (p : Fin 3) (d : PairDir) (n : Nat),
    let states : List HandoffState :=
      [.settled, .prepare p d n, .blend p d .forward, .blend p d .reverse, .frozen]
    states.map HandoffState.code = [0, 1, 2, 2, 3] ∧
    states.map HandoffState.directionCode = [0, 0, 1, 2, 0]) ∧
  (∀ (l : Load) (x y : CalSet) (staged active : Option CalSet),
    ([⟨none, none, none⟩, ⟨active, staged, some l⟩, ⟨active, some x, none⟩, ⟨some y, none, none⟩] :
      List CalStore).map CalStore.stateCode = [0, 1, 2, 3]) ∧
  (∀ s : State,
    let field := readLE s.mirrorBytes
    let orNone := fun x : Option Nat => x.getD 255 % 256
    s.mirrorBytes.length = 256 ∧
    field 0 2 = s.report.mirrorCount.toNat ∧ field 2 2 = 0x0740 ∧ field 4 1 = 1 ∧
    field 5 1 = s.report.cause.code ∧ field 6 2 = 0 ∧ field 8 4 = s.cmd.consumed.toNat ∧
    field 12 1 = orNone (s.cmd.last.map fun l => l.slot.val) ∧
    field 13 1 = orNone (s.cmd.last.map fun l => l.result.code) ∧
    field 14 2 = (s.cmd.last.map fun l => l.tag.toNat).getD 0 ∧
    field 16 2 = s.report.writeIndex.toNat ∧ field 18 2 = s.report.ackIndex.toNat ∧
    field 20 2 = s.zoom.target % 65536 ∧ field 22 2 = s.zoom.current % 65536 ∧
    field 24 4 = (BitVec.ofInt 32 s.zoom.panX).toNat ∧ field 28 4 = (BitVec.ofInt 32 s.zoom.panY).toNat ∧
    field 32 1 = s.handoff.state.code ∧ field 33 1 = s.handoff.fromSrc.val ∧
    field 34 1 = orNone (s.handoff.toSrc.map Fin.val) ∧ field 35 1 = s.handoff.state.directionCode ∧
    field 36 2 = s.handoff.weight % 65536 ∧ field 38 1 = s.cal.stateCode ∧ field 39 1 = 0 ∧
    (∀ i : Fin 4, field (40 + 8 * i.val) 1 = s.sources[i].state.code ∧
      field (41 + 8 * i.val) 1 = orNone s.sources[i].newestReady ∧ field (42 + 8 * i.val) 2 = 0 ∧
      field (44 + 8 * i.val) 4 = s.sources[i].readyCount.toNat) ∧
    (∀ v : Fin 2, field (72 + 16 * v.val) 1 = s.views[v].state.code ∧
      field (73 + 16 * v.val) 1 = s.views[v].degrade.code ∧
      field (74 + 16 * v.val) 1 = s.views[v].saturated.toNat ∧ field (75 + 16 * v.val) 1 = 0 ∧
      field (76 + 16 * v.val) 4 = s.views[v].framesOpened.toNat ∧
      field (80 + 16 * v.val) 2 = s.views[v].totalUnderruns % 65536 ∧ field (82 + 16 * v.val) 6 = 0) ∧
    field 104 150 = 0 ∧ field 254 2 = s.report.mirrorCount.toNat)

/-- The reads that bring in the bytes from `first` to `last` (R124): in address order, each of 1 to 16
aligned beats that cross no 4 KiB boundary, each beginning where the one before ended, which has 16 beats or
ends on a 4 KiB boundary, together the beats that hold those bytes. -/
def Obligations.FetchReadsDivide : Prop :=
  ∀ first last : Nat, first ≤ last →
    (∀ x ∈ readsFor first last, 1 ≤ x.beats ∧ x.beats ≤ 16 ∧ x.addr % 16 = 0 ∧
      x.addr % 4096 + 16 * x.beats ≤ 4096) ∧
    (readsFor first last).head?.map Span.addr = some (first / 16 * 16) ∧
    (∀ n x y, (readsFor first last)[n]? = some x → (readsFor first last)[n + 1]? = some y →
      y.addr = x.addr + 16 * x.beats ∧ (x.beats = 16 ∨ y.addr % 4096 = 0)) ∧
    ((readsFor first last).map Span.beats).sum = last / 16 - first / 16 + 1

/-- RESPONSE_RELAY: memory's answer to a forwarded request reaches its requester with its code and data
unchanged, under the requester's tag and request number, and the entry is freed (R138, R141).
DISCARDED_RESPONSE: the response to a discarded request frees its entry and does nothing else (R148).
OWN_REQUEST_RESPONSE: so does the response to a record or mirror write, whatever its code (R176); one that
is not the last of its fetch or of the load places its bytes, or has its ERROR noted, and one response less
is owed (R35, R125). Bytes outside the buffer are dropped (R35, R124). That the answer to a write carries
no beats is DEDUCED (log entry 37). -/
def Obligations.ResponsesHandedOver : Prop :=
  (∀ (s : State) (e : Fin 64) (m : MemResp) (tag : Byte) (num : Nat) (isRead : Bool) (beats : Nat),
    s.quiet → s.outstanding[e] = some ⟨.forwarded tag num isRead beats, false⟩ →
    m.data.length = (if isRead then 16 * beats else 0) →
    exec (.responseRelay e m) s = .next
      { s with
        outstanding := s.outstanding.set e.val none e.isLt
        up := { s.up with responses := s.up.responses ++
          [⟨tag, num, m.code, isRead, if isRead then beats else 0, m.data⟩] } }) ∧
  (∀ (s : State) (e : Fin 64) (m : MemResp) (o : OutEntry), s.quiet → s.outstanding[e] = some o →
    m.data.length = o.owner.dataLength →
    (o.discarded = true → exec (.discardedResponse e m) s = .next
      { s with outstanding := s.outstanding.set e.val none e.isLt }) ∧
    (o.owner = .recordWrite ∨ o.owner = .mirrorWrite → exec (.ownRequestResponse e m) s = .next
      { s with outstanding := s.outstanding.set e.val none e.isLt })) ∧
  (∀ (s : State) (e : Fin 64) (m : MemResp) (v : Fin 2) (n : Fin 16) (sp : Span) (r : ViewRecord) (f : Fetch)
      (c : CacheEntry),
    s.quiet → s.outstanding[e] = some ⟨.fetch v n sp, false⟩ → m.data.length = 16 * sp.beats →
    s.views[v].record = some r → s.inflight.find? (fun g => g.isOf v n) = some f →
    (f.todo ≠ [] ∨ 2 ≤ f.owed) →
    (s.views[v].cache[n] = .discarding ∧ c = .discarding ∨
      ∃ key urgent data, s.views[v].cache[n] = .fetching key urgent data ∧ c = .fetching key urgent
        (if m.code = .okay then placeBytes f.segBase data sp.addr m.data else data)) →
    exec (.ownRequestResponse e m) s = .next (State.settleAges
      { s with
        outstanding := s.outstanding.set e.val none e.isLt
        inflight := s.inflight.map fun g =>
          if g.view = v ∧ g.entry = n then
            { g with owed := g.owed - 1, error := g.error || m.code == .error }
          else g
        views := s.views.set v.val
          { s.views[v] with cache := s.views[v].cache.set n.val c n.isLt } v.isLt })) ∧
  (∀ (s : State) (e : Fin 64) (m : MemResp) (sp : Span) (l : Load),
    s.quiet → s.outstanding[e] = some ⟨.load sp, false⟩ → m.data.length = 16 * sp.beats →
    s.cal.load = some l → (l.todo ≠ [] ∨ 2 ≤ l.owed) →
    let least := max sp.addr l.addr - l.addr
    exec (.ownRequestResponse e m) s = .next
      { s with
        outstanding := s.outstanding.set e.val none e.isLt
        cal := { s.cal with
          load := some { l with
            owed := l.owed - 1
            buffer := if m.code = .okay then placeBytes l.addr l.buffer sp.addr m.data else l.buffer
            error := if m.code = .okay then l.error else some (min least (l.error.getD least)) } } }) ∧
  (∀ (base addr i : Nat) (buf data : List Byte) (x : Byte), buf[i]? = some x →
    (placeBytes base buf addr data)[i]? =
      some (if addr ≤ base + i ∧ base + i < addr + data.length then (data[base + i - addr]?).getD 0
        else x))

/-- FETCH_COMPLETION: the last response owed makes a FETCHING entry VALID, or FAILED when any response was
ERROR, with the next completion order, and a DISCARDING one EMPTY; the fetch leaves the in-flight list
(R116, R125). A demand pass and the answers that the queue can then give follow (R122, R125, R129); that the
pass follows the completion of a DISCARDING entry too is the model's reading (log entry 34, DEDUCED). In a view
that holds no read nothing follows; that no prefetch follows when a DISCARDING entry has become EMPTY, against
R126's "It resumes as they empty", is the model's reading too (log entry 41, DEDUCED). The one read held by a
view is answered when its needed rows are all there: composed from them when every one is VALID, with fill and
no underrun when one is FAILED (R122, R129, R132); with a row outstanding it stays held. -/
def Obligations.FetchCompletes : Prop :=
  ∀ (s : State) (e : Fin 64) (m : MemResp) (v : Fin 2) (n : Fin 16) (sp : Span) (r : ViewRecord) (f : Fetch),
    s.quiet → s.outstanding[e] = some ⟨.fetch v n sp, false⟩ → m.data.length = 16 * sp.beats →
    s.views[v].record = some r →
    s.inflight.find? (fun g => g.isOf v n) = some f → f.todo = [] → f.owed = 1 →
    let after := fun done : View =>
      let env : ViewEnv := ⟨v, r, s.timeBase, s.sources⟩
      let rest := s.inflight.filter fun g => !g.isOf v n
      let w := ViewWork.answerAll env (ViewWork.demandPass env ⟨done, rest, [], [], s.draws⟩)
      exec (.fetchCompletion e m) s = .next (State.settleAges (State.raiseAll
        { s with
          outstanding := s.outstanding.set e.val none e.isLt
          views := s.views.set v.val w.view v.isLt
          inflight := w.inflight
          up := { s.up with responses := s.up.responses ++ w.answers }
          draws := w.draws } w.events))
    (∀ (key : RowKey) (urgent : Bool) (data : List Byte),
      s.views[v].cache[n] = .fetching key urgent data →
      let done : View := { s.views[v] with
        completionCount := s.views[v].completionCount + 1
        cache := s.views[v].cache.set n.val
          (if f.error = true ∨ m.code = .error then
            .failed key (s.views[v].completionCount + 1)
          else
            .valid key (s.views[v].completionCount + 1) (placeBytes f.segBase data sp.addr m.data))
          n.isLt }
      after done ∧
      (s.views[v].held = [] → exec (.fetchCompletion e m) s = .next (State.settleAges
        { s with
          outstanding := s.outstanding.set e.val none e.isLt
          inflight := s.inflight.filter fun g => !g.isOf v n
          views := s.views.set v.val done v.isLt })) ∧
      (∀ (h : HeldRead) (p : Plan), s.views[v].held = [h] → s.views[v].plan = some p →
        p.isFill = false → h.rows ≠ [] → h.expired = false →
        ((∀ k ∈ h.needed, done.rowValid k = true) →
          ∃ t, exec (.fetchCompletion e m) s = .next t ∧ t.views[v].held = [] ∧
            t.views[v].markRow = highestRow h.rows ∧ t.views[v].plan = some p ∧
            t.views[v].totalUnderruns = s.views[v].totalUnderruns ∧
            t.up.responses = s.up.responses ++ [okayAnswer h.req (r.answerData h.req fun x y ch =>
              composedPixel ⟨v, r, s.timeBase, s.sources⟩ done p x y ch)] ∧
            t.outstanding = s.outstanding.set e.val none e.isLt) ∧
        ((∀ k ∈ h.needed, done.rowReady k = true) → (∃ k ∈ h.needed, done.rowFailed k = true) →
          ∃ t, exec (.fetchCompletion e m) s = .next t ∧ t.views[v].held = [] ∧
            t.views[v].markRow = s.views[v].markRow ∧ t.views[v].plan = some p ∧
            t.views[v].totalUnderruns = s.views[v].totalUnderruns ∧
            t.views[v].fetchErrorRaised = true ∧
            t.up.responses = s.up.responses ++ [r.fillAnswer h.req] ∧
            t.outstanding = s.outstanding.set e.val none e.isLt) ∧
        (s.views[v].CacheOk → (∃ k ∈ h.needed, done.rowReady k = false) →
          ∃ t, exec (.fetchCompletion e m) s = .next t ∧ t.views[v].held = [h] ∧
            t.views[v].markRow = s.views[v].markRow ∧ t.views[v].plan = some p ∧
            t.up.responses = s.up.responses ∧
            t.outstanding = s.outstanding.set e.val none e.isLt))) ∧
    (s.views[v].cache[n] = .discarding →
      let done : View := { s.views[v] with cache := s.views[v].cache.set n.val .empty n.isLt }
      after done ∧
      (s.views[v].held = [] → exec (.fetchCompletion e m) s = .next (State.settleAges
        { s with
          outstanding := s.outstanding.set e.val none e.isLt
          inflight := s.inflight.filter fun g => !g.isOf v n
          views := s.views.set v.val done v.isLt })))

/-! ### The takes of command slots (chapters 2 and 10) -/

/-- NOP completes with result OK and no effect beyond the completion: the slot is freed, the pointer and the
consumed count advance, the last command is recorded, and the mirror is requested (R166, R169). -/
def Obligations.NopCompletes : Prop :=
  ∀ (s : State) (sl : Slot), s.offers .nop sl →
    exec .nop s = .next
      { s with
        cmd := { s.cmd with
          slots := s.cmd.slots.set s.cmd.next.val
            ⟨Vector.replicate 64 0, Vector.replicate 64 false, .free, false, false⟩ s.cmd.next.isLt
          next := s.cmd.next + 1
          consumed := s.cmd.consumed + 1
          last := some ⟨s.cmd.next, .ok, sl.tag⟩ }
        report := s.report.requestMirror }

/-- A refused command changes nothing but what the completion changes, and CMD_REFUSED is raised with the
code, the result and the tag: whether the Command Unit's own checks refuse it or its owner does (R164,
R167). Those checks are rows 1 to 6 of R164, the first that applies giving the result: word 0 not seen under the
incomplete mark, a length above 14, the incomplete mark, the check, a code that is none of the ten, a length
below the words of the command (R193). A word is seen when its four bytes are marked (R160). The check passes
when the 4 · (length + 1) bytes from the first and the check byte add up to a multiple of 256 (R165); it is made
while check enable is set. Code, length, check byte and tag stand in bytes 0, 1, 60, and 62 with 63 (R193). -/
def Obligations.RefusedChangesNothing : Prop :=
  (∀ (sl : Slot) (enable : Bool),
    let bytes := sl.bytes.toList.map BitVec.toNat
    let code := bytes.getD 0 0
    let length := bytes.getD 1 0
    let headSeen := ∀ p : Fin 64, p.val < 4 → sl.marks[p] = true
    let passes := ((bytes.take (4 * (length + 1))).sum + bytes.getD 60 0) % 256 = 0
    let result := ownCheck sl enable
    sl.code = code ∧ sl.tag = BitVec.ofNat 16 (bytes.getD 62 0 + 256 * bytes.getD 63 0) ∧
    (headSeen → sl.command = CmdCode.ofByte code) ∧ (¬ headSeen → sl.command = none) ∧
    (sl.incomplete = true → ¬ headSeen → result = some .incomplete) ∧
    ((sl.incomplete = false ∨ headSeen) → 14 < length → result = some .range) ∧
    (length ≤ 14 →
      (sl.incomplete = true → result = some .incomplete) ∧
      (sl.incomplete = false →
        (enable = true → ¬ passes → result = some .check) ∧
        ((enable = false ∨ passes) →
          (CmdCode.ofByte code = none → result = some .unknown) ∧
          ∀ c, CmdCode.ofByte code = some c →
            (length < c.words → result = some .range) ∧ (c.words ≤ length → result = none))))) ∧
  ([.nop, .partReset, .sourceControl, .viewControl, .calLoad, .eventSetup, .eventForce, .zoomSet, .viewSetup,
    .sourceSetup] : List CmdCode).map CmdCode.words = [0, 0, 1, 1, 2, 2, 2, 4, 7, 10] ∧
  ∀ (i : Instr) (mine : Slot → Bool) (act : OwnerAct) (s : State) (sl : Slot) (r : CmdResult),
    commandRow i = some (mine, act) → s.phase = .running → s.quiet → s.readySlot = some sl →
    mine sl = true →
    (ownCheck sl s.cmd.checkEnable = some r ∨
      (ownCheck sl s.cmd.checkEnable = none ∧ (act sl s.markTaken).1 = r ∧ r ≠ .ok)) →
    exec i s = .next
      { s with
        cmd := s.cmd.complete sl r
        report := (s.report.raise s.timeBase
          ⟨.cmdRefused, 2, s.cmd.next.val, BitVec.ofNat 32 (sl.code + 256 * r.code),
            BitVec.ofNat 32 sl.tag.toNat⟩).requestMirror }

/-- UNKNOWN_COMMAND_TAKE: a slot whose code is none of the ten is refused UNKNOWN when its words are all
there, its length is at most 14 and its check passes or is not made (R164 row 5); one whose word 0 never
came is refused INCOMPLETE (row 1). -/
def Obligations.UnknownCommandRefused : Prop :=
  ∀ (s : State) (sl : Slot), s.phase = .running → s.readySlot = some sl →
    (sl.incomplete = false → sl.seen 0 = true → sl.bodyLength ≤ 14 →
      (s.cmd.checkEnable = false ∨ sl.checkPasses = true) → CmdCode.ofByte sl.code = none →
      exec .unknownCommandTake s = .next (s.refused sl .unknown)) ∧
    (sl.incomplete = true → sl.seen 0 = false →
      exec .unknownCommandTake s = .next (s.refused sl .incomplete))

/-- SOURCE_SETUP. Its checks in their order, each with its result: the index, the source's state, the ranges
of R3, the overlaps, the master tag, the pins (R4). When all pass, the record is replaced, the old camera
windows leave the table and the new ones enter inactive, and the source is OFF with an identity map over
FREE, unpinned stores (R5). The rectangle that a fresh store holds is the model's choice (log entry 10). The
index and every field of the record stand at the bytes of the slot that R193 gives them, a base as its page
number (R191). -/
def Obligations.SourceSetUp : Prop :=
  (∀ sl : Slot,
    let field := readLE sl.bytes.toList
    (∀ i : Fin 4, sl.source = some i ↔ field 4 1 = i.val) ∧
    sl.sourceRecord =
      { tag := BitVec.ofNat 8 (field 5 1)
        width := field 8 2
        height := field 10 2
        stride := field 12 4
        positions := field 6 1
        spares := field 7 1
        watchdog := field 16 1
        posBases := (List.range (field 6 1)).map fun k => 4096 * field (20 + 4 * k) 4
        spareBases := (List.range (field 7 1)).map fun j => 4096 * field (36 + 4 * j) 4 }) ∧
  ∀ (s : State) (sl : Slot), s.phase = .running → s.offers .sourceSetup sl →
    (sl.source = none → exec .sourceSetup s = .next (s.refused sl .range)) ∧
    ∀ i : Fin 4, sl.source = some i →
      let r := sl.sourceRecord
      let apart := fun x y : Nat × Nat => x.1 + x.2 ≤ y.1 ∨ y.1 + y.2 ≤ x.1
      let settable := s.sources[i].state = .unset ∨ s.sources[i].state = .off
      let inRange := 64 ≤ r.width ∧ r.width ≤ 4096 ∧ 64 ≤ r.height ∧ r.height ≤ 3072 ∧
        r.stride % 64 = 0 ∧ 4 * r.width ≤ r.stride ∧ 2 ≤ r.positions ∧ r.positions ≤ 4 ∧
        1 ≤ r.spares ∧ r.spares ≤ 2 ∧ r.watchdog ≤ 7 ∧
        ∀ b ∈ r.posBases ++ r.spareBases,
          b % 4096 = 0 ∧ b + roundUpPage (r.height * r.stride) ≤ 2 ^ 40
      let clear := r.ranges.Pairwise apart ∧ ∀ x ∈ r.ranges,
        apart x (controlBase s.strapCp, 65536) ∧
        (∀ (j : Fin 4) (q : SourceRecord), j ≠ i → s.sources[j].record = some q →
          ∀ y ∈ q.ranges, apart x y) ∧
        ∀ (v : Fin 2) (q : ViewRecord), s.views[v].record = some q →
          apart x (q.base, roundUpPage (q.height * q.stride))
      let tagFree := ∀ (j : Fin 4) (q : SourceRecord), j ≠ i → s.sources[j].record = some q →
        q.tag ≠ r.tag
      let unpinned := ∀ st ∈ s.sources[i].stores, st.pins = 0
      (¬ settable → exec .sourceSetup s = .next (s.refused sl .state)) ∧
      (settable → ¬ inRange → exec .sourceSetup s = .next (s.refused sl .range)) ∧
      (settable → inRange → ¬ (clear ∧ tagFree) →
        exec .sourceSetup s = .next (s.refused sl .conflict)) ∧
      (settable → inRange → clear → tagFree → ¬ unpinned →
        exec .sourceSetup s = .next (s.refused sl .busy)) ∧
      (settable → inRange → clear → tagFree → unpinned →
        exec .sourceSetup s = .next (State.executed
          { s with
            sources := s.sources.set i.val
              { state := .off
                record := some r
                ringMap := List.range r.positions
                stores := List.replicate (r.positions + r.spares)
                  ⟨.free, 0, false, none, 0, .zero, .zero, ⟨0, 0, r.width - 1, r.height - 1⟩⟩
                readyCount := 0
                watchdog := none
                recoveryRun := 0 } i.isLt
            windows := s.windows.filter (fun w => !w.ofSource i) ++
              r.posBases.mapIdx fun k b =>
                ⟨b, roundUpPage (r.height * r.stride), .camera i k, false⟩ } sl))

/-- SOURCE_CONTROL (R6, R7): enable takes OFF to WAITING, frees the unpinned READY and SHORT stores, loads the
watchdog and activates the windows, and is refused with STATE elsewhere; disable takes an enabled source
to OFF, changes nothing in OFF, and is refused with STATE in UNSET; an index outside 0 to 3 or another
action is refused with RANGE, by both rows for an action that is neither (log entry 26). That a READY store
made FREE keeps no close order is DEDUCED (log entry 14). The index and the action are bytes 0 and 1 of word 1
(R193). -/
def Obligations.SourceControl : Prop :=
  (∀ sl : Slot, sl.action = readLE sl.bytes.toList 5 1 ∧
    ∀ i : Fin 4, sl.source = some i ↔ readLE sl.bytes.toList 4 1 = i.val) ∧
  ∀ (s : State) (sl : Slot), s.phase = .running → s.offers .sourceControl sl →
    (sl.action ≠ 2 → (sl.source = none ∨ sl.action ≠ 1) →
      exec .sourceControlEnable s = .next (s.refused sl .range)) ∧
    (sl.action ≠ 1 → (sl.source = none ∨ sl.action ≠ 2) →
      exec .sourceControlDisable s = .next (s.refused sl .range)) ∧
    (∀ i : Fin 4, sl.source = some i → sl.action = 1 →
      (s.sources[i].state ≠ .off → exec .sourceControlEnable s = .next (s.refused sl .state)) ∧
      (s.sources[i].state = .off → exec .sourceControlEnable s = .next (State.executed
        { s with
          sources := s.sources.set i.val
            { s.sources[i] with
              state := .waiting
              watchdog := some s.timeBase
              recoveryRun := 0
              stores := s.sources[i].stores.map fun st =>
                if st.pins = 0 ∧ (st.state = .ready ∨ st.state = .short) then
                  { st with state := .free, torn := false, closeOrder := none, landed := 0,
                            inner := .zero, full := .zero }
                else st } i.isLt
          windows := s.windows.map fun w => if w.ofSource i then { w with active := true } else w } sl))) ∧
    (∀ i : Fin 4, sl.source = some i → sl.action = 2 →
      (s.sources[i].state = .unset → exec .sourceControlDisable s = .next (s.refused sl .state)) ∧
      (s.sources[i].state = .off → exec .sourceControlDisable s = .next (s.executed sl)) ∧
      (∀ r, s.sources[i].state.windowsActive = true → s.sources[i].record = some r →
        exec .sourceControlDisable s = .next (State.executed
          { s with
            sources := s.sources.set i.val
              { s.sources[i] with
                state := .off
                ringMap := List.range r.positions
                watchdog := none
                recoveryRun := 0 } i.isLt
            windows := s.windows.map fun w => if w.ofSource i then { w with active := false } else w }
          sl)))

/-- VIEW_SETUP. Its checks in their order, each with its result: the index, the view's state, the ranges of
R81, the overlaps (R82). When all pass, the record is replaced, the old aperture leaves the table and the
new one enters inactive, and the counts and the degrade level start anew (R82), with the warned run and the
saturation flag clear (R134). That the raised flags and the completion count stay is DEDUCED (log entry
36). The index, the defaults flag and every field of the record stand at the bytes of the slot that R193 gives
them, the base as its page number (R191); with the flag set words 5 to 7 are not read, and the fill colour is 16,
128, 128, the lookahead 4, the warn lead 2, the hold limit 64 µs, the underrun limit 4 and the idle timeout 50 ms
(R81). -/
def Obligations.ViewSetUp : Prop :=
  (∀ sl : Slot,
    let field := readLE sl.bytes.toList
    (∀ v : Fin 2, sl.view = some v ↔ field 4 1 = v.val) ∧
    (field 5 1 % 2 = 1 → sl.viewRecord =
      { width := field 8 2
        height := field 10 2
        stride := field 12 4
        base := 4096 * field 16 4
        fillY := 16
        fillCb := 128
        fillCr := 128
        lookahead := 4
        warnLead := 2
        holdLimit := 64
        underrunLimit := 4
        idleTimeout := 50 }) ∧
    (field 5 1 % 2 = 0 → sl.viewRecord =
      { width := field 8 2
        height := field 10 2
        stride := field 12 4
        base := 4096 * field 16 4
        fillY := BitVec.ofNat 8 (field 20 1)
        fillCb := BitVec.ofNat 8 (field 21 1)
        fillCr := BitVec.ofNat 8 (field 22 1)
        lookahead := field 24 1
        warnLead := field 25 1
        holdLimit := field 28 2
        underrunLimit := field 26 1
        idleTimeout := field 27 1 })) ∧
  ∀ (s : State) (sl : Slot), s.phase = .running → s.offers .viewSetup sl →
    (sl.view = none → exec .viewSetup s = .next (s.refused sl .range)) ∧
    ∀ v : Fin 2, sl.view = some v →
      let r := sl.viewRecord
      let size := roundUpPage (r.height * r.stride)
      let apart := fun y : Nat × Nat => r.base + size ≤ y.1 ∨ y.1 + y.2 ≤ r.base
      let inRange := 64 ≤ r.width ∧ r.width ≤ 3840 ∧ 64 ≤ r.height ∧ r.height ≤ 2160 ∧
        r.stride % 16 = 0 ∧ 4 * r.width ≤ r.stride ∧ r.base % 4096 = 0 ∧
        1 ≤ r.lookahead ∧ r.lookahead ≤ 8 ∧ r.warnLead ≤ 8 ∧
        4 ≤ r.holdLimit ∧ r.holdLimit ≤ 1020 ∧ r.holdLimit % 4 = 0 ∧
        1 ≤ r.underrunLimit ∧ r.underrunLimit ≤ 15 ∧ 1 ≤ r.idleTimeout ∧ r.idleTimeout ≤ 255 ∧
        r.base + size ≤ 2 ^ 40
      let clear := apart (controlBase s.strapCp, 65536) ∧
        (∀ (j : Fin 4) (q : SourceRecord), s.sources[j].record = some q → ∀ y ∈ q.ranges, apart y) ∧
        ∀ (u : Fin 2) (q : ViewRecord), u ≠ v → s.views[u].record = some q →
          apart (q.base, roundUpPage (q.height * q.stride))
      (s.views[v].state ≠ .disabled → exec .viewSetup s = .next (s.refused sl .state)) ∧
      (s.views[v].state = .disabled → ¬ inRange → exec .viewSetup s = .next (s.refused sl .range)) ∧
      (s.views[v].state = .disabled → inRange → ¬ clear →
        exec .viewSetup s = .next (s.refused sl .conflict)) ∧
      (s.views[v].state = .disabled → inRange → clear →
        exec .viewSetup s = .next (State.executed
          { s with
            views := s.views.set v.val
              { s.views[v] with
                record := some r
                framesOpened := 0
                totalUnderruns := 0
                degrade := .full
                cleanRun := 0
                warnedRun := 0
                saturated := false } v.isLt
            windows := s.windows.filter (fun w => !w.ofView v) ++
              [⟨r.base, size, .aperture v, false⟩] } sl))

/-- VIEW_CONTROL. Another index or action is refused with RANGE, by both rows for an action that is neither
(log entry 26). Enable (R83): a DISABLED view with a record goes to IDLE with no plan, degrade level FULL,
mark row 0 (R118) and its aperture active; one without a record, or enabled already, is refused with
STATE. That the cache keeps its DISCARDING entries and is otherwise as the disable left it (log entry 23),
and that the raised flags and the completion count stay (log entry 36), is DEDUCED. Disable (R84): a view
without a record is refused with STATE, and in DISABLED nothing changes; else held reads are answered with
fill in their order and without event, the plan is retired and its stores released, the cache and the
fetch queue are cleared with the reads not granted withdrawn (R126), the aperture becomes inactive, the
counts and the degrade level stay, and nothing else changes but the arbiter's counts, settled at the end of
the command (log entry 24, DEDUCED), and what the completion of the take changes. The index and the action are
bytes 0 and 1 of word 1 (R193). -/
def Obligations.ViewControl : Prop :=
  (∀ sl : Slot, sl.action = readLE sl.bytes.toList 5 1 ∧
    ∀ v : Fin 2, sl.view = some v ↔ readLE sl.bytes.toList 4 1 = v.val) ∧
  ∀ (s : State) (sl : Slot), s.phase = .running → s.quiet → s.offers .viewControl sl →
    (sl.action ≠ 2 → (sl.view = none ∨ sl.action ≠ 1) →
      exec .viewControlEnable s = .next (s.refused sl .range)) ∧
    (sl.action ≠ 1 → (sl.view = none ∨ sl.action ≠ 2) →
      exec .viewControlDisable s = .next (s.refused sl .range)) ∧
    (∀ v : Fin 2, sl.view = some v → sl.action = 1 →
      ((s.views[v].record = none ∨ s.views[v].state ≠ .disabled) →
        exec .viewControlEnable s = .next (s.refused sl .state)) ∧
      (∀ r, s.views[v].record = some r → s.views[v].state = .disabled →
        exec .viewControlEnable s = .next (State.executed
          { s with
            views := s.views.set v.val
              { s.views[v] with
                state := .idle, plan := none, degrade := .full, cleanRun := 0, markRow := 0 } v.isLt
            windows := s.windows.map fun w => if w.ofView v then { w with active := true } else w } sl))) ∧
    (∀ v : Fin 2, sl.view = some v → sl.action = 2 →
      (s.views[v].record = none → exec .viewControlDisable s = .next (s.refused sl .state)) ∧
      (∀ r, s.views[v].record = some r → s.views[v].state = .disabled →
        exec .viewControlDisable s = .next (s.executed sl)) ∧
      (∀ r, s.views[v].record = some r → s.views[v].state ≠ .disabled →
        ∃ cache : Vector CacheEntry 16, ClearedTo v s.inflight s.views[v].cache cache ∧
          exec .viewControlDisable s = .next (State.executed (State.settleAges
            { s with
              up := { s.up with responses := s.up.responses ++
                s.views[v].held.map fun h => r.fillAnswer h.req }
              sources := releasePlan s.sources s.views[v].plan
              inflight := (s.inflight.filter fun f => f.view ≠ v ∨ f.owed ≠ 0).map fun f =>
                if f.view = v then { f with todo := [], total := f.granted } else f
              views := s.views.set v.val
                { s.views[v] with
                  state := .disabled, plan := none, held := [], cache, fetchQ := ⟨[], []⟩,
                  markRow := 0 } v.isLt
              windows := s.windows.map fun w => if w.ofView v then { w with active := false } else w })
            sl)))

/-- CAL_LOAD (R34): BUSY while a load is in flight; RANGE for an offset above 4095, a length below the
16-byte header or above 1024, or a block past the top of the address space; else a load in flight starts
with an empty buffer, and the sets stay. That an empty buffer holds zeros is the model's choice (log entry
25), and that its reads divide as a fetch's do is DEDUCED (log entry 15). CALIBRATION_LOAD_END: the last
response owed ends the load. A block that passes every check is staged; any other raises CAL_BAD, and the
staged and active sets stay (R35, R38). The block's page number is word 1, its offset and its length the halves
of word 2, and its address is the page's with the offset added (R34, R193). -/
def Obligations.CalibrationLoads : Prop :=
  (∀ sl : Slot,
    let field := readLE sl.bytes.toList
    sl.loadOffset = field 8 2 ∧ sl.loadLength = field 10 2 ∧ sl.loadAddr = 4096 * field 4 4 + field 8 2) ∧
  (∀ (s : State) (sl : Slot), s.phase = .running → s.offers .calLoad sl →
    (s.cal.load ≠ none → exec .calLoad s = .next (s.refused sl .busy)) ∧
    (s.cal.load = none →
      (4095 < sl.loadOffset ∨ sl.loadLength < 16 ∨ 1024 < sl.loadLength ∨
        2 ^ 40 < sl.loadAddr + sl.loadLength) →
      exec .calLoad s = .next (s.refused sl .range)) ∧
    (s.cal.load = none → sl.loadOffset ≤ 4095 → 16 ≤ sl.loadLength → sl.loadLength ≤ 1024 →
      sl.loadAddr + sl.loadLength ≤ 2 ^ 40 →
      let load : Load := ⟨sl.loadAddr, sl.loadLength, List.replicate sl.loadLength 0,
        readsFor sl.loadAddr (sl.loadAddr + sl.loadLength - 1), 0, none⟩
      exec .calLoad s = .next (State.executed { s with cal := { s.cal with load := some load } } sl))) ∧
  (∀ (s : State) (e : Fin 64) (m : MemResp) (sp : Span) (l : Load), s.phase = .running → s.quiet →
    s.outstanding[e] = some ⟨.load sp, false⟩ → m.data.length = 16 * sp.beats →
    s.cal.load = some l → l.todo = [] → l.owed = 1 →
    (checkLoad (l.respond sp m) s.sources = none →
      exec (.calibrationLoadEnd e m) s = .next
        { s with
          outstanding := s.outstanding.set e.val none e.isLt
          cal := { s.cal with load := none, staged := some (blockSet (l.respond sp m).buffer) } }) ∧
    (∀ x : LoadFailure, checkLoad (l.respond sp m) s.sources = some x →
      exec (.calibrationLoadEnd e m) s = .next
        { s with
          outstanding := s.outstanding.set e.val none e.isLt
          cal := { s.cal with load := none }
          report := s.report.raise s.timeBase
            ⟨.calBad, 3, x.subject, BitVec.ofNat 32 x.reason, x.detail⟩ }))

/-- The checks of a loaded block and their order: an ERROR response ends the load with MEMORY and the lowest
offset answered so (R35); then the identifier, the version and the length, each with its number, then the
CRC over the bytes behind the CRC field (R36); then the fifteen range checks, of which the lowest code that
fails is reported, at its lowest index, and a block is staged only when none fails (R37). A field of a block is
read least significant byte first (R191). The set of a block has its count in byte 7, its CRC at byte 2, source
record s at 16 + 24 s, without a rectangle for the last source, and pair record p at 16 + 24 C + 12 p, each field
at its bytes (R198). The CRC-32 takes each byte into the low end of the remainder, which is then shifted eight
times, from FFFFFFFFh and with FFFFFFFFh combined at the end (R36). -/
def Obligations.BlockChecks : Prop :=
  (∀ (bs : List Byte) (off : Nat), readLE bs off 0 = 0 ∧
    ∀ n, readLE bs off (n + 1) = ((bs[off]?).getD 0).toNat + 256 * readLE bs (off + 1) n) ∧
  (∀ bs : List Byte,
    let count := readLE bs 7 1
    let set := blockSet bs
    let signed := fun o : Nat => (BitVec.ofNat 32 (readLE bs o 4)).toInt
    set.count = count ∧ set.crc = BitVec.ofNat 32 (readLE bs 2 4) ∧
    set.sources.length = count ∧ set.pairs.length = count - 1 ∧
    (∀ i < count,
      let o := 16 + 24 * i
      set.sources[i]? = some
        { k := readLE bs o 4
          oU := signed (o + 4)
          oV := signed (o + 8)
          floor := readLE bs (o + 12) 2
          rect := if i + 1 = count then none else
            some ⟨readLE bs (o + 16) 2, readLE bs (o + 18) 2, readLE bs (o + 20) 2, readLE bs (o + 22) 2⟩ }) ∧
    (∀ p, p + 1 < count →
      let o := 16 + 24 * count + 12 * p
      set.pairs[p]? = some
        { up := readLE bs o 2
          down := readLE bs (o + 2) 2
          margin := readLE bs (o + 4) 2
          step := readLE bs (o + 6) 2
          relax := readLE bs (o + 8) 1
          prepareLimit := readLE bs (o + 9) 1 })) ∧
  (crc32 [] = 0 ∧ ∀ (bs : List Byte) (b : Byte),
    let shift := fun rem : Word => if rem.getLsbD 0 then (rem >>> 1) ^^^ 0xEDB88320#32 else rem >>> 1
    crc32 (bs ++ [b]) ^^^ 0xFFFFFFFF#32 = shift^[8] ((crc32 bs ^^^ 0xFFFFFFFF#32) ^^^ b.setWidth 32)) ∧
  ∀ (l : Load) (sources : Vector Source 4),
    let bs := l.buffer
    let c := blockSet bs
    let crc := crc32 ((bs.take l.length).drop 6)
    let source := fun (n : Nat) (bad : CalSource → Prop) => ∃ x, c.sources[n]? = some x ∧ bad x
    let pair := fun (n : Nat) (bad : CalPair → Prop) => ∃ x, c.pairs[n]? = some x ∧ bad x
    let rect := fun (n : Nat) (bad : Rect → Prop) => source n fun x => ∃ q, x.rect = some q ∧ bad q
    let fails : Nat → Nat → Prop := fun code n =>
      match code with
      | 1 => n = 0 ∧ (c.count < 1 ∨ 4 < c.count)
      | 2 => n = 0 ∧ l.length < 16 + 24 * c.count + 12 * (c.count - 1)
      | 3 => source n fun x => x.k = 0
      | 4 => n = 0 ∧ source 0 fun x => x.floor < 1024
      | 5 => source n fun x => 24576 < x.floor
      | 6 => ∃ j, n = j + 1 ∧ source j fun x => source (j + 1) fun y => y.floor ≤ x.floor
      | 7 => rect n fun q => q.x1 < q.x0 ∨ q.y1 < q.y0
      | 8 => rect n fun q => ∃ i : Fin 4, i.val = n ∧ ∃ r, sources[i].record = some r ∧
          ¬ (q.x0 < r.width ∧ q.x1 < r.width ∧ q.y0 < r.height ∧ q.y1 < r.height)
      | 9 => pair n fun p => source (n + 1) fun x => p.down < x.floor
      | 10 => pair n fun p => p.up ≤ p.down
      | 11 => pair n fun p => p.up - p.down < p.margin
      | 12 => pair n fun p => 24576 < p.up
      | 13 => pair n fun p => p.step < 1 ∨ 256 < p.step
      | 14 => pair n fun p => p.relax < 1 ∨ 64 < p.relax
      | 15 => pair n fun p => p.prepareLimit < 1 ∨ 255 < p.prepareLimit
      | _ => False
    (∀ o, l.error = some o → checkLoad l sources = some ⟨4, BitVec.ofNat 32 o, 0⟩) ∧
    (l.error = none →
      (readLE bs 0 2 ≠ 0x5A4C → checkLoad l sources = some ⟨1, 1, 0⟩) ∧
      (readLE bs 0 2 = 0x5A4C →
        (readLE bs 6 1 ≠ 1 → checkLoad l sources = some ⟨1, 2, 0⟩) ∧
        (readLE bs 6 1 = 1 →
          (readLE bs 8 2 ≠ l.length → checkLoad l sources = some ⟨1, 3, 0⟩) ∧
          (readLE bs 8 2 = l.length →
            (crc ≠ BitVec.ofNat 32 (readLE bs 2 4) → checkLoad l sources = some ⟨2, crc, 0⟩) ∧
            (crc = BitVec.ofNat 32 (readLE bs 2 4) →
              (checkLoad l sources = none ↔ ∀ code n, ¬ fails code n) ∧
              ∀ x, checkLoad l sources = some x → x.reason = 3 ∧
                ∃ code, x.detail = BitVec.ofNat 32 code ∧ fails code x.subject ∧
                  (∀ d < code, ∀ n, ¬ fails d n) ∧ ∀ n < x.subject, ¬ fails code n)))))

/-- ZOOM_SET (R44, R45): RANGE for a slew above 4096; else the target, brought into 1024 to 24576 with
ZOOM_CLAMPED when that changes it, the slew and, without the keep-pan flag, the pan target are set. With a
view enabled the reach report is armed when the target differs from zoom current and disarmed when it does
not; with none enabled it stays (R52, read as the exception to step 4 of R44: log entry 38). Target and slew are
the halves of word 1, the pan target words 2 and 3, signed, unless the keep-pan flag, bit 0 of word 4, is set
(R191, R193). -/
def Obligations.ZoomSetTaken : Prop :=
  (∀ sl : Slot,
    let field := readLE sl.bytes.toList
    let signed := fun o : Nat => (BitVec.ofNat 32 (field o 4)).toInt
    sl.zoomTarget = field 4 2 ∧ sl.zoomSlew = field 6 2 ∧
    (field 16 1 % 2 = 1 → sl.zoomPan = none) ∧
    (field 16 1 % 2 = 0 → sl.zoomPan = some (signed 8, signed 12))) ∧
  ∀ (s : State) (sl : Slot), s.phase = .running → s.offers .zoomSet sl →
    (4096 < sl.zoomSlew → exec .zoomSet s = .next (s.refused sl .range)) ∧
    (sl.zoomSlew ≤ 4096 →
      let set := fun target : Nat => ({ s.zoom with
        target
        slew := sl.zoomSlew
        panX := (sl.zoomPan.map Prod.fst).getD s.zoom.panX
        panY := (sl.zoomPan.map Prod.snd).getD s.zoom.panY
        reachArm :=
          if s.views[(0 : Fin 2)].state = .disabled ∧ s.views[(1 : Fin 2)].state = .disabled then
            s.zoom.reachArm
          else decide (target ≠ s.zoom.current) } : Zoom)
      let clamped := fun target : Nat => s.report.raise s.timeBase
        ⟨.zoomClamped, 2, 0, 1, BitVec.ofNat 32 (sl.zoomTarget + 65536 * target)⟩
      (1024 ≤ sl.zoomTarget → sl.zoomTarget ≤ 24576 → exec .zoomSet s =
        .next (State.executed { s with zoom := set sl.zoomTarget } sl)) ∧
      (sl.zoomTarget < 1024 → exec .zoomSet s =
        .next (State.executed { s with zoom := set 1024, report := clamped 1024 } sl)) ∧
      (24576 < sl.zoomTarget → exec .zoomSet s =
        .next (State.executed { s with zoom := set 24576, report := clamped 24576 } sl)))

/-- EVENT_SETUP sets the record floor, the alert mask and check enable, and keeps the records queued and the
kinds pending; EVENT_FORCE raises EVENT_FORCED ahead of the mirror request of its take; both are refused with
RANGE for a level outside 1 to 3 (R179, R180). An event below the floor that then stands is not recorded, and a
record granted takes its flag from the mask that then stands, the flags of the other positions staying (R179).
A reset leaves the floor at 1, below which no kind lies, and alerts every kind of level NOTICE or FAULT and
EVENT_FORCED (R179). The floor or level is byte 0 of word 1, check enable bit 0 of its byte 1, and word 2 the
alert mask in its bits 0 to 28, or the argument word (R193). -/
def Obligations.EventCommands : Prop :=
  (∀ sl : Slot,
    let field := readLE sl.bytes.toList
    sl.index = field 4 1 ∧ (sl.flag 5 = true ↔ field 5 1 % 2 = 1) ∧
    (∀ n, n < 29 → sl.eventMask.getLsbD n = (field 8 4).testBit n) ∧
    sl.forceArg.toNat = field 8 4 ∧ sl.tag.toNat = field 62 2) ∧
  (∀ (s : State) (sl : Slot), s.phase = .running →
    (s.offers .eventSetup sl →
      ((sl.index < 1 ∨ 3 < sl.index) → exec .eventSetup s = .next (s.refused sl .range)) ∧
      (1 ≤ sl.index → sl.index ≤ 3 → exec .eventSetup s = .next (State.executed
        { s with
          report := { s.report with floor := sl.index, mask := sl.eventMask }
          cmd := { s.cmd with checkEnable := sl.flag 5 } } sl))) ∧
    (s.offers .eventForce sl →
      ((sl.index < 1 ∨ 3 < sl.index) → exec .eventForce s = .next (s.refused sl .range)) ∧
      (1 ≤ sl.index → sl.index ≤ 3 →
        let forced : Event := ⟨.eventForced, sl.index, 0, sl.forceArg, BitVec.ofNat 32 sl.tag.toNat⟩
        exec .eventForce s =
          .next (State.executed { s with report := s.report.raise s.timeBase forced } sl)))) ∧
  (∀ (r : Report) (now : Word) (e : Event), e.level < r.floor → r.raise now e = r) ∧
  (∀ (r : Report) (x : Record) (n : Fin 256), (r.grantRecord x).alertFlags[n] =
    if n.val = r.writeIndex.toNat % 256 then r.mask.getLsbD (x.kind.code - 1) else r.alertFlags[n]) ∧
  (∀ (s : State) (c : ResetCause) (k : EventKind),
    State.reset.report = Report.reset .power ∧ (s.blocksReset c).report = Report.reset c ∧
    (Report.reset c).floor = 1 ∧ 1 ≤ k.level ∧
    ((Report.reset c).mask.getLsbD (k.code - 1) = true ↔ 2 ≤ k.level ∨ k = .eventForced))

/-! ### Rules of single blocks -/

/-- The rows a view brings in. An output row needs its row and neighbour row of each present side (R118), taken
from-side first and lower row first, over the output rows y to y + L below Ho (R121). A new row takes the lowest
EMPTY entry, else the evictable entry whose completion is oldest, one being evictable when it is VALID or FAILED,
no held read needs its row and its row lies outside the mark window, which of two with one completion order being
a free value (log entry 46); else none (R119). A request that is not
urgent needs room among the 8 and an entry; an urgent one displaces the newest that is not urgent when it has
none, and fails when there is none to displace (R120). Prefetch goes through its rows in order and stops at the
first that cannot be requested; a read answered with composed pixels moves the mark row and prefetches from
there (R118, R121, R129). The demand pass goes through the rows of the held reads that have not expired, makes
urgent what is not, queued or issued, and stops at the first request that fails (R122). A clearing leaves an
entry whose fetch is issued and owed responses DISCARDING and every other entry EMPTY but those DISCARDING
already, withdraws the reads not granted, and empties the queue and the mark row (R126). -/
def Obligations.RowsRequested : Prop :=
  let live := fun (c : CacheEntry) (k : RowKey) =>
    (∃ urgent data, c = .fetching k urgent data) ∨ (∃ order pixels, c = .valid k order pixels) ∨
      ∃ order, c = .failed k order
  let room := fun v : View => v.fetchQ.urgent.length + v.fetchQ.normal.length < 8
  let urged := fun (v : View) (n : Fin 16) (k : RowKey) => ({ v with
    cache := v.cache.set n.val (.fetching k true []) n.isLt
    fetchQ := { v.fetchQ with urgent := v.fetchQ.urgent ++ [n] } } : View)
  (∀ (e : ViewEnv) (p : Plan) (y : Nat),
    let of := fun (side : Side) (x : SidePlan) =>
      let a := axisPos x.v0 x.step y (e.heightOf x.source)
      (if a.next = a.cell then [a.cell] else [a.cell, a.next]).map fun row =>
        (⟨side, x.source, x.store, row⟩ : RowKey)
    (∀ (i : Fin 4) (r : SourceRecord), e.sources[i].record = some r → e.heightOf i = r.height) ∧
    rowKeys e p y =
      p.fromSide.toList.flatMap (of .fromSide) ++ p.toSide.toList.flatMap (of .toSide)) ∧
  (∀ (e : ViewEnv) (p : Plan) (v : View) (y : Nat) (ys : List Nat),
    lookRows e y = (List.range' y (e.conf.lookahead + 1)).filter (fun i => i < e.conf.height) ∧
    neededRows e (some p) ys = (ys.flatMap (rowKeys e p)).eraseDups ∧ neededRows e none ys = [] ∧
    markWindow e v = neededRows e v.plan (lookRows e v.markRow)) ∧
  (∀ (v : View) (k : RowKey),
    (∀ n, v.entryOf k = some n → live v.cache[n] k) ∧
    (v.entryOf k = none → ∀ n : Fin 16, ¬ live v.cache[n] k)) ∧
  (∀ (e : ViewEnv) (v : View),
    let evictable := fun (n : Fin 16) (order : Word) => ∃ k,
      ((∃ pixels, v.cache[n] = .valid k order pixels) ∨ v.cache[n] = .failed k order) ∧
      (∀ h ∈ v.held, k ∉ h.needed) ∧ k ∉ markWindow e v
    (∀ n : Fin 16, v.cache[n] = .empty → (∀ m < n, v.cache[m] ≠ .empty) → chooseEntry e v = some n) ∧
    ((∀ n : Fin 16, v.cache[n] ≠ .empty) →
      (∀ n, chooseEntry e v = some n → ∃ o, evictable n o ∧ ∀ m o', evictable m o' →
        (v.completionCount - o').toNat ≤ (v.completionCount - o).toNat) ∧
      (chooseEntry e v = none → ∀ n o, ¬ evictable n o))) ∧
  (∀ (e : ViewEnv) (v : View) (k : RowKey),
    (¬ room v ∨ chooseEntry e v = none → requestNormal e v k = none) ∧
    (∀ n, room v → chooseEntry e v = some n → requestNormal e v k = some { v with
      cache := v.cache.set n.val (.fetching k false []) n.isLt
      fetchQ := { v.fetchQ with normal := v.fetchQ.normal ++ [n] } }) ∧
    (∀ n, room v → chooseEntry e v = some n → requestUrgent e v k = some (urged v n k)) ∧
    (¬ room v ∨ chooseEntry e v = none →
      (v.fetchQ.normal = [] → requestUrgent e v k = none) ∧
      (∀ before m, v.fetchQ.normal = before ++ [m] → v.fetchQ.length ≤ 8 →
        let w : View := { v with
          cache := v.cache.set m.val .empty m.isLt
          fetchQ := { v.fetchQ with normal := before } }
        ∃ n, chooseEntry e w = some n ∧ requestUrgent e v k = some (urged w n k)))) ∧
  (∀ (e : ViewEnv) (w : ViewWork) (v : View) (k : RowKey) (ks : List RowKey) (y : Nat),
    w.prefetch e y =
      { w with view := prefetchKeys e (neededRows e w.view.plan (lookRows e y)) w.view } ∧
    prefetchKeys e [] v = v ∧
    (v.entryOf k ≠ none → prefetchKeys e (k :: ks) v = prefetchKeys e ks v) ∧
    (v.entryOf k = none →
      (∀ u, requestNormal e v k = some u → prefetchKeys e (k :: ks) v = prefetchKeys e ks u) ∧
      (requestNormal e v k = none → prefetchKeys e (k :: ks) v = v))) ∧
  (∀ (e : ViewEnv) (w : ViewWork) (p : Plan) (h : HeldRead), w.view.plan = some p →
    let y := highestRow h.rows
    let answered : ViewWork := { w with
      view := { w.view with held := w.view.held.tail, markRow := y }
      answers := w.answers ++ [okayAnswer h.req
        (e.conf.answerData h.req fun x y ch => composedPixel e w.view p x y ch)] }
    w.answerHead e h .composed = ((answered.prefetch e y).latencyTest e p h y).demandPass e) ∧
  (∀ (e : ViewEnv) (w : ViewWork) (k : RowKey) (ks : List RowKey),
    w.demandPass e = w.demandRows e
      ((w.view.held.filter fun h => !h.expired).flatMap HeldRead.needed) ∧
    ViewWork.demandRows e [] w = w ∧
    (w.view.entryOf k = none →
      (∀ u, requestUrgent e w.view k = some u →
        ViewWork.demandRows e (k :: ks) w = ViewWork.demandRows e ks { w with view := u }) ∧
      (requestUrgent e w.view k = none → ViewWork.demandRows e (k :: ks) w = w)) ∧
    (∀ n, w.view.entryOf k = some n →
      ((∀ data, w.view.cache[n] ≠ .fetching k false data) →
        ViewWork.demandRows e (k :: ks) w = ViewWork.demandRows e ks w) ∧
      (∀ data, w.view.cache[n] = .fetching k false data →
        let cache := w.view.cache.set n.val (.fetching k true data) n.isLt
        (n ∈ w.view.fetchQ.normal → ViewWork.demandRows e (k :: ks) w = ViewWork.demandRows e ks
          { w with view := { w.view with
            cache
            fetchQ := ⟨w.view.fetchQ.urgent ++ [n], w.view.fetchQ.normal.erase n⟩ } }) ∧
        (n ∉ w.view.fetchQ.normal → ViewWork.demandRows e (k :: ks) w = ViewWork.demandRows e ks
          { w with
            view := { w.view with cache }
            inflight := w.inflight.map fun f =>
              if f.view = e.idx ∧ f.entry = n then { f with urgent := true } else f })))) ∧
  (∀ (i : Fin 2) (w : ViewWork), ∃ cache : Vector CacheEntry 16,
    ClearedTo i w.inflight w.view.cache cache ∧
    w.clear i = { w with
      inflight := (w.inflight.filter fun f => f.view ≠ i ∨ f.owed ≠ 0).map fun f =>
        if f.view = i then { f with todo := [], total := f.granted } else f
      view := { w.view with cache, fetchQ := ⟨[], []⟩, markRow := 0 } })

/-- A view answers its reads in the order in which they were accepted (R127), each with OKAY and its full length,
by the table of R129: zeros for a read that touches no row; fill without a plan, under a fill frame, and for an
expired read; fill with its FETCH_ERROR (R132) when a needed row is FAILED and the others are there; composed
pixels when all are VALID, with the mark row, a prefetch and the latency test behind them. A demand pass follows
each answer (R122), and the new head is examined. The queue stops at a head that none of these cases answers,
or empty: so the first reads, as many as can be answered now, are answered, and the others stay held. -/
def Obligations.AnswersInOrder : Prop :=
  (∀ (v : View) (k : RowKey),
    (v.rowValid k = true ↔ ∃ n order pixels, v.entryOf k = some n ∧ v.cache[n] = .valid k order pixels) ∧
    (v.rowFailed k = true ↔ ∃ n order, v.entryOf k = some n ∧ v.cache[n] = .failed k order)) ∧
  (∀ (e : ViewEnv) (w : ViewWork),
    let there := fun (v : View) (k : RowKey) => v.rowValid k = true ∨ v.rowFailed k = true
    let fillFrame := fun p : Plan => p.fromSide = none ∧ p.toSide = none
    let waits := fun (v : View) (h : HeldRead) => h.rows ≠ [] ∧ h.expired = false ∧
      (∃ p, v.plan = some p ∧ ¬ fillFrame p) ∧ ∃ k ∈ h.needed, ¬ there v k
    (∃ n ≤ w.view.held.length,
      (w.answerAll e).view.held = w.view.held.drop n ∧
      (w.answerAll e).answers.map (fun a => (a.tag, a.num)) =
        w.answers.map (fun a => (a.tag, a.num)) ++
          (w.view.held.take n).map fun h => (h.req.tag, h.req.num)) ∧
    (∀ h hs, (w.answerAll e).view.held = h :: hs → waits (w.answerAll e).view h) ∧
    (w.view.held = [] → w.answerAll e = w) ∧
    (∀ h hs, w.view.held = h :: hs →
      let replied := fun (u : ViewWork) (data : List Byte) => ({ u with
        view := { u.view with held := hs }
        answers := u.answers ++ [⟨h.req.tag, h.req.num, .okay, true, h.req.beats, data⟩] } : ViewWork)
      let next := fun u : ViewWork => w.answerAll e = (u.demandPass e).answerAll e
      let fill := e.conf.answerData h.req fun _ _ ch => e.conf.fillPixel ch
      (h.rows = [] → e.conf.touched h.req = [] → next (replied w (List.replicate (16 * h.req.beats) 0))) ∧
      (h.rows ≠ [] →
        (w.view.plan = none → next (replied w fill)) ∧
        ∀ p, w.view.plan = some p →
          (fillFrame p ∨ h.expired = true → next (replied w fill)) ∧
          (¬ fillFrame p → h.expired = false → (∀ k ∈ h.needed, there w.view k) →
            ((∃ k ∈ h.needed, w.view.rowFailed k = true) → next (replied (w.fetchError e h) fill)) ∧
            ((∀ k ∈ h.needed, w.view.rowValid k = true) →
              let y := highestRow h.rows
              let u := replied w (e.conf.answerData h.req fun x y ch => composedPixel e w.view p x y ch)
              let u : ViewWork := { u with view := { u.view with markRow := y } }
              next ((u.prefetch e y).latencyTest e p h y)))) ∧
      (waits w.view h → w.answerAll e = w)))

/-- The counts and events of a view's reads. An underrun raises the total up to 65,535; in the open frame its
read belongs to it raises the frame's count, which at the limit in FULL brings SINGLE and DEGRADE_ENTER
(R102, R131); the first since the view's last opening or close raises UNDERRUN (R131), after
DEGRADE_ENTER (log entry 17). A served read of the open frame, at mark row y from L on, whose lead of VALID
rows is below the warn lead marks the frame warned, and the first of a frame raises LATENCY_WARN unless
saturated (R133, R134). The first fill for a FAILED row raises FETCH_ERROR for one of the failed rows, a
free value saying which of several (R132, log entry 18). -/
def Obligations.UnderrunsAndWarnings : Prop :=
  (∀ (e : ViewEnv) (w : ViewWork) (h : HeldRead) (y : Nat) (ys : List Nat), h.rows = y :: ys →
    let u := w.underrun e h
    let first : List Event := if w.view.underrunRaised then [] else
      [⟨.underrun, 3, e.idx.val, h.frame.getD w.view.framesOpened, BitVec.ofNat 32 y⟩]
    let counted : View := { w.view with
      totalUnderruns := min 65535 (w.view.totalUnderruns + 1), underrunRaised := true }
    (∀ f, w.view.state = .opened f → h.frame = some f.number →
      let opened : ViewState := .opened { f with underruns := f.underruns + 1 }
      (f.underruns + 1 = e.conf.underrunLimit → w.view.degrade = .full →
        u = { w with
          view := { counted with state := opened, degrade := .single, cleanRun := 0 }
          events := w.events ++ [⟨.degradeEnter, 2, e.idx.val, f.number,
            BitVec.ofNat 32 e.conf.underrunLimit⟩] ++ first }) ∧
      ((f.underruns + 1 ≠ e.conf.underrunLimit ∨ w.view.degrade = .single) →
        u = { w with view := { counted with state := opened }, events := w.events ++ first })) ∧
    ((∀ f, w.view.state = .opened f → h.frame ≠ some f.number) →
      u = { w with view := counted, events := w.events ++ first })) ∧
  (∀ (e : ViewEnv) (v : View) (p : Plan) (y : Nat),
    let ready := fun row : Nat =>
      e.conf.height ≤ row ∨ ∀ k ∈ rowKeys e p row, v.rowValid k = true
    let lead := leadFrom e v p e.conf.lookahead y
    lead ≤ e.conf.lookahead ∧ (∀ n < lead, ready (y + 1 + n)) ∧
    (lead < e.conf.lookahead → ¬ ready (y + 1 + lead))) ∧
  (∀ (e : ViewEnv) (w : ViewWork) (p : Plan) (h : HeldRead) (y : Nat),
    let lead := leadFrom e w.view p e.conf.lookahead y
    ((∀ f, w.view.state = .opened f → h.frame ≠ some f.number) → w.latencyTest e p h y = w) ∧
    (∀ f, w.view.state = .opened f → h.frame = some f.number →
      ((y < e.conf.lookahead ∨ e.conf.warnLead ≤ lead) → w.latencyTest e p h y = w) ∧
      (e.conf.lookahead ≤ y → lead < e.conf.warnLead → w.latencyTest e p h y =
        { w with
          view := { w.view with state := .opened { f with warned := true }, warnRaised := true }
          events := w.events ++ (if w.view.warnRaised ∨ w.view.saturated then [] else
            [⟨.latencyWarn, 2, e.idx.val, f.number, BitVec.ofNat 32 lead⟩]) }))) ∧
  (∀ (e : ViewEnv) (w : ViewWork) (h : HeldRead),
    (w.view.fetchErrorRaised = true → w.fetchError e h = w) ∧
    (w.view.fetchErrorRaised = false → (∃ k ∈ h.needed, w.view.rowFailed k = true) →
      ∃ k ∈ h.needed, w.view.rowFailed k = true ∧ ∃ d, w.fetchError e h =
        { w with
          view := { w.view with fetchErrorRaised := true }
          draws := d
          events := w.events ++ [⟨.fetchError, 3, e.idx.val,
            BitVec.ofNat 32 (k.source.val + 256 * k.store), BitVec.ofNat 32 k.row⟩] }))

/-- Stages 3 to 6 of a lead frame opening, in their order (R93). Activation: a staged set becomes the active
one in SETTLED and FROZEN, every arming flag is armed and CAL_ACTIVE raised; in PREPARE and BLEND it waits
(R39). The advance: the proposed zoom moves toward the target by at most the slew, and to it with slew 0
(R47). The served floor is the largest floor of the sources named, the lower-numbered source of two equal
ones (R48). The floor clamp raises zoom current to it (R49), a hold begins with ZOOM_CLAMPED (R50), and an
armed report raises ZOOM_REACHED when zoom current arrives at the target (R51). An opening at which zoom
current already equals the target, with no floor above it, leaves zoom current and raises nothing (R52); that
it disarms a report still armed there is the model's reading (log entry 44, DEDUCED). -/
def Obligations.LeadOpeningStages : Prop :=
  (∀ s : State, s.phase = .running →
    (∀ c, s.cal.staged = some c →
      (s.handoff.state = .settled ∨ s.handoff.state = .frozen → s.activationStage =
        { s with
          cal := { s.cal with active := some c, staged := none }
          handoff := { s.handoff with armUp := #v[true, true, true], armDown := #v[true, true, true] }
          report := s.report.raise s.timeBase ⟨.calActive, 2, 0, BitVec.ofNat 32 c.count, c.crc⟩ }) ∧
      (s.handoff.state ≠ .settled → s.handoff.state ≠ .frozen → s.activationStage = s)) ∧
    (s.cal.staged = none → s.activationStage = s) ∧
    ∀ i : Fin 2, s.leadStages i =
      let a := s.activationStage
      let h := a.handoff.stage ⟨a.zoom.proposed, a.cal.active, a.sources, a.views[i].plan⟩
      let z := a.zoom.clampStage a.cal.active h.1 a.zoom.proposed a.timeBase
      { a with
        handoff := h.1
        zoom := z.1
        report := (h.2 ++ z.2).foldl (fun r e => r.raise a.timeBase e) a.report }) ∧
  (∀ z : Zoom,
    (z.slew = 0 → z.proposed = z.target) ∧
    (z.current ≤ z.target + z.slew → z.target ≤ z.current + z.slew → z.proposed = z.target) ∧
    (z.slew ≠ 0 → z.current + z.slew < z.target → z.proposed = z.current + z.slew) ∧
    (z.slew ≠ 0 → z.target + z.slew < z.current → z.proposed = z.current - z.slew)) ∧
  (∀ (active : Option CalSet) (h : Handoff),
    let src := floorSource active h
    (h.named = h.fromSrc ::
      match h.state with
      | .prepare p d _ => [toOf p d]
      | .blend p d _ => [toOf p d]
      | _ => []) ∧
    src ∈ h.named ∧ servedFloor active h = floorOf active src ∧
    (∀ i ∈ h.named, floorOf active i ≤ floorOf active src) ∧
    (∀ i ∈ h.named, floorOf active i = floorOf active src → src ≤ i) ∧
    (∀ (c : CalSet) (i : Fin 4) (m : CalSource), active = some c → c.sources[i.val]? = some m →
      floorOf active i = if i.val < c.count then m.floor else 2048) ∧
    (active = none → ∀ i, floorOf active i = 2048) ∧
    ∀ (zm : Zoom) (z : Nat) (now : Word),
      let floor := servedFloor active h
      let current := max z floor
      let holding := z < floor ∧ zm.target < floor
      let reached := zm.reachArm = true ∧ zm.current ≠ zm.target ∧ current = zm.target
      (zm.current = zm.target → floor ≤ zm.target → zm.clampStage active h zm.proposed now =
        ({ zm with floorHold := false, reachArm := false }, [])) ∧
      zm.clampStage active h z now =
        ({ zm with
            current
            floorHold := decide holding
            reachArm := zm.reachArm && decide (zm.current ≠ zm.target ∧ current ≠ zm.target) },
          (if holding ∧ zm.floorHold = false then
            [⟨.zoomClamped, 2, src.val, 2, BitVec.ofNat 32 (floor + 65536 * zm.target)⟩] else []) ++
          (if reached then [⟨.zoomReached, 1, 0, BitVec.ofNat 32 zm.target, now⟩] else [])))

/-- The Hand-off Controller's stage and its order (R59): the band tests of every pair, one transition, relax
when the stage began and ended its transition in SETTLED with one from-source, and warm requests when it
ended in SETTLED, the up one first. A band test clears a suppression flag and re-arms an arming flag when
the zoom has left the pair's warm band or the pair does not exist (R61, R62). Relax moves the gain toward
256 by the pair's step and each offset toward 0 by 1, and ends at neutral; with relax pair none the gain is 256
at once (R77). A relax pair that no longer exists under the active set ends the residual at once (R77, R78):
that its offsets become 0 with its gain, where the bullets of R77 move them by 1, is the model's reading (log
entry 40, DEDUCED). A warm request is raised in the warm band and disarms its flag (R63). -/
def Obligations.HandoffStageSteps : Prop :=
  ∀ (n : StageInput) (h : Handoff),
    let upLeft := fun p : Fin 3 => (n.pair p).all fun c => decide (n.z + c.margin < c.up)
    let downLeft := fun p : Fin 3 => (n.pair p).all fun c => decide (c.down + c.margin ≤ n.z)
    h.bandTests n = { h with
      supUp := Vector.ofFn fun p : Fin 3 => h.supUp[p] && !upLeft p
      armUp := Vector.ofFn fun p : Fin 3 => h.armUp[p] || upLeft p
      supDown := Vector.ofFn fun p : Fin 3 => h.supDown[p] && !downLeft p
      armDown := Vector.ofFn fun p : Fin 3 => h.armDown[p] || downLeft p } ∧
    (let x := (h.bandTests n).transition n
     let settled := fun g : Handoff => (((g.warmRequests n).1, x.2 ++ (g.warmRequests n).2) :
       Handoff × List Event)
     (x.1.state ≠ .settled → h.stage n = x) ∧
     (x.1.state = .settled → h.state = .settled → x.1.fromSrc = h.fromSrc →
       h.stage n = settled (x.1.relax n)) ∧
     (x.1.state = .settled → (h.state ≠ .settled ∨ x.1.fromSrc ≠ h.fromSrc) →
       h.stage n = settled x.1)) ∧
    (let toward := fun d : Int => if 0 < d then d - 1 else if d < 0 then d + 1 else 0
     let relaxed := fun (gain : Nat) =>
       let k : Correction := ⟨gain, toward h.fromCorr.dCb, toward h.fromCorr.dCr⟩
       ({ h with fromCorr := k, relaxPair := if k = ⟨256, 0, 0⟩ then none else h.relaxPair } : Handoff)
     (∀ p c, h.relaxPair = some p → n.pair p = some c →
       (256 < h.fromCorr.gain → h.relax n = relaxed (max 256 (h.fromCorr.gain - c.relax))) ∧
       (h.fromCorr.gain ≤ 256 → h.relax n = relaxed (min 256 (h.fromCorr.gain + c.relax)))) ∧
     (∀ p, h.relaxPair = some p → n.pair p = none →
       h.relax n = { h with fromCorr := ⟨256, 0, 0⟩, relaxPair := none }) ∧
     (h.relaxPair = none → h.relax n = relaxed 256)) ∧
    (let warmUp := fun (p : Fin 3) (c : CalPair) => h.fromSrc = pairLow p ∧ n.pair p = some c ∧
       h.armUp[p] = true ∧ c.up ≤ n.z + c.margin ∧ n.z < c.up
     let warmDown := fun (p : Fin 3) (c : CalPair) => h.fromSrc = pairHigh p ∧ n.pair p = some c ∧
       h.armDown[p] = true ∧ c.down ≤ n.z ∧ n.z < c.down + c.margin
     (∀ p c, warmUp p c → h.warmAbove n =
       ({ h with armUp := h.armUp.set p.val false p.isLt },
         [⟨.warmRequest, 2, p.val + 1, BitVec.ofNat 32 p.val, 1⟩])) ∧
     ((∀ p c, ¬ warmUp p c) → h.warmAbove n = (h, [])) ∧
     (∀ p c, warmDown p c → h.warmBelow n =
       ({ h with armDown := h.armDown.set p.val false p.isLt },
         [⟨.warmRequest, 2, p.val, BitVec.ofNat 32 p.val, 2⟩])) ∧
     ((∀ p c, ¬ warmDown p c) → h.warmBelow n = (h, [])) ∧
     h.warmRequests n = (((h.warmAbove n).1.warmBelow n).1,
       (h.warmAbove n).2 ++ ((h.warmAbove n).1.warmBelow n).2))

/-- SETTLED and PREPARE while the from-source runs. SETTLED (R60, R64): an up hand-off is desired from U_p on
and a down one below D_p, unless suppressed, the up one first; desired, it starts when its camera is
available and else waits in PREPARE; not desired, nothing changes. PREPARE (R67, R68): it is cancelled when
the desire is gone, starts when the camera is available, and is abandoned and suppressed when the count
reaches the limit. A start takes the pair's blend step as weight and the matched correction (R69): the gain
from the Y means and each offset from the chroma means of the two windows, each limited (R70 to R72), or
the from correction when no store is chosen for the from-source (R70). That a mean follows the formula of R26
above its named top, once a count has stopped, is the model's choice (log entry 42). -/
def Obligations.HandoffStarts : Prop :=
  ∀ (n : StageInput) (h : Handoff), n.runs h.fromSrc = true →
    let wants := fun (p : Fin 3) (d : PairDir) (c : CalPair) =>
      n.pair p = some c ∧ ((d = .up ∧ c.up ≤ n.z) ∨ (d = .down ∧ n.z < c.down))
    let desired := fun (p : Fin 3) (d : PairDir) (c : CalPair) =>
      h.fromSrc = fromOf p d ∧ wants p d c ∧
        (match d with | .up => h.supUp[p] | .down => h.supDown[p]) = false
    let started := fun (p : Fin 3) (d : PairDir) (c : CalPair) =>
      (({ h with state := .blend p d .forward, weight := c.step, toCorr := h.matching n p d },
        [⟨.handoffStart, 1, p.val, BitVec.ofNat 32 h.fromSrc.val,
          BitVec.ofNat 32 (h.matching n p d).gain⟩]) : Handoff × List Event)
    let abandoned := fun (p : Fin 3) (d : PairDir) (reason : Nat) (g : Handoff) =>
      (({ g with state := .settled, weight := 0 },
        [⟨.handoffAbandoned, 2, p.val, BitVec.ofNat 32 reason, BitVec.ofNat 32 (toOf p d).val⟩]) :
        Handoff × List Event)
    (h.state = .settled →
      (∀ p d c, desired p d c → (d = .down → ∀ q c', ¬ desired q .up c') →
        (n.avail (toOf p d) = true → h.transition n = started p d c) ∧
        (n.avail (toOf p d) = false → h.transition n = ({ h with state := .prepare p d 0 }, []))) ∧
      ((∀ p d c, ¬ desired p d c) → h.transition n = (h, []))) ∧
    (∀ p d count c, h.state = .prepare p d count → n.pair p = some c →
      (¬ wants p d c → h.transition n = abandoned p d 1 h) ∧
      (wants p d c → n.avail (toOf p d) = true → h.transition n = started p d c) ∧
      (wants p d c → n.avail (toOf p d) = false →
        (count + 1 = c.prepareLimit → h.transition n = abandoned p d 2
          (match d with
            | .up => { h with supUp := h.supUp.set p.val true p.isLt }
            | .down => { h with supDown := h.supDown.set p.val true p.isLt })) ∧
        (count + 1 ≠ c.prepareLimit →
          h.transition n = ({ h with state := .prepare p d (count + 1) }, [])))) ∧
    (∀ (p : Fin 3) (d : PairDir),
      let f := fromOf p d
      let t := toOf p d
      let mean := fun sum count : Nat => if count = 0 then 0 else (256 * sum + count / 2) / count
      let offset := fun (from_ : Int) (x y : Nat) =>
        let diff : Int := (x : Int) - y
        max (-32) (min 32 (from_ + if 0 ≤ diff then (diff + 128) / 256 else -((-diff + 128) / 256)))
      (chooseStore n.sources n.retiring f = none → h.matching n p d = h.fromCorr) ∧
      (∀ a b sa sb, chooseStore n.sources n.retiring f = some a →
        chooseStore n.sources n.retiring t = some b →
        n.sources[f].stores[a]? = some sa → n.sources[t].stores[b]? = some sb →
        let x := if d = .up then sa.inner else sa.full
        let y := if d = .up then sb.full else sb.inner
        let yf := mean x.sumY x.count
        let yt := mean y.sumY y.count
        h.matching n p d =
          ⟨if yt = 0 then (if yf = 0 then 256 else 512)
            else max 128 (min 512 ((2 * h.fromCorr.gain * yf + yt) / (2 * yt))),
            offset h.fromCorr.dCb (mean x.sumCb x.count) (mean y.sumCb y.count),
            offset h.fromCorr.dCr (mean x.sumCr x.count) (mean y.sumCr y.count)⟩))

/-- The step of a blend whose cameras both run (R74): FORWARD, the weight rises to 256 at most and the
hand-off is done there; REVERSE, it falls to 0 at least and the hand-off is reversed there; else the blend
goes on with the new weight and direction. -/
def Obligations.BlendSteps : Prop :=
  ∀ (n : StageInput) (h : Handoff) (p : Fin 3) (d : PairDir) (was : BlendDir) (c : CalPair),
    h.state = .blend p d was → n.runs h.fromSrc = true → n.runs (toOf p d) = true →
    n.pair p = some c →
    let ahead := (d = .up ∧ c.up ≤ n.z) ∨ (d = .down ∧ n.z < c.down)
    let back := (d = .up ∧ n.z < c.down) ∨ (d = .down ∧ c.up ≤ n.z)
    let forward := (ahead ∧ ¬ back) ∨ (¬ ahead ∧ ¬ back ∧ was = .forward)
    let reverse := back ∨ (¬ ahead ∧ ¬ back ∧ was = .reverse)
    (forward → 256 ≤ h.weight + c.step → h.transition n =
      ({ h with
          state := .settled, fromSrc := toOf p d, weight := 0, fromCorr := h.toCorr,
          toCorr := .neutral, relaxPair := some p },
        [⟨.handoffDone, 1, p.val, BitVec.ofNat 32 h.fromSrc.val, BitVec.ofNat 32 (toOf p d).val⟩,
         ⟨.cameraIdle, 2, h.fromSrc.val, BitVec.ofNat 32 p.val, BitVec.ofNat 32 (toOf p d).val⟩])) ∧
    (forward → h.weight + c.step < 256 → h.transition n =
      ({ h with state := .blend p d .forward, weight := h.weight + c.step }, [])) ∧
    (reverse → h.weight ≤ c.step → h.transition n =
      ({ h with state := .settled, weight := 0, toCorr := .neutral },
        [⟨.handoffReversed, 1, p.val, BitVec.ofNat 32 h.fromSrc.val, BitVec.ofNat 32 (toOf p d).val⟩])) ∧
    (reverse → c.step < h.weight → h.transition n =
      ({ h with state := .blend p d .reverse, weight := h.weight - c.step }, []))

/-- A camera lost. A from-source that does not run is rescued in SETTLED by its neighbours, the narrower
first and only with its floor at or below z (R65), an uncalibrated one by the lowest-numbered source that
runs (R66); in PREPARE first by the incoming camera when it is available (R67). A rescue leaves no
correction and raises HANDOFF_CUT; with none the state enters FROZEN, which keeps the from-source, the
weight and the corrections (R75). In BLEND a lost incoming camera aborts the hand-off, a lost outgoing one
cuts to the incoming with its matched correction, and both lost freeze it (R73). FROZEN ends at the
highest-numbered running source whose floor is at or below z, else at the lowest-numbered (R76). -/
def Obligations.HandoffLosesCameras : Prop :=
  ∀ (n : StageInput) (h : Handoff),
    let f := h.fromSrc
    let runs := fun i : Fin 4 => n.sources[i].state = .running
    let above := fun b : Fin 4 => b.val = f.val + 1 ∧ runs b ∧ floorOf n.active b ≤ n.z
    let below := fun b : Fin 4 => b.val + 1 = f.val ∧ runs b
    let other := fun b : Fin 4 => b ≠ f ∧ runs b
    let settled := fun (b : Fin 4) (e : Event) =>
      (({ h with
          state := .settled, fromSrc := b, weight := 0, fromCorr := ⟨256, 0, 0⟩,
          toCorr := ⟨256, 0, 0⟩, relaxPair := none }, [e]) : Handoff × List Event)
    let rescued := fun b : Fin 4 =>
      settled b ⟨.handoffCut, 3, b.val, 1, BitVec.ofNat 32 f.val⟩
    let frozen := fun code lost : Nat =>
      (({ h with state := .frozen },
        [⟨.frozenEnter, 3, f.val, BitVec.ofNat 32 code, BitVec.ofNat 32 lost⟩]) : Handoff × List Event)
    let rescue := fun code lost : Nat =>
      (calibrated n.active f = true →
        (∀ b, above b → h.transition n = rescued b) ∧
        (∀ b, below b → (∀ a, ¬ above a) → h.transition n = rescued b) ∧
        ((∀ b, ¬ above b ∧ ¬ below b) → h.transition n = frozen code lost)) ∧
      (calibrated n.active f = false →
        (∀ b, other b → (∀ a < b, ¬ other a) → h.transition n = rescued b) ∧
        ((∀ b, ¬ other b) → h.transition n = frozen code lost))
    (h.state = .settled → ¬ runs f → rescue 0 255) ∧
    (∀ p d count, h.state = .prepare p d count → ¬ runs f →
      (n.avail (toOf p d) = true → h.transition n = rescued (toOf p d)) ∧
      (n.avail (toOf p d) = false → rescue 1 (toOf p d).val)) ∧
    (∀ p d motion, h.state = .blend p d motion →
      let t := toOf p d
      (runs f → ¬ runs t → h.transition n =
        ({ h with state := .settled, weight := 0, toCorr := ⟨256, 0, 0⟩ },
          [⟨.handoffAborted, 2, p.val, BitVec.ofNat 32 f.val, BitVec.ofNat 32 t.val⟩])) ∧
      (¬ runs f → runs t → h.transition n =
        ({ h with
            state := .settled, fromSrc := t, weight := 0, fromCorr := h.toCorr,
            toCorr := ⟨256, 0, 0⟩, relaxPair := some p },
          [⟨.handoffCut, 3, t.val, 2, BitVec.ofNat 32 f.val⟩])) ∧
      (¬ runs f → ¬ runs t → h.transition n = frozen 2 t.val)) ∧
    (h.state = .frozen →
      let covers := fun b : Fin 4 => runs b ∧ floorOf n.active b ≤ n.z
      let leaves := fun b : Fin 4 => settled b ⟨.frozenExit, 2, b.val,
        BitVec.ofNat 32 (floorOf n.active b), BitVec.ofNat 32 n.z⟩
      (∀ b, covers b → (∀ a, b < a → ¬ covers a) → h.transition n = leaves b) ∧
      (∀ b, runs b → (∀ a, ¬ covers a) → (∀ a < b, ¬ runs a) → h.transition n = leaves b) ∧
      ((∀ b, ¬ runs b) → h.transition n = (h, [])))

/-- What a plan holds (R95 to R98, R100). Outside FROZEN each source named takes its newest READY store, the
one whose close order lies least behind the close count (R13; which of two stores with one close order is taken is
a free value, log entry 46), else the store that the retiring plan named
for it, else the side is absent (R96; that this choice stands too where the hand-off has left FROZEN for a source
with no READY store, of which R76 says that plans have no side, is log entry 45, DEDUCED); the weight is 0 for a from-side alone, 256 for a to-side alone, and
w for both (R97). In FROZEN the sides of the current plan repeat (R98). At the level SINGLE a plan with
both sides keeps the dominant one (R100). The plan takes the frame number, zoom current and the effective
centre over the box of its sides (R54, R97). A side's mapping is the active set's for a calibrated source (R31),
else the default of R32. -/
def Obligations.PlanLatched : Prop :=
  (∀ (active : Option CalSet) (i : Fin 4) (r : SourceRecord),
    let m := mappingOf active i r
    (∀ c x, active = some c → i.val < c.count → c.sources[i.val]? = some x → m = x) ∧
    ((active = none ∨ ∃ c, active = some c ∧ c.count ≤ i.val) →
      let k : ℚ := r.width / 4096
      (m.k : ℚ) / 65536 = k ∧ (m.oU : ℚ) / 65536 = ((r.width : ℚ) - 1) / 2 - k * 2048 ∧
      (m.oV : ℚ) / 65536 = ((r.height : ℚ) - 1) / 2 - k * 1536 ∧ m.floor = 2048 ∧ m.rect = none)) ∧
  (∀ src : Source,
    (∀ q, src.newestReady = some q → ∃ st o, src.stores[q]? = some st ∧ st.state = .ready ∧
      st.closeOrder = some o ∧ ∀ (j : Nat) (sj : FrameStore) (oj : Word), src.stores[j]? = some sj → sj.state = .ready →
        sj.closeOrder = some oj → (src.readyCount - o).toNat ≤ (src.readyCount - oj).toNat) ∧
    (src.newestReady = none → ∀ (j : Nat) (sj : FrameStore), src.stores[j]? = some sj → sj.state = .ready →
      sj.closeOrder = none)) ∧
  (∀ (sources : Vector Source 4) (i : Fin 4) (old : Option Plan),
    (∀ q, sources[i].newestReady = some q → chooseStore sources old i = some q) ∧
    (sources[i].newestReady = none →
      (∀ p x, old = some p → (p.fromSide = some x ∨ p.toSide = some x) → x.source = i →
        (∀ y, p.fromSide = some y → y.source = i → y = x) →
        chooseStore sources old i = some x.store) ∧
      ((∀ p x, old = some p → (p.fromSide = some x ∨ p.toSide = some x) → x.source ≠ i) →
        chooseStore sources old i = none))) ∧
  (∀ (h : Handoff) (sources : Vector Source 4) (old : Option Plan) (level : DegradeLevel),
    let pick := fun (i : Fin 4) (k : Correction) =>
      (chooseStore sources old i).map fun q => (⟨i, q, k⟩ : SideChoice)
    let kept := fun a b : Option SideChoice =>
      match level, a, b with
      | .full, some _, some _ => (⟨a, b, h.weight⟩ : Arrangement)
      | .single, some _, some _ =>
        if h.weight < 128 then ⟨a, none, 0⟩ else ⟨none, b, 256⟩
      | _, none, some _ => ⟨none, b, 256⟩
      | _, _, none => ⟨a, none, 0⟩
    ((h.state = .settled ∨ ∃ p d n, h.state = .prepare p d n) →
      arrangement h sources old level = ⟨pick h.fromSrc h.fromCorr, none, 0⟩) ∧
    (∀ p d m, h.state = .blend p d m → arrangement h sources old level =
      kept (pick h.fromSrc h.fromCorr) (pick (toOf p d) h.toCorr)) ∧
    (h.state = .frozen → arrangement h sources old level = kept
      ((old.bind Plan.fromSide).map fun x => ⟨x.source, x.store, h.fromCorr⟩)
      ((old.bind Plan.toSide).map fun x => ⟨x.source, x.store, h.toCorr⟩))) ∧
  (∀ (r : ViewRecord) (number : Word) (level : DegradeLevel) (old : Option Plan)
      (sources : Vector Source 4) (active : Option CalSet) (zm : Zoom) (h : Handoff),
    let p := latchPlan r number level old sources active zm h
    let a := arrangement h sources old level
    let side := fun x : SideChoice => (sources[x.source].record).map fun rec =>
      sideGeometry x.source x.store x.corr (mappingOf active x.source rec) rec zm.current r.width
        r.height (p.centreX, p.centreY)
    let box := fun x : SideChoice => (sources[x.source].record).map fun rec =>
      coverageBox (mappingOf active x.source rec) rec
    p.number = number ∧ p.zoom = zm.current ∧ p.weight = a.weight ∧
    p.fromSide = a.fromSide.bind side ∧ p.toSide = a.toSide.bind side ∧
    (a.fromSide = none → a.toSide = none → p.isFill = true ∧ p.weight = 0 ∧
      (p.centreX, p.centreY) = (zm.panX, zm.panY)) ∧
    (∀ x b, a.fromSide = some x → a.toSide = none → box x = some b →
      (p.centreX, p.centreY) = effectiveCentre zm.current r.width r.height zm.panX zm.panY (some b)) ∧
    (∀ x b, a.fromSide = none → a.toSide = some x → box x = some b →
      (p.centreX, p.centreY) = effectiveCentre zm.current r.width r.height zm.panX zm.panY (some b)) ∧
    (∀ x y b c, a.fromSide = some x → a.toSide = some y → box x = some b → box y = some c →
      (p.centreX, p.centreY) = effectiveCentre zm.current r.width r.height zm.panX zm.panY
        (some ⟨max b.xLo c.xLo, min b.xHi c.xHi, max b.yLo c.yLo, min b.yHi c.yHi⟩)))

/-- The pan clamp and the geometry of a side. The coverage box spans the pixel centres of the source's frame
under its mapping (R54). Each coordinate of the effective centre is the pan target limited to the box
drawn in by the half extent, or the box's midpoint where that leaves nothing, rounded once to a multiple
of 2⁻¹⁶, ties away from zero; a fill frame has the pan target (R55). A coordinate outside the signed 16.16
form is a free value of that form (log entry 39), so the clauses say what is held inside it. The step and
the origins are exact values rounded once (R105, R106), and the segment runs from the column of the first
pixel to the neighbour column of the last, each limited to the frame (R117). A position's cell and
fraction follow from the held values, and past an edge the edge cell with fraction 0 is taken (R107,
R108). -/
def Obligations.PlanGeometry : Prop :=
  (∀ (m : CalSource) (r : SourceRecord), m.k ≠ 0 →
    let b := coverageBox m r
    b.xLo * m.k = -m.oU ∧ b.xHi * m.k = (r.width - 1) * 65536 - m.oU ∧
    b.yLo * m.k = -m.oV ∧ b.yHi * m.k = (r.height - 1) * 65536 - m.oV) ∧
  (∀ x : ℚ, |(roundAway x : ℚ) - x| ≤ 1 / 2 ∧
    (∀ n : Int, x = n + 1 / 2 → roundAway x = if 0 ≤ n then n + 1 else n)) ∧
  (∀ (z width height : Nat) (panX panY : Int),
    effectiveCentre z width height panX panY none = (panX, panY) ∧
    ∀ b : Box,
      let span : ℚ := 4096 * 2048 / z
      let hx := span * (width - 1) / (2 * width)
      let hy := span * (height - 1) / (2 * width)
      let held := fun (x : ℚ) (i : Int) =>
        -(2 ^ 31) ≤ roundAway (65536 * x) → roundAway (65536 * x) < 2 ^ 31 → i = roundAway (65536 * x)
      let centre := fun (pan : Int) (lo hi half : ℚ) (i : Int) =>
        -(2 ^ 31) ≤ i ∧ i < 2 ^ 31 ∧
        (lo + half ≤ hi - half →
          ((pan : ℚ) / 65536 < lo + half → held (lo + half) i) ∧
          (hi - half < (pan : ℚ) / 65536 → held (hi - half) i) ∧
          (lo + half ≤ (pan : ℚ) / 65536 → (pan : ℚ) / 65536 ≤ hi - half →
            -(2 ^ 31) ≤ pan → pan < 2 ^ 31 → i = pan)) ∧
        (hi - half < lo + half → held ((lo + hi) / 2) i)
      centre panX b.xLo b.xHi hx (effectiveCentre z width height panX panY (some b)).1 ∧
      centre panY b.yLo b.yHi hy (effectiveCentre z width height panX panY (some b)).2) ∧
  (∀ (src : Fin 4) (store : Nat) (corr : Correction) (m : CalSource) (r : SourceRecord)
      (z width height : Nat) (centre : Int × Int),
    let p := sideGeometry src store corr m r z width height centre
    let step : ℚ := m.k / 65536 * (4096 * 2048 / z) / width
    let origin := fun (o c : Int) (extent : Nat) =>
      (o : ℚ) / 65536 + m.k / 65536 * (c / 65536) - step * (extent - 1) / 2
    let column := fun c : Int => (max 0 (min c (r.width - 1 : Nat))).toNat
    p.source = src ∧ p.store = store ∧ p.corr = corr ∧
    (p.step : Int) = roundAway (65536 * step) ∧
    p.u0 = roundAway (65536 * origin m.oU centre.1 width) ∧
    p.v0 = roundAway (65536 * origin m.oV centre.2 height) ∧
    p.cmin = column (p.u0 / 65536) ∧
    p.cmax = column ((p.u0 + (width - 1 : Int) * p.step) / 65536 + 1)) ∧
  (∀ (origin : Int) (step x size : Nat), 2 ≤ size →
    let q := origin + (x : Int) * step
    let a := axisPos origin step x size
    a.cell < size ∧ a.next < size ∧ a.frac ≤ 255 ∧
    (q < 0 → a = ⟨0, 0, 1⟩) ∧
    (65536 * ((size : Int) - 1) ≤ q → a = ⟨size - 1, 0, size - 1⟩) ∧
    (0 ≤ q → q < 65536 * ((size : Int) - 1) →
      (65536 * (a.cell : Int) + 256 * a.frac ≤ q ∧ q < 65536 * (a.cell : Int) + 256 * a.frac + 256) ∧
      a.next = a.cell + 1))

/-- The composed pixel. A side's value is the interpolation of four samples at the position's cells and
fractions (R107 to R110), corrected by the side's gain and offsets (R111); two sides mix by the plan's
weight, one side alone gives its value, and a fill frame gives the fill colour (R112, R113). A sample is
the byte of its column and channel in the row's VALID entry (R109), a column past the segment taken at its
nearest (R117). Samples of 8 bits give 8 bits at every stage. The bytes of an answer: the byte at offset o from
the aperture base lies in row o div stride at row byte o mod stride, and is the channel, the row byte modulo 4, of
the pixel, the row byte div 4, when the row is below Ho, the row byte below 4 · Wo and the channel not the spare
one; every other byte is 0 (R86). A read touches the rows of its active bytes, ascending (R86); it covers the last
byte of the picture when one of its bytes stands there (R90); and the highest row of those it touches is the one
that a frame's record takes (R87). -/
def Obligations.PixelsComposed : Prop :=
  (∀ (v : ViewRecord) (r : ReadReq) (pixel : Nat → Nat → Nat → Nat),
    let off := fun n : Nat => r.addr.toNat - v.base + n
    let row := fun n : Nat => off n / v.stride
    let col := fun n : Nat => off n % v.stride
    (v.answerData r pixel).length = 16 * r.beats ∧
    (∀ n < 16 * r.beats, (v.answerData r pixel)[n]? = some
      (if row n < v.height ∧ col n < 4 * v.width ∧ col n % 4 ≠ 3 then
        BitVec.ofNat 8 (pixel (col n / 4) (row n) (col n % 4)) else 0)) ∧
    (∀ y, y ∈ v.touched r ↔ ∃ n < 16 * r.beats, row n = y ∧ y < v.height ∧ col n < 4 * v.width) ∧
    (v.touched r).Pairwise (· < ·) ∧
    (v.coversLast r = true ↔
      ∃ n < 16 * r.beats, off n = (v.height - 1) * v.stride + 4 * v.width - 1) ∧
    v.fillAnswer r = ⟨r.tag, r.num, .okay, true, r.beats, v.answerData r fun _ _ ch =>
      (match ch with | 0 => v.fillY | 1 => v.fillCb | _ => v.fillCr).toNat⟩) ∧
  (highestRow [] = 0 ∧ ∀ rows : List Nat, rows ≠ [] →
    highestRow rows ∈ rows ∧ ∀ y ∈ rows, y ≤ highestRow rows) ∧
  (∀ (e : ViewEnv) (v : View) (p : Plan) (x y ch : Nat),
    (p.fromSide = none → p.toSide = none → composedPixel e v p x y ch =
      (match ch with | 0 => e.conf.fillY | 1 => e.conf.fillCb | _ => e.conf.fillCr).toNat) ∧
    (∀ a, p.fromSide = some a → p.toSide = none →
      composedPixel e v p x y ch = sideValue e v .fromSide a x y ch) ∧
    (∀ b, p.fromSide = none → p.toSide = some b →
      composedPixel e v p x y ch = sideValue e v .toSide b x y ch) ∧
    (∀ a b, p.fromSide = some a → p.toSide = some b → composedPixel e v p x y ch =
      (sideValue e v .fromSide a x y ch * (256 - p.weight) +
        sideValue e v .toSide b x y ch * p.weight + 128) / 256)) ∧
  (∀ (e : ViewEnv) (v : View) (side : Side) (p : SidePlan) (r : SourceRecord) (x y : Nat),
    e.sources[p.source].record = some r →
    let h := axisPos p.u0 p.step x r.width
    let w := axisPos p.v0 p.step y r.height
    let sample := fun ch row col => v.sample side p row (max p.cmin (min col p.cmax)) ch
    let mixed := fun ch =>
      let top := sample ch w.cell h.cell * (256 - h.frac) + sample ch w.cell h.next * h.frac
      let bot := sample ch w.next h.cell * (256 - h.frac) + sample ch w.next h.next * h.frac
      (top * (256 - w.frac) + bot * w.frac + 32768) / 65536
    let moved := fun (d : Int) (c : Nat) => (max 0 (min ((c : Int) + d) 255)).toNat
    sideValue e v side p x y 0 = min 255 ((mixed 0 * p.corr.gain + 128) / 256) ∧
    sideValue e v side p x y 1 = moved p.corr.dCb (mixed 1) ∧
    sideValue e v side p x y 2 = moved p.corr.dCr (mixed 2)) ∧
  (∀ (v : View) (side : Side) (p : SidePlan) (row col ch : Nat) (n : Fin 16) (k : RowKey) (o : Word)
      (bytes : List Byte) (b : Byte),
    v.entryOf ⟨side, p.source, p.store, row⟩ = some n → v.cache[n] = .valid k o bytes →
    bytes[4 * (col - p.cmin) + ch]? = some b → v.sample side p row col ch = b.toNat) ∧
  (∀ a b c d fu fv : Nat, a ≤ 255 → b ≤ 255 → c ≤ 255 → d ≤ 255 → fu ≤ 256 → fv ≤ 256 →
    interpolate a b c d fu fv ≤ 255) ∧
  (∀ (k : Correction) (ch x : Nat), k.apply ch x ≤ 255) ∧
  (∀ a b w : Nat, a ≤ 255 → b ≤ 255 → w ≤ 256 → mixSides a b w ≤ 255)

/-! ### Laws that every step keeps -/

/-- The write index less the acknowledged index stays at most 256 (R173), with at most 4 records queued. -/
def Obligations.ReportRoomKept : Prop :=
  ∀ s t : State, s.report.Bounded → step s = .next t → t.report.Bounded

/-- The ring map of every source that is not UNSET assigns its positions to distinct stores of its R + S
stores, at every step (R9). -/
def Obligations.RingMapsKept : Prop :=
  ∀ s t : State, s.MapsOk → step s = .next t → t.MapsOk

/-- The pin count of every store is the number of views whose current plan names it, at every step (R22). -/
def Obligations.PinLawKept : Prop :=
  ∀ s t : State, s.PinsOk → step s = .next t → t.PinsOk

/-- A store that is FILLING while pinned carries the torn mark, at every step (R17). The law of pins is
the premise that rules out a plan naming a store it does not pin. -/
def Obligations.TornMarkKept : Prop :=
  ∀ s t : State, s.PinsOk → s.TornOk → step s = .next t → t.TornOk

/-- The windows never overlap, stay aligned and stand where their records put them, at every step (R139). -/
def Obligations.WindowTableKept : Prop :=
  ∀ s t : State, s.TableOk → step s = .next t → t.TableOk

/-- Every window's active flag follows its source, its view or the end of initialization, at every step
(R139). -/
def Obligations.WindowFlagsKept : Prop :=
  ∀ s t : State, s.FlagsOk → step s = .next t → t.FlagsOk

/-- The bounds of the queues and counts hold at every step: at most 8 held reads a view (R127), at most 16
reads and 16 writes in the pass-through queue (R153), the consumed count in step with the next-slot
pointer (R166), ages of at most 64 (R156). -/
def Obligations.BoundsKept : Prop :=
  ∀ s t : State, step s = .next t →
    (s.HeldBounded → t.HeldBounded) ∧ (s.PassBounded → t.PassBounded) ∧
    (s.cmd.InStep → t.cmd.InStep) ∧ (s.arb.AgesOk → t.arb.AgesOk)

/-- Zoom current lies between 0.5 and 12.0 and is never below the floor of a source that the hand-off state
names, at every step (R49), and the sets held keep the ranges that R37 checked. -/
def Obligations.ZoomLawKept : Prop :=
  ∀ s t : State, s.cal.InRange → s.ZoomOk → step s = .next t → t.cal.InRange ∧ t.ZoomOk

/-- Every gain lies in 128 to 512 and every chroma offset in −32 to +32, in the controller and in every
plan, and the weight is 0 in SETTLED and PREPARE, at every step (R57, R74). -/
def Obligations.CorrectionsKept : Prop :=
  ∀ s t : State, s.cal.InRange → s.CorrectionsOk → step s = .next t → t.CorrectionsOk

/-- A plan stays unchanged while its output frame is open (R95), and an open frame keeps the frames-opened
count as its number (R87). No request waits on a channel before the step, so that it accepts at most one. -/
def Obligations.PlanStaysInFrame : Prop :=
  ∀ s t : State, s.NumbersOk → step s = .next t → t.NumbersOk ∧
    (s.quiet → ∀ (v : Fin 2) (f g : FrameRecord), s.views[v].state = .opened f →
      t.views[v].state = .opened g → g.number = f.number → t.views[v].plan = s.views[v].plan)

/-- No two live entries of a row cache hold the same row (R116), and the fetch queue holds at most 8
requests (R120), at every step. -/
def Obligations.CachesKept : Prop :=
  ∀ s t : State, s.CachesOk → step s = .next t → t.CachesOk

/-- The state right after reset meets every law above. -/
def Obligations.ResetMeetsLaws : Prop :=
  State.reset.report.Bounded ∧ State.reset.MapsOk ∧ State.reset.PinsOk ∧ State.reset.TornOk ∧
  State.reset.TableOk ∧ State.reset.FlagsOk ∧ State.reset.HeldBounded ∧ State.reset.PassBounded ∧
  State.reset.cmd.InStep ∧ State.reset.arb.AgesOk ∧ State.reset.cal.InRange ∧ State.reset.ZoomOk ∧
  State.reset.CorrectionsOk ∧ State.reset.NumbersOk ∧ State.reset.CachesOk
end

