-- ==== Sys2Proof/Laws/State.lean ====
section
/-! SUPPORT. What each named operation on the whole state leaves alone: one lemma for each operation and
each field it does not touch. -/

namespace Sys2Proof.Machine

/-! ### Events and the mirror request -/

@[simp] theorem State.raise_pending (s : State) (e : Event) : (s.raise e).pending = s.pending := by unfold State.raise; split <;> rfl
@[simp] theorem State.raise_phase (s : State) (e : Event) : (s.raise e).phase = s.phase := by unfold State.raise; split <;> rfl
@[simp] theorem State.raise_rstN (s : State) (e : Event) : (s.raise e).rstN = s.rstN := by unfold State.raise; split <;> rfl
@[simp] theorem State.raise_strapCp (s : State) (e : Event) : (s.raise e).strapCp = s.strapCp := by unfold State.raise; split <;> rfl
@[simp] theorem State.raise_strapClk (s : State) (e : Event) : (s.raise e).strapClk = s.strapClk := by unfold State.raise; split <;> rfl
@[simp] theorem State.raise_timeBase (s : State) (e : Event) : (s.raise e).timeBase = s.timeBase := by unfold State.raise; split <;> rfl
@[simp] theorem State.raise_up (s : State) (e : Event) : (s.raise e).up = s.up := by unfold State.raise; split <;> rfl
@[simp] theorem State.raise_windows (s : State) (e : Event) : (s.raise e).windows = s.windows := by unfold State.raise; split <;> rfl
@[simp] theorem State.raise_passQueue (s : State) (e : Event) : (s.raise e).passQueue = s.passQueue := by unfold State.raise; split <;> rfl
@[simp] theorem State.raise_outstanding (s : State) (e : Event) : (s.raise e).outstanding = s.outstanding := by unfold State.raise; split <;> rfl
@[simp] theorem State.raise_memRequests (s : State) (e : Event) : (s.raise e).memRequests = s.memRequests := by unfold State.raise; split <;> rfl
@[simp] theorem State.raise_arb (s : State) (e : Event) : (s.raise e).arb = s.arb := by unfold State.raise; split <;> rfl
@[simp] theorem State.raise_cmd (s : State) (e : Event) : (s.raise e).cmd = s.cmd := by unfold State.raise; split <;> rfl
@[simp] theorem State.raise_sources (s : State) (e : Event) : (s.raise e).sources = s.sources := by unfold State.raise; split <;> rfl
@[simp] theorem State.raise_cal (s : State) (e : Event) : (s.raise e).cal = s.cal := by unfold State.raise; split <;> rfl
@[simp] theorem State.raise_zoom (s : State) (e : Event) : (s.raise e).zoom = s.zoom := by unfold State.raise; split <;> rfl
@[simp] theorem State.raise_handoff (s : State) (e : Event) : (s.raise e).handoff = s.handoff := by unfold State.raise; split <;> rfl
@[simp] theorem State.raise_views (s : State) (e : Event) : (s.raise e).views = s.views := by unfold State.raise; split <;> rfl
@[simp] theorem State.raise_inflight (s : State) (e : Event) : (s.raise e).inflight = s.inflight := by unfold State.raise; split <;> rfl
@[simp] theorem State.raise_draws (s : State) (e : Event) : (s.raise e).draws = s.draws := by unfold State.raise; split <;> rfl

@[simp] theorem State.raiseAll_pending (s : State) (es : List Event) : (s.raiseAll es).pending = s.pending := by
  induction es generalizing s with
  | nil => rfl
  | cons e es ih => exact (ih (s.raise e)).trans (by simp)
@[simp] theorem State.raiseAll_phase (s : State) (es : List Event) : (s.raiseAll es).phase = s.phase := by
  induction es generalizing s with
  | nil => rfl
  | cons e es ih => exact (ih (s.raise e)).trans (by simp)
@[simp] theorem State.raiseAll_rstN (s : State) (es : List Event) : (s.raiseAll es).rstN = s.rstN := by
  induction es generalizing s with
  | nil => rfl
  | cons e es ih => exact (ih (s.raise e)).trans (by simp)
@[simp] theorem State.raiseAll_strapCp (s : State) (es : List Event) : (s.raiseAll es).strapCp = s.strapCp := by
  induction es generalizing s with
  | nil => rfl
  | cons e es ih => exact (ih (s.raise e)).trans (by simp)
@[simp] theorem State.raiseAll_strapClk (s : State) (es : List Event) : (s.raiseAll es).strapClk = s.strapClk := by
  induction es generalizing s with
  | nil => rfl
  | cons e es ih => exact (ih (s.raise e)).trans (by simp)
@[simp] theorem State.raiseAll_timeBase (s : State) (es : List Event) : (s.raiseAll es).timeBase = s.timeBase := by
  induction es generalizing s with
  | nil => rfl
  | cons e es ih => exact (ih (s.raise e)).trans (by simp)
@[simp] theorem State.raiseAll_up (s : State) (es : List Event) : (s.raiseAll es).up = s.up := by
  induction es generalizing s with
  | nil => rfl
  | cons e es ih => exact (ih (s.raise e)).trans (by simp)
@[simp] theorem State.raiseAll_windows (s : State) (es : List Event) : (s.raiseAll es).windows = s.windows := by
  induction es generalizing s with
  | nil => rfl
  | cons e es ih => exact (ih (s.raise e)).trans (by simp)
@[simp] theorem State.raiseAll_passQueue (s : State) (es : List Event) : (s.raiseAll es).passQueue = s.passQueue := by
  induction es generalizing s with
  | nil => rfl
  | cons e es ih => exact (ih (s.raise e)).trans (by simp)
@[simp] theorem State.raiseAll_outstanding (s : State) (es : List Event) : (s.raiseAll es).outstanding = s.outstanding := by
  induction es generalizing s with
  | nil => rfl
  | cons e es ih => exact (ih (s.raise e)).trans (by simp)
@[simp] theorem State.raiseAll_memRequests (s : State) (es : List Event) : (s.raiseAll es).memRequests = s.memRequests := by
  induction es generalizing s with
  | nil => rfl
  | cons e es ih => exact (ih (s.raise e)).trans (by simp)
@[simp] theorem State.raiseAll_arb (s : State) (es : List Event) : (s.raiseAll es).arb = s.arb := by
  induction es generalizing s with
  | nil => rfl
  | cons e es ih => exact (ih (s.raise e)).trans (by simp)
@[simp] theorem State.raiseAll_cmd (s : State) (es : List Event) : (s.raiseAll es).cmd = s.cmd := by
  induction es generalizing s with
  | nil => rfl
  | cons e es ih => exact (ih (s.raise e)).trans (by simp)
@[simp] theorem State.raiseAll_sources (s : State) (es : List Event) : (s.raiseAll es).sources = s.sources := by
  induction es generalizing s with
  | nil => rfl
  | cons e es ih => exact (ih (s.raise e)).trans (by simp)
@[simp] theorem State.raiseAll_cal (s : State) (es : List Event) : (s.raiseAll es).cal = s.cal := by
  induction es generalizing s with
  | nil => rfl
  | cons e es ih => exact (ih (s.raise e)).trans (by simp)
@[simp] theorem State.raiseAll_zoom (s : State) (es : List Event) : (s.raiseAll es).zoom = s.zoom := by
  induction es generalizing s with
  | nil => rfl
  | cons e es ih => exact (ih (s.raise e)).trans (by simp)
@[simp] theorem State.raiseAll_handoff (s : State) (es : List Event) : (s.raiseAll es).handoff = s.handoff := by
  induction es generalizing s with
  | nil => rfl
  | cons e es ih => exact (ih (s.raise e)).trans (by simp)
@[simp] theorem State.raiseAll_views (s : State) (es : List Event) : (s.raiseAll es).views = s.views := by
  induction es generalizing s with
  | nil => rfl
  | cons e es ih => exact (ih (s.raise e)).trans (by simp)
@[simp] theorem State.raiseAll_inflight (s : State) (es : List Event) : (s.raiseAll es).inflight = s.inflight := by
  induction es generalizing s with
  | nil => rfl
  | cons e es ih => exact (ih (s.raise e)).trans (by simp)
@[simp] theorem State.raiseAll_draws (s : State) (es : List Event) : (s.raiseAll es).draws = s.draws := by
  induction es generalizing s with
  | nil => rfl
  | cons e es ih => exact (ih (s.raise e)).trans (by simp)

@[simp] theorem State.requestMirror_pending (s : State) : (s.requestMirror).pending = s.pending := rfl
@[simp] theorem State.requestMirror_phase (s : State) : (s.requestMirror).phase = s.phase := rfl
@[simp] theorem State.requestMirror_rstN (s : State) : (s.requestMirror).rstN = s.rstN := rfl
@[simp] theorem State.requestMirror_strapCp (s : State) : (s.requestMirror).strapCp = s.strapCp := rfl
@[simp] theorem State.requestMirror_strapClk (s : State) : (s.requestMirror).strapClk = s.strapClk := rfl
@[simp] theorem State.requestMirror_timeBase (s : State) : (s.requestMirror).timeBase = s.timeBase := rfl
@[simp] theorem State.requestMirror_up (s : State) : (s.requestMirror).up = s.up := rfl
@[simp] theorem State.requestMirror_windows (s : State) : (s.requestMirror).windows = s.windows := rfl
@[simp] theorem State.requestMirror_passQueue (s : State) : (s.requestMirror).passQueue = s.passQueue := rfl
@[simp] theorem State.requestMirror_outstanding (s : State) : (s.requestMirror).outstanding = s.outstanding := rfl
@[simp] theorem State.requestMirror_memRequests (s : State) : (s.requestMirror).memRequests = s.memRequests := rfl
@[simp] theorem State.requestMirror_arb (s : State) : (s.requestMirror).arb = s.arb := rfl
@[simp] theorem State.requestMirror_cmd (s : State) : (s.requestMirror).cmd = s.cmd := rfl
@[simp] theorem State.requestMirror_sources (s : State) : (s.requestMirror).sources = s.sources := rfl
@[simp] theorem State.requestMirror_cal (s : State) : (s.requestMirror).cal = s.cal := rfl
@[simp] theorem State.requestMirror_zoom (s : State) : (s.requestMirror).zoom = s.zoom := rfl
@[simp] theorem State.requestMirror_handoff (s : State) : (s.requestMirror).handoff = s.handoff := rfl
@[simp] theorem State.requestMirror_views (s : State) : (s.requestMirror).views = s.views := rfl
@[simp] theorem State.requestMirror_inflight (s : State) : (s.requestMirror).inflight = s.inflight := rfl
@[simp] theorem State.requestMirror_draws (s : State) : (s.requestMirror).draws = s.draws := rfl

/-! ### One source, one view -/

@[simp] theorem State.onSource_pending (s : State) (i : Fin 4) (f : Source → Source × List Event) : (s.onSource i f).pending = s.pending := by simp [State.onSource]
@[simp] theorem State.onSource_phase (s : State) (i : Fin 4) (f : Source → Source × List Event) : (s.onSource i f).phase = s.phase := by simp [State.onSource]
@[simp] theorem State.onSource_rstN (s : State) (i : Fin 4) (f : Source → Source × List Event) : (s.onSource i f).rstN = s.rstN := by simp [State.onSource]
@[simp] theorem State.onSource_strapCp (s : State) (i : Fin 4) (f : Source → Source × List Event) : (s.onSource i f).strapCp = s.strapCp := by simp [State.onSource]
@[simp] theorem State.onSource_strapClk (s : State) (i : Fin 4) (f : Source → Source × List Event) : (s.onSource i f).strapClk = s.strapClk := by simp [State.onSource]
@[simp] theorem State.onSource_timeBase (s : State) (i : Fin 4) (f : Source → Source × List Event) : (s.onSource i f).timeBase = s.timeBase := by simp [State.onSource]
@[simp] theorem State.onSource_up (s : State) (i : Fin 4) (f : Source → Source × List Event) : (s.onSource i f).up = s.up := by simp [State.onSource]
@[simp] theorem State.onSource_windows (s : State) (i : Fin 4) (f : Source → Source × List Event) : (s.onSource i f).windows = s.windows := by simp [State.onSource]
@[simp] theorem State.onSource_passQueue (s : State) (i : Fin 4) (f : Source → Source × List Event) : (s.onSource i f).passQueue = s.passQueue := by simp [State.onSource]
@[simp] theorem State.onSource_outstanding (s : State) (i : Fin 4) (f : Source → Source × List Event) : (s.onSource i f).outstanding = s.outstanding := by simp [State.onSource]
@[simp] theorem State.onSource_memRequests (s : State) (i : Fin 4) (f : Source → Source × List Event) : (s.onSource i f).memRequests = s.memRequests := by simp [State.onSource]
@[simp] theorem State.onSource_arb (s : State) (i : Fin 4) (f : Source → Source × List Event) : (s.onSource i f).arb = s.arb := by simp [State.onSource]
@[simp] theorem State.onSource_cmd (s : State) (i : Fin 4) (f : Source → Source × List Event) : (s.onSource i f).cmd = s.cmd := by simp [State.onSource]
@[simp] theorem State.onSource_cal (s : State) (i : Fin 4) (f : Source → Source × List Event) : (s.onSource i f).cal = s.cal := by simp [State.onSource]
@[simp] theorem State.onSource_zoom (s : State) (i : Fin 4) (f : Source → Source × List Event) : (s.onSource i f).zoom = s.zoom := by simp [State.onSource]
@[simp] theorem State.onSource_handoff (s : State) (i : Fin 4) (f : Source → Source × List Event) : (s.onSource i f).handoff = s.handoff := by simp [State.onSource]
@[simp] theorem State.onSource_views (s : State) (i : Fin 4) (f : Source → Source × List Event) : (s.onSource i f).views = s.views := by simp [State.onSource]
@[simp] theorem State.onSource_inflight (s : State) (i : Fin 4) (f : Source → Source × List Event) : (s.onSource i f).inflight = s.inflight := by simp [State.onSource]
@[simp] theorem State.onSource_draws (s : State) (i : Fin 4) (f : Source → Source × List Event) : (s.onSource i f).draws = s.draws := by simp [State.onSource]

@[simp] theorem State.onView_pending (s : State) (i : Fin 2) (f : ViewEnv → ViewWork → ViewWork) : (s.onView i f).pending = s.pending := by unfold State.onView; split <;> simp
@[simp] theorem State.onView_phase (s : State) (i : Fin 2) (f : ViewEnv → ViewWork → ViewWork) : (s.onView i f).phase = s.phase := by unfold State.onView; split <;> simp
@[simp] theorem State.onView_rstN (s : State) (i : Fin 2) (f : ViewEnv → ViewWork → ViewWork) : (s.onView i f).rstN = s.rstN := by unfold State.onView; split <;> simp
@[simp] theorem State.onView_strapCp (s : State) (i : Fin 2) (f : ViewEnv → ViewWork → ViewWork) : (s.onView i f).strapCp = s.strapCp := by unfold State.onView; split <;> simp
@[simp] theorem State.onView_strapClk (s : State) (i : Fin 2) (f : ViewEnv → ViewWork → ViewWork) : (s.onView i f).strapClk = s.strapClk := by unfold State.onView; split <;> simp
@[simp] theorem State.onView_timeBase (s : State) (i : Fin 2) (f : ViewEnv → ViewWork → ViewWork) : (s.onView i f).timeBase = s.timeBase := by unfold State.onView; split <;> simp
@[simp] theorem State.onView_windows (s : State) (i : Fin 2) (f : ViewEnv → ViewWork → ViewWork) : (s.onView i f).windows = s.windows := by unfold State.onView; split <;> simp
@[simp] theorem State.onView_passQueue (s : State) (i : Fin 2) (f : ViewEnv → ViewWork → ViewWork) : (s.onView i f).passQueue = s.passQueue := by unfold State.onView; split <;> simp
@[simp] theorem State.onView_outstanding (s : State) (i : Fin 2) (f : ViewEnv → ViewWork → ViewWork) : (s.onView i f).outstanding = s.outstanding := by unfold State.onView; split <;> simp
@[simp] theorem State.onView_memRequests (s : State) (i : Fin 2) (f : ViewEnv → ViewWork → ViewWork) : (s.onView i f).memRequests = s.memRequests := by unfold State.onView; split <;> simp
@[simp] theorem State.onView_arb (s : State) (i : Fin 2) (f : ViewEnv → ViewWork → ViewWork) : (s.onView i f).arb = s.arb := by unfold State.onView; split <;> simp
@[simp] theorem State.onView_cmd (s : State) (i : Fin 2) (f : ViewEnv → ViewWork → ViewWork) : (s.onView i f).cmd = s.cmd := by unfold State.onView; split <;> simp
@[simp] theorem State.onView_sources (s : State) (i : Fin 2) (f : ViewEnv → ViewWork → ViewWork) : (s.onView i f).sources = s.sources := by unfold State.onView; split <;> simp
@[simp] theorem State.onView_cal (s : State) (i : Fin 2) (f : ViewEnv → ViewWork → ViewWork) : (s.onView i f).cal = s.cal := by unfold State.onView; split <;> simp
@[simp] theorem State.onView_zoom (s : State) (i : Fin 2) (f : ViewEnv → ViewWork → ViewWork) : (s.onView i f).zoom = s.zoom := by unfold State.onView; split <;> simp
@[simp] theorem State.onView_handoff (s : State) (i : Fin 2) (f : ViewEnv → ViewWork → ViewWork) : (s.onView i f).handoff = s.handoff := by unfold State.onView; split <;> simp

/-! ### The stages of a frame opening -/

@[simp] theorem State.activationStage_pending (s : State) : (s.activationStage).pending = s.pending := by
  unfold State.activationStage; split
  · split <;> simp
  · rfl
@[simp] theorem State.activationStage_phase (s : State) : (s.activationStage).phase = s.phase := by
  unfold State.activationStage; split
  · split <;> simp
  · rfl
@[simp] theorem State.activationStage_rstN (s : State) : (s.activationStage).rstN = s.rstN := by
  unfold State.activationStage; split
  · split <;> simp
  · rfl
@[simp] theorem State.activationStage_strapCp (s : State) : (s.activationStage).strapCp = s.strapCp := by
  unfold State.activationStage; split
  · split <;> simp
  · rfl
@[simp] theorem State.activationStage_strapClk (s : State) : (s.activationStage).strapClk = s.strapClk := by
  unfold State.activationStage; split
  · split <;> simp
  · rfl
@[simp] theorem State.activationStage_timeBase (s : State) : (s.activationStage).timeBase = s.timeBase := by
  unfold State.activationStage; split
  · split <;> simp
  · rfl
@[simp] theorem State.activationStage_up (s : State) : (s.activationStage).up = s.up := by
  unfold State.activationStage; split
  · split <;> simp
  · rfl
@[simp] theorem State.activationStage_windows (s : State) : (s.activationStage).windows = s.windows := by
  unfold State.activationStage; split
  · split <;> simp
  · rfl
@[simp] theorem State.activationStage_passQueue (s : State) : (s.activationStage).passQueue = s.passQueue := by
  unfold State.activationStage; split
  · split <;> simp
  · rfl
@[simp] theorem State.activationStage_outstanding (s : State) : (s.activationStage).outstanding = s.outstanding := by
  unfold State.activationStage; split
  · split <;> simp
  · rfl
@[simp] theorem State.activationStage_memRequests (s : State) : (s.activationStage).memRequests = s.memRequests := by
  unfold State.activationStage; split
  · split <;> simp
  · rfl
@[simp] theorem State.activationStage_arb (s : State) : (s.activationStage).arb = s.arb := by
  unfold State.activationStage; split
  · split <;> simp
  · rfl
@[simp] theorem State.activationStage_cmd (s : State) : (s.activationStage).cmd = s.cmd := by
  unfold State.activationStage; split
  · split <;> simp
  · rfl
@[simp] theorem State.activationStage_sources (s : State) : (s.activationStage).sources = s.sources := by
  unfold State.activationStage; split
  · split <;> simp
  · rfl
@[simp] theorem State.activationStage_zoom (s : State) : (s.activationStage).zoom = s.zoom := by
  unfold State.activationStage; split
  · split <;> simp
  · rfl
@[simp] theorem State.activationStage_views (s : State) : (s.activationStage).views = s.views := by
  unfold State.activationStage; split
  · split <;> simp
  · rfl
@[simp] theorem State.activationStage_inflight (s : State) : (s.activationStage).inflight = s.inflight := by
  unfold State.activationStage; split
  · split <;> simp
  · rfl
@[simp] theorem State.activationStage_draws (s : State) : (s.activationStage).draws = s.draws := by
  unfold State.activationStage; split
  · split <;> simp
  · rfl

@[simp] theorem State.zoomAndHandoff_pending (s : State) (i : Fin 2) : (s.zoomAndHandoff i).pending = s.pending := by simp [State.zoomAndHandoff]
@[simp] theorem State.zoomAndHandoff_phase (s : State) (i : Fin 2) : (s.zoomAndHandoff i).phase = s.phase := by simp [State.zoomAndHandoff]
@[simp] theorem State.zoomAndHandoff_rstN (s : State) (i : Fin 2) : (s.zoomAndHandoff i).rstN = s.rstN := by simp [State.zoomAndHandoff]
@[simp] theorem State.zoomAndHandoff_strapCp (s : State) (i : Fin 2) : (s.zoomAndHandoff i).strapCp = s.strapCp := by simp [State.zoomAndHandoff]
@[simp] theorem State.zoomAndHandoff_strapClk (s : State) (i : Fin 2) : (s.zoomAndHandoff i).strapClk = s.strapClk := by simp [State.zoomAndHandoff]
@[simp] theorem State.zoomAndHandoff_timeBase (s : State) (i : Fin 2) : (s.zoomAndHandoff i).timeBase = s.timeBase := by simp [State.zoomAndHandoff]
@[simp] theorem State.zoomAndHandoff_up (s : State) (i : Fin 2) : (s.zoomAndHandoff i).up = s.up := by simp [State.zoomAndHandoff]
@[simp] theorem State.zoomAndHandoff_windows (s : State) (i : Fin 2) : (s.zoomAndHandoff i).windows = s.windows := by simp [State.zoomAndHandoff]
@[simp] theorem State.zoomAndHandoff_passQueue (s : State) (i : Fin 2) : (s.zoomAndHandoff i).passQueue = s.passQueue := by simp [State.zoomAndHandoff]
@[simp] theorem State.zoomAndHandoff_outstanding (s : State) (i : Fin 2) : (s.zoomAndHandoff i).outstanding = s.outstanding := by simp [State.zoomAndHandoff]
@[simp] theorem State.zoomAndHandoff_memRequests (s : State) (i : Fin 2) : (s.zoomAndHandoff i).memRequests = s.memRequests := by simp [State.zoomAndHandoff]
@[simp] theorem State.zoomAndHandoff_arb (s : State) (i : Fin 2) : (s.zoomAndHandoff i).arb = s.arb := by simp [State.zoomAndHandoff]
@[simp] theorem State.zoomAndHandoff_cmd (s : State) (i : Fin 2) : (s.zoomAndHandoff i).cmd = s.cmd := by simp [State.zoomAndHandoff]
@[simp] theorem State.zoomAndHandoff_sources (s : State) (i : Fin 2) : (s.zoomAndHandoff i).sources = s.sources := by simp [State.zoomAndHandoff]
@[simp] theorem State.zoomAndHandoff_cal (s : State) (i : Fin 2) : (s.zoomAndHandoff i).cal = s.cal := by simp [State.zoomAndHandoff]
@[simp] theorem State.zoomAndHandoff_views (s : State) (i : Fin 2) : (s.zoomAndHandoff i).views = s.views := by simp [State.zoomAndHandoff]
@[simp] theorem State.zoomAndHandoff_inflight (s : State) (i : Fin 2) : (s.zoomAndHandoff i).inflight = s.inflight := by simp [State.zoomAndHandoff]
@[simp] theorem State.zoomAndHandoff_draws (s : State) (i : Fin 2) : (s.zoomAndHandoff i).draws = s.draws := by simp [State.zoomAndHandoff]

@[simp] theorem State.leadStages_pending (s : State) (i : Fin 2) : (s.leadStages i).pending = s.pending := by simp [State.leadStages]
@[simp] theorem State.leadStages_phase (s : State) (i : Fin 2) : (s.leadStages i).phase = s.phase := by simp [State.leadStages]
@[simp] theorem State.leadStages_rstN (s : State) (i : Fin 2) : (s.leadStages i).rstN = s.rstN := by simp [State.leadStages]
@[simp] theorem State.leadStages_strapCp (s : State) (i : Fin 2) : (s.leadStages i).strapCp = s.strapCp := by simp [State.leadStages]
@[simp] theorem State.leadStages_strapClk (s : State) (i : Fin 2) : (s.leadStages i).strapClk = s.strapClk := by simp [State.leadStages]
@[simp] theorem State.leadStages_timeBase (s : State) (i : Fin 2) : (s.leadStages i).timeBase = s.timeBase := by simp [State.leadStages]
@[simp] theorem State.leadStages_up (s : State) (i : Fin 2) : (s.leadStages i).up = s.up := by simp [State.leadStages]
@[simp] theorem State.leadStages_windows (s : State) (i : Fin 2) : (s.leadStages i).windows = s.windows := by simp [State.leadStages]
@[simp] theorem State.leadStages_passQueue (s : State) (i : Fin 2) : (s.leadStages i).passQueue = s.passQueue := by simp [State.leadStages]
@[simp] theorem State.leadStages_outstanding (s : State) (i : Fin 2) : (s.leadStages i).outstanding = s.outstanding := by simp [State.leadStages]
@[simp] theorem State.leadStages_memRequests (s : State) (i : Fin 2) : (s.leadStages i).memRequests = s.memRequests := by simp [State.leadStages]
@[simp] theorem State.leadStages_arb (s : State) (i : Fin 2) : (s.leadStages i).arb = s.arb := by simp [State.leadStages]
@[simp] theorem State.leadStages_cmd (s : State) (i : Fin 2) : (s.leadStages i).cmd = s.cmd := by simp [State.leadStages]
@[simp] theorem State.leadStages_sources (s : State) (i : Fin 2) : (s.leadStages i).sources = s.sources := by simp [State.leadStages]
@[simp] theorem State.leadStages_views (s : State) (i : Fin 2) : (s.leadStages i).views = s.views := by simp [State.leadStages]
@[simp] theorem State.leadStages_inflight (s : State) (i : Fin 2) : (s.leadStages i).inflight = s.inflight := by simp [State.leadStages]
@[simp] theorem State.leadStages_draws (s : State) (i : Fin 2) : (s.leadStages i).draws = s.draws := by simp [State.leadStages]

@[simp] theorem State.latchStages_pending (s : State) (i : Fin 2) : (s.latchStages i).pending = s.pending := by unfold State.latchStages; split <;> simp
@[simp] theorem State.latchStages_phase (s : State) (i : Fin 2) : (s.latchStages i).phase = s.phase := by unfold State.latchStages; split <;> simp
@[simp] theorem State.latchStages_rstN (s : State) (i : Fin 2) : (s.latchStages i).rstN = s.rstN := by unfold State.latchStages; split <;> simp
@[simp] theorem State.latchStages_strapCp (s : State) (i : Fin 2) : (s.latchStages i).strapCp = s.strapCp := by unfold State.latchStages; split <;> simp
@[simp] theorem State.latchStages_strapClk (s : State) (i : Fin 2) : (s.latchStages i).strapClk = s.strapClk := by unfold State.latchStages; split <;> simp
@[simp] theorem State.latchStages_timeBase (s : State) (i : Fin 2) : (s.latchStages i).timeBase = s.timeBase := by unfold State.latchStages; split <;> simp
@[simp] theorem State.latchStages_windows (s : State) (i : Fin 2) : (s.latchStages i).windows = s.windows := by unfold State.latchStages; split <;> simp
@[simp] theorem State.latchStages_passQueue (s : State) (i : Fin 2) : (s.latchStages i).passQueue = s.passQueue := by unfold State.latchStages; split <;> simp
@[simp] theorem State.latchStages_outstanding (s : State) (i : Fin 2) : (s.latchStages i).outstanding = s.outstanding := by unfold State.latchStages; split <;> simp
@[simp] theorem State.latchStages_memRequests (s : State) (i : Fin 2) : (s.latchStages i).memRequests = s.memRequests := by unfold State.latchStages; split <;> simp
@[simp] theorem State.latchStages_arb (s : State) (i : Fin 2) : (s.latchStages i).arb = s.arb := by unfold State.latchStages; split <;> simp
@[simp] theorem State.latchStages_cmd (s : State) (i : Fin 2) : (s.latchStages i).cmd = s.cmd := by unfold State.latchStages; split <;> simp
@[simp] theorem State.latchStages_cal (s : State) (i : Fin 2) : (s.latchStages i).cal = s.cal := by unfold State.latchStages; split <;> simp
@[simp] theorem State.latchStages_zoom (s : State) (i : Fin 2) : (s.latchStages i).zoom = s.zoom := by unfold State.latchStages; split <;> simp
@[simp] theorem State.latchStages_handoff (s : State) (i : Fin 2) : (s.latchStages i).handoff = s.handoff := by unfold State.latchStages; split <;> simp

@[simp] theorem State.openFrame_pending (s : State) (i : Fin 2) (rows : List Nat) : (s.openFrame i rows).pending = s.pending := by unfold State.openFrame; dsimp only; split <;> simp
@[simp] theorem State.openFrame_phase (s : State) (i : Fin 2) (rows : List Nat) : (s.openFrame i rows).phase = s.phase := by unfold State.openFrame; dsimp only; split <;> simp
@[simp] theorem State.openFrame_rstN (s : State) (i : Fin 2) (rows : List Nat) : (s.openFrame i rows).rstN = s.rstN := by unfold State.openFrame; dsimp only; split <;> simp
@[simp] theorem State.openFrame_strapCp (s : State) (i : Fin 2) (rows : List Nat) : (s.openFrame i rows).strapCp = s.strapCp := by unfold State.openFrame; dsimp only; split <;> simp
@[simp] theorem State.openFrame_strapClk (s : State) (i : Fin 2) (rows : List Nat) : (s.openFrame i rows).strapClk = s.strapClk := by unfold State.openFrame; dsimp only; split <;> simp
@[simp] theorem State.openFrame_timeBase (s : State) (i : Fin 2) (rows : List Nat) : (s.openFrame i rows).timeBase = s.timeBase := by unfold State.openFrame; dsimp only; split <;> simp
@[simp] theorem State.openFrame_windows (s : State) (i : Fin 2) (rows : List Nat) : (s.openFrame i rows).windows = s.windows := by unfold State.openFrame; dsimp only; split <;> simp
@[simp] theorem State.openFrame_passQueue (s : State) (i : Fin 2) (rows : List Nat) : (s.openFrame i rows).passQueue = s.passQueue := by unfold State.openFrame; dsimp only; split <;> simp
@[simp] theorem State.openFrame_outstanding (s : State) (i : Fin 2) (rows : List Nat) : (s.openFrame i rows).outstanding = s.outstanding := by unfold State.openFrame; dsimp only; split <;> simp
@[simp] theorem State.openFrame_memRequests (s : State) (i : Fin 2) (rows : List Nat) : (s.openFrame i rows).memRequests = s.memRequests := by unfold State.openFrame; dsimp only; split <;> simp
@[simp] theorem State.openFrame_arb (s : State) (i : Fin 2) (rows : List Nat) : (s.openFrame i rows).arb = s.arb := by unfold State.openFrame; dsimp only; split <;> simp
@[simp] theorem State.openFrame_cmd (s : State) (i : Fin 2) (rows : List Nat) : (s.openFrame i rows).cmd = s.cmd := by unfold State.openFrame; dsimp only; split <;> simp

@[simp] theorem State.acceptAperture_pending (s : State) (i : Fin 2) (q : ReadReq) : (s.acceptAperture i q).pending = s.pending := by
  unfold State.acceptAperture; split
  · rfl
  · dsimp only; split <;> simp
@[simp] theorem State.acceptAperture_phase (s : State) (i : Fin 2) (q : ReadReq) : (s.acceptAperture i q).phase = s.phase := by
  unfold State.acceptAperture; split
  · rfl
  · dsimp only; split <;> simp
@[simp] theorem State.acceptAperture_rstN (s : State) (i : Fin 2) (q : ReadReq) : (s.acceptAperture i q).rstN = s.rstN := by
  unfold State.acceptAperture; split
  · rfl
  · dsimp only; split <;> simp
@[simp] theorem State.acceptAperture_strapCp (s : State) (i : Fin 2) (q : ReadReq) : (s.acceptAperture i q).strapCp = s.strapCp := by
  unfold State.acceptAperture; split
  · rfl
  · dsimp only; split <;> simp
@[simp] theorem State.acceptAperture_strapClk (s : State) (i : Fin 2) (q : ReadReq) : (s.acceptAperture i q).strapClk = s.strapClk := by
  unfold State.acceptAperture; split
  · rfl
  · dsimp only; split <;> simp
@[simp] theorem State.acceptAperture_timeBase (s : State) (i : Fin 2) (q : ReadReq) : (s.acceptAperture i q).timeBase = s.timeBase := by
  unfold State.acceptAperture; split
  · rfl
  · dsimp only; split <;> simp
@[simp] theorem State.acceptAperture_windows (s : State) (i : Fin 2) (q : ReadReq) : (s.acceptAperture i q).windows = s.windows := by
  unfold State.acceptAperture; split
  · rfl
  · dsimp only; split <;> simp
@[simp] theorem State.acceptAperture_passQueue (s : State) (i : Fin 2) (q : ReadReq) : (s.acceptAperture i q).passQueue = s.passQueue := by
  unfold State.acceptAperture; split
  · rfl
  · dsimp only; split <;> simp
@[simp] theorem State.acceptAperture_outstanding (s : State) (i : Fin 2) (q : ReadReq) : (s.acceptAperture i q).outstanding = s.outstanding := by
  unfold State.acceptAperture; split
  · rfl
  · dsimp only; split <;> simp
@[simp] theorem State.acceptAperture_memRequests (s : State) (i : Fin 2) (q : ReadReq) : (s.acceptAperture i q).memRequests = s.memRequests := by
  unfold State.acceptAperture; split
  · rfl
  · dsimp only; split <;> simp
@[simp] theorem State.acceptAperture_arb (s : State) (i : Fin 2) (q : ReadReq) : (s.acceptAperture i q).arb = s.arb := by
  unfold State.acceptAperture; split
  · rfl
  · dsimp only; split <;> simp
@[simp] theorem State.acceptAperture_cmd (s : State) (i : Fin 2) (q : ReadReq) : (s.acceptAperture i q).cmd = s.cmd := by
  unfold State.acceptAperture; split
  · rfl
  · dsimp only; split <;> simp

/-! ### The memory path -/

@[simp] theorem State.settleAges_pending (s : State) : (s.settleAges).pending = s.pending := rfl
@[simp] theorem State.settleAges_phase (s : State) : (s.settleAges).phase = s.phase := rfl
@[simp] theorem State.settleAges_rstN (s : State) : (s.settleAges).rstN = s.rstN := rfl
@[simp] theorem State.settleAges_strapCp (s : State) : (s.settleAges).strapCp = s.strapCp := rfl
@[simp] theorem State.settleAges_strapClk (s : State) : (s.settleAges).strapClk = s.strapClk := rfl
@[simp] theorem State.settleAges_timeBase (s : State) : (s.settleAges).timeBase = s.timeBase := rfl
@[simp] theorem State.settleAges_up (s : State) : (s.settleAges).up = s.up := rfl
@[simp] theorem State.settleAges_windows (s : State) : (s.settleAges).windows = s.windows := rfl
@[simp] theorem State.settleAges_passQueue (s : State) : (s.settleAges).passQueue = s.passQueue := rfl
@[simp] theorem State.settleAges_outstanding (s : State) : (s.settleAges).outstanding = s.outstanding := rfl
@[simp] theorem State.settleAges_memRequests (s : State) : (s.settleAges).memRequests = s.memRequests := rfl
@[simp] theorem State.settleAges_cmd (s : State) : (s.settleAges).cmd = s.cmd := rfl
@[simp] theorem State.settleAges_sources (s : State) : (s.settleAges).sources = s.sources := rfl
@[simp] theorem State.settleAges_cal (s : State) : (s.settleAges).cal = s.cal := rfl
@[simp] theorem State.settleAges_zoom (s : State) : (s.settleAges).zoom = s.zoom := rfl
@[simp] theorem State.settleAges_handoff (s : State) : (s.settleAges).handoff = s.handoff := rfl
@[simp] theorem State.settleAges_views (s : State) : (s.settleAges).views = s.views := rfl
@[simp] theorem State.settleAges_inflight (s : State) : (s.settleAges).inflight = s.inflight := rfl
@[simp] theorem State.settleAges_report (s : State) : (s.settleAges).report = s.report := rfl
@[simp] theorem State.settleAges_draws (s : State) : (s.settleAges).draws = s.draws := rfl

@[simp] theorem State.forward_pending (s : State) (q : Request) : (s.forward q).pending = s.pending := rfl
@[simp] theorem State.forward_phase (s : State) (q : Request) : (s.forward q).phase = s.phase := rfl
@[simp] theorem State.forward_rstN (s : State) (q : Request) : (s.forward q).rstN = s.rstN := rfl
@[simp] theorem State.forward_strapCp (s : State) (q : Request) : (s.forward q).strapCp = s.strapCp := rfl
@[simp] theorem State.forward_strapClk (s : State) (q : Request) : (s.forward q).strapClk = s.strapClk := rfl
@[simp] theorem State.forward_timeBase (s : State) (q : Request) : (s.forward q).timeBase = s.timeBase := rfl
@[simp] theorem State.forward_up (s : State) (q : Request) : (s.forward q).up = s.up := rfl
@[simp] theorem State.forward_windows (s : State) (q : Request) : (s.forward q).windows = s.windows := rfl
@[simp] theorem State.forward_outstanding (s : State) (q : Request) : (s.forward q).outstanding = s.outstanding := rfl
@[simp] theorem State.forward_memRequests (s : State) (q : Request) : (s.forward q).memRequests = s.memRequests := rfl
@[simp] theorem State.forward_arb (s : State) (q : Request) : (s.forward q).arb = s.arb := rfl
@[simp] theorem State.forward_cmd (s : State) (q : Request) : (s.forward q).cmd = s.cmd := rfl
@[simp] theorem State.forward_sources (s : State) (q : Request) : (s.forward q).sources = s.sources := rfl
@[simp] theorem State.forward_cal (s : State) (q : Request) : (s.forward q).cal = s.cal := rfl
@[simp] theorem State.forward_zoom (s : State) (q : Request) : (s.forward q).zoom = s.zoom := rfl
@[simp] theorem State.forward_handoff (s : State) (q : Request) : (s.forward q).handoff = s.handoff := rfl
@[simp] theorem State.forward_views (s : State) (q : Request) : (s.forward q).views = s.views := rfl
@[simp] theorem State.forward_inflight (s : State) (q : Request) : (s.forward q).inflight = s.inflight := rfl
@[simp] theorem State.forward_report (s : State) (q : Request) : (s.forward q).report = s.report := rfl
@[simp] theorem State.forward_draws (s : State) (q : Request) : (s.forward q).draws = s.draws := rfl

@[simp] theorem State.answer_pending (s : State) (a : UpResponse) : (s.answer a).pending = s.pending := rfl
@[simp] theorem State.answer_phase (s : State) (a : UpResponse) : (s.answer a).phase = s.phase := rfl
@[simp] theorem State.answer_rstN (s : State) (a : UpResponse) : (s.answer a).rstN = s.rstN := rfl
@[simp] theorem State.answer_strapCp (s : State) (a : UpResponse) : (s.answer a).strapCp = s.strapCp := rfl
@[simp] theorem State.answer_strapClk (s : State) (a : UpResponse) : (s.answer a).strapClk = s.strapClk := rfl
@[simp] theorem State.answer_timeBase (s : State) (a : UpResponse) : (s.answer a).timeBase = s.timeBase := rfl
@[simp] theorem State.answer_windows (s : State) (a : UpResponse) : (s.answer a).windows = s.windows := rfl
@[simp] theorem State.answer_passQueue (s : State) (a : UpResponse) : (s.answer a).passQueue = s.passQueue := rfl
@[simp] theorem State.answer_outstanding (s : State) (a : UpResponse) : (s.answer a).outstanding = s.outstanding := rfl
@[simp] theorem State.answer_memRequests (s : State) (a : UpResponse) : (s.answer a).memRequests = s.memRequests := rfl
@[simp] theorem State.answer_arb (s : State) (a : UpResponse) : (s.answer a).arb = s.arb := rfl
@[simp] theorem State.answer_cmd (s : State) (a : UpResponse) : (s.answer a).cmd = s.cmd := rfl
@[simp] theorem State.answer_sources (s : State) (a : UpResponse) : (s.answer a).sources = s.sources := rfl
@[simp] theorem State.answer_cal (s : State) (a : UpResponse) : (s.answer a).cal = s.cal := rfl
@[simp] theorem State.answer_zoom (s : State) (a : UpResponse) : (s.answer a).zoom = s.zoom := rfl
@[simp] theorem State.answer_handoff (s : State) (a : UpResponse) : (s.answer a).handoff = s.handoff := rfl
@[simp] theorem State.answer_views (s : State) (a : UpResponse) : (s.answer a).views = s.views := rfl
@[simp] theorem State.answer_inflight (s : State) (a : UpResponse) : (s.answer a).inflight = s.inflight := rfl
@[simp] theorem State.answer_report (s : State) (a : UpResponse) : (s.answer a).report = s.report := rfl
@[simp] theorem State.answer_draws (s : State) (a : UpResponse) : (s.answer a).draws = s.draws := rfl

@[simp] theorem State.copyControl_pending (s : State) (off : Nat) (w : WriteReq) : (s.copyControl off w).pending = s.pending := by simp [State.copyControl]
@[simp] theorem State.copyControl_phase (s : State) (off : Nat) (w : WriteReq) : (s.copyControl off w).phase = s.phase := by simp [State.copyControl]
@[simp] theorem State.copyControl_rstN (s : State) (off : Nat) (w : WriteReq) : (s.copyControl off w).rstN = s.rstN := by simp [State.copyControl]
@[simp] theorem State.copyControl_strapCp (s : State) (off : Nat) (w : WriteReq) : (s.copyControl off w).strapCp = s.strapCp := by simp [State.copyControl]
@[simp] theorem State.copyControl_strapClk (s : State) (off : Nat) (w : WriteReq) : (s.copyControl off w).strapClk = s.strapClk := by simp [State.copyControl]
@[simp] theorem State.copyControl_timeBase (s : State) (off : Nat) (w : WriteReq) : (s.copyControl off w).timeBase = s.timeBase := by simp [State.copyControl]
@[simp] theorem State.copyControl_up (s : State) (off : Nat) (w : WriteReq) : (s.copyControl off w).up = s.up := by simp [State.copyControl]
@[simp] theorem State.copyControl_windows (s : State) (off : Nat) (w : WriteReq) : (s.copyControl off w).windows = s.windows := by simp [State.copyControl]
@[simp] theorem State.copyControl_passQueue (s : State) (off : Nat) (w : WriteReq) : (s.copyControl off w).passQueue = s.passQueue := by simp [State.copyControl]
@[simp] theorem State.copyControl_outstanding (s : State) (off : Nat) (w : WriteReq) : (s.copyControl off w).outstanding = s.outstanding := by simp [State.copyControl]
@[simp] theorem State.copyControl_memRequests (s : State) (off : Nat) (w : WriteReq) : (s.copyControl off w).memRequests = s.memRequests := by simp [State.copyControl]
@[simp] theorem State.copyControl_arb (s : State) (off : Nat) (w : WriteReq) : (s.copyControl off w).arb = s.arb := by simp [State.copyControl]
@[simp] theorem State.copyControl_sources (s : State) (off : Nat) (w : WriteReq) : (s.copyControl off w).sources = s.sources := by simp [State.copyControl]
@[simp] theorem State.copyControl_cal (s : State) (off : Nat) (w : WriteReq) : (s.copyControl off w).cal = s.cal := by simp [State.copyControl]
@[simp] theorem State.copyControl_zoom (s : State) (off : Nat) (w : WriteReq) : (s.copyControl off w).zoom = s.zoom := by simp [State.copyControl]
@[simp] theorem State.copyControl_handoff (s : State) (off : Nat) (w : WriteReq) : (s.copyControl off w).handoff = s.handoff := by simp [State.copyControl]
@[simp] theorem State.copyControl_views (s : State) (off : Nat) (w : WriteReq) : (s.copyControl off w).views = s.views := by simp [State.copyControl]
@[simp] theorem State.copyControl_inflight (s : State) (off : Nat) (w : WriteReq) : (s.copyControl off w).inflight = s.inflight := by simp [State.copyControl]
@[simp] theorem State.copyControl_draws (s : State) (off : Nat) (w : WriteReq) : (s.copyControl off w).draws = s.draws := by simp [State.copyControl]

@[simp] theorem State.refuseWrite_pending (s : State) (v : Fin 2) (off : Nat) (w : WriteReq) : (s.refuseWrite v off w).pending = s.pending := by simp [State.refuseWrite]
@[simp] theorem State.refuseWrite_phase (s : State) (v : Fin 2) (off : Nat) (w : WriteReq) : (s.refuseWrite v off w).phase = s.phase := by simp [State.refuseWrite]
@[simp] theorem State.refuseWrite_rstN (s : State) (v : Fin 2) (off : Nat) (w : WriteReq) : (s.refuseWrite v off w).rstN = s.rstN := by simp [State.refuseWrite]
@[simp] theorem State.refuseWrite_strapCp (s : State) (v : Fin 2) (off : Nat) (w : WriteReq) : (s.refuseWrite v off w).strapCp = s.strapCp := by simp [State.refuseWrite]
@[simp] theorem State.refuseWrite_strapClk (s : State) (v : Fin 2) (off : Nat) (w : WriteReq) : (s.refuseWrite v off w).strapClk = s.strapClk := by simp [State.refuseWrite]
@[simp] theorem State.refuseWrite_timeBase (s : State) (v : Fin 2) (off : Nat) (w : WriteReq) : (s.refuseWrite v off w).timeBase = s.timeBase := by simp [State.refuseWrite]
@[simp] theorem State.refuseWrite_windows (s : State) (v : Fin 2) (off : Nat) (w : WriteReq) : (s.refuseWrite v off w).windows = s.windows := by simp [State.refuseWrite]
@[simp] theorem State.refuseWrite_passQueue (s : State) (v : Fin 2) (off : Nat) (w : WriteReq) : (s.refuseWrite v off w).passQueue = s.passQueue := by simp [State.refuseWrite]
@[simp] theorem State.refuseWrite_outstanding (s : State) (v : Fin 2) (off : Nat) (w : WriteReq) : (s.refuseWrite v off w).outstanding = s.outstanding := by simp [State.refuseWrite]
@[simp] theorem State.refuseWrite_memRequests (s : State) (v : Fin 2) (off : Nat) (w : WriteReq) : (s.refuseWrite v off w).memRequests = s.memRequests := by simp [State.refuseWrite]
@[simp] theorem State.refuseWrite_arb (s : State) (v : Fin 2) (off : Nat) (w : WriteReq) : (s.refuseWrite v off w).arb = s.arb := by simp [State.refuseWrite]
@[simp] theorem State.refuseWrite_cmd (s : State) (v : Fin 2) (off : Nat) (w : WriteReq) : (s.refuseWrite v off w).cmd = s.cmd := by simp [State.refuseWrite]
@[simp] theorem State.refuseWrite_sources (s : State) (v : Fin 2) (off : Nat) (w : WriteReq) : (s.refuseWrite v off w).sources = s.sources := by simp [State.refuseWrite]
@[simp] theorem State.refuseWrite_cal (s : State) (v : Fin 2) (off : Nat) (w : WriteReq) : (s.refuseWrite v off w).cal = s.cal := by simp [State.refuseWrite]
@[simp] theorem State.refuseWrite_zoom (s : State) (v : Fin 2) (off : Nat) (w : WriteReq) : (s.refuseWrite v off w).zoom = s.zoom := by simp [State.refuseWrite]
@[simp] theorem State.refuseWrite_handoff (s : State) (v : Fin 2) (off : Nat) (w : WriteReq) : (s.refuseWrite v off w).handoff = s.handoff := by simp [State.refuseWrite]
@[simp] theorem State.refuseWrite_views (s : State) (v : Fin 2) (off : Nat) (w : WriteReq) : (s.refuseWrite v off w).views = s.views := by simp [State.refuseWrite]
@[simp] theorem State.refuseWrite_inflight (s : State) (v : Fin 2) (off : Nat) (w : WriteReq) : (s.refuseWrite v off w).inflight = s.inflight := by simp [State.refuseWrite]
@[simp] theorem State.refuseWrite_draws (s : State) (v : Fin 2) (off : Nat) (w : WriteReq) : (s.refuseWrite v off w).draws = s.draws := by simp [State.refuseWrite]

@[simp] theorem State.cameraWrite_pending (s : State) (win : Window) (i : Fin 4) (k : Nat) (w : WriteReq) : (s.cameraWrite win i k w).pending = s.pending := by simp [State.cameraWrite]
@[simp] theorem State.cameraWrite_phase (s : State) (win : Window) (i : Fin 4) (k : Nat) (w : WriteReq) : (s.cameraWrite win i k w).phase = s.phase := by simp [State.cameraWrite]
@[simp] theorem State.cameraWrite_rstN (s : State) (win : Window) (i : Fin 4) (k : Nat) (w : WriteReq) : (s.cameraWrite win i k w).rstN = s.rstN := by simp [State.cameraWrite]
@[simp] theorem State.cameraWrite_strapCp (s : State) (win : Window) (i : Fin 4) (k : Nat) (w : WriteReq) : (s.cameraWrite win i k w).strapCp = s.strapCp := by simp [State.cameraWrite]
@[simp] theorem State.cameraWrite_strapClk (s : State) (win : Window) (i : Fin 4) (k : Nat) (w : WriteReq) : (s.cameraWrite win i k w).strapClk = s.strapClk := by simp [State.cameraWrite]
@[simp] theorem State.cameraWrite_timeBase (s : State) (win : Window) (i : Fin 4) (k : Nat) (w : WriteReq) : (s.cameraWrite win i k w).timeBase = s.timeBase := by simp [State.cameraWrite]
@[simp] theorem State.cameraWrite_up (s : State) (win : Window) (i : Fin 4) (k : Nat) (w : WriteReq) : (s.cameraWrite win i k w).up = s.up := by simp [State.cameraWrite]
@[simp] theorem State.cameraWrite_windows (s : State) (win : Window) (i : Fin 4) (k : Nat) (w : WriteReq) : (s.cameraWrite win i k w).windows = s.windows := by simp [State.cameraWrite]
@[simp] theorem State.cameraWrite_outstanding (s : State) (win : Window) (i : Fin 4) (k : Nat) (w : WriteReq) : (s.cameraWrite win i k w).outstanding = s.outstanding := by simp [State.cameraWrite]
@[simp] theorem State.cameraWrite_memRequests (s : State) (win : Window) (i : Fin 4) (k : Nat) (w : WriteReq) : (s.cameraWrite win i k w).memRequests = s.memRequests := by simp [State.cameraWrite]
@[simp] theorem State.cameraWrite_arb (s : State) (win : Window) (i : Fin 4) (k : Nat) (w : WriteReq) : (s.cameraWrite win i k w).arb = s.arb := by simp [State.cameraWrite]
@[simp] theorem State.cameraWrite_cmd (s : State) (win : Window) (i : Fin 4) (k : Nat) (w : WriteReq) : (s.cameraWrite win i k w).cmd = s.cmd := by simp [State.cameraWrite]
@[simp] theorem State.cameraWrite_cal (s : State) (win : Window) (i : Fin 4) (k : Nat) (w : WriteReq) : (s.cameraWrite win i k w).cal = s.cal := by simp [State.cameraWrite]
@[simp] theorem State.cameraWrite_zoom (s : State) (win : Window) (i : Fin 4) (k : Nat) (w : WriteReq) : (s.cameraWrite win i k w).zoom = s.zoom := by simp [State.cameraWrite]
@[simp] theorem State.cameraWrite_handoff (s : State) (win : Window) (i : Fin 4) (k : Nat) (w : WriteReq) : (s.cameraWrite win i k w).handoff = s.handoff := by simp [State.cameraWrite]
@[simp] theorem State.cameraWrite_views (s : State) (win : Window) (i : Fin 4) (k : Nat) (w : WriteReq) : (s.cameraWrite win i k w).views = s.views := by simp [State.cameraWrite]
@[simp] theorem State.cameraWrite_inflight (s : State) (win : Window) (i : Fin 4) (k : Nat) (w : WriteReq) : (s.cameraWrite win i k w).inflight = s.inflight := by simp [State.cameraWrite]
@[simp] theorem State.cameraWrite_draws (s : State) (win : Window) (i : Fin 4) (k : Nat) (w : WriteReq) : (s.cameraWrite win i k w).draws = s.draws := by simp [State.cameraWrite]

@[simp] theorem State.acceptRead_pending (s : State) (r : ReadReq) : (s.acceptRead r).pending = s.pending := by unfold State.acceptRead; split <;> simp
@[simp] theorem State.acceptRead_phase (s : State) (r : ReadReq) : (s.acceptRead r).phase = s.phase := by unfold State.acceptRead; split <;> simp
@[simp] theorem State.acceptRead_rstN (s : State) (r : ReadReq) : (s.acceptRead r).rstN = s.rstN := by unfold State.acceptRead; split <;> simp
@[simp] theorem State.acceptRead_strapCp (s : State) (r : ReadReq) : (s.acceptRead r).strapCp = s.strapCp := by unfold State.acceptRead; split <;> simp
@[simp] theorem State.acceptRead_strapClk (s : State) (r : ReadReq) : (s.acceptRead r).strapClk = s.strapClk := by unfold State.acceptRead; split <;> simp
@[simp] theorem State.acceptRead_timeBase (s : State) (r : ReadReq) : (s.acceptRead r).timeBase = s.timeBase := by unfold State.acceptRead; split <;> simp
@[simp] theorem State.acceptRead_windows (s : State) (r : ReadReq) : (s.acceptRead r).windows = s.windows := by unfold State.acceptRead; split <;> simp
@[simp] theorem State.acceptRead_outstanding (s : State) (r : ReadReq) : (s.acceptRead r).outstanding = s.outstanding := by unfold State.acceptRead; split <;> simp
@[simp] theorem State.acceptRead_memRequests (s : State) (r : ReadReq) : (s.acceptRead r).memRequests = s.memRequests := by unfold State.acceptRead; split <;> simp
@[simp] theorem State.acceptRead_cmd (s : State) (r : ReadReq) : (s.acceptRead r).cmd = s.cmd := by unfold State.acceptRead; split <;> simp

@[simp] theorem State.acceptWrite_pending (s : State) (w : WriteReq) : (s.acceptWrite w).pending = s.pending := by unfold State.acceptWrite; split <;> simp
@[simp] theorem State.acceptWrite_phase (s : State) (w : WriteReq) : (s.acceptWrite w).phase = s.phase := by unfold State.acceptWrite; split <;> simp
@[simp] theorem State.acceptWrite_rstN (s : State) (w : WriteReq) : (s.acceptWrite w).rstN = s.rstN := by unfold State.acceptWrite; split <;> simp
@[simp] theorem State.acceptWrite_strapCp (s : State) (w : WriteReq) : (s.acceptWrite w).strapCp = s.strapCp := by unfold State.acceptWrite; split <;> simp
@[simp] theorem State.acceptWrite_strapClk (s : State) (w : WriteReq) : (s.acceptWrite w).strapClk = s.strapClk := by unfold State.acceptWrite; split <;> simp
@[simp] theorem State.acceptWrite_timeBase (s : State) (w : WriteReq) : (s.acceptWrite w).timeBase = s.timeBase := by unfold State.acceptWrite; split <;> simp
@[simp] theorem State.acceptWrite_windows (s : State) (w : WriteReq) : (s.acceptWrite w).windows = s.windows := by unfold State.acceptWrite; split <;> simp
@[simp] theorem State.acceptWrite_outstanding (s : State) (w : WriteReq) : (s.acceptWrite w).outstanding = s.outstanding := by unfold State.acceptWrite; split <;> simp
@[simp] theorem State.acceptWrite_memRequests (s : State) (w : WriteReq) : (s.acceptWrite w).memRequests = s.memRequests := by unfold State.acceptWrite; split <;> simp
@[simp] theorem State.acceptWrite_arb (s : State) (w : WriteReq) : (s.acceptWrite w).arb = s.arb := by unfold State.acceptWrite; split <;> simp
@[simp] theorem State.acceptWrite_cal (s : State) (w : WriteReq) : (s.acceptWrite w).cal = s.cal := by unfold State.acceptWrite; split <;> simp
@[simp] theorem State.acceptWrite_zoom (s : State) (w : WriteReq) : (s.acceptWrite w).zoom = s.zoom := by unfold State.acceptWrite; split <;> simp
@[simp] theorem State.acceptWrite_handoff (s : State) (w : WriteReq) : (s.acceptWrite w).handoff = s.handoff := by unfold State.acceptWrite; split <;> simp
@[simp] theorem State.acceptWrite_views (s : State) (w : WriteReq) : (s.acceptWrite w).views = s.views := by unfold State.acceptWrite; split <;> simp
@[simp] theorem State.acceptWrite_inflight (s : State) (w : WriteReq) : (s.acceptWrite w).inflight = s.inflight := by unfold State.acceptWrite; split <;> simp
@[simp] theorem State.acceptWrite_draws (s : State) (w : WriteReq) : (s.acceptWrite w).draws = s.draws := by unfold State.acceptWrite; split <;> simp

/-! ### The memory port -/

@[simp] theorem State.issue_pending (s : State) (e : Fin 64) (o : Owner) (q : Request) : (s.issue e o q).pending = s.pending := rfl
@[simp] theorem State.issue_phase (s : State) (e : Fin 64) (o : Owner) (q : Request) : (s.issue e o q).phase = s.phase := rfl
@[simp] theorem State.issue_rstN (s : State) (e : Fin 64) (o : Owner) (q : Request) : (s.issue e o q).rstN = s.rstN := rfl
@[simp] theorem State.issue_strapCp (s : State) (e : Fin 64) (o : Owner) (q : Request) : (s.issue e o q).strapCp = s.strapCp := rfl
@[simp] theorem State.issue_strapClk (s : State) (e : Fin 64) (o : Owner) (q : Request) : (s.issue e o q).strapClk = s.strapClk := rfl
@[simp] theorem State.issue_timeBase (s : State) (e : Fin 64) (o : Owner) (q : Request) : (s.issue e o q).timeBase = s.timeBase := rfl
@[simp] theorem State.issue_up (s : State) (e : Fin 64) (o : Owner) (q : Request) : (s.issue e o q).up = s.up := rfl
@[simp] theorem State.issue_windows (s : State) (e : Fin 64) (o : Owner) (q : Request) : (s.issue e o q).windows = s.windows := rfl
@[simp] theorem State.issue_passQueue (s : State) (e : Fin 64) (o : Owner) (q : Request) : (s.issue e o q).passQueue = s.passQueue := rfl
@[simp] theorem State.issue_arb (s : State) (e : Fin 64) (o : Owner) (q : Request) : (s.issue e o q).arb = s.arb := rfl
@[simp] theorem State.issue_cmd (s : State) (e : Fin 64) (o : Owner) (q : Request) : (s.issue e o q).cmd = s.cmd := rfl
@[simp] theorem State.issue_sources (s : State) (e : Fin 64) (o : Owner) (q : Request) : (s.issue e o q).sources = s.sources := rfl
@[simp] theorem State.issue_cal (s : State) (e : Fin 64) (o : Owner) (q : Request) : (s.issue e o q).cal = s.cal := rfl
@[simp] theorem State.issue_zoom (s : State) (e : Fin 64) (o : Owner) (q : Request) : (s.issue e o q).zoom = s.zoom := rfl
@[simp] theorem State.issue_handoff (s : State) (e : Fin 64) (o : Owner) (q : Request) : (s.issue e o q).handoff = s.handoff := rfl
@[simp] theorem State.issue_views (s : State) (e : Fin 64) (o : Owner) (q : Request) : (s.issue e o q).views = s.views := rfl
@[simp] theorem State.issue_inflight (s : State) (e : Fin 64) (o : Owner) (q : Request) : (s.issue e o q).inflight = s.inflight := rfl
@[simp] theorem State.issue_report (s : State) (e : Fin 64) (o : Owner) (q : Request) : (s.issue e o q).report = s.report := rfl
@[simp] theorem State.issue_draws (s : State) (e : Fin 64) (o : Owner) (q : Request) : (s.issue e o q).draws = s.draws := rfl

@[simp] theorem State.freeOutstanding_pending (s : State) (e : Fin 64) : (s.freeOutstanding e).pending = s.pending := rfl
@[simp] theorem State.freeOutstanding_phase (s : State) (e : Fin 64) : (s.freeOutstanding e).phase = s.phase := rfl
@[simp] theorem State.freeOutstanding_rstN (s : State) (e : Fin 64) : (s.freeOutstanding e).rstN = s.rstN := rfl
@[simp] theorem State.freeOutstanding_strapCp (s : State) (e : Fin 64) : (s.freeOutstanding e).strapCp = s.strapCp := rfl
@[simp] theorem State.freeOutstanding_strapClk (s : State) (e : Fin 64) : (s.freeOutstanding e).strapClk = s.strapClk := rfl
@[simp] theorem State.freeOutstanding_timeBase (s : State) (e : Fin 64) : (s.freeOutstanding e).timeBase = s.timeBase := rfl
@[simp] theorem State.freeOutstanding_up (s : State) (e : Fin 64) : (s.freeOutstanding e).up = s.up := rfl
@[simp] theorem State.freeOutstanding_windows (s : State) (e : Fin 64) : (s.freeOutstanding e).windows = s.windows := rfl
@[simp] theorem State.freeOutstanding_passQueue (s : State) (e : Fin 64) : (s.freeOutstanding e).passQueue = s.passQueue := rfl
@[simp] theorem State.freeOutstanding_memRequests (s : State) (e : Fin 64) : (s.freeOutstanding e).memRequests = s.memRequests := rfl
@[simp] theorem State.freeOutstanding_arb (s : State) (e : Fin 64) : (s.freeOutstanding e).arb = s.arb := rfl
@[simp] theorem State.freeOutstanding_cmd (s : State) (e : Fin 64) : (s.freeOutstanding e).cmd = s.cmd := rfl
@[simp] theorem State.freeOutstanding_sources (s : State) (e : Fin 64) : (s.freeOutstanding e).sources = s.sources := rfl
@[simp] theorem State.freeOutstanding_cal (s : State) (e : Fin 64) : (s.freeOutstanding e).cal = s.cal := rfl
@[simp] theorem State.freeOutstanding_zoom (s : State) (e : Fin 64) : (s.freeOutstanding e).zoom = s.zoom := rfl
@[simp] theorem State.freeOutstanding_handoff (s : State) (e : Fin 64) : (s.freeOutstanding e).handoff = s.handoff := rfl
@[simp] theorem State.freeOutstanding_views (s : State) (e : Fin 64) : (s.freeOutstanding e).views = s.views := rfl
@[simp] theorem State.freeOutstanding_inflight (s : State) (e : Fin 64) : (s.freeOutstanding e).inflight = s.inflight := rfl
@[simp] theorem State.freeOutstanding_report (s : State) (e : Fin 64) : (s.freeOutstanding e).report = s.report := rfl
@[simp] theorem State.freeOutstanding_draws (s : State) (e : Fin 64) : (s.freeOutstanding e).draws = s.draws := rfl

@[simp] theorem State.grantPass_pending (s : State) (e : Fin 64) : (s.grantPass e).pending = s.pending := by unfold State.grantPass; split <;> rfl
@[simp] theorem State.grantPass_phase (s : State) (e : Fin 64) : (s.grantPass e).phase = s.phase := by unfold State.grantPass; split <;> rfl
@[simp] theorem State.grantPass_rstN (s : State) (e : Fin 64) : (s.grantPass e).rstN = s.rstN := by unfold State.grantPass; split <;> rfl
@[simp] theorem State.grantPass_strapCp (s : State) (e : Fin 64) : (s.grantPass e).strapCp = s.strapCp := by unfold State.grantPass; split <;> rfl
@[simp] theorem State.grantPass_strapClk (s : State) (e : Fin 64) : (s.grantPass e).strapClk = s.strapClk := by unfold State.grantPass; split <;> rfl
@[simp] theorem State.grantPass_timeBase (s : State) (e : Fin 64) : (s.grantPass e).timeBase = s.timeBase := by unfold State.grantPass; split <;> rfl
@[simp] theorem State.grantPass_up (s : State) (e : Fin 64) : (s.grantPass e).up = s.up := by unfold State.grantPass; split <;> rfl
@[simp] theorem State.grantPass_windows (s : State) (e : Fin 64) : (s.grantPass e).windows = s.windows := by unfold State.grantPass; split <;> rfl
@[simp] theorem State.grantPass_arb (s : State) (e : Fin 64) : (s.grantPass e).arb = s.arb := by unfold State.grantPass; split <;> rfl
@[simp] theorem State.grantPass_cmd (s : State) (e : Fin 64) : (s.grantPass e).cmd = s.cmd := by unfold State.grantPass; split <;> rfl
@[simp] theorem State.grantPass_sources (s : State) (e : Fin 64) : (s.grantPass e).sources = s.sources := by unfold State.grantPass; split <;> rfl
@[simp] theorem State.grantPass_cal (s : State) (e : Fin 64) : (s.grantPass e).cal = s.cal := by unfold State.grantPass; split <;> rfl
@[simp] theorem State.grantPass_zoom (s : State) (e : Fin 64) : (s.grantPass e).zoom = s.zoom := by unfold State.grantPass; split <;> rfl
@[simp] theorem State.grantPass_handoff (s : State) (e : Fin 64) : (s.grantPass e).handoff = s.handoff := by unfold State.grantPass; split <;> rfl
@[simp] theorem State.grantPass_views (s : State) (e : Fin 64) : (s.grantPass e).views = s.views := by unfold State.grantPass; split <;> rfl
@[simp] theorem State.grantPass_inflight (s : State) (e : Fin 64) : (s.grantPass e).inflight = s.inflight := by unfold State.grantPass; split <;> rfl
@[simp] theorem State.grantPass_report (s : State) (e : Fin 64) : (s.grantPass e).report = s.report := by unfold State.grantPass; split <;> rfl
@[simp] theorem State.grantPass_draws (s : State) (e : Fin 64) : (s.grantPass e).draws = s.draws := by unfold State.grantPass; split <;> rfl

@[simp] theorem State.issueFetch_pending (s : State) (f : Fetch) : (s.issueFetch f).pending = s.pending := rfl
@[simp] theorem State.issueFetch_phase (s : State) (f : Fetch) : (s.issueFetch f).phase = s.phase := rfl
@[simp] theorem State.issueFetch_rstN (s : State) (f : Fetch) : (s.issueFetch f).rstN = s.rstN := rfl
@[simp] theorem State.issueFetch_strapCp (s : State) (f : Fetch) : (s.issueFetch f).strapCp = s.strapCp := rfl
@[simp] theorem State.issueFetch_strapClk (s : State) (f : Fetch) : (s.issueFetch f).strapClk = s.strapClk := rfl
@[simp] theorem State.issueFetch_timeBase (s : State) (f : Fetch) : (s.issueFetch f).timeBase = s.timeBase := rfl
@[simp] theorem State.issueFetch_up (s : State) (f : Fetch) : (s.issueFetch f).up = s.up := rfl
@[simp] theorem State.issueFetch_windows (s : State) (f : Fetch) : (s.issueFetch f).windows = s.windows := rfl
@[simp] theorem State.issueFetch_passQueue (s : State) (f : Fetch) : (s.issueFetch f).passQueue = s.passQueue := rfl
@[simp] theorem State.issueFetch_outstanding (s : State) (f : Fetch) : (s.issueFetch f).outstanding = s.outstanding := rfl
@[simp] theorem State.issueFetch_memRequests (s : State) (f : Fetch) : (s.issueFetch f).memRequests = s.memRequests := rfl
@[simp] theorem State.issueFetch_arb (s : State) (f : Fetch) : (s.issueFetch f).arb = s.arb := rfl
@[simp] theorem State.issueFetch_cmd (s : State) (f : Fetch) : (s.issueFetch f).cmd = s.cmd := rfl
@[simp] theorem State.issueFetch_sources (s : State) (f : Fetch) : (s.issueFetch f).sources = s.sources := rfl
@[simp] theorem State.issueFetch_cal (s : State) (f : Fetch) : (s.issueFetch f).cal = s.cal := rfl
@[simp] theorem State.issueFetch_zoom (s : State) (f : Fetch) : (s.issueFetch f).zoom = s.zoom := rfl
@[simp] theorem State.issueFetch_handoff (s : State) (f : Fetch) : (s.issueFetch f).handoff = s.handoff := rfl
@[simp] theorem State.issueFetch_report (s : State) (f : Fetch) : (s.issueFetch f).report = s.report := rfl
@[simp] theorem State.issueFetch_draws (s : State) (f : Fetch) : (s.issueFetch f).draws = s.draws := rfl

@[simp] theorem State.continueFetch_pending (s : State) (f : Fetch) : (s.continueFetch f).pending = s.pending := rfl
@[simp] theorem State.continueFetch_phase (s : State) (f : Fetch) : (s.continueFetch f).phase = s.phase := rfl
@[simp] theorem State.continueFetch_rstN (s : State) (f : Fetch) : (s.continueFetch f).rstN = s.rstN := rfl
@[simp] theorem State.continueFetch_strapCp (s : State) (f : Fetch) : (s.continueFetch f).strapCp = s.strapCp := rfl
@[simp] theorem State.continueFetch_strapClk (s : State) (f : Fetch) : (s.continueFetch f).strapClk = s.strapClk := rfl
@[simp] theorem State.continueFetch_timeBase (s : State) (f : Fetch) : (s.continueFetch f).timeBase = s.timeBase := rfl
@[simp] theorem State.continueFetch_up (s : State) (f : Fetch) : (s.continueFetch f).up = s.up := rfl
@[simp] theorem State.continueFetch_windows (s : State) (f : Fetch) : (s.continueFetch f).windows = s.windows := rfl
@[simp] theorem State.continueFetch_passQueue (s : State) (f : Fetch) : (s.continueFetch f).passQueue = s.passQueue := rfl
@[simp] theorem State.continueFetch_outstanding (s : State) (f : Fetch) : (s.continueFetch f).outstanding = s.outstanding := rfl
@[simp] theorem State.continueFetch_memRequests (s : State) (f : Fetch) : (s.continueFetch f).memRequests = s.memRequests := rfl
@[simp] theorem State.continueFetch_arb (s : State) (f : Fetch) : (s.continueFetch f).arb = s.arb := rfl
@[simp] theorem State.continueFetch_cmd (s : State) (f : Fetch) : (s.continueFetch f).cmd = s.cmd := rfl
@[simp] theorem State.continueFetch_sources (s : State) (f : Fetch) : (s.continueFetch f).sources = s.sources := rfl
@[simp] theorem State.continueFetch_cal (s : State) (f : Fetch) : (s.continueFetch f).cal = s.cal := rfl
@[simp] theorem State.continueFetch_zoom (s : State) (f : Fetch) : (s.continueFetch f).zoom = s.zoom := rfl
@[simp] theorem State.continueFetch_handoff (s : State) (f : Fetch) : (s.continueFetch f).handoff = s.handoff := rfl
@[simp] theorem State.continueFetch_views (s : State) (f : Fetch) : (s.continueFetch f).views = s.views := rfl
@[simp] theorem State.continueFetch_report (s : State) (f : Fetch) : (s.continueFetch f).report = s.report := rfl
@[simp] theorem State.continueFetch_draws (s : State) (f : Fetch) : (s.continueFetch f).draws = s.draws := rfl

@[simp] theorem State.grantView_pending (s : State) (e : Fin 64) (v : Fin 2) : (s.grantView e v).pending = s.pending := by
  unfold State.grantView; split
  · split
    · simp only [State.issue]; split <;> rfl
    · rfl
  · rfl
@[simp] theorem State.grantView_phase (s : State) (e : Fin 64) (v : Fin 2) : (s.grantView e v).phase = s.phase := by
  unfold State.grantView; split
  · split
    · simp only [State.issue]; split <;> rfl
    · rfl
  · rfl
@[simp] theorem State.grantView_rstN (s : State) (e : Fin 64) (v : Fin 2) : (s.grantView e v).rstN = s.rstN := by
  unfold State.grantView; split
  · split
    · simp only [State.issue]; split <;> rfl
    · rfl
  · rfl
@[simp] theorem State.grantView_strapCp (s : State) (e : Fin 64) (v : Fin 2) : (s.grantView e v).strapCp = s.strapCp := by
  unfold State.grantView; split
  · split
    · simp only [State.issue]; split <;> rfl
    · rfl
  · rfl
@[simp] theorem State.grantView_strapClk (s : State) (e : Fin 64) (v : Fin 2) : (s.grantView e v).strapClk = s.strapClk := by
  unfold State.grantView; split
  · split
    · simp only [State.issue]; split <;> rfl
    · rfl
  · rfl
@[simp] theorem State.grantView_timeBase (s : State) (e : Fin 64) (v : Fin 2) : (s.grantView e v).timeBase = s.timeBase := by
  unfold State.grantView; split
  · split
    · simp only [State.issue]; split <;> rfl
    · rfl
  · rfl
@[simp] theorem State.grantView_up (s : State) (e : Fin 64) (v : Fin 2) : (s.grantView e v).up = s.up := by
  unfold State.grantView; split
  · split
    · simp only [State.issue]; split <;> rfl
    · rfl
  · rfl
@[simp] theorem State.grantView_windows (s : State) (e : Fin 64) (v : Fin 2) : (s.grantView e v).windows = s.windows := by
  unfold State.grantView; split
  · split
    · simp only [State.issue]; split <;> rfl
    · rfl
  · rfl
@[simp] theorem State.grantView_passQueue (s : State) (e : Fin 64) (v : Fin 2) : (s.grantView e v).passQueue = s.passQueue := by
  unfold State.grantView; split
  · split
    · simp only [State.issue]; split <;> rfl
    · rfl
  · rfl
@[simp] theorem State.grantView_arb (s : State) (e : Fin 64) (v : Fin 2) : (s.grantView e v).arb = s.arb := by
  unfold State.grantView; split
  · split
    · simp only [State.issue]; split <;> rfl
    · rfl
  · rfl
@[simp] theorem State.grantView_cmd (s : State) (e : Fin 64) (v : Fin 2) : (s.grantView e v).cmd = s.cmd := by
  unfold State.grantView; split
  · split
    · simp only [State.issue]; split <;> rfl
    · rfl
  · rfl
@[simp] theorem State.grantView_sources (s : State) (e : Fin 64) (v : Fin 2) : (s.grantView e v).sources = s.sources := by
  unfold State.grantView; split
  · split
    · simp only [State.issue]; split <;> rfl
    · rfl
  · rfl
@[simp] theorem State.grantView_cal (s : State) (e : Fin 64) (v : Fin 2) : (s.grantView e v).cal = s.cal := by
  unfold State.grantView; split
  · split
    · simp only [State.issue]; split <;> rfl
    · rfl
  · rfl
@[simp] theorem State.grantView_zoom (s : State) (e : Fin 64) (v : Fin 2) : (s.grantView e v).zoom = s.zoom := by
  unfold State.grantView; split
  · split
    · simp only [State.issue]; split <;> rfl
    · rfl
  · rfl
@[simp] theorem State.grantView_handoff (s : State) (e : Fin 64) (v : Fin 2) : (s.grantView e v).handoff = s.handoff := by
  unfold State.grantView; split
  · split
    · simp only [State.issue]; split <;> rfl
    · rfl
  · rfl
@[simp] theorem State.grantView_report (s : State) (e : Fin 64) (v : Fin 2) : (s.grantView e v).report = s.report := by
  unfold State.grantView; split
  · split
    · simp only [State.issue]; split <;> rfl
    · rfl
  · rfl
@[simp] theorem State.grantView_draws (s : State) (e : Fin 64) (v : Fin 2) : (s.grantView e v).draws = s.draws := by
  unfold State.grantView; split
  · split
    · simp only [State.issue]; split <;> rfl
    · rfl
  · rfl

@[simp] theorem State.grantReport_pending (s : State) (e : Fin 64) : (s.grantReport e).pending = s.pending := by unfold State.grantReport; split <;> rfl
@[simp] theorem State.grantReport_phase (s : State) (e : Fin 64) : (s.grantReport e).phase = s.phase := by unfold State.grantReport; split <;> rfl
@[simp] theorem State.grantReport_rstN (s : State) (e : Fin 64) : (s.grantReport e).rstN = s.rstN := by unfold State.grantReport; split <;> rfl
@[simp] theorem State.grantReport_strapCp (s : State) (e : Fin 64) : (s.grantReport e).strapCp = s.strapCp := by unfold State.grantReport; split <;> rfl
@[simp] theorem State.grantReport_strapClk (s : State) (e : Fin 64) : (s.grantReport e).strapClk = s.strapClk := by unfold State.grantReport; split <;> rfl
@[simp] theorem State.grantReport_timeBase (s : State) (e : Fin 64) : (s.grantReport e).timeBase = s.timeBase := by unfold State.grantReport; split <;> rfl
@[simp] theorem State.grantReport_up (s : State) (e : Fin 64) : (s.grantReport e).up = s.up := by unfold State.grantReport; split <;> rfl
@[simp] theorem State.grantReport_windows (s : State) (e : Fin 64) : (s.grantReport e).windows = s.windows := by unfold State.grantReport; split <;> rfl
@[simp] theorem State.grantReport_passQueue (s : State) (e : Fin 64) : (s.grantReport e).passQueue = s.passQueue := by unfold State.grantReport; split <;> rfl
@[simp] theorem State.grantReport_arb (s : State) (e : Fin 64) : (s.grantReport e).arb = s.arb := by unfold State.grantReport; split <;> rfl
@[simp] theorem State.grantReport_cmd (s : State) (e : Fin 64) : (s.grantReport e).cmd = s.cmd := by unfold State.grantReport; split <;> rfl
@[simp] theorem State.grantReport_sources (s : State) (e : Fin 64) : (s.grantReport e).sources = s.sources := by unfold State.grantReport; split <;> rfl
@[simp] theorem State.grantReport_cal (s : State) (e : Fin 64) : (s.grantReport e).cal = s.cal := by unfold State.grantReport; split <;> rfl
@[simp] theorem State.grantReport_zoom (s : State) (e : Fin 64) : (s.grantReport e).zoom = s.zoom := by unfold State.grantReport; split <;> rfl
@[simp] theorem State.grantReport_handoff (s : State) (e : Fin 64) : (s.grantReport e).handoff = s.handoff := by unfold State.grantReport; split <;> rfl
@[simp] theorem State.grantReport_views (s : State) (e : Fin 64) : (s.grantReport e).views = s.views := by unfold State.grantReport; split <;> rfl
@[simp] theorem State.grantReport_inflight (s : State) (e : Fin 64) : (s.grantReport e).inflight = s.inflight := by unfold State.grantReport; split <;> rfl
@[simp] theorem State.grantReport_draws (s : State) (e : Fin 64) : (s.grantReport e).draws = s.draws := by unfold State.grantReport; split <;> rfl

@[simp] theorem State.grantCal_pending (s : State) (e : Fin 64) : (s.grantCal e).pending = s.pending := by unfold State.grantCal; split <;> rfl
@[simp] theorem State.grantCal_phase (s : State) (e : Fin 64) : (s.grantCal e).phase = s.phase := by unfold State.grantCal; split <;> rfl
@[simp] theorem State.grantCal_rstN (s : State) (e : Fin 64) : (s.grantCal e).rstN = s.rstN := by unfold State.grantCal; split <;> rfl
@[simp] theorem State.grantCal_strapCp (s : State) (e : Fin 64) : (s.grantCal e).strapCp = s.strapCp := by unfold State.grantCal; split <;> rfl
@[simp] theorem State.grantCal_strapClk (s : State) (e : Fin 64) : (s.grantCal e).strapClk = s.strapClk := by unfold State.grantCal; split <;> rfl
@[simp] theorem State.grantCal_timeBase (s : State) (e : Fin 64) : (s.grantCal e).timeBase = s.timeBase := by unfold State.grantCal; split <;> rfl
@[simp] theorem State.grantCal_up (s : State) (e : Fin 64) : (s.grantCal e).up = s.up := by unfold State.grantCal; split <;> rfl
@[simp] theorem State.grantCal_windows (s : State) (e : Fin 64) : (s.grantCal e).windows = s.windows := by unfold State.grantCal; split <;> rfl
@[simp] theorem State.grantCal_passQueue (s : State) (e : Fin 64) : (s.grantCal e).passQueue = s.passQueue := by unfold State.grantCal; split <;> rfl
@[simp] theorem State.grantCal_arb (s : State) (e : Fin 64) : (s.grantCal e).arb = s.arb := by unfold State.grantCal; split <;> rfl
@[simp] theorem State.grantCal_cmd (s : State) (e : Fin 64) : (s.grantCal e).cmd = s.cmd := by unfold State.grantCal; split <;> rfl
@[simp] theorem State.grantCal_sources (s : State) (e : Fin 64) : (s.grantCal e).sources = s.sources := by unfold State.grantCal; split <;> rfl
@[simp] theorem State.grantCal_zoom (s : State) (e : Fin 64) : (s.grantCal e).zoom = s.zoom := by unfold State.grantCal; split <;> rfl
@[simp] theorem State.grantCal_handoff (s : State) (e : Fin 64) : (s.grantCal e).handoff = s.handoff := by unfold State.grantCal; split <;> rfl
@[simp] theorem State.grantCal_views (s : State) (e : Fin 64) : (s.grantCal e).views = s.views := by unfold State.grantCal; split <;> rfl
@[simp] theorem State.grantCal_inflight (s : State) (e : Fin 64) : (s.grantCal e).inflight = s.inflight := by unfold State.grantCal; split <;> rfl
@[simp] theorem State.grantCal_report (s : State) (e : Fin 64) : (s.grantCal e).report = s.report := by unfold State.grantCal; split <;> rfl
@[simp] theorem State.grantCal_draws (s : State) (e : Fin 64) : (s.grantCal e).draws = s.draws := by unfold State.grantCal; split <;> rfl

@[simp] theorem State.loadResponse_pending (s : State) (sp : Span) (m : MemResp) : (s.loadResponse sp m).pending = s.pending := by
  unfold State.loadResponse; split
  · rfl
  · dsimp only; split <;> simp
@[simp] theorem State.loadResponse_phase (s : State) (sp : Span) (m : MemResp) : (s.loadResponse sp m).phase = s.phase := by
  unfold State.loadResponse; split
  · rfl
  · dsimp only; split <;> simp
@[simp] theorem State.loadResponse_rstN (s : State) (sp : Span) (m : MemResp) : (s.loadResponse sp m).rstN = s.rstN := by
  unfold State.loadResponse; split
  · rfl
  · dsimp only; split <;> simp
@[simp] theorem State.loadResponse_strapCp (s : State) (sp : Span) (m : MemResp) : (s.loadResponse sp m).strapCp = s.strapCp := by
  unfold State.loadResponse; split
  · rfl
  · dsimp only; split <;> simp
@[simp] theorem State.loadResponse_strapClk (s : State) (sp : Span) (m : MemResp) : (s.loadResponse sp m).strapClk = s.strapClk := by
  unfold State.loadResponse; split
  · rfl
  · dsimp only; split <;> simp
@[simp] theorem State.loadResponse_timeBase (s : State) (sp : Span) (m : MemResp) : (s.loadResponse sp m).timeBase = s.timeBase := by
  unfold State.loadResponse; split
  · rfl
  · dsimp only; split <;> simp
@[simp] theorem State.loadResponse_up (s : State) (sp : Span) (m : MemResp) : (s.loadResponse sp m).up = s.up := by
  unfold State.loadResponse; split
  · rfl
  · dsimp only; split <;> simp
@[simp] theorem State.loadResponse_windows (s : State) (sp : Span) (m : MemResp) : (s.loadResponse sp m).windows = s.windows := by
  unfold State.loadResponse; split
  · rfl
  · dsimp only; split <;> simp
@[simp] theorem State.loadResponse_passQueue (s : State) (sp : Span) (m : MemResp) : (s.loadResponse sp m).passQueue = s.passQueue := by
  unfold State.loadResponse; split
  · rfl
  · dsimp only; split <;> simp
@[simp] theorem State.loadResponse_outstanding (s : State) (sp : Span) (m : MemResp) : (s.loadResponse sp m).outstanding = s.outstanding := by
  unfold State.loadResponse; split
  · rfl
  · dsimp only; split <;> simp
@[simp] theorem State.loadResponse_memRequests (s : State) (sp : Span) (m : MemResp) : (s.loadResponse sp m).memRequests = s.memRequests := by
  unfold State.loadResponse; split
  · rfl
  · dsimp only; split <;> simp
@[simp] theorem State.loadResponse_arb (s : State) (sp : Span) (m : MemResp) : (s.loadResponse sp m).arb = s.arb := by
  unfold State.loadResponse; split
  · rfl
  · dsimp only; split <;> simp
@[simp] theorem State.loadResponse_cmd (s : State) (sp : Span) (m : MemResp) : (s.loadResponse sp m).cmd = s.cmd := by
  unfold State.loadResponse; split
  · rfl
  · dsimp only; split <;> simp
@[simp] theorem State.loadResponse_sources (s : State) (sp : Span) (m : MemResp) : (s.loadResponse sp m).sources = s.sources := by
  unfold State.loadResponse; split
  · rfl
  · dsimp only; split <;> simp
@[simp] theorem State.loadResponse_zoom (s : State) (sp : Span) (m : MemResp) : (s.loadResponse sp m).zoom = s.zoom := by
  unfold State.loadResponse; split
  · rfl
  · dsimp only; split <;> simp
@[simp] theorem State.loadResponse_handoff (s : State) (sp : Span) (m : MemResp) : (s.loadResponse sp m).handoff = s.handoff := by
  unfold State.loadResponse; split
  · rfl
  · dsimp only; split <;> simp
@[simp] theorem State.loadResponse_views (s : State) (sp : Span) (m : MemResp) : (s.loadResponse sp m).views = s.views := by
  unfold State.loadResponse; split
  · rfl
  · dsimp only; split <;> simp
@[simp] theorem State.loadResponse_inflight (s : State) (sp : Span) (m : MemResp) : (s.loadResponse sp m).inflight = s.inflight := by
  unfold State.loadResponse; split
  · rfl
  · dsimp only; split <;> simp
@[simp] theorem State.loadResponse_draws (s : State) (sp : Span) (m : MemResp) : (s.loadResponse sp m).draws = s.draws := by
  unfold State.loadResponse; split
  · rfl
  · dsimp only; split <;> simp

@[simp] theorem State.hand_pending (s : State) (o : Owner) (m : MemResp) : (s.hand o m).pending = s.pending := by unfold State.hand; split <;> simp
@[simp] theorem State.hand_phase (s : State) (o : Owner) (m : MemResp) : (s.hand o m).phase = s.phase := by unfold State.hand; split <;> simp
@[simp] theorem State.hand_rstN (s : State) (o : Owner) (m : MemResp) : (s.hand o m).rstN = s.rstN := by unfold State.hand; split <;> simp
@[simp] theorem State.hand_strapCp (s : State) (o : Owner) (m : MemResp) : (s.hand o m).strapCp = s.strapCp := by unfold State.hand; split <;> simp
@[simp] theorem State.hand_strapClk (s : State) (o : Owner) (m : MemResp) : (s.hand o m).strapClk = s.strapClk := by unfold State.hand; split <;> simp
@[simp] theorem State.hand_timeBase (s : State) (o : Owner) (m : MemResp) : (s.hand o m).timeBase = s.timeBase := by unfold State.hand; split <;> simp
@[simp] theorem State.hand_windows (s : State) (o : Owner) (m : MemResp) : (s.hand o m).windows = s.windows := by unfold State.hand; split <;> simp
@[simp] theorem State.hand_passQueue (s : State) (o : Owner) (m : MemResp) : (s.hand o m).passQueue = s.passQueue := by unfold State.hand; split <;> simp
@[simp] theorem State.hand_outstanding (s : State) (o : Owner) (m : MemResp) : (s.hand o m).outstanding = s.outstanding := by unfold State.hand; split <;> simp
@[simp] theorem State.hand_memRequests (s : State) (o : Owner) (m : MemResp) : (s.hand o m).memRequests = s.memRequests := by unfold State.hand; split <;> simp
@[simp] theorem State.hand_cmd (s : State) (o : Owner) (m : MemResp) : (s.hand o m).cmd = s.cmd := by unfold State.hand; split <;> simp
@[simp] theorem State.hand_sources (s : State) (o : Owner) (m : MemResp) : (s.hand o m).sources = s.sources := by unfold State.hand; split <;> simp
@[simp] theorem State.hand_zoom (s : State) (o : Owner) (m : MemResp) : (s.hand o m).zoom = s.zoom := by unfold State.hand; split <;> simp
@[simp] theorem State.hand_handoff (s : State) (o : Owner) (m : MemResp) : (s.hand o m).handoff = s.handoff := by unfold State.hand; split <;> simp

/-! ### The take of a command -/

@[simp] theorem State.markTaken_pending (s : State) : (s.markTaken).pending = s.pending := rfl
@[simp] theorem State.markTaken_phase (s : State) : (s.markTaken).phase = s.phase := rfl
@[simp] theorem State.markTaken_rstN (s : State) : (s.markTaken).rstN = s.rstN := rfl
@[simp] theorem State.markTaken_strapCp (s : State) : (s.markTaken).strapCp = s.strapCp := rfl
@[simp] theorem State.markTaken_strapClk (s : State) : (s.markTaken).strapClk = s.strapClk := rfl
@[simp] theorem State.markTaken_timeBase (s : State) : (s.markTaken).timeBase = s.timeBase := rfl
@[simp] theorem State.markTaken_up (s : State) : (s.markTaken).up = s.up := rfl
@[simp] theorem State.markTaken_windows (s : State) : (s.markTaken).windows = s.windows := rfl
@[simp] theorem State.markTaken_passQueue (s : State) : (s.markTaken).passQueue = s.passQueue := rfl
@[simp] theorem State.markTaken_outstanding (s : State) : (s.markTaken).outstanding = s.outstanding := rfl
@[simp] theorem State.markTaken_memRequests (s : State) : (s.markTaken).memRequests = s.memRequests := rfl
@[simp] theorem State.markTaken_arb (s : State) : (s.markTaken).arb = s.arb := rfl
@[simp] theorem State.markTaken_sources (s : State) : (s.markTaken).sources = s.sources := rfl
@[simp] theorem State.markTaken_cal (s : State) : (s.markTaken).cal = s.cal := rfl
@[simp] theorem State.markTaken_zoom (s : State) : (s.markTaken).zoom = s.zoom := rfl
@[simp] theorem State.markTaken_handoff (s : State) : (s.markTaken).handoff = s.handoff := rfl
@[simp] theorem State.markTaken_views (s : State) : (s.markTaken).views = s.views := rfl
@[simp] theorem State.markTaken_inflight (s : State) : (s.markTaken).inflight = s.inflight := rfl
@[simp] theorem State.markTaken_report (s : State) : (s.markTaken).report = s.report := rfl
@[simp] theorem State.markTaken_draws (s : State) : (s.markTaken).draws = s.draws := rfl

@[simp] theorem State.completeTake_pending (s : State) (sl : Slot) (r : CmdResult) : (s.completeTake sl r).pending = s.pending := by unfold State.completeTake; dsimp only; split <;> simp
@[simp] theorem State.completeTake_phase (s : State) (sl : Slot) (r : CmdResult) : (s.completeTake sl r).phase = s.phase := by unfold State.completeTake; dsimp only; split <;> simp
@[simp] theorem State.completeTake_rstN (s : State) (sl : Slot) (r : CmdResult) : (s.completeTake sl r).rstN = s.rstN := by unfold State.completeTake; dsimp only; split <;> simp
@[simp] theorem State.completeTake_strapCp (s : State) (sl : Slot) (r : CmdResult) : (s.completeTake sl r).strapCp = s.strapCp := by unfold State.completeTake; dsimp only; split <;> simp
@[simp] theorem State.completeTake_strapClk (s : State) (sl : Slot) (r : CmdResult) : (s.completeTake sl r).strapClk = s.strapClk := by unfold State.completeTake; dsimp only; split <;> simp
@[simp] theorem State.completeTake_timeBase (s : State) (sl : Slot) (r : CmdResult) : (s.completeTake sl r).timeBase = s.timeBase := by unfold State.completeTake; dsimp only; split <;> simp
@[simp] theorem State.completeTake_up (s : State) (sl : Slot) (r : CmdResult) : (s.completeTake sl r).up = s.up := by unfold State.completeTake; dsimp only; split <;> simp
@[simp] theorem State.completeTake_windows (s : State) (sl : Slot) (r : CmdResult) : (s.completeTake sl r).windows = s.windows := by unfold State.completeTake; dsimp only; split <;> simp
@[simp] theorem State.completeTake_passQueue (s : State) (sl : Slot) (r : CmdResult) : (s.completeTake sl r).passQueue = s.passQueue := by unfold State.completeTake; dsimp only; split <;> simp
@[simp] theorem State.completeTake_outstanding (s : State) (sl : Slot) (r : CmdResult) : (s.completeTake sl r).outstanding = s.outstanding := by unfold State.completeTake; dsimp only; split <;> simp
@[simp] theorem State.completeTake_memRequests (s : State) (sl : Slot) (r : CmdResult) : (s.completeTake sl r).memRequests = s.memRequests := by unfold State.completeTake; dsimp only; split <;> simp
@[simp] theorem State.completeTake_arb (s : State) (sl : Slot) (r : CmdResult) : (s.completeTake sl r).arb = s.arb := by unfold State.completeTake; dsimp only; split <;> simp
@[simp] theorem State.completeTake_sources (s : State) (sl : Slot) (r : CmdResult) : (s.completeTake sl r).sources = s.sources := by unfold State.completeTake; dsimp only; split <;> simp
@[simp] theorem State.completeTake_cal (s : State) (sl : Slot) (r : CmdResult) : (s.completeTake sl r).cal = s.cal := by unfold State.completeTake; dsimp only; split <;> simp
@[simp] theorem State.completeTake_zoom (s : State) (sl : Slot) (r : CmdResult) : (s.completeTake sl r).zoom = s.zoom := by unfold State.completeTake; dsimp only; split <;> simp
@[simp] theorem State.completeTake_handoff (s : State) (sl : Slot) (r : CmdResult) : (s.completeTake sl r).handoff = s.handoff := by unfold State.completeTake; dsimp only; split <;> simp
@[simp] theorem State.completeTake_views (s : State) (sl : Slot) (r : CmdResult) : (s.completeTake sl r).views = s.views := by unfold State.completeTake; dsimp only; split <;> simp
@[simp] theorem State.completeTake_inflight (s : State) (sl : Slot) (r : CmdResult) : (s.completeTake sl r).inflight = s.inflight := by unfold State.completeTake; dsimp only; split <;> simp
@[simp] theorem State.completeTake_draws (s : State) (sl : Slot) (r : CmdResult) : (s.completeTake sl r).draws = s.draws := by unfold State.completeTake; dsimp only; split <;> simp

/-! ### Resets -/

@[simp] theorem State.blocksReset_pending (s : State) (c : ResetCause) : (s.blocksReset c).pending = s.pending := rfl
@[simp] theorem State.blocksReset_phase (s : State) (c : ResetCause) : (s.blocksReset c).phase = s.phase := rfl
@[simp] theorem State.blocksReset_rstN (s : State) (c : ResetCause) : (s.blocksReset c).rstN = s.rstN := rfl
@[simp] theorem State.blocksReset_strapCp (s : State) (c : ResetCause) : (s.blocksReset c).strapCp = s.strapCp := rfl
@[simp] theorem State.blocksReset_strapClk (s : State) (c : ResetCause) : (s.blocksReset c).strapClk = s.strapClk := rfl
@[simp] theorem State.blocksReset_up (s : State) (c : ResetCause) : (s.blocksReset c).up = s.up := rfl
@[simp] theorem State.blocksReset_passQueue (s : State) (c : ResetCause) : (s.blocksReset c).passQueue = s.passQueue := rfl
@[simp] theorem State.blocksReset_outstanding (s : State) (c : ResetCause) : (s.blocksReset c).outstanding = s.outstanding := rfl
@[simp] theorem State.blocksReset_memRequests (s : State) (c : ResetCause) : (s.blocksReset c).memRequests = s.memRequests := rfl
@[simp] theorem State.blocksReset_draws (s : State) (c : ResetCause) : (s.blocksReset c).draws = s.draws := rfl

@[simp] theorem State.sampleStraps_pending (s : State) (cp : BitVec 4) (clk : BitVec 2) : (s.sampleStraps cp clk).pending = s.pending := rfl
@[simp] theorem State.sampleStraps_phase (s : State) (cp : BitVec 4) (clk : BitVec 2) : (s.sampleStraps cp clk).phase = s.phase := rfl
@[simp] theorem State.sampleStraps_rstN (s : State) (cp : BitVec 4) (clk : BitVec 2) : (s.sampleStraps cp clk).rstN = s.rstN := rfl
@[simp] theorem State.sampleStraps_timeBase (s : State) (cp : BitVec 4) (clk : BitVec 2) : (s.sampleStraps cp clk).timeBase = s.timeBase := rfl
@[simp] theorem State.sampleStraps_up (s : State) (cp : BitVec 4) (clk : BitVec 2) : (s.sampleStraps cp clk).up = s.up := rfl
@[simp] theorem State.sampleStraps_passQueue (s : State) (cp : BitVec 4) (clk : BitVec 2) : (s.sampleStraps cp clk).passQueue = s.passQueue := rfl
@[simp] theorem State.sampleStraps_outstanding (s : State) (cp : BitVec 4) (clk : BitVec 2) : (s.sampleStraps cp clk).outstanding = s.outstanding := rfl
@[simp] theorem State.sampleStraps_memRequests (s : State) (cp : BitVec 4) (clk : BitVec 2) : (s.sampleStraps cp clk).memRequests = s.memRequests := rfl
@[simp] theorem State.sampleStraps_arb (s : State) (cp : BitVec 4) (clk : BitVec 2) : (s.sampleStraps cp clk).arb = s.arb := rfl
@[simp] theorem State.sampleStraps_cmd (s : State) (cp : BitVec 4) (clk : BitVec 2) : (s.sampleStraps cp clk).cmd = s.cmd := rfl
@[simp] theorem State.sampleStraps_sources (s : State) (cp : BitVec 4) (clk : BitVec 2) : (s.sampleStraps cp clk).sources = s.sources := rfl
@[simp] theorem State.sampleStraps_cal (s : State) (cp : BitVec 4) (clk : BitVec 2) : (s.sampleStraps cp clk).cal = s.cal := rfl
@[simp] theorem State.sampleStraps_zoom (s : State) (cp : BitVec 4) (clk : BitVec 2) : (s.sampleStraps cp clk).zoom = s.zoom := rfl
@[simp] theorem State.sampleStraps_handoff (s : State) (cp : BitVec 4) (clk : BitVec 2) : (s.sampleStraps cp clk).handoff = s.handoff := rfl
@[simp] theorem State.sampleStraps_views (s : State) (cp : BitVec 4) (clk : BitVec 2) : (s.sampleStraps cp clk).views = s.views := rfl
@[simp] theorem State.sampleStraps_inflight (s : State) (cp : BitVec 4) (clk : BitVec 2) : (s.sampleStraps cp clk).inflight = s.inflight := rfl
@[simp] theorem State.sampleStraps_report (s : State) (cp : BitVec 4) (clk : BitVec 2) : (s.sampleStraps cp clk).report = s.report := rfl
@[simp] theorem State.sampleStraps_draws (s : State) (cp : BitVec 4) (clk : BitVec 2) : (s.sampleStraps cp clk).draws = s.draws := rfl

@[simp] theorem State.beginInit_pending (s : State) : (s.beginInit).pending = s.pending := rfl
@[simp] theorem State.beginInit_rstN (s : State) : (s.beginInit).rstN = s.rstN := rfl
@[simp] theorem State.beginInit_strapCp (s : State) : (s.beginInit).strapCp = s.strapCp := rfl
@[simp] theorem State.beginInit_strapClk (s : State) : (s.beginInit).strapClk = s.strapClk := rfl
@[simp] theorem State.beginInit_up (s : State) : (s.beginInit).up = s.up := rfl
@[simp] theorem State.beginInit_windows (s : State) : (s.beginInit).windows = s.windows := rfl
@[simp] theorem State.beginInit_passQueue (s : State) : (s.beginInit).passQueue = s.passQueue := rfl
@[simp] theorem State.beginInit_outstanding (s : State) : (s.beginInit).outstanding = s.outstanding := rfl
@[simp] theorem State.beginInit_memRequests (s : State) : (s.beginInit).memRequests = s.memRequests := rfl
@[simp] theorem State.beginInit_arb (s : State) : (s.beginInit).arb = s.arb := rfl
@[simp] theorem State.beginInit_cmd (s : State) : (s.beginInit).cmd = s.cmd := rfl
@[simp] theorem State.beginInit_sources (s : State) : (s.beginInit).sources = s.sources := rfl
@[simp] theorem State.beginInit_cal (s : State) : (s.beginInit).cal = s.cal := rfl
@[simp] theorem State.beginInit_zoom (s : State) : (s.beginInit).zoom = s.zoom := rfl
@[simp] theorem State.beginInit_handoff (s : State) : (s.beginInit).handoff = s.handoff := rfl
@[simp] theorem State.beginInit_views (s : State) : (s.beginInit).views = s.views := rfl
@[simp] theorem State.beginInit_inflight (s : State) : (s.beginInit).inflight = s.inflight := rfl
@[simp] theorem State.beginInit_report (s : State) : (s.beginInit).report = s.report := rfl
@[simp] theorem State.beginInit_draws (s : State) : (s.beginInit).draws = s.draws := rfl

/-! ### What each plain operation writes -/

@[simp] theorem State.forward_passQueue (s : State) (q : Request) :
    (s.forward q).passQueue = s.passQueue ++ [q] := rfl
@[simp] theorem State.answer_responses (s : State) (a : UpResponse) :
    (s.answer a).up.responses = s.up.responses ++ [a] := rfl
@[simp] theorem State.answer_reads (s : State) (a : UpResponse) : (s.answer a).up.reads = s.up.reads := rfl
@[simp] theorem State.answer_writes (s : State) (a : UpResponse) :
    (s.answer a).up.writes = s.up.writes := rfl
@[simp] theorem State.issue_outstanding (s : State) (e : Fin 64) (o : Owner) (q : Request) :
    (s.issue e o q).outstanding = s.outstanding.set e.val (some ⟨o, false⟩) e.isLt := rfl
@[simp] theorem State.issue_memRequests (s : State) (e : Fin 64) (o : Owner) (q : Request) :
    (s.issue e o q).memRequests = s.memRequests ++ [numbered q e] := rfl
@[simp] theorem State.freeOutstanding_outstanding (s : State) (e : Fin 64) :
    (s.freeOutstanding e).outstanding = s.outstanding.set e.val none e.isLt := rfl
@[simp] theorem State.requestMirror_report (s : State) :
    s.requestMirror.report = s.report.requestMirror := rfl
@[simp] theorem State.sampleStraps_strapCp (s : State) (cp : BitVec 4) (clk : BitVec 2) :
    (s.sampleStraps cp clk).strapCp = cp := rfl
@[simp] theorem State.sampleStraps_strapClk (s : State) (cp : BitVec 4) (clk : BitVec 2) :
    (s.sampleStraps cp clk).strapClk = clk := rfl
@[simp] theorem State.sampleStraps_windows (s : State) (cp : BitVec 4) (clk : BitVec 2) :
    (s.sampleStraps cp clk).windows = [controlWindow cp false] := rfl
@[simp] theorem State.beginInit_phase (s : State) : s.beginInit.phase = .initializing := rfl
@[simp] theorem State.beginInit_timeBase (s : State) : s.beginInit.timeBase = 0 := rfl
@[simp] theorem State.blocksReset_timeBase (s : State) (c : ResetCause) :
    (s.blocksReset c).timeBase = 0 := rfl
@[simp] theorem State.blocksReset_windows (s : State) (c : ResetCause) :
    (s.blocksReset c).windows = [controlWindow s.strapCp false] := rfl
@[simp] theorem State.blocksReset_arb (s : State) (c : ResetCause) :
    (s.blocksReset c).arb = Arbiter.reset := rfl
@[simp] theorem State.blocksReset_cmd (s : State) (c : ResetCause) :
    (s.blocksReset c).cmd = CommandUnit.reset := rfl
@[simp] theorem State.blocksReset_sources (s : State) (c : ResetCause) :
    (s.blocksReset c).sources = Vector.replicate 4 Source.reset := rfl
@[simp] theorem State.blocksReset_cal (s : State) (c : ResetCause) :
    (s.blocksReset c).cal = CalStore.reset := rfl
@[simp] theorem State.blocksReset_zoom (s : State) (c : ResetCause) :
    (s.blocksReset c).zoom = Zoom.reset := rfl
@[simp] theorem State.blocksReset_handoff (s : State) (c : ResetCause) :
    (s.blocksReset c).handoff = Handoff.reset := rfl
@[simp] theorem State.blocksReset_views (s : State) (c : ResetCause) :
    (s.blocksReset c).views = Vector.replicate 2 View.reset := rfl
@[simp] theorem State.blocksReset_inflight (s : State) (c : ResetCause) :
    (s.blocksReset c).inflight = [] := rfl
@[simp] theorem State.blocksReset_report (s : State) (c : ResetCause) :
    (s.blocksReset c).report = Report.reset c := rfl
theorem State.raise_report (s : State) (e : Event) :
    (s.raise e).report = if s.phase = .running then s.report.raise s.timeBase e else s.report := by
  unfold State.raise; split <;> rfl
@[simp] theorem State.raiseAll_nil (s : State) : s.raiseAll [] = s := rfl
@[simp] theorem State.raiseAll_cons (s : State) (e : Event) (es : List Event) :
    s.raiseAll (e :: es) = (s.raise e).raiseAll es := rfl

end Sys2Proof.Machine
end

