-- ==== Sys2Proof/Laws/Views.lean ====
section
/-! SUPPORT. What each operation of a view does to its held-read queue, its plan and its record: who
shortens the queue, who lengthens it, and that only a latch changes the plan (R95, R127). -/

namespace Sys2Proof.Machine

/-! ### Requests, prefetch and the demand pass leave the queue and the plan alone -/

/-- What stays of a view while rows are requested: its record, state, plan, held reads and counts. -/
def View.sameOutside (v w : View) : Prop :=
  w = { v with cache := w.cache, fetchQ := w.fetchQ }

theorem View.sameOutside.refl (v : View) : v.sameOutside v := rfl

theorem View.sameOutside.trans {u v w : View} (h : u.sameOutside v) (k : v.sameOutside w) :
    u.sameOutside w := by
  unfold View.sameOutside at *
  rw [k, h]

theorem requestNormal_sameOutside {e : ViewEnv} {v w : View} {k : RowKey}
    (h : requestNormal e v k = some w) : v.sameOutside w := by
  unfold requestNormal at h
  split at h
  · cases h
  · obtain ⟨n, -, rfl⟩ := Option.map_eq_some_iff.mp h
    rfl

theorem displace_sameOutside {v w : View} (h : displace v = some w) : v.sameOutside w := by
  unfold displace at h
  obtain ⟨n, -, rfl⟩ := Option.map_eq_some_iff.mp h
  rfl

theorem placeUrgent_sameOutside {e : ViewEnv} {v w : View} {k : RowKey}
    (h : placeUrgent e v k = some w) : v.sameOutside w := by
  unfold placeUrgent at h
  split at h
  · cases h
  · obtain ⟨n, -, rfl⟩ := Option.map_eq_some_iff.mp h
    rfl

theorem requestUrgent_sameOutside {e : ViewEnv} {v w : View} {k : RowKey}
    (h : requestUrgent e v k = some w) : v.sameOutside w := by
  unfold requestUrgent at h
  split at h
  · next hp => cases h; exact placeUrgent_sameOutside hp
  · obtain ⟨u, hu, hp⟩ := Option.bind_eq_some_iff.mp h
    exact (displace_sameOutside hu).trans (placeUrgent_sameOutside hp)

theorem prefetchKeys_sameOutside (e : ViewEnv) (ks : List RowKey) (v : View) :
    v.sameOutside (prefetchKeys e ks v) := by
  induction ks generalizing v with
  | nil => exact .refl v
  | cons k ks ih =>
    unfold prefetchKeys
    split
    · exact ih v
    · split
      · next hr => exact (requestNormal_sameOutside hr).trans (ih _)
      · exact .refl v

theorem ViewWork.prefetch_sameOutside (e : ViewEnv) (y : Nat) (w : ViewWork) :
    w.view.sameOutside (w.prefetch e y).view := prefetchKeys_sameOutside _ _ _

theorem ViewWork.demandRow_sameOutside {e : ViewEnv} {w u : ViewWork} {k : RowKey}
    (h : w.demandRow e k = some u) : w.view.sameOutside u.view := by
  unfold ViewWork.demandRow at h
  split at h
  · obtain ⟨v, hv, rfl⟩ := Option.map_eq_some_iff.mp h
    exact requestUrgent_sameOutside hv
  · split at h
    · cases h
      unfold ViewWork.promote
      dsimp only
      split <;> rfl
    · cases h; exact .refl _

theorem ViewWork.demandRows_sameOutside (e : ViewEnv) (ks : List RowKey) (w : ViewWork) :
    w.view.sameOutside (w.demandRows e ks).view := by
  induction ks generalizing w with
  | nil => exact .refl _
  | cons k ks ih =>
    unfold ViewWork.demandRows
    split
    · next hr => exact (ViewWork.demandRow_sameOutside hr).trans (ih _)
    · exact .refl _

theorem ViewWork.demandPass_sameOutside (e : ViewEnv) (w : ViewWork) :
    w.view.sameOutside (w.demandPass e).view := ViewWork.demandRows_sameOutside _ _ _

theorem View.sameOutside.held {v w : View} (h : v.sameOutside w) : w.held = v.held := by rw [h]
theorem View.sameOutside.plan {v w : View} (h : v.sameOutside w) : w.plan = v.plan := by rw [h]
theorem View.sameOutside.state {v w : View} (h : v.sameOutside w) : w.state = v.state := by rw [h]
theorem View.sameOutside.record {v w : View} (h : v.sameOutside w) : w.record = v.record := by rw [h]

/-! ### The queue, the plan and the record through a view's step -/

/-- A view's step keeps the plan, the record and whether the view is enabled, and leaves a queue of held
reads no longer than it was. -/
structure ViewWork.Quiet (w u : ViewWork) : Prop where
  plan : u.view.plan = w.view.plan
  record : u.view.record = w.view.record
  enabled : u.view.enabled = w.view.enabled
  held : u.view.held.length ≤ w.view.held.length

theorem ViewWork.Quiet.refl (w : ViewWork) : w.Quiet w := ⟨rfl, rfl, rfl, le_refl _⟩

theorem ViewWork.Quiet.trans {w u x : ViewWork} (h : w.Quiet u) (k : u.Quiet x) : w.Quiet x :=
  ⟨k.plan.trans h.plan, k.record.trans h.record, k.enabled.trans h.enabled, k.held.trans h.held⟩

theorem View.sameOutside.quiet {w u : ViewWork} (h : w.view.sameOutside u.view) : w.Quiet u :=
  ⟨h.plan, h.record, by unfold View.enabled; rw [h.state], by rw [h.held]⟩

theorem ViewWork.prefetch_quiet (e : ViewEnv) (y : Nat) (w : ViewWork) : w.Quiet (w.prefetch e y) :=
  (w.prefetch_sameOutside e y).quiet

theorem ViewWork.demandPass_quiet (e : ViewEnv) (w : ViewWork) : w.Quiet (w.demandPass e) :=
  (w.demandPass_sameOutside e).quiet

theorem ViewWork.emit_quiet (w : ViewWork) (ev : Event) : w.Quiet (w.emit ev) :=
  ⟨rfl, rfl, rfl, le_refl _⟩

theorem ViewWork.respond_quiet (w : ViewWork) (a : UpResponse) : w.Quiet (w.respond a) :=
  ⟨rfl, rfl, rfl, by simp [ViewWork.respond]⟩

theorem ViewWork.clear_quiet (i : Fin 2) (w : ViewWork) : w.Quiet (w.clear i) := by
  constructor <;> simp [ViewWork.clear, View.enabled]

theorem View.openFrameOf_state {v : View} {h : HeldRead} {f : FrameRecord}
    (hf : v.openFrameOf h = some f) : v.state = .opened f := by
  unfold View.openFrameOf at hf
  split at hf
  · next g hg =>
    split at hf
    · cases hf; exact hg
    · cases hf
  all_goals cases hf

theorem ViewWork.latencyTest_quiet (e : ViewEnv) (p : Plan) (h : HeldRead) (y : Nat) (w : ViewWork) :
    w.Quiet (w.latencyTest e p h y) := by
  unfold ViewWork.latencyTest
  split
  · exact .refl w
  · next f hf =>
    have hs := View.openFrameOf_state hf
    dsimp only
    split
    · split
      all_goals exact ⟨rfl, rfl, by simp [View.enabled, ViewWork.emit, hs], le_refl _⟩
    · exact .refl w

theorem ViewWork.fetchError_quiet (e : ViewEnv) (h : HeldRead) (w : ViewWork) :
    w.Quiet (w.fetchError e h) := by
  unfold ViewWork.fetchError
  split
  · exact .refl w
  · dsimp only
    split <;> exact ⟨rfl, rfl, rfl, le_refl _⟩

theorem ViewWork.serve_quiet (e : ViewEnv) (p : Plan) (h : HeldRead) (w : ViewWork) :
    w.Quiet (w.serve e p h) := by
  unfold ViewWork.serve
  dsimp only
  refine ViewWork.Quiet.trans ?_
    ((ViewWork.prefetch_quiet _ _ _).trans (ViewWork.latencyTest_quiet _ _ _ _ _))
  exact ⟨rfl, rfl, rfl, by simp [ViewWork.respond]⟩

theorem ViewWork.answerHead_quiet (e : ViewEnv) (h : HeldRead) (kind : AnswerKind) (w : ViewWork) :
    w.Quiet (w.answerHead e h kind) := by
  unfold ViewWork.answerHead
  dsimp only
  refine ViewWork.Quiet.trans ?_ (ViewWork.demandPass_quiet _ _)
  split
  · exact ViewWork.serve_quiet _ _ _ _
  · exact (ViewWork.fetchError_quiet _ _ _).trans (ViewWork.respond_quiet _ _)
  · exact ViewWork.respond_quiet _ _

theorem ViewWork.answerReads_quiet (e : ViewEnv) (n : Nat) (w : ViewWork) :
    w.Quiet (w.answerReads e n) := by
  induction n generalizing w with
  | zero => exact .refl w
  | succ n ih =>
    unfold ViewWork.answerReads
    split
    · exact .refl w
    · split
      · exact (ViewWork.answerHead_quiet _ _ _ _).trans (ih _)
      · exact .refl w

theorem ViewWork.answerAll_quiet (e : ViewEnv) (w : ViewWork) : w.Quiet (w.answerAll e) :=
  ViewWork.answerReads_quiet _ _ _

theorem ViewWork.countInFrame_quiet (e : ViewEnv) (f : FrameRecord) (w : ViewWork)
    (hs : w.view.state = .opened f) : w.Quiet (w.countInFrame e f) := by
  unfold ViewWork.countInFrame
  dsimp only
  split <;> exact ⟨rfl, rfl, by simp [View.enabled, ViewWork.emit, hs], le_refl _⟩

theorem ViewWork.underrun_quiet (e : ViewEnv) (h : HeldRead) (w : ViewWork) :
    w.Quiet (w.underrun e h) := by
  have h1 : w.Quiet (w.countOwn e h) := by
    unfold ViewWork.countOwn
    split
    · next f hf => exact ViewWork.countInFrame_quiet _ _ _ (View.openFrameOf_state hf)
    · exact .refl w
  have h2 : ∀ u : ViewWork, u.Quiet (u.raiseUnderrun e h) := by
    intro u
    unfold ViewWork.raiseUnderrun
    split
    · exact .refl u
    · dsimp only
      split <;> exact ⟨rfl, rfl, rfl, le_refl _⟩
  have h3 : ∀ u : ViewWork, u.Quiet u.countTotal := fun u => ⟨rfl, rfl, rfl, le_refl _⟩
  exact h1.trans ((h3 _).trans (h2 _))

theorem ViewWork.closeFrame_quiet (e : ViewEnv) (f : FrameRecord) (w : ViewWork)
    (hs : w.view.state = .opened f) : w.Quiet (w.closeFrame e f) := by
  have hv : ∀ b, (w.view.examineWarned b).plan = w.view.plan ∧
      (w.view.examineWarned b).record = w.view.record ∧
      (w.view.examineWarned b).held = w.view.held ∧
      (w.view.examineWarned b).degrade = w.view.degrade := by
    intro b
    unfold View.examineWarned
    split <;> simp
  obtain ⟨h1, h2, h3, -⟩ := hv f.warned
  unfold ViewWork.closeFrame
  dsimp only
  split
  · exact ⟨h1, h2, by simp [View.enabled, hs], by simp [h3]⟩
  · split
    · exact ⟨h1, h2, by simp [View.enabled, hs], by simp [h3]⟩
    · split <;>
        exact ⟨h1, h2, by simp [View.enabled, ViewWork.emit, hs], by simp [ViewWork.emit, h3]⟩

theorem ViewWork.flushRead_quiet (e : ViewEnv) (w : ViewWork) (h : HeldRead) :
    w.Quiet (w.flushRead e h) :=
  (ViewWork.respond_quiet _ _).trans (ViewWork.underrun_quiet _ _ _)

theorem ViewWork.flushReads_quiet (e : ViewEnv) (hs : List HeldRead) (w : ViewWork) :
    w.Quiet (hs.foldl (ViewWork.flushRead e) w) := by
  induction hs generalizing w with
  | nil => exact .refl w
  | cons h hs ih => exact (ViewWork.flushRead_quiet _ _ _).trans (ih _)

theorem ViewWork.cutShort_quiet (e : ViewEnv) (w : ViewWork) : w.Quiet (w.cutShort e) := by
  unfold ViewWork.cutShort
  split
  · next f hf => exact ViewWork.closeFrame_quiet _ _ _ hf
  · exact .refl w
  · exact .refl w

theorem ViewWork.openingStage1_quiet (e : ViewEnv) (w : ViewWork) : w.Quiet (w.openingStage1 e) :=
  ((ViewWork.flushReads_quiet e w.view.held w).trans (ViewWork.cutShort_quiet e _)).trans
    ⟨rfl, rfl, rfl, le_refl _⟩

theorem ViewWork.expireAt_quiet (e : ViewEnv) (n : Nat) (w : ViewWork) : w.Quiet (w.expireAt e n) := by
  unfold ViewWork.expireAt
  split
  · refine ViewWork.Quiet.trans ?_ (ViewWork.underrun_quiet _ _ _)
    exact ⟨rfl, rfl, rfl, by simp⟩
  · exact .refl w

theorem ViewWork.expireHold_quiet (e : ViewEnv) (w : ViewWork) : w.Quiet (w.expireHold e) := by
  unfold ViewWork.expireHold
  split
  · exact (ViewWork.expireAt_quiet _ _ _).trans (ViewWork.answerAll_quiet _ _)
  · exact .refl w

theorem ViewWork.expireIdle_quiet (e : ViewEnv) (w : ViewWork) : w.Quiet (w.expireIdle e) := by
  unfold ViewWork.expireIdle
  split
  · next f hf =>
    split
    · exact ViewWork.closeFrame_quiet _ _ _ hf
    · exact .refl w
  · exact .refl w
  · exact .refl w

theorem ViewWork.closeNormal_quiet (e : ViewEnv) (q : ReadReq) (w : ViewWork) :
    w.Quiet (w.closeNormal e q) := by
  unfold ViewWork.closeNormal
  split
  · next f hf =>
    split
    · exact ViewWork.closeFrame_quiet _ _ _ hf
    · exact .refl w
  · exact .refl w
  · exact .refl w

theorem View.completeEntry_quiet (v : View) (n : Fin 16) (b : Bool) :
    (v.completeEntry n b).plan = v.plan ∧ (v.completeEntry n b).record = v.record ∧
    (v.completeEntry n b).state = v.state ∧ (v.completeEntry n b).held = v.held := by
  unfold View.completeEntry
  dsimp only
  split <;> simp [View.setEntry]

theorem ViewWork.completeFetch_quiet (e : ViewEnv) (n : Fin 16) (b : Bool) (w : ViewWork) :
    w.Quiet (w.completeFetch e n b) := by
  unfold ViewWork.completeFetch
  refine ViewWork.Quiet.trans ?_
    ((ViewWork.demandPass_quiet _ _).trans (ViewWork.answerAll_quiet _ _))
  obtain ⟨h1, h2, h3, h4⟩ := w.view.completeEntry_quiet n b
  exact ⟨h1, h2, by unfold View.enabled; simp only; rw [h3], by simp [h4]⟩

theorem ViewWork.fetchResponse_quiet (e : ViewEnv) (n : Fin 16) (sp : Span) (m : MemResp)
    (w : ViewWork) : w.Quiet (w.fetchResponse e n sp m) := by
  unfold ViewWork.fetchResponse
  split
  · exact .refl w
  · dsimp only
    split
    · refine ViewWork.Quiet.trans ?_ (ViewWork.completeFetch_quiet _ _ _ _)
      constructor <;> simp [View.setEntry, View.enabled]
    · constructor <;> simp [ViewWork.continueFetch, View.setEntry, View.enabled]

/-- A read that joins the queue lengthens it by one and changes neither plan nor record. -/
theorem ViewWork.join_spec (e : ViewEnv) (q : ReadReq) (rows : List Nat) (w : ViewWork) :
    (w.join e q rows).view.plan = w.view.plan ∧ (w.join e q rows).view.record = w.view.record ∧
    (w.join e q rows).view.enabled = w.view.enabled ∧
    (w.join e q rows).view.held.length = w.view.held.length + 1 := by
  refine ⟨rfl, rfl, ?_, by simp [ViewWork.join]⟩
  unfold ViewWork.join View.enabled
  cases w.view.state <;> rfl

/-- A read accepted leaves the queue at most one longer (R127). -/
theorem ViewWork.acceptRead_spec (e : ViewEnv) (q : ReadReq) (rows : List Nat) (w : ViewWork) :
    (w.acceptRead e q rows).view.plan = w.view.plan ∧
    (w.acceptRead e q rows).view.record = w.view.record ∧
    (w.acceptRead e q rows).view.enabled = w.view.enabled ∧
    (w.acceptRead e q rows).view.held.length ≤ w.view.held.length + 1 := by
  obtain ⟨h1, h2, h3, h4⟩ := w.join_spec e q rows
  have k := ((ViewWork.closeNormal_quiet e q (w.join e q rows)).trans
    (ViewWork.answerAll_quiet e _)).trans (ViewWork.demandPass_quiet e _)
  exact ⟨k.plan.trans h1, k.record.trans h2, k.enabled.trans h3, h4 ▸ k.held⟩

/-! ### A view's step inside the part -/

theorem State.onView_other (s : State) (i j : Fin 2) (f : ViewEnv → ViewWork → ViewWork)
    (h : j ≠ i) : (s.onView i f).views[j] = s.views[j] := by
  unfold State.onView
  split
  · rfl
  · simp only [State.raiseAll_views]
    exact Vector.getElem_set_ne _ _ (fun hh => h (Fin.ext hh.symm))

/-- What a view's step leaves of the view it runs in. -/
theorem State.onView_same (s : State) (i : Fin 2) (f : ViewEnv → ViewWork → ViewWork)
    (r : ViewRecord) (hr : s.views[i].record = some r) :
    (s.onView i f).views[i] =
      (f ⟨i, r, s.timeBase, s.sources⟩ ⟨s.views[i], s.inflight, [], [], s.draws⟩).view := by
  unfold State.onView
  split
  · next h => rw [h] at hr; cases hr
  · next r' h =>
    obtain rfl := Option.some.inj (h.symm.trans hr)
    simp only [State.raiseAll_views]
    exact Vector.getElem_set_self _

end Sys2Proof.Machine
end

