-- ==== Sys2Proof/Laws/Openings.lean ====
section
/-! SUPPORT. What a frame opening leaves (R93): the view OPEN on a freshly latched plan, its record as it
was, no more held reads than before, the other view untouched, and the pool with the new plan's stores
pinned and the retired plan's released (R99). -/

namespace Sys2Proof.Machine

theorem View.enabled_opened (v : View) (f : FrameRecord) (h : v.state = .opened f) :
    v.enabled = true := by
  simp [View.enabled, h]

/-- Stages 1 and 2: the view is OPEN on a new frame, with its plan and its record as they were. -/
theorem ViewWork.openingStages_spec (e : ViewEnv) (rows : List Nat) (w : ViewWork) :
    let u := (w.openingStage1 e).openingStage2 e rows
    u.view.plan = w.view.plan ∧ u.view.record = w.view.record ∧
    (∃ f, u.view.state = .opened f) ∧ u.view.held.length ≤ w.view.held.length := by
  have k := ViewWork.openingStage1_quiet e w
  exact ⟨k.plan, k.record, ⟨_, rfl⟩, k.held⟩

/-- Stages 7 to 9 (R93): the plan is latched, the pool pinned and released, and the view goes on OPEN. -/
theorem State.latchStages_spec (s : State) (i : Fin 2) (r : ViewRecord)
    (hr : s.views[i].record = some r) :
    let new := latchPlan r s.views[i].framesOpened s.views[i].degrade s.views[i].plan s.sources
      s.cal.active s.zoom s.handoff
    let t := s.latchStages i
    t.views[i].plan = some new ∧ t.views[i].record = some r ∧
    t.views[i].enabled = s.views[i].enabled ∧
    t.views[i].held.length ≤ s.views[i].held.length ∧
    (∀ j, j ≠ i → t.views[j] = s.views[j]) ∧
    t.sources = releasePlan (pinPlan s.sources (some new)) s.views[i].plan := by
  intro new t
  have ht : t = State.onView
      { s with
        sources := releasePlan (pinPlan s.sources (some new)) s.views[i].plan
        views := s.views.set i.val { s.views[i] with plan := some new } i.isLt }
      i fun e w => (w.clear i).prefetch e 0 := by
    show s.latchStages i = _
    unfold State.latchStages
    split
    · next h => rw [h] at hr; cases hr
    · next r' h =>
      obtain rfl := Option.some.inj (h.symm.trans hr)
      rfl
  have hv : (s.views.set i.val { s.views[i] with plan := some new } i.isLt)[i] =
      { s.views[i] with plan := some new } := Vector.getElem_set_self _
  have hi := State.onView_same
    { s with
      sources := releasePlan (pinPlan s.sources (some new)) s.views[i].plan
      views := s.views.set i.val { s.views[i] with plan := some new } i.isLt }
    i (fun e w => (w.clear i).prefetch e 0) r (by simp only [hv]; exact hr)
  rw [← ht] at hi
  simp only [hv] at hi
  refine ⟨?_, ?_, ?_, ?_, ?_, ?_⟩
  · rw [hi]
    exact ((ViewWork.clear_quiet i _).trans (ViewWork.prefetch_quiet _ _ _)).plan
  · rw [hi]
    exact (((ViewWork.clear_quiet i _).trans (ViewWork.prefetch_quiet _ _ _)).record).trans hr
  · rw [hi]
    exact ((ViewWork.clear_quiet i _).trans (ViewWork.prefetch_quiet _ _ _)).enabled
  · rw [hi]
    exact ((ViewWork.clear_quiet i _).trans (ViewWork.prefetch_quiet _ _ _)).held
  · intro j hj
    rw [ht, State.onView_other _ _ _ _ hj]
    exact Vector.getElem_set_ne i.isLt j.isLt (fun hh => hj (Fin.ext hh.symm))
  · rw [ht]
    simp

/-- The state at stage 7 of an opening: after stages 1 and 2, and on the lead view after 3 to 6. -/
def State.beforeLatch (s : State) (i : Fin 2) (rows : List Nat) : State :=
  let t := s.onView i fun e w => (w.openingStage1 e).openingStage2 e rows
  if s.isLead i then t.leadStages i else t

theorem State.beforeLatch_spec (s : State) (i : Fin 2) (rows : List Nat) (r : ViewRecord)
    (hr : s.views[i].record = some r) :
    let t := s.beforeLatch i rows
    t.views[i].plan = s.views[i].plan ∧ t.views[i].record = some r ∧
    t.views[i].enabled = true ∧ t.views[i].held.length ≤ s.views[i].held.length ∧
    (∀ j, j ≠ i → t.views[j] = s.views[j]) ∧ t.sources = s.sources := by
  intro t
  have hv : t.views = (s.onView i fun e w => (w.openingStage1 e).openingStage2 e rows).views := by
    show (s.beforeLatch i rows).views = _
    unfold State.beforeLatch
    dsimp only
    split <;> simp
  have hs : t.sources = s.sources := by
    show (s.beforeLatch i rows).sources = _
    unfold State.beforeLatch
    dsimp only
    split <;> simp
  have hi := State.onView_same s i (fun e w => (w.openingStage1 e).openingStage2 e rows) r hr
  rw [← hv] at hi
  obtain ⟨h1, h2, ⟨f, h3⟩, h4⟩ := ViewWork.openingStages_spec ⟨i, r, s.timeBase, s.sources⟩ rows
    ⟨s.views[i], s.inflight, [], [], s.draws⟩
  refine ⟨?_, ?_, ?_, ?_, ?_, hs⟩
  · rw [hi]; exact h1
  · rw [hi]; exact h2.trans hr
  · rw [hi]; exact View.enabled_opened _ f h3
  · rw [hi]; exact h4
  · intro j hj
    rw [hv]
    exact State.onView_other _ _ _ _ hj

theorem State.openFrame_eq (s : State) (i : Fin 2) (rows : List Nat) :
    s.openFrame i rows =
      if s.isLead i then ((s.beforeLatch i rows).latchStages i).requestMirror
      else (s.beforeLatch i rows).latchStages i := by
  unfold State.openFrame State.beforeLatch
  dsimp only

/-- The plan that an opening latches (R95). -/
def State.openingPlan (s : State) (i : Fin 2) (rows : List Nat) (r : ViewRecord) : Plan :=
  let t := s.beforeLatch i rows
  latchPlan r t.views[i].framesOpened t.views[i].degrade s.views[i].plan s.sources t.cal.active t.zoom
    t.handoff

/-- What a frame opening leaves of views and pool. -/
theorem State.openFrame_spec (s : State) (i : Fin 2) (rows : List Nat) (r : ViewRecord)
    (hr : s.views[i].record = some r) :
    let t := s.openFrame i rows
    t.views[i].plan = some (s.openingPlan i rows r) ∧ t.views[i].record = some r ∧
    t.views[i].enabled = true ∧ t.views[i].held.length ≤ s.views[i].held.length ∧
    (∀ j, j ≠ i → t.views[j] = s.views[j]) ∧
    t.sources = releasePlan (pinPlan s.sources (some (s.openingPlan i rows r))) s.views[i].plan := by
  intro t
  obtain ⟨a1, a2, a3, a4, a5, a6⟩ := s.beforeLatch_spec i rows r hr
  obtain ⟨b1, b2, b3, b4, b5, b6⟩ := (s.beforeLatch i rows).latchStages_spec i r a2
  have hv : t.views = ((s.beforeLatch i rows).latchStages i).views := by
    show (s.openFrame i rows).views = _
    rw [State.openFrame_eq]
    split <;> simp
  have hs : t.sources = ((s.beforeLatch i rows).latchStages i).sources := by
    show (s.openFrame i rows).sources = _
    rw [State.openFrame_eq]
    split <;> simp
  rw [a1, a6] at b1 b6
  refine ⟨?_, ?_, ?_, ?_, ?_, ?_⟩
  · rw [hv]; exact b1
  · rw [hv]; exact b2
  · rw [hv, b3, a3]
  · rw [hv]; exact b4.trans a4
  · intro j hj
    rw [hv, b5 j hj, a5 j hj]
  · rw [hs]; exact b6

/-- What the acceptance of an aperture read leaves of the views (R127, R146). -/
theorem State.acceptAperture_views (s : State) (i : Fin 2) (q : ReadReq) :
    let t := s.acceptAperture i q
    t.views[i].record = s.views[i].record ∧
    t.views[i].held.length ≤ s.views[i].held.length + 1 ∧
    t.views[i].enabled = s.views[i].enabled ∧
    (∀ j, j ≠ i → t.views[j] = s.views[j]) := by
  intro t
  show (s.acceptAperture i q).views[i].record = _ ∧ (s.acceptAperture i q).views[i].held.length ≤ _ ∧
    (s.acceptAperture i q).views[i].enabled = _ ∧ (∀ j, j ≠ i → (s.acceptAperture i q).views[j] = _)
  unfold State.acceptAperture
  split
  · exact ⟨rfl, Nat.le_succ _, rfl, fun _ _ => rfl⟩
  · next r hr =>
    dsimp only
    generalize hu : (if s.views[i].opensFrame (r.touched q) = true then s.openFrame i (r.touched q)
      else s) = u
    have hk : u.views[i].record = some r ∧ u.views[i].held.length ≤ s.views[i].held.length ∧
        u.views[i].enabled = s.views[i].enabled ∧ (∀ j, j ≠ i → u.views[j] = s.views[j]) := by
      subst hu
      split
      · next ho =>
        obtain ⟨-, h2, h3, h4, h5, -⟩ := s.openFrame_spec i (r.touched q) r hr
        refine ⟨h2, h4, ?_, h5⟩
        rw [h3]
        unfold View.opensFrame at ho
        unfold View.enabled
        split at ho <;> simp_all
      · exact ⟨hr, le_refl _, rfl, fun _ _ => rfl⟩
    obtain ⟨k1, k2, k3, k4⟩ := hk
    obtain ⟨-, h2, h3, h4⟩ := ViewWork.acceptRead_spec ⟨i, r, u.timeBase, u.sources⟩ q (r.touched q)
      ⟨u.views[i], u.inflight, [], [], u.draws⟩
    have hi := State.onView_same u i (fun e w => w.acceptRead e q (r.touched q)) r k1
    refine ⟨?_, ?_, ?_, ?_⟩
    · rw [hi, h2]; exact k1.trans hr.symm
    · rw [hi]; exact h4.trans (Nat.add_le_add_right k2 1)
    · rw [hi, h3]; exact k3
    · intro j hj
      rw [State.onView_other _ _ _ _ hj]
      exact k4 j hj

end Sys2Proof.Machine
end

