-- ==== Sys2Proof/Laws/Path.lean ====
section
/-! SUPPORT. The acceptance of waiting requests (R128, R137, R153): which request is accepted, what a
property must survive to hold afterwards, and the case of one request at an empty channel. -/

namespace Sys2Proof.Machine

/-- The acceptance of one waiting request takes the head of a channel that can be accepted, possibly
after a draw (R137). -/
theorem State.acceptOne_cases {s t : State} (h : s.acceptOne = some t) :
    ∃ u : State, (u = s ∨ u = { s with draws := s.draws + 1 }) ∧
      ((∃ r rs, u.up.reads = r :: rs ∧ u.canAcceptRead r = true ∧ t = u.takeRead r) ∨
       (∃ w ws, u.up.writes = w :: ws ∧ u.canAcceptWrite w = true ∧ t = u.takeWrite w)) := by
  have hd : ∀ {α : Type} {l : List α} {p : α → Bool} {a : α},
      l.head?.filter p = some a → ∃ as, l = a :: as ∧ p a = true := by
    intro α l p a hf
    cases l with
    | nil => simp at hf
    | cons x xs =>
      simp only [List.head?_cons, Option.filter_eq_some_iff, Option.some.injEq] at hf
      obtain ⟨rfl, hp⟩ := hf
      exact ⟨xs, rfl, hp⟩
  unfold State.acceptOne at h
  split at h
  · next r hr hw =>
    obtain ⟨rs, h1, h2⟩ := hd hr
    exact ⟨s, .inl rfl, .inl ⟨r, rs, h1, h2, (Option.some.inj h).symm⟩⟩
  · next w hr hw =>
    obtain ⟨ws, h1, h2⟩ := hd hw
    exact ⟨s, .inl rfl, .inr ⟨w, ws, h1, h2, (Option.some.inj h).symm⟩⟩
  · next r w hr hw =>
    obtain ⟨rs, h1, h2⟩ := hd hr
    obtain ⟨ws, h3, h4⟩ := hd hw
    dsimp only at h
    split at h
    · exact ⟨_, .inr rfl, .inl ⟨r, rs, h1, h2, (Option.some.inj h).symm⟩⟩
    · exact ⟨_, .inr rfl, .inr ⟨w, ws, h3, h4, (Option.some.inj h).symm⟩⟩
  · cases h

/-- A property survives the acceptance of waiting requests when it does not read the draw count and
survives the acceptance of each request that can be accepted. -/
theorem State.acceptUpTo_keeps {P : State → Prop}
    (hdraw : ∀ s, P s → P { s with draws := s.draws + 1 })
    (hread : ∀ s r rs, s.up.reads = r :: rs → s.canAcceptRead r = true → P s → P (s.takeRead r))
    (hwrite : ∀ s w ws, s.up.writes = w :: ws → s.canAcceptWrite w = true → P s → P (s.takeWrite w))
    (n : Nat) (s : State) (h : P s) : P (s.acceptUpTo n) := by
  induction n generalizing s with
  | zero => exact h
  | succ n ih =>
    unfold State.acceptUpTo
    split
    · next t ht =>
      apply ih
      obtain ⟨u, hu, hc⟩ := State.acceptOne_cases ht
      have hP : P u := by
        rcases hu with rfl | rfl
        · exact h
        · exact hdraw _ h
      rcases hc with ⟨r, rs, h1, h2, rfl⟩ | ⟨w, ws, h1, h2, rfl⟩
      · exact hread _ _ _ h1 h2 hP
      · exact hwrite _ _ _ h1 h2 hP
    · exact h

theorem State.acceptWaiting_keeps {P : State → Prop}
    (hdraw : ∀ s, P s → P { s with draws := s.draws + 1 })
    (hread : ∀ s r rs, s.up.reads = r :: rs → s.canAcceptRead r = true → P s → P (s.takeRead r))
    (hwrite : ∀ s w ws, s.up.writes = w :: ws → s.canAcceptWrite w = true → P s → P (s.takeWrite w))
    (s : State) (h : P s) : P s.acceptWaiting :=
  State.acceptUpTo_keeps hdraw hread hwrite _ s h

/-- With nothing waiting, nothing is accepted. -/
theorem State.acceptWaiting_quiet (s : State) (hr : s.up.reads = []) (hw : s.up.writes = []) :
    s.acceptWaiting = s := by
  simp [State.acceptWaiting, hr, hw, State.acceptUpTo]

theorem State.canAcceptRead_up (s : State) (u : Upstream) (r : ReadReq) :
    State.canAcceptRead { s with up := u } r = s.canAcceptRead r := rfl

theorem State.canAcceptWrite_up (s : State) (u : Upstream) (w : WriteReq) :
    State.canAcceptWrite { s with up := u } w = s.canAcceptWrite w := rfl

/-- A read presented to empty channels is accepted at once when it can be (R158). -/
theorem State.presentRead_accepts (s : State) (r : ReadReq) (hr : s.up.reads = [])
    (hw : s.up.writes = []) (hc : s.canAcceptRead r = true) : s.presentRead r = s.acceptRead r := by
  have hs : State.takeRead { s with up := { s.up with reads := s.up.reads ++ [r] } } r =
      s.acceptRead r := by
    have hu : ({ s with up := { s.up with reads := [] } } : State) = s := by rw [← hr]
    simp only [State.takeRead, hr, List.nil_append, List.tail_cons, hu]
  simp [State.presentRead, State.acceptWaiting, State.acceptUpTo, State.acceptOne, hr, hw,
    State.canAcceptRead_up, hc, Option.filter] at hs ⊢
  exact hs

/-- A read presented to empty channels waits when it cannot be accepted (R128, R153). -/
theorem State.presentRead_waits (s : State) (r : ReadReq) (hr : s.up.reads = [])
    (hw : s.up.writes = []) (hc : s.canAcceptRead r = false) :
    s.presentRead r = { s with up := { s.up with reads := [r] } } := by
  simp [State.presentRead, State.acceptWaiting, State.acceptUpTo, State.acceptOne, hr, hw,
    State.canAcceptRead_up, hc, Option.filter]

/-- A write presented to empty channels is accepted at once when it can be (R158). -/
theorem State.presentWrite_accepts (s : State) (w : WriteReq) (hr : s.up.reads = [])
    (hw : s.up.writes = []) (hc : s.canAcceptWrite w = true) :
    s.presentWrite w = s.acceptWrite w := by
  have hs : State.takeWrite { s with up := { s.up with writes := s.up.writes ++ [w] } } w =
      s.acceptWrite w := by
    have hu : ({ s with up := { s.up with writes := [] } } : State) = s := by rw [← hw]
    simp only [State.takeWrite, hw, List.nil_append, List.tail_cons, hu]
  simp [State.presentWrite, State.acceptWaiting, State.acceptUpTo, State.acceptOne, hr, hw,
    State.canAcceptWrite_up, hc, Option.filter] at hs ⊢
  exact hs

/-- A write presented to empty channels waits when it cannot be accepted (R153). -/
theorem State.presentWrite_waits (s : State) (w : WriteReq) (hr : s.up.reads = [])
    (hw : s.up.writes = []) (hc : s.canAcceptWrite w = false) :
    s.presentWrite w = { s with up := { s.up with writes := [w] } } := by
  simp [State.presentWrite, State.acceptWaiting, State.acceptUpTo, State.acceptOne, hr, hw,
    State.canAcceptWrite_up, hc, Option.filter]

end Sys2Proof.Machine
end

