-- ==== Sys2Proof/Laws/Sources.lean ====
section
/-! SUPPORT. What the operations of a Source Tracker leave of its record, its pins, its windows' flag and
its ring map (R9, R11, R22): a camera write moves none of the pins, and changes the map only by an
exchange of a mapped store for an unmapped one. -/

namespace Sys2Proof.Machine

/-- The pin counts of a source's stores. -/
def Source.pinList (src : Source) : List Nat := src.stores.map FrameStore.pins

theorem map_modify_same {α β : Type} (g : α → β) (f : α → α) (h : ∀ x, g (f x) = g x) (l : List α)
    (p : Nat) : (l.modify p f).map g = l.map g := by
  apply List.ext_getElem?
  intro n
  simp only [List.getElem?_map, List.getElem?_modify]
  cases l[n]? with
  | none => rfl
  | some x =>
    by_cases hp : p = n <;> simp [hp, h]

/-- What a step of the tracker on a camera write keeps: the record, the pins, and the windows' flag. -/
structure Source.Kept (a b : Source) : Prop where
  record : b.record = a.record
  pins : b.pinList = a.pinList
  active : b.state.windowsActive = a.state.windowsActive
  unset : b.state = .unset ↔ a.state = .unset

theorem Source.Kept.refl (a : Source) : a.Kept a := ⟨rfl, rfl, rfl, Iff.rfl⟩

theorem Source.Kept.trans {a b c : Source} (h : a.Kept b) (k : b.Kept c) : a.Kept c :=
  ⟨k.record.trans h.record, k.pins.trans h.pins, k.active.trans h.active, k.unset.trans h.unset⟩

theorem Source.Kept.length {a b : Source} (h : a.Kept b) : b.stores.length = a.stores.length := by
  have := congrArg List.length h.pins
  simpa [Source.pinList] using this

theorem Source.closeShort_kept (src : Source) (p : Nat) : src.Kept (src.closeShort p) :=
  ⟨rfl, map_modify_same FrameStore.pins FrameStore.closedShort (fun _ => rfl) _ _, rfl, Iff.rfl⟩

theorem Source.shortenFilling_kept (src : Source) (i : Fin 4) (p : Nat) :
    src.Kept (src.shortenFilling i p).1 := by
  unfold Source.shortenFilling
  split
  · split
    · exact src.closeShort_kept p
    · exact .refl src
  · exact .refl src

theorem Source.openStore_kept (src : Source) (p : Nat) (rect : Rect) (torn : Bool) :
    src.Kept (src.openStore p rect torn) :=
  ⟨rfl, map_modify_same FrameStore.pins (FrameStore.opened rect torn) (fun _ => rfl) _ _, rfl, Iff.rfl⟩

theorem Source.shortenFilling_ringMap (src : Source) (i : Fin 4) (p : Nat) :
    (src.shortenFilling i p).1.ringMap = src.ringMap := by
  unfold Source.shortenFilling
  split
  · split <;> rfl
  · rfl

theorem Source.frameOpen_kept (src : Source) (i : Fin 4) (rect : Rect) (k : Nat) :
    src.Kept (src.frameOpen i rect k).1 := by
  unfold Source.frameOpen
  split
  · exact .refl src
  · next p _ =>
    dsimp only
    have h1 := src.shortenFilling_kept i p
    split
    · exact h1.trans (Source.openStore_kept _ _ _ _)
    · split
      · next q _ =>
        refine h1.trans ((Source.shortenFilling_kept _ i q).trans ?_)
        exact (Source.openStore_kept _ q rect false).trans ⟨rfl, rfl, rfl, Iff.rfl⟩
      · exact h1.trans (Source.openStore_kept _ _ _ _)

/-- A frame open leaves the map, or exchanges the store behind its position for an unmapped one of the
source's stores (R15 to R17). -/
theorem Source.frameOpen_ringMap (src : Source) (i : Fin 4) (rect : Rect) (k : Nat) :
    (src.frameOpen i rect k).1.ringMap = src.ringMap ∨
    ∃ q, q < src.stores.length ∧ q ∉ src.ringMap ∧
      (src.frameOpen i rect k).1.ringMap = src.ringMap.set k q := by
  unfold Source.frameOpen
  split
  · exact .inl rfl
  · next p _ =>
    dsimp only
    have hm := src.shortenFilling_ringMap i p
    have hl := (src.shortenFilling_kept i p).length
    split
    · exact .inl hm
    · split
      · next q hq =>
        right
        have hq' := List.mem_of_mem_head? (by rw [hq]; rfl : q ∈ (src.shortenFilling i p).1.spareStores.head?)
        simp only [Source.spareStores, List.mem_filter, List.mem_range, Bool.and_eq_true,
          Bool.not_eq_true', List.contains_eq_mem, decide_eq_false_iff_not] at hq'
        refine ⟨q, hl ▸ hq'.1, hm ▸ hq'.2.1, ?_⟩
        simp only [Source.openStore]
        rw [Source.shortenFilling_ringMap, hm]
      · exact .inl hm

theorem Source.afterReady_kept (src : Source) (i : Fin 4) (now : Word) (p : Nat) :
    src.Kept (src.afterReady i now p).1 := by
  unfold Source.afterReady
  split <;> rename_i hs
  · exact ⟨rfl, rfl, by simp [hs, SourceState.windowsActive], by simp [hs]⟩
  · exact ⟨rfl, rfl, rfl, Iff.rfl⟩
  · split
    · exact ⟨rfl, rfl, by simp [hs, SourceState.windowsActive], by simp [hs]⟩
    · exact ⟨rfl, rfl, rfl, Iff.rfl⟩
  · exact .refl src
  · exact .refl src

theorem Source.afterReady_ringMap (src : Source) (i : Fin 4) (now : Word) (p : Nat) :
    (src.afterReady i now p).1.ringMap = src.ringMap := by
  unfold Source.afterReady
  split
  · rfl
  · rfl
  · split <;> rfl
  · rfl
  · rfl

theorem Source.closeStore_kept (src : Source) (i : Fin 4) (now : Word) (r : SourceRecord) (p : Nat) :
    src.Kept (src.closeStore i now r p).1 := by
  unfold Source.closeStore
  split
  · exact .refl src
  · split
    · refine Source.Kept.trans ?_ (Source.afterReady_kept _ _ _ _)
      exact ⟨rfl, map_modify_same FrameStore.pins (FrameStore.closedReady _) (fun _ => rfl) _ _, rfl,
        Iff.rfl⟩
    · exact src.closeShort_kept p

theorem Source.closeStore_ringMap (src : Source) (i : Fin 4) (now : Word) (r : SourceRecord) (p : Nat) :
    (src.closeStore i now r p).1.ringMap = src.ringMap := by
  unfold Source.closeStore
  split
  · rfl
  · split
    · exact Source.afterReady_ringMap _ _ _ _
    · rfl

theorem FrameStore.addPixel_pins (r : SourceRecord) (off : Nat) (st : FrameStore)
    (px : Nat × Byte × Byte × Byte) : (st.addPixel r off px).pins = st.pins := by
  unfold FrameStore.addPixel
  dsimp only
  split
  · split <;> rfl
  · rfl

theorem FrameStore.progress_pins (r : SourceRecord) (off : Nat) (w : WriteReq) (st : FrameStore) :
    (st.progress r off w).pins = st.pins := by
  unfold FrameStore.progress
  dsimp only
  generalize wholePixels off w = l
  have : ∀ (l : List (Nat × Byte × Byte × Byte)) (x : FrameStore),
      (l.foldl (FrameStore.addPixel r off) x).pins = x.pins := by
    intro l
    induction l with
    | nil => intro x; rfl
    | cons y l ih => intro x; rw [List.foldl_cons, ih, FrameStore.addPixel_pins]
  exact this l _

theorem Source.progress_kept (src : Source) (i : Fin 4) (now : Word) (r : SourceRecord) (k off : Nat)
    (w : WriteReq) : src.Kept (src.progress i now r k off w).1 := by
  have h : ∀ p, src.Kept { src with stores := src.stores.modify p (FrameStore.progress r off w) } :=
    fun p => ⟨rfl, map_modify_same _ _ (FrameStore.progress_pins r off w) _ _, rfl, Iff.rfl⟩
  unfold Source.progress
  split
  · exact .refl src
  · next p _ =>
    split
    · dsimp only
      split
      · exact (h p).trans (Source.closeStore_kept _ _ _ _ _)
      · exact h p
    · exact .refl src

theorem Source.progress_ringMap (src : Source) (i : Fin 4) (now : Word) (r : SourceRecord)
    (k off : Nat) (w : WriteReq) : (src.progress i now r k off w).1.ringMap = src.ringMap := by
  unfold Source.progress
  split
  · rfl
  · split
    · dsimp only
      split
      · exact Source.closeStore_ringMap _ _ _ _ _
      · rfl
    · rfl

/-- A camera write keeps the record, the pins and the windows' flag (R11, R22). -/
theorem Source.onWrite_kept (src : Source) (i : Fin 4) (active : Option CalSet) (now : Word)
    (k off : Nat) (w : WriteReq) : src.Kept (src.onWrite i active now k off w).1 := by
  unfold Source.onWrite
  split
  · exact .refl src
  · split
    · dsimp only
      split
      · exact (Source.frameOpen_kept _ _ _ _).trans (Source.progress_kept _ _ _ _ _ _ _)
      · exact Source.progress_kept _ _ _ _ _ _ _
    · exact .refl src

/-- A camera write leaves the map, or exchanges one mapped store for an unmapped one (R9). -/
theorem Source.onWrite_ringMap (src : Source) (i : Fin 4) (active : Option CalSet) (now : Word)
    (k off : Nat) (w : WriteReq) :
    (src.onWrite i active now k off w).1.ringMap = src.ringMap ∨
    ∃ q, q < src.stores.length ∧ q ∉ src.ringMap ∧
      (src.onWrite i active now k off w).1.ringMap = src.ringMap.set k q := by
  unfold Source.onWrite
  split
  · exact .inl rfl
  · split
    · dsimp only
      split
      · rw [Source.progress_ringMap]
        exact Source.frameOpen_ringMap _ _ _ _
      · rw [Source.progress_ringMap]
        exact .inl rfl
    · exact .inl rfl

/-! ### Pins (R22) -/

@[simp] theorem Source.pin_record (src : Source) (p : Nat) : (src.pin p).record = src.record := rfl
@[simp] theorem Source.pin_state (src : Source) (p : Nat) : (src.pin p).state = src.state := rfl
@[simp] theorem Source.pin_ringMap (src : Source) (p : Nat) : (src.pin p).ringMap = src.ringMap := rfl
@[simp] theorem Source.pin_length (src : Source) (p : Nat) :
    (src.pin p).stores.length = src.stores.length := by simp [Source.pin]
@[simp] theorem Source.release_record (src : Source) (p : Nat) :
    (src.release p).record = src.record := rfl
@[simp] theorem Source.release_state (src : Source) (p : Nat) : (src.release p).state = src.state := rfl
@[simp] theorem Source.release_ringMap (src : Source) (p : Nat) :
    (src.release p).ringMap = src.ringMap := rfl
@[simp] theorem Source.release_length (src : Source) (p : Nat) :
    (src.release p).stores.length = src.stores.length := by simp [Source.release]

/-- A pin adds one to its store's count and to no other (R22). -/
theorem Source.pin_pins (src : Source) (p n : Nat) :
    ((src.pin p).stores[n]?).map FrameStore.pins =
      (src.stores[n]?).map fun st => st.pins + if p = n then 1 else 0 := by
  simp only [Source.pin, List.getElem?_modify]
  cases src.stores[n]? with
  | none => rfl
  | some st => by_cases h : p = n <;> simp [h]

/-- A release takes one from its store's count and from no other (R22). -/
theorem Source.release_pins (src : Source) (p n : Nat) :
    ((src.release p).stores[n]?).map FrameStore.pins =
      (src.stores[n]?).map fun st => st.pins - if p = n then 1 else 0 := by
  simp only [Source.release, List.getElem?_modify]
  cases src.stores[n]? with
  | none => rfl
  | some st =>
    by_cases h : p = n
    · simp only [h, if_true, Option.map_eq_map, Option.map_some, Option.some.injEq]
      split <;> rfl
    · simp [h]

end Sys2Proof.Machine
end

