-- ==== Sys2Proof/Laws/Pools.lean ====
section
/-! SUPPORT. The frame pool under pins (R22, R99): what pinning and releasing a plan's stores does to each
pin count, that the stores of a latched plan exist (R96), and which parts of the state the memory path,
the port and a disable leave to a view. -/

namespace Sys2Proof.Machine

/-! ### Views under the operations of the whole state -/

/-- onView with a Quiet step -/
theorem State.onView_quiet (s : State) (i : Fin 2) (f) (hf : ∀ e w, ViewWork.Quiet w (f e w)) (j : Fin 2) :
    (s.onView i f).views[j].plan = s.views[j].plan ∧ (s.onView i f).views[j].record = s.views[j].record ∧
    (s.onView i f).views[j].enabled = s.views[j].enabled ∧ (s.onView i f).views[j].held.length ≤ s.views[j].held.length := by
  by_cases hj : j = i
  · subst hj
    cases hr : s.views[j].record with
    | none =>
      have : s.onView j f = s := by
        unfold State.onView
        split
        · rfl
        · next h => rw [hr] at h; cases h
      rw [this]
      exact ⟨rfl, hr, rfl, le_refl _⟩
    | some r =>
      rw [State.onView_same s j f r hr]
      have k := hf ⟨j, r, s.timeBase, s.sources⟩ ⟨s.views[j], s.inflight, [], [], s.draws⟩
      exact ⟨k.plan, k.record.trans hr, k.enabled, k.held⟩
  · rw [State.onView_other _ _ _ _ hj]
    exact ⟨rfl, rfl, rfl, le_refl _⟩

theorem State.hand_views (s : State) (o m) (j : Fin 2) :
    (s.hand o m).views[j].plan = s.views[j].plan ∧ (s.hand o m).views[j].record = s.views[j].record ∧
    (s.hand o m).views[j].enabled = s.views[j].enabled ∧ (s.hand o m).views[j].held.length ≤ s.views[j].held.length := by
  unfold State.hand
  split
  · exact ⟨rfl, rfl, rfl, le_refl _⟩
  · exact State.onView_quiet s _ _ (fun e w => ViewWork.fetchResponse_quiet _ _ _ _ _) j
  · simp
  · exact ⟨rfl, rfl, rfl, le_refl _⟩
  · exact ⟨rfl, rfl, rfl, le_refl _⟩

theorem State.grantTo_views (s : State) (e g) (j : Fin 2) :
    (s.grantTo e g).views[j].plan = s.views[j].plan ∧ (s.grantTo e g).views[j].record = s.views[j].record ∧
    (s.grantTo e g).views[j].enabled = s.views[j].enabled ∧ (s.grantTo e g).views[j].held = s.views[j].held := by
  cases g with
  | pass => simp [State.grantTo]
  | report => simp [State.grantTo]
  | cal => simp [State.grantTo]
  | view v =>
    show (s.grantView e v).views[j].plan = _ ∧ (s.grantView e v).views[j].record = _ ∧ (s.grantView e v).views[j].enabled = _ ∧ (s.grantView e v).views[j].held = _
    unfold State.grantView
    split
    · next f _ =>
      split
      · simp only [State.issue_views]
        split
        · unfold State.issueFetch
          by_cases hj : j = f.view
          · subst hj
            simp [View.enabled]
          · have : (s.issueFetch f).views[j] = s.views[j] := by
              unfold State.issueFetch
              exact Vector.getElem_set_ne f.view.isLt j.isLt (fun hh => hj (Fin.ext hh.symm))
            unfold State.issueFetch at this
            rw [this]
            simp
        · simp
      · simp
    · simp

theorem State.acceptRead_views (s : State) (r) : (s.acceptRead r).views = s.views ∨ ∃ v, s.apertureAt r.addr = some v ∧ (s.acceptRead r).views = (s.acceptAperture v r).views := by
  unfold State.acceptRead State.apertureAt
  split
  · next v _ h => right; exact ⟨v, by rw [h], by simp⟩
  all_goals left; rfl

theorem State.disableView_views (s : State) (v j : Fin 2) :
    (j ≠ v → (s.disableView v).views[j] = s.views[j]) ∧ ((s.disableView v).views[v].plan = none ∧ (s.disableView v).views[v].state = .disabled ∧ (s.disableView v).views[v].held = [] ∧ (s.disableView v).views[v].record = s.views[v].record) := by
  unfold State.disableView
  simp only [State.settleAges_views]
  constructor
  · intro hj
    refine (Vector.getElem_set_ne v.isLt j.isLt (fun hh => hj (Fin.ext hh.symm))).trans ?_
    exact State.onView_other _ _ _ _ hj
  · have : ∀ (t : State), (t.views.set v.val t.views[v].disable v.isLt)[v] = t.views[v].disable := fun t => Vector.getElem_set_self _
    rw [this]
    refine ⟨rfl, rfl, rfl, ?_⟩
    exact (State.onView_quiet _ v _ (fun e w => ViewWork.clear_quiet v w) v).2.1

theorem vector_get_set {α n} (xs : Vector α n) (i j : Fin n) (x : α) : (xs.set i.val x i.isLt)[j] = if j = i then x else xs[j] := by
  by_cases h : j = i
  · subst h; simp
  · simp only [h, if_false]
    exact Vector.getElem_set_ne i.isLt j.isLt (fun hh => h (Fin.ext hh.symm))

/-! ### Sources under the acceptance of a request -/

theorem State.acceptAperture_sources (s : State) (i : Fin 2) (q : ReadReq) : (s.acceptAperture i q).sources = s.sources ∨ ∃ a b, (s.acceptAperture i q).sources = releasePlan (pinPlan s.sources a) b := by
  unfold State.acceptAperture
  split
  · left; rfl
  · next r hr =>
    simp only [State.onView_sources]
    split
    · right; exact ⟨_, _, (s.openFrame_spec i _ r hr).2.2.2.2.2⟩
    · left; rfl

theorem State.acceptRead_sources (s : State) (r) : (s.acceptRead r).sources = s.sources ∨ ∃ v, s.apertureAt r.addr = some v ∧ (s.acceptRead r).sources = (s.acceptAperture v r).sources := by
  unfold State.acceptRead State.apertureAt
  split
  · next v _ h => right; exact ⟨v, by rw [h], by simp⟩
  all_goals left; rfl

theorem State.acceptWrite_sources (s : State) (w : WriteReq) : (s.acceptWrite w).sources = s.sources ∨ ∃ (i : Fin 4) (k off : Nat), (s.acceptWrite w).sources = s.sources.set i.val (s.sources[i].onWrite i s.cal.active s.timeBase k off w).1 i.isLt := by
  unfold State.acceptWrite
  split
  · left; simp
  · next b l i k a _ =>
    right
    exact ⟨i, k, _, by simp [State.cameraWrite, State.onSource]; rfl⟩
  · left; simp
  · left; rfl

/-! ### The stores that a plan names -/

/-- What `leastSecond` finds stands in the list. -/
theorem leastSecond_mem (l : List (Nat × Nat)) (x) (h : leastSecond l = some x) : x ∈ l := by
  induction l generalizing x with
  | nil => cases h
  | cons y ys ih =>
    unfold leastSecond at h
    split at h
    · next z hz =>
      split at h
      · cases h; exact List.mem_cons_of_mem _ (ih _ hz)
      · cases h; exact List.mem_cons_self
    · cases h; exact List.mem_cons_self

/-- What `leastSecond` finds lies at the smallest distance, whatever the free value takes of two equal ones. -/
theorem leastSecond_le (l : List (Nat × Nat)) (x) (h : leastSecond l = some x) : ∀ y ∈ l, x.2 ≤ y.2 := by
  induction l generalizing x with
  | nil => cases h
  | cons y ys ih =>
    unfold leastSecond at h
    split at h
    · next z hz =>
      have := ih _ hz
      split at h <;> cases h <;> rintro w hw <;> rcases List.mem_cons.1 hw with rfl | hw
      · omega
      · exact this w hw
      · exact le_refl _
      · have := this w hw; omega
    · next hz =>
      cases h; intro w hw
      cases ys with
      | nil => simp at hw; subst hw; exact le_refl _
      | cons a b => exfalso; unfold leastSecond at hz; split at hz <;> (try split at hz) <;> simp at hz

theorem Source.newestReady_lt (src : Source) (p) (h : src.newestReady = some p) : p < src.stores.length := by
  unfold Source.newestReady at h
  obtain ⟨x, hx, rfl⟩ := Option.map_eq_some_iff.mp h
  have := leastSecond_mem _ _ hx
  unfold Source.readyStores at this
  obtain ⟨n, hn, h⟩ := List.mem_filterMap.mp this
  split at h
  · split at h
    · obtain ⟨o, -, rfl⟩ := Option.map_eq_some_iff.mp h
      exact List.mem_range.mp hn
    · cases h
  · cases h

theorem Plan.mem_stores (p : Plan) (x : Fin 4 × Nat) : x ∈ p.stores ↔ (∃ a, p.fromSide = some a ∧ x = (a.source, a.store)) ∨ (∃ a, p.toSide = some a ∧ x = (a.source, a.store)) := by
  unfold Plan.stores Plan.sides
  rw [List.mem_eraseDups]
  cases p.fromSide <;> cases p.toSide <;> simp

theorem Plan.storeFor_mem (p : Plan) (i q) (h : p.storeFor i = some q) : (i, q) ∈ p.stores := by
  rw [Plan.mem_stores]
  unfold Plan.storeFor at h
  have hb : (p.toSide.filter fun b => b.source == i).map SidePlan.store = some q → ∃ a, p.toSide = some a ∧ (i, q) = (a.source, a.store) := by
    intro h
    obtain ⟨a, ha, rfl⟩ := Option.map_eq_some_iff.mp h
    rw [Option.filter_eq_some_iff] at ha
    exact ⟨a, ha.1, by simp at ha; simp [ha.2]⟩
  split at h
  · next a ha =>
    split at h
    · next hs => cases h; left; exact ⟨a, ha, by rw [hs]⟩
    · right; exact hb h
  · right; exact hb h

def storeExists (ss : Vector Source 4) (x : Fin 4 × Nat) : Prop := x.2 < ss[x.1].stores.length

theorem chooseStore_exists (ss : Vector Source 4) (cur : Option Plan) (i q) (hc : ∀ p, cur = some p → ∀ x ∈ p.stores, storeExists ss x) (h : chooseStore ss cur i = some q) : storeExists ss (i, q) := by
  unfold chooseStore at h
  rcases hn : ss[i].newestReady with _ | n
  · rw [hn] at h
    simp only [Option.none_or] at h
    obtain ⟨p, hp, hq⟩ := Option.bind_eq_some_iff.mp h
    exact hc p hp _ (Plan.storeFor_mem p i q hq)
  · rw [hn] at h
    simp only [Option.some_or, Option.some.injEq] at h
    subst h
    exact Source.newestReady_lt _ _ hn

def arrangementExists (ss : Vector Source 4) (a : Arrangement) : Prop := (∀ c, a.fromSide = some c → storeExists ss (c.source, c.store)) ∧ (∀ c, a.toSide = some c → storeExists ss (c.source, c.store))

theorem arrangement_exists (h : Handoff) (ss : Vector Source 4) (cur : Option Plan) (lvl) (hc : ∀ p, cur = some p → ∀ x ∈ p.stores, storeExists ss x) : arrangementExists ss (arrangement h ss cur lvl) := by
  have hb : arrangementExists ss (if h.state = .frozen then frozenArrangement h cur else chosenArrangement h ss cur) := by
    split
    · constructor
      · intro c hcc
        obtain ⟨x, hx, rfl⟩ := Option.map_eq_some_iff.mp hcc
        obtain ⟨p, hp, hs⟩ := Option.bind_eq_some_iff.mp hx
        exact hc p hp _ ((Plan.mem_stores _ _).mpr (.inl ⟨x, hs, rfl⟩))
      · intro c hcc
        obtain ⟨x, hx, rfl⟩ := Option.map_eq_some_iff.mp hcc
        obtain ⟨p, hp, hs⟩ := Option.bind_eq_some_iff.mp hx
        exact hc p hp _ ((Plan.mem_stores _ _).mpr (.inr ⟨x, hs, rfl⟩))
    · constructor
      · intro c hcc
        obtain ⟨x, hx, rfl⟩ := Option.map_eq_some_iff.mp hcc
        exact chooseStore_exists _ _ _ _ hc hx
      · intro c hcc
        obtain ⟨t, ht, hx⟩ := Option.bind_eq_some_iff.mp hcc
        obtain ⟨y, hy, rfl⟩ := Option.map_eq_some_iff.mp hx
        exact chooseStore_exists _ _ _ _ hc hy
  unfold arrangement
  generalize (if h.state = .frozen then frozenArrangement h cur else chosenArrangement h ss cur) = a at hb ⊢
  unfold Arrangement.degraded
  split
  · split
    · exact ⟨hb.1, by simp⟩
    · exact ⟨by simp, hb.2⟩
  · exact hb

theorem SideChoice.latch_same (a : SideChoice) (active ss z w h c sp) (hl : a.latch active ss z w h c = some sp) : sp.source = a.source ∧ sp.store = a.store := by
  unfold SideChoice.latch at hl
  obtain ⟨r, -, rfl⟩ := Option.map_eq_some_iff.mp hl
  exact ⟨rfl, rfl⟩

theorem latchPlan_exists (r n lvl cur ss active zm) (h : Handoff) (hc : ∀ p, cur = some p → ∀ x ∈ p.stores, storeExists ss x) : ∀ x ∈ (latchPlan r n lvl cur ss active zm h).stores, storeExists ss x := by
  intro x hx
  have ha := arrangement_exists h ss cur lvl hc
  rw [Plan.mem_stores] at hx
  rcases hx with ⟨sp, hsp, rfl⟩ | ⟨sp, hsp, rfl⟩
  · obtain ⟨c, hc1, hc2⟩ := Option.bind_eq_some_iff.mp hsp
    obtain ⟨h1, h2⟩ := SideChoice.latch_same _ _ _ _ _ _ _ _ hc2
    rw [h1, h2]; exact ha.1 c hc1
  · obtain ⟨c, hc1, hc2⟩ := Option.bind_eq_some_iff.mp hsp
    obtain ⟨h1, h2⟩ := SideChoice.latch_same _ _ _ _ _ _ _ _ hc2
    rw [h1, h2]; exact ha.2 c hc1

/-- pins of a store, if it exists -/
def pinAt (ss : Vector Source 4) (i : Fin 4) (p : Nat) : Option Nat := (ss[i].stores[p]?).map FrameStore.pins

theorem onStore_pin_at (l : List (Fin 4 × Nat)) (ss : Vector Source 4) (i p) : pinAt (l.foldl (onStore Source.pin) ss) i p = (pinAt ss i p).map (· + l.count (i, p)) := by
  induction l generalizing ss with
  | nil => simp
  | cons x l ih =>
    rw [List.foldl_cons, ih]
    have : pinAt (onStore Source.pin ss x) i p = (pinAt ss i p).map (· + if x = (i,p) then 1 else 0) := by
      unfold pinAt onStore
      rw [vector_get_set]
      by_cases hi : i = x.1
      · subst hi
        simp only [if_true]
        rw [Source.pin_pins]
        simp only [Option.map_map]
        congr 1; funext st
        by_cases hp : x.2 = p
        · subst hp; simp
        · have : x ≠ (x.1, p) := fun hh => hp (congrArg Prod.snd hh)
          simp [hp, this]
      · have : x ≠ (i, p) := fun hh => hi (congrArg Prod.fst hh).symm
        simp only [hi, this, if_false]
        cases ss[i].stores[p]? <;> rfl
    rw [this, List.count_cons]
    simp only [Option.map_map]
    congr 1; funext n
    by_cases hx : x = (i,p)
    · simp [hx]; omega
    · simp [hx]

theorem onStore_release_at (l : List (Fin 4 × Nat)) (ss : Vector Source 4) (i p) : pinAt (l.foldl (onStore Source.release) ss) i p = (pinAt ss i p).map (· - l.count (i, p)) := by
  induction l generalizing ss with
  | nil => simp
  | cons x l ih =>
    rw [List.foldl_cons, ih]
    have : pinAt (onStore Source.release ss x) i p = (pinAt ss i p).map (· - if x = (i,p) then 1 else 0) := by
      unfold pinAt onStore
      rw [vector_get_set]
      by_cases hi : i = x.1
      · subst hi
        simp only [if_true]
        rw [Source.release_pins]
        simp only [Option.map_map]
        congr 1; funext st
        by_cases hp : x.2 = p
        · subst hp; simp
        · have : x ≠ (x.1, p) := fun hh => hp (congrArg Prod.snd hh)
          simp [hp, this]
      · have : x ≠ (i, p) := fun hh => hi (congrArg Prod.fst hh).symm
        simp only [hi, this, if_false]
        cases ss[i].stores[p]? <;> rfl
    rw [this, List.count_cons]
    simp only [Option.map_map]
    congr 1; funext n
    by_cases hx : x = (i,p)
    · simp [hx]; omega
    · simp [hx]

theorem pin_length (l : List (Fin 4 × Nat)) (ss : Vector Source 4) (i : Fin 4) (n : Nat) (h : ss[i].stores.length = n) : (l.foldl (onStore Source.pin) ss)[i].stores.length = n := by
  induction l generalizing ss with
  | nil => exact h
  | cons x l ih =>
    apply ih
    unfold onStore
    rw [vector_get_set]
    split
    · next hh => subst hh; simpa using h
    · exact h
theorem release_length (l : List (Fin 4 × Nat)) (ss : Vector Source 4) (i : Fin 4) (n : Nat) (h : ss[i].stores.length = n) : (l.foldl (onStore Source.release) ss)[i].stores.length = n := by
  induction l generalizing ss with
  | nil => exact h
  | cons x l ih =>
    apply ih
    unfold onStore
    rw [vector_get_set]
    split
    · next hh => subst hh; simpa using h
    · exact h

def oneIf (b : Bool) : Nat := if b then 1 else 0

theorem Plan.stores_nodup (p : Plan) : p.stores.Nodup := by
  unfold Plan.stores Plan.sides
  rcases p.fromSide with _ | a <;> rcases p.toSide with _ | b <;> simp [List.eraseDups_cons]
  by_cases h : (b.source, b.store) = (a.source, a.store)
  · simp [h, List.filter]
  · simp only [List.filter, Prod.mk.injEq] at h ⊢
    split <;> simp_all [List.eraseDups_cons]

theorem Plan.stores_count (p : Plan) (x) : p.stores.count x = oneIf (p.stores.contains x) := by
  have hn : p.stores.Nodup := Plan.stores_nodup p
  unfold oneIf
  by_cases h : x ∈ p.stores
  · rw [List.count_eq_one_of_mem hn h]; simp [h]
  · rw [List.count_eq_zero_of_not_mem h]; simp [h]

def planCount (p : Option Plan) (x : Fin 4 × Nat) : Nat := oneIf (p.any fun pl => pl.stores.contains x)

theorem pinPlan_at (ss : Vector Source 4) (p : Option Plan) (i n) : pinAt (pinPlan ss p) i n = (pinAt ss i n).map (· + planCount p (i,n)) := by
  unfold pinPlan
  rw [onStore_pin_at]
  cases p with
  | none => simp [planCount, oneIf]
  | some p => simp [planCount, Plan.stores_count]
theorem releasePlan_at (ss : Vector Source 4) (p : Option Plan) (i n) : pinAt (releasePlan ss p) i n = (pinAt ss i n).map (· - planCount p (i,n)) := by
  unfold releasePlan
  rw [onStore_release_at]
  cases p with
  | none => simp [planCount, oneIf]
  | some p => simp [planCount, Plan.stores_count]
theorem pinPlan_length (ss : Vector Source 4) (p : Option Plan) (i : Fin 4) : (pinPlan ss p)[i].stores.length = ss[i].stores.length := pin_length _ _ _ _ rfl
theorem releasePlan_length (ss : Vector Source 4) (p : Option Plan) (i : Fin 4) : (releasePlan ss p)[i].stores.length = ss[i].stores.length := release_length _ _ _ _ rfl

theorem State.namedBy_eq (s : State) (i p) : s.namedBy i p = planCount s.views[(0 : Fin 2)].plan (i,p) + planCount s.views[(1: Fin 2)].plan (i,p) := by
  unfold State.namedBy
  have : s.views.toList = [s.views[(0:Fin 2)], s.views[(1:Fin 2)]] := by
    apply List.ext_getElem
    · simp
    · intro n h1 h2
      simp at h2
      match n, h2 with
      | 0, _ => simp
      | 1, _ => simp
  rw [this]
  simp [List.countP_cons, View.names, planCount, oneIf]
  omega

theorem State.namedBy_sum (s : State) (v : Fin 2) (i p) : s.namedBy i p = planCount s.views[v].plan (i,p) + planCount s.views[otherView v].plan (i,p) := by
  rw [State.namedBy_eq]
  match v with
  | 0 => rfl
  | 1 => exact Nat.add_comm _ _

theorem Source.Kept.pinAt_set (ss : Vector Source 4) (j : Fin 4) (b : Source) (k : ss[j].Kept b) (i p) : pinAt (ss.set j.val b j.isLt) i p = pinAt ss i p := by
  unfold pinAt
  rw [vector_get_set]
  split
  · next h =>
    subst h
    have := congrArg (fun l => l[p]?) k.pins
    simpa [Source.pinList] using this
  · rfl

end Sys2Proof.Machine
end

