-- ==== Sys2Proof/Laws/Ranges.lean ====
section
/-! SUPPORT. The ranges of the Hand-off Controller (R57, R74), the Calibration Store (R37) and the Zoom
Controller (R49): each operation keeps its block in range. -/

namespace Sys2Proof.Machine

/-! ### The Hand-off Controller -/

theorem Correction.neutral_inRange : Correction.neutral.InRange := by unfold Correction.InRange; decide
theorem clampInt_in (v a b : Int) (h : a ≤ b) : a ≤ clampInt v a b ∧ clampInt v a b ≤ b := by unfold clampInt; omega
theorem matchCorrection_inRange (k : Correction) (a b) : (matchCorrection k a b).InRange := by
  unfold matchCorrection Correction.InRange matchOffset
  refine ⟨?_, ?_, (clampInt_in _ _ _ (by decide)).1, (clampInt_in _ _ _ (by decide)).2, (clampInt_in _ _ _ (by decide)).1, (clampInt_in _ _ _ (by decide)).2⟩
  · dsimp only; unfold matchGain; split; · split <;> simp
    unfold clampNat; omega
  · dsimp only; unfold matchGain; split; · split <;> simp
    unfold clampNat; omega
theorem Handoff.matching_inRange (n : StageInput) (h : Handoff) (p d) (hk : h.fromCorr.InRange) : (h.matching n p d).InRange := by
  unfold Handoff.matching; split; · exact matchCorrection_inRange _ _ _
  exact hk

theorem StageInput.pair_step (n : StageInput) (hn : ∀ x, n.active = some x → x.InRange) (p c) (h : n.pair p = some c) : c.step ≤ 256 := by
  unfold StageInput.pair pairRecord at h
  obtain ⟨x, hx, h⟩ := Option.bind_eq_some_iff.mp h
  split at h
  · exact (hn x hx).2 c (List.mem_of_getElem? h)
  · cases h

theorem Handoff.bandTests_same (n : StageInput) (h : Handoff) : (h.bandTests n).state = h.state ∧ (h.bandTests n).weight = h.weight ∧ (h.bandTests n).fromCorr = h.fromCorr ∧ (h.bandTests n).toCorr = h.toCorr := by
  unfold Handoff.bandTests
  generalize ([0,1,2] : List (Fin 3)) = l
  induction l generalizing h with
  | nil => exact ⟨rfl, rfl, rfl, rfl⟩
  | cons p l ih => exact ih (h.bandTest n p)

theorem Handoff.inRange_congr {h g : Handoff} (h1 : g.state = h.state) (h2 : g.weight = h.weight) (h3 : g.fromCorr = h.fromCorr) (h4 : g.toCorr = h.toCorr) (hh : h.InRange) : g.InRange := by
  unfold Handoff.InRange at *; rw [h1, h2, h3, h4]; exact hh

theorem Handoff.startBlend_inRange (n : StageInput) (h : Handoff) (p d c) (hc : c.step ≤ 256) (hh : h.InRange) : (h.startBlend n p d c).1.InRange := by
  obtain ⟨h1,h2,h3,h4,h5⟩ := hh
  exact ⟨hc, h2, Handoff.matching_inRange n h p d h2, by simp [Handoff.startBlend], by simp [Handoff.startBlend]⟩
theorem Handoff.rescueTo_inRange (h : Handoff) (b) : (h.rescueTo b).1.InRange := ⟨by simp [Handoff.rescueTo], Correction.neutral_inRange, Correction.neutral_inRange, fun _ => ⟨rfl, rfl⟩, fun _ _ _ _ => ⟨rfl, rfl⟩⟩
theorem Handoff.freeze_inRange (h : Handoff) (hh : h.InRange) : h.freeze.1.InRange := by
  obtain ⟨h1,h2,h3,h4,h5⟩ := hh
  exact ⟨h1,h2,h3, by simp [Handoff.freeze], by simp [Handoff.freeze]⟩
theorem Handoff.rescue_inRange (n) (h : Handoff) (hh : h.InRange) : (h.rescue n).1.InRange := by
  unfold Handoff.rescue; split; · exact Handoff.rescueTo_inRange _ _
  exact Handoff.freeze_inRange _ hh

theorem Handoff.transition_inRange (n : StageInput) (hn : ∀ x, n.active = some x → x.InRange) (h : Handoff) (hh : h.InRange) : (h.transition n).1.InRange := by
  have hh' := hh
  obtain ⟨h1,h2,h3,h4,h5⟩ := hh
  unfold Handoff.transition
  split
  · next hs =>
    unfold Handoff.stepSettled
    split
    · split
      · next p d c hd =>
        have hc : c.step ≤ 256 := by
          unfold Handoff.desired at hd
          split at hd
          · next p' c' hu =>
            cases hd
            unfold Handoff.upDesired at hu
            obtain ⟨a, -, hu⟩ := Option.bind_eq_some_iff.mp hu
            obtain ⟨b, hb, hu⟩ := Option.bind_eq_some_iff.mp hu
            split at hu
            · cases hu; exact StageInput.pair_step n hn _ _ hb
            · cases hu
          · obtain ⟨x, hu, hx⟩ := Option.map_eq_some_iff.mp hd
            cases hx
            unfold Handoff.downDesired at hu
            obtain ⟨a, -, hu⟩ := Option.bind_eq_some_iff.mp hu
            obtain ⟨b, hb, hu⟩ := Option.bind_eq_some_iff.mp hu
            split at hu
            · cases hu; exact StageInput.pair_step n hn _ _ hb
            · cases hu
        split
        · exact Handoff.startBlend_inRange n h p d c hc hh'
        · exact ⟨h1,h2,h3, by simp, fun _ _ _ _ => h4 hs⟩
      · exact hh'
    · exact Handoff.rescue_inRange n h hh'
  · next p d k hs =>
    have hab : ∀ r (g : Handoff), g.fromCorr = h.fromCorr → g.toCorr = h.toCorr → (g.abandon p d r).1.InRange := by
      intro r g hg1 hg2
      refine ⟨by simp [Handoff.abandon], ?_, ?_, fun _ => ?_, by simp [Handoff.abandon]⟩
      · simpa [Handoff.abandon, hg1] using h2
      · simpa [Handoff.abandon, hg2] using h3
      · exact ⟨rfl, by simpa [Handoff.abandon, hg2] using (h5 _ _ _ hs).2⟩
    unfold Handoff.stepPrepare
    split
    · split
      · exact hab _ _ rfl rfl
      · next c hc =>
        split
        · exact hab _ _ rfl rfl
        · split
          · exact Handoff.startBlend_inRange n h p d c (StageInput.pair_step n hn _ _ hc) hh'
          · split
            · cases d <;> exact hab _ _ rfl rfl
            · exact ⟨h1,h2,h3, by simp, fun _ _ _ _ => h5 _ _ _ hs⟩
    · split
      · exact Handoff.rescueTo_inRange _ _
      · exact Handoff.rescue_inRange n h hh'
  · next p d m hs =>
    have hto : (h.settleOnTo p d).InRange := ⟨by simp [Handoff.settleOnTo], h3, Correction.neutral_inRange, fun _ => ⟨rfl, rfl⟩, fun _ _ _ _ => ⟨rfl, rfl⟩⟩
    have hfr : (h.settleOnFrom).InRange := ⟨by simp [Handoff.settleOnFrom], h2, Correction.neutral_inRange, fun _ => ⟨rfl, rfl⟩, fun _ _ _ _ => ⟨rfl, rfl⟩⟩
    unfold Handoff.stepBlend
    simp only []
    split
    · split
      · exact hh'
      · next c hc =>
        split
        · exact hto
        · split
          · exact hfr
          · refine ⟨?_, h2, h3, by simp, by simp⟩
            show stepWeight _ _ _ ≤ 256
            unfold stepWeight
            split <;> omega
    · split
      · exact hfr
      · split
        · exact hto
        · exact Handoff.freeze_inRange _ hh'
  · unfold Handoff.stepFrozen
    split
    · exact ⟨by simp, Correction.neutral_inRange, Correction.neutral_inRange, fun _ => ⟨rfl, rfl⟩, fun _ _ _ _ => ⟨rfl, rfl⟩⟩
    · exact hh'

theorem Handoff.relax_inRange (n : StageInput) (h : Handoff) (hh : h.InRange) : (h.relax n).InRange := by
  obtain ⟨h1,⟨a,b,c,d,e,f⟩,h3,h4,h5⟩ := hh
  refine ⟨h1, ?_, h3, h4, h5⟩
  have hg : ∀ g : Nat, 128 ≤ relaxGain h.fromCorr.gain g ∧ relaxGain h.fromCorr.gain g ≤ 512 := by
    intro g; unfold relaxGain; split <;> omega
  have ho : ∀ x : Int, -32 ≤ x → x ≤ 32 → -32 ≤ relaxOffset x ∧ relaxOffset x ≤ 32 := by
    intro x _ _; unfold relaxOffset; split <;> (try split) <;> omega
  have hk : ∀ g, 128 ≤ g → g ≤ 512 → (h.fromCorr.relaxed g).InRange := fun g h1 h2 =>
    ⟨h1, h2, (ho _ c d).1, (ho _ c d).2, (ho _ e f).1, (ho _ e f).2⟩
  show (h.relaxedCorr n).InRange
  unfold Handoff.relaxedCorr
  split
  · split
    · exact hk _ (hg _).1 (hg _).2
    · exact Correction.neutral_inRange
  · exact hk 256 (by decide) (by decide)

theorem Handoff.warmRequests_inRange (n : StageInput) (h : Handoff) (hh : h.InRange) : (h.warmRequests n).1.InRange := by
  have h1 : (h.warmAbove n).1.InRange := by
    unfold Handoff.warmAbove
    split; · exact hh
    split; · exact hh
    split
    · exact hh
    · exact hh
  unfold Handoff.warmRequests
  dsimp only
  generalize (h.warmAbove n).1 = g at h1
  unfold Handoff.warmBelow
  split; · exact h1
  split; · exact h1
  split
  · exact h1
  · exact h1

theorem Handoff.stage_inRange (n : StageInput) (hn : ∀ x, n.active = some x → x.InRange) (h : Handoff) (hh : h.InRange) : (h.stage n).1.InRange := by
  unfold Handoff.stage
  dsimp only
  obtain ⟨b1,b2,b3,b4⟩ := Handoff.bandTests_same n h
  have hb := Handoff.inRange_congr b1 b2 b3 b4 hh
  generalize h.bandTests n = g at hb
  have ht := Handoff.transition_inRange n hn g hb
  generalize hg2 : (g.transition n).1 = g2 at ht ⊢
  have h3 : (if g.state = HandoffState.settled ∧ g2.state = HandoffState.settled ∧ g2.fromSrc = g.fromSrc then g2.relax n else g2).InRange := by
    split
    · exact Handoff.relax_inRange n g2 ht
    · exact ht
  generalize (if g.state = HandoffState.settled ∧ g2.state = HandoffState.settled ∧ g2.fromSrc = g.fromSrc then g2.relax n else g2) = g3 at h3
  split
  · exact Handoff.warmRequests_inRange n g3 h3
  · exact h3

/-! ### Plans -/

theorem Plan.mem_sides (p : Plan) (x) : x ∈ p.sides ↔ (∃ a, p.fromSide = some a ∧ x = (Side.fromSide, a)) ∨ (∃ a, p.toSide = some a ∧ x = (Side.toSide, a)) := by
  unfold Plan.sides
  cases p.fromSide <;> cases p.toSide <;> simp

def Arrangement.InRange (a : Arrangement) : Prop := a.weight ≤ 256 ∧ (∀ c, a.fromSide = some c → c.corr.InRange) ∧ (∀ c, a.toSide = some c → c.corr.InRange)

theorem sidesWeight_le (a b w) (h : w ≤ 256) : sidesWeight a b w ≤ 256 := by
  unfold sidesWeight; split <;> omega

theorem arrangement_inRange (h : Handoff) (hh : h.InRange) (ss : Vector Source 4) (cur : Option Plan) (lvl) : Arrangement.InRange (arrangement h ss cur lvl) := by
  obtain ⟨h1,h2,h3,-,-⟩ := hh
  have hb : Arrangement.InRange (if h.state = .frozen then frozenArrangement h cur else chosenArrangement h ss cur) := by
    split
    · refine ⟨sidesWeight_le _ _ _ h1, ?_, ?_⟩
      · intro c hcc
        obtain ⟨x, hx, rfl⟩ := Option.map_eq_some_iff.mp hcc
        exact h2
      · intro c hcc
        obtain ⟨x, hx, rfl⟩ := Option.map_eq_some_iff.mp hcc
        exact h3
    · refine ⟨sidesWeight_le _ _ _ h1, ?_, ?_⟩
      · intro c hcc
        obtain ⟨x, hx, rfl⟩ := Option.map_eq_some_iff.mp hcc
        exact h2
      · intro c hcc
        obtain ⟨t, ht, hx⟩ := Option.bind_eq_some_iff.mp hcc
        obtain ⟨y, hy, rfl⟩ := Option.map_eq_some_iff.mp hx
        exact h3
  unfold arrangement
  generalize (if h.state = .frozen then frozenArrangement h cur else chosenArrangement h ss cur) = a at hb ⊢
  unfold Arrangement.degraded
  split
  · split
    · exact ⟨by simp, hb.2.1, by simp⟩
    · exact ⟨by simp, by simp, hb.2.2⟩
  · exact hb

theorem SideChoice.latch_corr (a : SideChoice) (active ss z w h c sp) (hl : a.latch active ss z w h c = some sp) : sp.corr = a.corr := by
  unfold SideChoice.latch at hl
  obtain ⟨r, -, rfl⟩ := Option.map_eq_some_iff.mp hl
  rfl

theorem latchPlan_inRange (r n lvl cur ss active zm) (h : Handoff) (hh : h.InRange) : (latchPlan r n lvl cur ss active zm h).InRange := by
  have ha := arrangement_inRange h hh ss cur lvl
  refine ⟨ha.1, ?_⟩
  intro x hx
  rw [Plan.mem_sides] at hx
  rcases hx with ⟨sp, hsp, rfl⟩ | ⟨sp, hsp, rfl⟩
  · obtain ⟨c, hc1, hc2⟩ := Option.bind_eq_some_iff.mp hsp
    show sp.corr.InRange
    rw [SideChoice.latch_corr _ _ _ _ _ _ _ _ hc2]; exact ha.2.1 c hc1
  · obtain ⟨c, hc1, hc2⟩ := Option.bind_eq_some_iff.mp hsp
    show sp.corr.InRange
    rw [SideChoice.latch_corr _ _ _ _ _ _ _ _ hc2]; exact ha.2.2 c hc1
/-! ### The Calibration Store -/

theorem firstFailing_none {code n shift : Nat} {bad : Nat → Bool} (h : firstFailing code n shift bad = none) (i) (hi : i < n) : bad i = false := by
  unfold firstFailing at h
  rw [Option.map_eq_none_iff, List.find?_eq_none] at h
  simpa using h i (List.mem_range.mpr hi)

theorem blockSet_inRange (bs : List Byte) (len) (ss) (h : checkRange bs len ss = none) : (blockSet bs).InRange := by
  unfold checkRange at h
  rw [Option.map_eq_none_iff, List.findSome?_eq_none_iff] at h
  constructor
  · have h5 := h (firstFailing 5 (blockSet bs).count 0 fun i => decide (24576 < (((blockSet bs).sources[i]?).map CalSource.floor).getD 0)) (by unfold rangeChecks; simp)
    intro x hx
    obtain ⟨i, hi, rfl⟩ := List.getElem_of_mem hx
    have hl : (blockSet bs).sources.length = (blockSet bs).count := by simp [blockSet]
    have := firstFailing_none h5 i (hl ▸ hi)
    simp only [List.getElem?_eq_getElem hi] at this
    simpa using this
  · have h5 := h (firstFailing 13 ((blockSet bs).count-1) 0 fun i => decide ((((blockSet bs).pairs[i]?).map CalPair.step).getD 0 < 1) || decide (256 < (((blockSet bs).pairs[i]?).map CalPair.step).getD 0)) (by unfold rangeChecks; simp)
    intro x hx
    obtain ⟨i, hi, rfl⟩ := List.getElem_of_mem hx
    have hl : (blockSet bs).pairs.length = (blockSet bs).count - 1 := by simp [blockSet]
    have := firstFailing_none h5 i (hl ▸ hi)
    simp only [List.getElem?_eq_getElem hi] at this
    simp at this
    omega

theorem CalStore.endLoad_inRange (c : CalStore) (ss) (h : c.InRange) : (c.endLoad ss).1.InRange := by
  unfold CalStore.endLoad
  split
  · exact h
  · split
    · exact h
    · next l _ hc =>
      refine ⟨h.1, ?_⟩
      intro x hx
      cases hx
      unfold checkLoad at hc
      split at hc
      · cases hc
      · rw [Option.or_eq_none_iff] at hc
        exact blockSet_inRange _ _ _ hc.2

/-! ### The Zoom Controller -/

theorem floorOf_le (a : Option CalSet) (h : ∀ x, a = some x → x.InRange) (i) : floorOf a i ≤ 24576 := by
  unfold floorOf calSource
  cases a with
  | none => simp
  | some c =>
    simp only [Option.bind_some]
    split
    · cases hx : c.sources[i.val]? with
      | none => simp
      | some x => simpa using (h c rfl).1 x (List.mem_of_getElem? hx)
    · simp

theorem floorOf_le_servedFloor (a : Option CalSet) (h : Handoff) (i) (hi : i ∈ h.named) : floorOf a i ≤ servedFloor a h := by
  unfold servedFloor floorSource
  have key : ∀ (l : List (Fin 4)) (b : Fin 4), floorOf a b ≤ floorOf a (l.foldl (fun b i => if floorOf a b < floorOf a i ∨ (floorOf a b = floorOf a i ∧ i < b) then i else b) b) ∧ ∀ i ∈ l, floorOf a i ≤ floorOf a (l.foldl (fun b i => if floorOf a b < floorOf a i ∨ (floorOf a b = floorOf a i ∧ i < b) then i else b) b) := by
    intro l
    induction l with
    | nil => intro b; simp
    | cons x l ih =>
      intro b
      rw [List.foldl_cons]
      obtain ⟨h1, h2⟩ := ih (if floorOf a b < floorOf a x ∨ (floorOf a b = floorOf a x ∧ x < b) then x else b)
      have hb : floorOf a b ≤ floorOf a (if floorOf a b < floorOf a x ∨ (floorOf a b = floorOf a x ∧ x < b) then x else b) := by split <;> omega
      have hx : floorOf a x ≤ floorOf a (if floorOf a b < floorOf a x ∨ (floorOf a b = floorOf a x ∧ x < b) then x else b) := by split <;> omega
      refine ⟨hb.trans h1, ?_⟩
      intro i hi
      rcases List.mem_cons.mp hi with rfl | hi
      · exact hx.trans h1
      · exact h2 i hi
  exact (key h.named h.fromSrc).2 i hi

theorem Zoom.proposed_range (z : Zoom) (h1 : 1024 ≤ z.target) (h2 : z.target ≤ 24576) (h3 : 1024 ≤ z.current) (h4 : z.current ≤ 24576) : 1024 ≤ z.proposed ∧ z.proposed ≤ 24576 := by
  unfold Zoom.proposed
  split
  · omega
  · split
    · omega
    · split <;> omega

end Sys2Proof.Machine
end

