-- ==== Sys2Proof/Laws/Report.lean ====
section
/-! SUPPORT. What each operation of the Report Unit does to its room (R173 to R177, R181), and the lift
of that to the operations on the whole state that raise events. -/

namespace Sys2Proof.Machine

/-! ### The queue's count -/

@[simp] theorem Report.enqueue_queued (r : Report) (p : Record) :
    (r.enqueue p).queued = r.queued + 1 := by
  simp [Report.enqueue, Report.queued, OutItem.isRecord]

@[simp] theorem Report.enqueue_unacked (r : Report) (p : Record) :
    (r.enqueue p).unacked = r.unacked := rfl

theorem Report.enqueue_bounded (r : Report) (p : Record) (hr : r.hasRoom = true) :
    (r.enqueue p).Bounded := by
  simp only [Report.hasRoom, Bool.and_eq_true, decide_eq_true_eq] at hr
  simp only [Report.Bounded, Report.enqueue_queued, Report.enqueue_unacked]
  omega

/-- An event dropped, queued or folded keeps the room (R174). -/
theorem Report.raise_bounded (r : Report) (now : Word) (e : Event) (h : r.Bounded) :
    (r.raise now e).Bounded := by
  unfold Report.raise
  split
  · exact h
  · split
    · next hr => exact Report.enqueue_bounded _ _ ((Bool.and_eq_true _ _).mp hr).2
    · exact h

/-- Pending entries move only while there is room (R175). -/
theorem Report.moveEntries_bounded (ps : List Record) (r : Report) (h : r.Bounded) :
    (Report.moveEntries ps r).Bounded := by
  induction ps generalizing r with
  | nil => exact h
  | cons p ps ih =>
    unfold Report.moveEntries
    split
    · next hr => exact ih _ (Report.enqueue_bounded _ _ hr)
    · exact h

theorem Report.testRoom_bounded (r : Report) (h : r.Bounded) : r.testRoom.Bounded :=
  Report.moveEntries_bounded _ _ h

@[simp] theorem Report.moveEntries_writeIndex (ps : List Record) (r : Report) :
    (Report.moveEntries ps r).writeIndex = r.writeIndex := by
  induction ps generalizing r with
  | nil => rfl
  | cons p ps ih =>
    unfold Report.moveEntries
    split
    · rw [ih]; rfl
    · rfl

@[simp] theorem Report.moveEntries_ackIndex (ps : List Record) (r : Report) :
    (Report.moveEntries ps r).ackIndex = r.ackIndex := by
  induction ps generalizing r with
  | nil => rfl
  | cons p ps ih =>
    unfold Report.moveEntries
    split
    · rw [ih]; rfl
    · rfl

@[simp] theorem Report.moveEntries_alertFlags (ps : List Record) (r : Report) :
    (Report.moveEntries ps r).alertFlags = r.alertFlags := by
  induction ps generalizing r with
  | nil => rfl
  | cons p ps ih =>
    unfold Report.moveEntries
    split
    · rw [ih]; rfl
    · rfl

/-- A mirror request moves no record and no index (R181). -/
theorem Report.requestMirror_bounded (r : Report) (h : r.Bounded) : r.requestMirror.Bounded := by
  unfold Report.requestMirror
  split
  · exact h
  · simpa [Report.Bounded, Report.queued, Report.unacked, OutItem.isRecord] using h

/-- The grant of the record at the head moves one place from the queue to the ring (R176). -/
theorem Report.grantRecord_bounded (r : Report) (p : Record) (rest : List OutItem)
    (ho : r.output = .record p :: rest) (h : r.Bounded) : (r.grantRecord p).Bounded := by
  refine Report.testRoom_bounded _ ?_
  simp only [Report.Bounded, Report.queued, Report.unacked, ho, List.tail_cons,
    List.countP_cons, OutItem.isRecord, if_true] at h ⊢
  obtain ⟨h1, h2⟩ := h
  have : (r.writeIndex + 1 - r.ackIndex).toNat = (r.writeIndex - r.ackIndex).toNat + 1 := by
    bv_omega
  omega

/-- The grant of a mirror writing moves no record (R181). -/
theorem Report.grantMirror_bounded (r : Report) (rest : List OutItem)
    (ho : r.output = .mirror :: rest) (h : r.Bounded) : r.grantMirror.Bounded := by
  simpa [Report.Bounded, Report.queued, Report.unacked, Report.grantMirror, ho,
    List.countP_cons, OutItem.isRecord] using h

/-- A new acknowledge value only frees positions (R177). -/
theorem Report.takeAck_bounded (r : Report) (h : r.Bounded) : r.takeAck.Bounded := by
  unfold Report.takeAck
  dsimp only
  split
  · exact h
  · split
    · next hle =>
      refine Report.testRoom_bounded _ ?_
      simp only [Report.Bounded, Report.queued, Report.unacked] at h ⊢
      have : (r.writeIndex - r.offered).toNat ≤ (r.writeIndex - r.ackIndex).toNat := by bv_omega
      omega
    · refine Report.testRoom_bounded _ ?_
      simp only [Report.Bounded, Report.queued, Report.unacked] at h ⊢
      simp only [BitVec.sub_self]
      exact ⟨h.1, by simp; omega⟩

theorem Report.copyAck_bounded (r : Report) (bs : List (Fin 4 × Byte)) (h : r.Bounded) :
    (r.copyAck bs).Bounded := by
  unfold Report.copyAck
  split
  · exact h
  · exact Report.takeAck_bounded _ h

theorem Report.reset_bounded (c : ResetCause) : (Report.reset c).Bounded := by
  cases c <;> (unfold Report.Bounded; decide)

/-! ### The operations that raise events -/

theorem State.raise_bounded (s : State) (e : Event) (h : s.report.Bounded) :
    (s.raise e).report.Bounded := by
  rw [State.raise_report]
  split
  · exact Report.raise_bounded _ _ _ h
  · exact h

theorem State.raiseAll_bounded (s : State) (es : List Event) (h : s.report.Bounded) :
    (s.raiseAll es).report.Bounded := by
  induction es generalizing s with
  | nil => exact h
  | cons e es ih => exact ih _ (State.raise_bounded _ _ h)

theorem State.onSource_bounded (s : State) (i : Fin 4) (f : Source → Source × List Event)
    (h : s.report.Bounded) : (s.onSource i f).report.Bounded := State.raiseAll_bounded _ _ h

theorem State.onView_bounded (s : State) (i : Fin 2) (f : ViewEnv → ViewWork → ViewWork)
    (h : s.report.Bounded) : (s.onView i f).report.Bounded := by
  unfold State.onView
  split
  · exact h
  · exact State.raiseAll_bounded _ _ h

theorem State.leadStages_bounded (s : State) (i : Fin 2) (h : s.report.Bounded) :
    (s.leadStages i).report.Bounded := by
  refine State.raiseAll_bounded _ _ ?_
  show s.activationStage.report.Bounded
  unfold State.activationStage
  split
  · split
    · exact State.raise_bounded _ _ h
    · exact h
  · exact h

theorem State.latchStages_bounded (s : State) (i : Fin 2) (h : s.report.Bounded) :
    (s.latchStages i).report.Bounded := by
  unfold State.latchStages
  split
  · exact h
  · exact State.onView_bounded _ _ _ h

theorem State.openFrame_bounded (s : State) (i : Fin 2) (rows : List Nat) (h : s.report.Bounded) :
    (s.openFrame i rows).report.Bounded := by
  unfold State.openFrame
  dsimp only
  split
  · exact Report.requestMirror_bounded _
      (State.latchStages_bounded _ _ (State.leadStages_bounded _ _ (State.onView_bounded _ _ _ h)))
  · exact State.latchStages_bounded _ _ (State.onView_bounded _ _ _ h)

theorem State.acceptAperture_bounded (s : State) (i : Fin 2) (q : ReadReq) (h : s.report.Bounded) :
    (s.acceptAperture i q).report.Bounded := by
  unfold State.acceptAperture
  split
  · exact h
  · dsimp only
    refine State.onView_bounded _ _ _ ?_
    split
    · exact State.openFrame_bounded _ _ _ h
    · exact h

theorem State.acceptRead_bounded (s : State) (r : ReadReq) (h : s.report.Bounded) :
    (s.acceptRead r).report.Bounded := by
  unfold State.acceptRead
  split
  · exact State.acceptAperture_bounded _ _ _ h
  · exact h
  · exact h
  · exact h

theorem State.acceptWrite_bounded (s : State) (w : WriteReq) (h : s.report.Bounded) :
    (s.acceptWrite w).report.Bounded := by
  unfold State.acceptWrite
  split
  · exact State.raise_bounded _ _ h
  · exact State.onSource_bounded _ _ _ h
  · exact Report.copyAck_bounded _ _ (State.raiseAll_bounded _ _ h)
  · exact h

end Sys2Proof.Machine
end

