-- ==== Sys2Proof/Laws/Step.lean ====
section
/-! SUPPORT. The one induction over the commands: what a property of the state must survive so that every
step keeps it. Each field of `Keeps` names one operation that a command runs, under the condition the
command tests before it. -/

namespace Sys2Proof.Machine

/-- The state that a reset leaves before waiting requests are accepted (R148, R189). -/
def State.resetCore (s : State) (c : ResetCause) (phase : Phase) : State :=
  { s.blocksReset c with
    phase
    up := { s.up with responses := s.up.responses ++ s.resetAnswers }
    outstanding := s.outstanding.map fun o => o.map OutEntry.atReset }

theorem State.takeReset_eq (s : State) (c : ResetCause) (phase : Phase) :
    s.takeReset c phase = (s.resetCore c phase).acceptWaiting := rfl

theorem refclkKHz_pos (clk : BitVec 2) : 0 < refclkKHz clk := by revert clk; decide

/-- All that an idle step can do: one count of the time base, outside the holds (R186). -/
theorem State.tick_eq (s : State) : s.tick =
    match s.phase with
    | .powerOnHold | .pinHold => s
    | .initializing | .running => { s with timeBase := s.timeBase + 1 } := by
  simp only [State.tick, State.passRefclk, Nat.div_self (refclkKHz_pos _)]
  rfl

/-- The end of initialization, once it is due (R190). -/
def State.initEnded (s : State) : State :=
  (State.raise { s with phase := .running, windows := setActive Window.isControl true s.windows }
    (resetDoneEvent s.report.cause)).requestMirror

/-- What a property of the state must survive. -/
structure Keeps (P : State → Prop) : Prop where
  queue : ∀ s cs, P s → P { s with pending := cs }
  tick : ∀ s, P s → P s.tick
  draw : ∀ s, P s → P { s with draws := s.draws + 1 }
  powerOn : ∀ s, P s → P s.powerOn
  pin : ∀ s b, P s → P { s with rstN := b }
  sample : ∀ s cp clk, s.phase ≠ .running → P s → P (s.sampleStraps cp clk)
  beginInit : ∀ s, s.phase ≠ .running → P s → P s.beginInit
  reset : ∀ s c ph, ph ≠ .running → P s → P (s.resetCore c ph)
  endInit : ∀ s, s.phase = .initializing → P s → P s.initEnded
  read : ∀ s r rs, s.up.reads = r :: rs → s.canAcceptRead r = true → P s → P (s.takeRead r)
  write : ∀ s w ws, s.up.writes = w :: ws → s.canAcceptWrite w = true → P s → P (s.takeWrite w)
  arriveRead : ∀ s r, P s → P { s with up := { s.up with reads := s.up.reads ++ [r] } }
  arriveWrite : ∀ s w, P s → P { s with up := { s.up with writes := s.up.writes ++ [w] } }
  hold : ∀ s v, P s → P (s.onView v fun e w => w.expireHold e)
  idle : ∀ s v, P s → P (s.onView v fun e w => w.expireIdle e)
  stall : ∀ s i, s.sources[i].watchdogDue s.timeBase = true → P s →
    P (s.onSource i fun src => src.stall i)
  grant : ∀ s e g, s.freeEntry = some e → s.winner = some g → P s → P (s.grantedTo e g)
  respond : ∀ s e o m, s.outstanding[e] = some o → m.data.length = o.owner.dataLength → P s →
    P (s.arrive e o m)
  mark : ∀ s, P s → P s.markTaken
  complete : ∀ s sl r, P s → P (s.completeTake sl r)
  partReset : ∀ s sl, P s → P { s with cmd := { s.cmd.complete sl .ok with last := s.cmd.last } }
  setUpSource : ∀ s i r, s.sourceSetupResult i r = .ok → P s → P (s.setUpSource i r)
  enableSource : ∀ s i, s.sources[i].state = .off → P s → P (s.enableSource i)
  disableSource : ∀ s i, s.sources[i].state.windowsActive = true → P s → P (s.disableSource i)
  setUpView : ∀ s v r, s.viewSetupResult v r = .ok → P s → P (s.setUpView v r)
  enableView : ∀ s v, s.views[v].record.isSome = true → s.views[v].enabled = false → P s →
    P (s.enableView v)
  disableView : ∀ s v, s.views[v].record.isSome = true → s.views[v].enabled = true → P s →
    P (s.disableView v)
  calLoad : ∀ s sl, s.calLoadResult sl = .ok → P s →
    P { s with cal := { s.cal with load := some (Load.start sl.loadAddr sl.loadLength) } }
  zoomSet : ∀ s sl, sl.zoomSlew ≤ slewLimit → P s → P (actZoomSet sl s).2
  eventSetup : ∀ s sl, isLevel sl.index = true → P s → P (actEventSetup sl s).2
  eventForce : ∀ s sl, isLevel sl.index = true → P s → P (s.raise (eventForcedEvent sl))

variable {P : State → Prop}

theorem Keeps.acceptWaiting (k : Keeps P) (s : State) (h : P s) : P s.acceptWaiting :=
  State.acceptWaiting_keeps k.draw k.read k.write s h

/-- A take keeps a property that its owner's effect keeps. -/
theorem Keeps.take (k : Keeps P) (s : State) (mine : Slot → Bool) (act : OwnerAct)
    (hact : ∀ s sl, P s → (act sl s).1 = .ok → P (act sl s).2) (h : P s) : P (s.take mine act) := by
  unfold State.take
  split
  · split
    · unfold State.runTake
      dsimp only
      split
      · exact k.complete _ _ _ (k.mark _ h)
      · refine k.complete _ _ _ ?_
        split
        · next hok => exact hact _ _ (k.mark _ h) hok
        · exact k.mark _ h
    · exact h
  · exact h

theorem Keeps.request (k : Keeps P) {s t : State} (q : Request) (h : P s)
    (ht : s.request q = .next t) : P t := by
  unfold State.request at ht
  split at ht
  · cases ht
    cases q with
    | read r => exact k.acceptWaiting _ (k.arriveRead _ _ h)
    | write w => exact k.acceptWaiting _ (k.arriveWrite _ _ h)
  · cases ht

theorem Keeps.response (k : Keeps P) {s t : State} (e : Fin 64) (m : MemResp) (h : P s)
    (ht : s.respond e m = .next t) : P t := by
  unfold State.respond at ht
  split at ht
  · cases ht
  · next o ho =>
    split at ht
    · next hl => cases ht; exact k.acceptWaiting _ (k.respond _ _ _ _ ho hl h)
    · cases ht

theorem Keeps.lowerRstN (k : Keeps P) (s : State) (h : P s) : P s.lowerRstN := by
  unfold State.lowerRstN
  split
  · exact k.pin _ _ h
  · exact h
  all_goals
    rw [State.takeReset_eq]
    exact k.acceptWaiting _ (k.reset _ _ _ (by decide) (k.pin _ _ h))

theorem Keeps.raiseRstN (k : Keeps P) (s : State) (cp : BitVec 4) (clk : BitVec 2) (h : P s) :
    P (s.raiseRstN cp clk) := by
  unfold State.raiseRstN
  split
  · next hp =>
    exact k.beginInit _ (by simp [State.sampleStraps, hp]) (k.sample _ _ _ (by simp [hp]) (k.pin _ _ h))
  · next hp =>
    split
    · exact h
    · exact k.sample _ _ _ (by simp [hp]) (k.pin _ _ h)
  · exact h
  · exact h

/-- The actions of the commands' owners. -/
theorem Keeps.acts (k : Keeps P) :
    (∀ s sl, P s → (actSourceSetup sl s).1 = .ok → P (actSourceSetup sl s).2) ∧
    (∀ s sl, P s → (actSourceEnable sl s).1 = .ok → P (actSourceEnable sl s).2) ∧
    (∀ s sl, P s → (actSourceDisable sl s).1 = .ok → P (actSourceDisable sl s).2) ∧
    (∀ s sl, P s → (actViewSetup sl s).1 = .ok → P (actViewSetup sl s).2) ∧
    (∀ s sl, P s → (actViewEnable sl s).1 = .ok → P (actViewEnable sl s).2) ∧
    (∀ s sl, P s → (actViewDisable sl s).1 = .ok → P (actViewDisable sl s).2) ∧
    (∀ s sl, P s → (actCalLoad sl s).1 = .ok → P (actCalLoad sl s).2) ∧
    (∀ s sl, P s → (actZoomSet sl s).1 = .ok → P (actZoomSet sl s).2) ∧
    (∀ s sl, P s → (actEventSetup sl s).1 = .ok → P (actEventSetup sl s).2) ∧
    (∀ s sl, P s → (actEventForce sl s).1 = .ok → P (actEventForce sl s).2) := by
  refine ⟨?_, ?_, ?_, ?_, ?_, ?_, ?_, ?_, ?_, ?_⟩ <;> intro s sl h
  · unfold actSourceSetup
    split
    · exact fun _ => h
    · exact fun hok => k.setUpSource _ _ _ hok h
  · unfold actSourceEnable
    split
    · exact fun _ => h
    · split
      · exact fun _ => h
      · split
        · next hs => exact fun _ => k.enableSource _ _ hs h
        · exact fun _ => h
  · unfold actSourceDisable
    split
    · exact fun _ => h
    · split
      · exact fun _ => h
      · split
        · exact fun _ => h
        · exact fun _ => h
        all_goals
          next hs => exact fun _ => k.disableSource _ _ (by rw [hs]; rfl) h
  · unfold actViewSetup
    split
    · exact fun _ => h
    · exact fun hok => k.setUpView _ _ _ hok h
  · unfold actViewEnable
    split
    · exact fun _ => h
    · split
      · exact fun _ => h
      · split
        · next hs => exact fun _ => k.enableView _ _ hs.1 hs.2 h
        · exact fun _ => h
  · unfold actViewDisable
    split
    · exact fun _ => h
    · split
      · exact fun _ => h
      · split
        · exact fun _ => h
        · next hr =>
          split
          · next hs => exact fun _ => k.disableView _ _ (Option.isSome_iff_ne_none.mpr (by simpa using hr)) hs h
          · exact fun _ => h
  · exact fun hok => k.calLoad _ _ hok h
  · by_cases hz : sl.zoomSlew ≤ slewLimit
    · exact fun _ => k.zoomSet _ _ hz h
    · unfold actZoomSet
      rw [if_pos (by omega)]
      exact fun _ => h
  · by_cases hz : isLevel sl.index = true
    · exact fun _ => k.eventSetup _ _ hz h
    · unfold actEventSetup
      rw [if_neg hz]
      exact fun _ => h
  · by_cases hz : isLevel sl.index = true
    · unfold actEventForce
      rw [if_pos hz]
      exact fun _ => k.eventForce _ _ hz h
    · unfold actEventForce
      rw [if_neg hz]
      exact fun _ => h

theorem Keeps.takePartReset (k : Keeps P) (s : State) (h : P s) : P s.takePartReset := by
  unfold State.takePartReset
  split
  · split
    · dsimp only
      split
      · exact k.complete _ _ _ (k.mark _ h)
      · rw [State.takeReset_eq]
        exact k.acceptWaiting _ (k.reset _ _ _ (by decide) (k.partReset _ _ (k.mark _ h)))
    · exact h
  · exact h

/-- Every command keeps a property that survives each operation of `Keeps`. -/
theorem Keeps.exec (k : Keeps P) {s t : State} (i : Instr) (h : P s)
    (ht : exec i s = .next t) : P t := by
  obtain ⟨a1, a2, a3, a4, a5, a6, a7, a8, a9, a10⟩ := k.acts
  cases i with
  | powerOnReset => cases ht; exact k.powerOn _ h
  | powerOnHoldEnd cp clk =>
    cases ht
    unfold State.endHold
    split
    · next hp =>
      exact k.beginInit _ (by simp [State.sampleStraps, hp.1]) (k.sample _ _ _ (by simp [hp.1]) h)
    · exact h
  | pinReset => cases ht; exact k.lowerRstN _ h
  | rstNRelease cp clk => cases ht; exact k.raiseRstN _ _ _ h
  | endOfInitialization =>
    cases ht
    unfold State.endInit
    split
    · next hp => exact k.endInit _ hp.1 h
    · exact h
  | passThroughRequest q => exact k.request q h ht
  | cameraRead r => exact k.request _ h ht
  | cameraWrite w => exact k.request _ h ht
  | controlPageWrite w => exact k.request _ h ht
  | apertureRead r => exact k.request _ h ht
  | apertureWriteRefused w => exact k.request _ h ht
  | holdLimitExpiry v => cases ht; exact k.acceptWaiting _ (k.hold _ _ h)
  | idleTimerExpiry v => cases ht; exact k.idle _ _ h
  | watchdogExpiry i =>
    cases ht
    split
    · next hd => exact k.stall _ _ hd h
    · exact h
  | arbiterGrant =>
    cases ht
    apply k.acceptWaiting
    unfold State.grant
    split
    · next he hg => exact k.grant _ _ _ he hg h
    · exact h
  | responseRelay e m => exact k.response e m h ht
  | discardedResponse e m => exact k.response e m h ht
  | fetchCompletion e m => exact k.response e m h ht
  | calibrationLoadEnd e m => exact k.response e m h ht
  | nop => cases ht; exact k.take _ _ _ (fun _ _ h _ => h) h
  | sourceSetup => cases ht; exact k.take _ _ _ a1 h
  | sourceControlEnable => cases ht; exact k.take _ _ _ a2 h
  | sourceControlDisable => cases ht; exact k.take _ _ _ a3 h
  | viewSetup => cases ht; exact k.take _ _ _ a4 h
  | viewControlEnable => cases ht; exact k.acceptWaiting _ (k.take _ _ _ a5 h)
  | viewControlDisable => cases ht; exact k.acceptWaiting _ (k.take _ _ _ a6 h)
  | calLoad => cases ht; exact k.take _ _ _ a7 h
  | zoomSet => cases ht; exact k.take _ _ _ a8 h
  | eventSetup => cases ht; exact k.take _ _ _ a9 h
  | eventForce => cases ht; exact k.take _ _ _ a10 h
  | partReset => cases ht; exact k.takePartReset _ h
  | unknownCommandTake => cases ht; exact k.take _ _ _ (fun _ _ h _ => h) h
  | ownRequestResponse e m => exact k.response e m h ht

/-- Every step keeps a property that survives each operation of `Keeps`. -/
theorem Keeps.step (k : Keeps P) {s t : State} (h : P s) (ht : step s = .next t) : P t := by
  unfold Machine.step at ht
  split at ht
  · exact k.exec _ (k.queue _ _ h) ht
  · cases ht; exact k.tick _ h

end Sys2Proof.Machine
end

