-- ==== Sys2Proof/Tests/Slice0.lean ====
section
/-! SUPPORT. Tests of the model on small states: the shape check refuses what R137 does not allow, each
command does what the spec's figures say, and each statement's hypotheses are met by a concrete state. -/

namespace Sys2Proof.Tests

-- one kernel evaluation at a time: many at once need a thread each, and with it the memory
set_option Elab.async false

open Sys2Proof Sys2Proof.Machine

/-! ### Helpers -/

/-- The next state of a command, if there is one. -/
def after (c : Instr) (s : State) : Option State :=
  match exec c s with
  | .next t => some t
  | .fault _ => none
  | .refused _ => none

/-- A command slot with every mark set: code and body as bytes, check byte (R165), tag 0102h. -/
def slotOf (bytes : List Nat) : Slot :=
  { bytes := Vector.ofFn fun i =>
      BitVec.ofNat 8
        (if i.val = 60 then 256 - bytes.sum % 256
         else (([(61, 0xA5), (62, 2), (63, 1)] : List (Nat × Nat)).lookup i.val).getD (bytes.getD i.val 0))
    marks := Vector.replicate 64 true
    state := .ready
    incomplete := false
    overrun := false }

/-- The slot at the next-slot pointer holds `sl`. -/
def withSlot (sl : Slot) (s : State) : State :=
  { s with cmd := { s.cmd with slots := s.cmd.slots.set s.cmd.next.val sl s.cmd.next.isLt } }

/-- The part running at time 100,000 µs, the next-slot pointer at its last slot. -/
def base : State :=
  { State.reset with
    phase := .running
    timeBase := 100000
    windows := [controlWindow 0 true]
    cmd := { CommandUnit.reset with next := 31, consumed := 31 } }

/-- A source of 64 × 64 pixels with two positions and one spare. -/
def srcRec : SourceRecord :=
  ⟨16, 64, 64, 256, 2, 1, 0, [0x10000000, 0x10010000], [0x10020000]⟩

/-- A view of 64 × 64 pixels, lookahead 1, warn lead 1, hold limit 16 µs, underrun limit 1. -/
def viewRec : ViewRecord := ⟨64, 64, 256, 0x20000000, 16, 128, 128, 1, 1, 16, 1, 10⟩

/-- Source 0 enabled: WAITING, its watchdog loaded at 100,000 µs. -/
def camState : State := (base.setUpSource 0 srcRec).enableSource 0

/-- View 0 enabled beside source 0: IDLE. -/
def viewState : State := (camState.setUpView 0 viewRec).enableView 0

/-- A state with source 0 replaced. -/
def withSource (src : Source) (s : State) : State := { s with sources := s.sources.set 0 src }

/-- A state with view 0 replaced. -/
def withView (v : View) (s : State) : State := { s with views := s.views.set 0 v }

/-- A one-beat read. -/
def rd (addr : Addr) : ReadReq := ⟨9, addr, 1, 3⟩

/-- A one-beat write of sixteen bytes 55h from master `tag`. -/
def wr (tag : Byte) (addr : Addr) : WriteReq :=
  ⟨tag, addr, 1, 4, List.replicate 16 0x55, List.replicate 16 true⟩

/-- A state with one outstanding entry. -/
def withOut (e : Fin 64) (o : Owner) (s : State) : State :=
  { s with outstanding := s.outstanding.set e.val (some ⟨o, false⟩) e.isLt }

theorem base_quiet : base.quiet := ⟨rfl, rfl⟩
theorem camState_quiet : camState.quiet := ⟨rfl, rfl⟩
theorem viewState_quiet : viewState.quiet := ⟨rfl, rfl⟩

/-! ### The shape of requests and responses (R137, R138) -/

theorem test_wf_refuses_no_beats : (Instr.cameraRead ⟨0, 0, 0, 0⟩).wf = false := by decide
theorem test_wf_refuses_17_beats : (Instr.apertureRead ⟨0, 0, 17, 0⟩).wf = false := by decide
theorem test_wf_refuses_4KiB_crossing :
    (Instr.passThroughRequest (.read ⟨0, 0xFF8, 1, 0⟩)).wf = false ∧
    (Instr.passThroughRequest (.read ⟨0, 0xFF0, 1, 0⟩)).wf = true := by decide
theorem test_wf_refuses_short_data :
    (Instr.cameraWrite ⟨0, 0, 1, 0, List.replicate 15 0, List.replicate 16 true⟩).wf = false := by decide
theorem test_wf_refuses_missing_strobes :
    (Instr.controlPageWrite ⟨0, 0, 1, 0, List.replicate 16 0, List.replicate 15 true⟩).wf = false ∧
    (Instr.apertureWriteRefused ⟨0, 0, 1, 0, List.replicate 16 0, []⟩).wf = false := by decide
theorem test_wf_refuses_part_beat :
    (Instr.responseRelay 0 ⟨.okay, [0]⟩).wf = false ∧
    (Instr.discardedResponse 0 ⟨.okay, List.replicate 272 0⟩).wf = false := by decide +kernel

/-! ### Figures of the spec -/

/-- Store size of the wide camera (section 1.1). -/
theorem test_store_size : roundUpPage (3000 * 16000) = 48001024 := by decide

/-- The 26 reads of the fetch of row 1552 (R124). -/
theorem test_fetch_reads :
    (readsFor (1552 * 16000 + 4 * 1199) (1552 * 16000 + 4 * 2800 + 3)).length = 26 := by decide +kernel

/-- The worked pixel of section 6.5. -/
theorem test_pixel :
    interpolate 100 120 110 130 62 148 = 111 ∧ correctY 256 111 = 111 ∧ correctY 300 104 = 122 ∧
    mixSides 111 122 96 = 115 ∧ correctY 512 250 = 255 ∧ correctC (-8) 5 = 0 := by decide

/-- The geometry of section 6.5: step and origins of the wide at zoom 2.5. -/
theorem test_geometry : roundAway (327680 / 6 : ℚ) = 54613 ∧ roundAway (235913216 / 3 : ℚ) = 78637739 ∧
    roundAway (-1 / 2 : ℚ) = -1 := by decide +kernel

/-- The rows touched in the example of R86. -/
theorem test_touched_rows :
    (⟨1920, 1080, 7680, 0, 16, 128, 128, 4, 2, 64, 4, 50⟩ : ViewRecord).touched
      ⟨0, BitVec.ofNat 40 (7680 * 5 + 7600), 16, 0⟩ = [5, 6] := by decide +kernel

/-- The bytes of that read: pixel 1900 of row 5, its spare byte, pixel 0 of row 6. With stride 7936 the last 256
bytes of a row are padding (R86). -/
theorem test_answer_bytes :
    let v : ViewRecord := ⟨1920, 1080, 7680, 0, 16, 128, 128, 4, 2, 64, 4, 50⟩
    let bytes := v.answerData ⟨0, BitVec.ofNat 40 (7680 * 5 + 7600), 16, 0⟩ fun x y ch => x + 64 * y + 8 * ch
    [0, 1, 2, 3, 79, 80, 81].map (fun n => bytes[n]?) =
      [1900 + 320, 1900 + 328, 1900 + 336, 0, 0, 384, 392].map (fun n => some (BitVec.ofNat 8 n)) ∧
    ({ v with stride := 7936 }).touched ⟨0, 7680, 16, 0⟩ = [] ∧
    ({ v with stride := 7936 }).answerData ⟨0, 7680, 16, 0⟩ (fun _ _ _ => 1) = List.replicate 256 0 := by
  decide +kernel

/-- The ZOOM_SET slot of section 13.4. -/
def zoomSlot : Slot := slotOf [7, 4, 0, 0, 0x00, 0x1C, 0x80, 0x00, 0, 0, 0, 0, 0, 0, 0, 0, 1, 0, 0, 0]

theorem test_zoom_slot :
    zoomSlot.byte 60 = 0x58 ∧ zoomSlot.checkPasses = true ∧ zoomSlot.tag = 0x0102 ∧
    zoomSlot.zoomTarget = 7168 ∧ zoomSlot.zoomSlew = 128 ∧ zoomSlot.zoomPan = none := by decide +kernel

/-- The sum runs to the last body word: a byte of word 4 is in it, and one of word 5 and the tag are not (R165). -/
theorem test_check_sum :
    let put (p : Fin 64) : Slot := { zoomSlot with bytes := zoomSlot.bytes.set p.val 9 p.isLt }
    (put 19).checkPasses = false ∧ (put 20).checkPasses = true ∧ (put 62).checkPasses = true := by decide +kernel

/-- The coalesced record of section 13.5. -/
theorem test_record_bytes :
    ((⟨.underrun, 3, 0, 2, 100, 116, 13, 0⟩ : Record).bytes 1000).take 20 =
      [0xE8, 0x03, 26, 3, 0, 0, 2, 0, 100, 0, 0, 0, 116, 0, 0, 0, 13, 0, 0, 0] ∧
    recordAddr 0 1000 = controlBase 0 + 0x2D00 := by decide +kernel

/-! ### Resets and initialization -/

/-- The part in initialization at a time. -/
def initState (now : Word) : State :=
  { State.reset with phase := .initializing, timeBase := now, windows := [controlWindow 0 false] }

/-- The part held by RST_N low. -/
def pinHeld : State := { State.reset with phase := .pinHold, rstN := false }

theorem test_power_on_reset :
    (after .powerOnReset viewState).map (fun t => (t.phase, t.windows.length, t.sources[0])) =
      some (.powerOnHold, 1, Source.reset) := by decide +kernel

theorem test_power_on_hold_end :
    (after (.powerOnHoldEnd 15 2) State.reset).map (fun t => (t.phase, t.strapCp, t.windows)) =
      some (.initializing, 15, [⟨0x3FFFF0000, 65536, .control, false⟩]) := by decide +kernel

theorem test_pin_reset :
    (after .pinReset viewState).map (fun t => (t.phase, t.rstN, t.report.cause, t.timeBase)) =
      some (.pinHold, false, .pin, 0) := by decide +kernel

theorem test_rst_n_release :
    (after (.rstNRelease 1 0) pinHeld).map (fun t => (t.phase, t.rstN, t.strapCp)) =
      some (.initializing, true, 1) := by decide +kernel

/-- RESET_DONE carries the cause and the revision, and the mirror stands behind it (R183). -/
theorem test_end_of_initialization :
    (after .endOfInitialization (initState 256)).map (fun t => (t.phase, t.report.output)) =
      some (.running, [.record ⟨.resetDone, 2, 0, 1, 256, 256, 1, 1⟩, .mirror]) ∧
    (after .endOfInitialization (initState 255)).map State.phase = some .initializing := by
  decide +kernel

theorem witness_IdleStepsUndueRowsAndBadTraffic_ticks :
    base.pending = [] ∧ base.phase = .running ∧ State.reset.pending = [] ∧
    State.reset.phase = .powerOnHold := by decide +kernel
theorem witness_InitializationBeginsAndEnds_hold : State.reset.phase = .powerOnHold ∧ State.reset.rstN = true ∧
    ({ State.reset with rstN := false } : State).rstN = false := by decide +kernel
theorem witness_ResetsTaken : viewState.quiet ∧ viewState.phase = .running :=
  ⟨viewState_quiet, by decide +kernel⟩
theorem witness_InitializationBeginsAndEnds_release : pinHeld.phase = .pinHold := by decide +kernel
theorem witness_InitializationBeginsAndEnds :
    (initState 256).phase = .initializing ∧ (initState 256).report = Report.reset .power ∧
    256 ≤ (initState 256).timeBase.toNat ∧ (initState 255).phase = .initializing ∧
    (initState 255).report = Report.reset .power ∧ (initState 255).timeBase.toNat < 256 :=
  ⟨rfl, rfl, by decide, rfl, rfl, by decide⟩

/-- Counting under code 0, and standing in a hold. -/
theorem witness_InitializationBeginsAndEnds_refclk :
    base.phase = .running ∧ base.strapClk = 0 ∧ pinHeld.phase = .pinHold := by decide +kernel

/-- One true microsecond of a 38.4 MHz REFCLK under each code (R185, R186). -/
theorem test_refclk :
    ([0, 1, 2, 3] : List (BitVec 2)).map (fun c => (({ base with strapClk := c } : State).passRefclk 38400).timeBase) =
      [100002, 100001, 100001, 100002] := by decide +kernel

/-- Two reads that wait with room for both; RST_N going low in a power-on hold and in a pin reset's hold. -/
theorem witness_ResetsTaken_reads :
    (let s := { viewState with up := ⟨[rd 0, rd 16], [], []⟩ };
      s.phase = .running ∧ s.up.writes = [] ∧ s.up.reads = [rd 0, rd 16] ∧ 16 - s.queuedReads = 16) ∧
    State.reset.phase = .powerOnHold ∧ pinHeld.phase = .pinHold := by decide +kernel

/-- Both are forwarded unclassified by the reset, one of them in an aperture and one in a camera window (R148). -/
theorem test_reset_forwards :
    (after .pinReset { viewState with up := ⟨[rd 0x20000000, rd 0x10000000], [], []⟩ }).map
      (fun t => (t.up.reads, t.passQueue)) =
      some ([], [.read (rd 0x20000000), .read (rd 0x10000000)]) := by decide +kernel

/-- A read that waits with room for it, and with none; a write that waits with none. -/
theorem witness_ResetsTaken_waiting :
    (let s := { viewState with up := ⟨[rd 0], [], []⟩ };
      s.up.writes = [] ∧ s.up.reads = [rd 0] ∧ s.queuedReads < 16) ∧
    (let s := { viewState with
        passQueue := List.replicate 16 (Request.read (rd 0)) ++ List.replicate 16 (Request.write (wr 9 0))
        up := ⟨[rd 0], [wr 9 0], []⟩ };
      16 ≤ s.queuedWrites ∧ s.up.reads = [rd 0] ∧ 16 ≤ s.queuedReads) := by decide +kernel

/-! ### Requests -/

/-- Source 0 with position 0 moved to the spare. -/
def movedState : State := withSource { camState.sources[0] with ringMap := [2, 1] } camState

theorem test_pass_through :
    (after (.passThroughRequest (.read (rd 0x12345670))) viewState).map State.passQueue =
      some [.read (rd 0x12345670)] := by decide +kernel

/-- The last beat of window 0 goes to the last beat of store 2 (R10). -/
theorem test_camera_read :
    (after (.cameraRead (rd 0x10003FF0)) movedState).map State.passQueue =
      some [.read (rd 0x10023FF0)] := by decide +kernel

/-- The bound master's write at offset 0 opens a frame in the store behind the position (R14, R15). -/
theorem test_camera_write_opens :
    (after (.cameraWrite (wr 16 0x10000000)) camState).map
      (fun t => t.sources[0].stores.map fun st => (st.state, st.landed)) =
      some [(.filling, 16), (.free, 0), (.free, 0)] := by decide +kernel

theorem test_camera_write_of_another_master :
    (after (.cameraWrite (wr 9 0x10000000)) camState).map (fun t => (t.sources[0], t.passQueue)) =
      some (camState.sources[0], [.write (wr 9 0x10000000)]) := by decide +kernel

/-- The trailer write of a slot whose other bytes have not come makes it READY and incomplete (R162). -/
theorem test_control_page_write :
    (after (.controlPageWrite ⟨7, 0x3FFF07F0, 1, 4,
        [0, 0, 0, 0, 0, 0, 0, 0, 0, 0, 0, 0, 0x58, 0xA5, 2, 1], List.replicate 16 true⟩) base).map
      (fun t => (t.cmd.slots[31].state, t.cmd.slots[31].incomplete, t.cmd.slots[31].tag,
        t.passQueue.length)) = some (.ready, true, 0x0102, 1) := by decide +kernel

/-- A read of row 0 in IDLE opens frame 1 (R87, R88). Source 0 has no READY store, so the plan is a
fill frame (R99) and the read is answered with fill. -/
theorem test_aperture_read_opens :
    (after (.apertureRead (rd 0x20000000)) viewState).map
      (fun t => (t.views[0].framesOpened, t.up.responses)) =
      some (1, [⟨9, 3, .okay, true, 1, [16, 128, 128, 0, 16, 128, 128, 0, 16, 128, 128, 0, 16, 128, 128, 0]⟩])
      := by decide +kernel

theorem test_aperture_write_refused :
    (after (.apertureWriteRefused (wr 9 0x20003FF0)) viewState).map
      (fun t => (t.passQueue, t.up.responses, t.report.output)) =
      some ([], [⟨9, 4, .error, false, 0, []⟩],
        [.record ⟨.apertureWrite, 2, 0, 1, 100000, 100000, 9, 0x3FF0⟩]) := by decide +kernel

theorem witness_RequestsForwardedOrWaiting :
    (rd 0x12345670).wf = true ∧ (wr 9 0x12345670).wf = true ∧ viewState.quiet ∧
    viewState.windowAt 0x12345670 = none ∧ viewState.queuedReads < 16 ∧ viewState.queuedWrites < 16 ∧
    (initState 0).phase ≠ .running :=
  ⟨by decide, by decide, viewState_quiet, by decide +kernel, by decide +kernel, by decide +kernel,
    by decide⟩

theorem witness_CameraRequestsTranslated_read :
    (rd 0x10003FF0).wf = true ∧ movedState.quiet ∧
    movedState.windowAt 0x10003FF0 = some ⟨0x10000000, 0x4000, .camera 0 0, true⟩ ∧
    movedState.sources[0].record = some srcRec ∧ movedState.sources[0].ringMap[0]? = some 2 ∧
    movedState.queuedReads < 16 :=
  ⟨by decide, ⟨rfl, rfl⟩, by decide +kernel, by decide +kernel, by decide +kernel, by decide +kernel⟩

theorem witness_CameraRequestsTranslated :
    (wr 16 0x10000000).wf = true ∧ camState.quiet ∧
    camState.windowAt 0x10000000 = some ⟨0x10000000, 0x4000, .camera 0 0, true⟩ ∧
    camState.sources[0].record = some srcRec ∧ camState.queuedWrites < 16 ∧ (wr 16 0).tag = srcRec.tag ∧
    (camState.sources[0].onWrite 0 camState.cal.active camState.timeBase 0 0
      (wr 16 0x10000000)).1.ringMap[0]? = some 0 ∧
    (wr 9 0).tag ≠ srcRec.tag ∧ camState.sources[0].ringMap[0]? = some 0 :=
  ⟨by decide, camState_quiet, by decide +kernel, by decide +kernel, by decide +kernel, by decide,
    by decide +kernel, by decide, by decide +kernel⟩

/-- A source whose three stores have the given states and pins, its ring map the identity. -/
def poolSource (a b c : StoreState × Nat) : Source :=
  { camState.sources[0] with
    stores := [a, b, c].map fun x => ⟨x.1, x.2, false, none, 0, .zero, .zero, ⟨0, 0, 63, 63⟩⟩ }

/-- An open on an unpinned store stays in place; on a pinned one it moves to the spare, store 2; with
the spare pinned as well it tears. -/
theorem witness_FrameOpens :
    (∀ n : Fin 2, (poolSource (.ready, n.val) (.free, 0) (.free, 0)).ringMap[0]? = some 0) ∧
    ((poolSource (.ready, 1) (.free, 0) (.free, 0)).stores[0]?).map FrameStore.pins = some 1 ∧
    (poolSource (.ready, 1) (.free, 0) (.free, 0)).spareStores = [2] ∧
    ((poolSource (.ready, 1) (.free, 0) (.free, 0)).stores[2]?).map FrameStore.state = some .free ∧
    (poolSource (.ready, 1) (.free, 0) (.short, 1)).spareStores = [] ∧
    ((poolSource (.free, 0) (.free, 0) (.free, 0)).stores[0]?).map FrameStore.pins = some 0 := by
  decide +kernel

/-- Section 1.11: the exchange and the tear, each with its event. -/
theorem test_exchange_and_tear :
    ((poolSource (.ready, 1) (.free, 0) (.free, 0)).frameOpen 0 ⟨0, 0, 63, 63⟩ 0).1.ringMap = [2, 1] ∧
    ((poolSource (.ready, 1) (.free, 0) (.free, 0)).frameOpen 0 ⟨0, 0, 63, 63⟩ 0).2 =
      [⟨.storeRemapped, 1, 0, 0, 0x200⟩] ∧
    ((poolSource (.ready, 2) (.free, 0) (.short, 1)).frameOpen 0 ⟨0, 0, 63, 63⟩ 0).2 =
      [⟨.frameTorn, 3, 0, 0, 0x200⟩] := by decide +kernel

/-- A store at the bound of 4W × H bytes closes READY, one byte below it SHORT. -/
theorem witness_FrameCloses :
    let st (n : Nat) : FrameStore := ⟨.filling, 0, false, none, n, .zero, .zero, ⟨0, 0, 63, 63⟩⟩
    let src (x : SourceState) (n : Nat) : Source :=
      { camState.sources[0] with state := x, recoveryRun := 1, stores := [st n] }
    (∀ x ∈ [SourceState.waiting, .running, .stalled],
      (src x 16384).stores[0]? = some (st 16384) ∧ (src x 16384).state = x ∧
      (src x 16384).recoveryRun = 1) ∧
    4 * srcRec.width * srcRec.height ≤ (st 16384).landed ∧
    (src .running 16383).stores[0]? = some (st 16383) ∧
    (st 16383).landed < 4 * srcRec.width * srcRec.height := by decide +kernel

/-- A write into a store that is not FILLING, one that stops 15 bytes short of the last active byte, one
that covers it, and one past it; a calibrated source with and without a rectangle, and an uncalibrated one. -/
theorem witness_WritesTracked :
    (wr 9 0).tag ≠ srcRec.tag ∧ (wr 16 0).tag = srcRec.tag ∧
    (let src := camState.sources[0]
     src.record = some srcRec ∧ src.ringMap[1]? = some 1 ∧ src.storeIs 1 .filling = false) ∧
    (let src := (camState.sources[0].frameOpen 0 srcRec.wholeFrame 0).1
     let last := (srcRec.height - 1) * srcRec.stride + 4 * srcRec.width - 1
     src.record = some srcRec ∧ src.ringMap[0]? = some 0 ∧
     (src.stores[0]?).map FrameStore.state = some .filling ∧
     (wr 16 0).strobes[last - 16352]? ≠ some true ∧ 16368 ≤ last ∧
     (wr 16 0).strobes[last - 16368]? = some true ∧ last < 16384) ∧
    (let c : CalSet := ⟨2, 0, [⟨1, 0, 0, 1024, some ⟨8, 8, 4095, 55⟩⟩, ⟨1, 0, 0, 2048, none⟩], []⟩
     (c.sources[0]?).map CalSource.rect = some (some ⟨8, 8, 4095, 55⟩) ∧
     (c.sources[1]?).map CalSource.rect = some none ∧
     latchRect (some c) 0 srcRec = ⟨8, 8, 63, 55⟩ ∧ c.count ≤ (2 : Fin 4).val) := by decide +kernel

/-- The last beat of a frame: 16 bytes land, four pixels are counted (R19, R25). -/
theorem test_progress :
    let st := (FrameStore.fresh srcRec.wholeFrame).progress srcRec 16368 (wr 16 0)
    (st.landed, st.full.count, st.full.sumY, st.inner.count) = (16, 4, 340, 4) := by decide +kernel

/-- A store opened while FILLING: in place, in an exchange (behind the position and as the spare), torn. -/
theorem witness_FrameOpens_filling :
    ((poolSource (.filling, 0) (.free, 0) (.free, 0)).stores[0]?).map
      (fun st => (st.state, st.pins)) = some (.filling, 0) ∧
    ((poolSource (.filling, 1) (.free, 0) (.filling, 0)).stores[2]?).map
      (fun st => (st.state, st.pins)) = some (.filling, 0) ∧
    (poolSource (.filling, 1) (.free, 0) (.filling, 0)).spareStores = [2] ∧
    (poolSource (.filling, 2) (.free, 0) (.ready, 1)).spareStores = [] := by decide +kernel

theorem test_filling_store_shortened :
    ((poolSource (.filling, 1) (.free, 0) (.filling, 0)).frameOpen 0 ⟨0, 0, 63, 63⟩ 0).2 =
      [⟨.frameShort, 1, 0, 0, 0⟩, ⟨.frameShort, 1, 0, 2, 0⟩, ⟨.storeRemapped, 1, 0, 0, 0x200⟩] := by
  decide +kernel

/-- The first READY close in STALLED only begins the recovery run (R28). -/
theorem witness_FrameCloses_recovery :
    let src : Source := { camState.sources[0] with state := .stalled, stores :=
      [⟨.filling, 0, false, none, 16384, .zero, .zero, ⟨0, 0, 63, 63⟩⟩] }
    (src.stores[0]?).map FrameStore.landed = some (4 * srcRec.width * srcRec.height) ∧
    src.recoveryRun = 0 ∧ (src.closeStore 0 0 srcRec 0).1.recoveryRun = 1 ∧
    (src.closeStore 0 0 srcRec 0).1.state = .stalled := by decide +kernel

/-- A write of the last beat of the page's last slot, for each state of the slot. -/
theorem witness_ControlPageCopies :
    let w := wr 7 0x3FFF07F0
    let s (x : SlotState) (o : Bool) : State := withSlot { Slot.freed with state := x, overrun := o } base
    w.wf = true ∧ (∀ x o, (s x o).quiet) ∧
    (s .free false).windowAt w.addr = some ⟨0x3FFF0000, 65536, .control, true⟩ ∧
    (s .ready true).windowAt w.addr = some ⟨0x3FFF0000, 65536, .control, true⟩ ∧
    (s .ready false).queuedWrites < 16 ∧ copiedBytes (w.addr.toNat - 0x3FFF0000) w ≠ [] ∧
    (∀ x ∈ copiedBytes (w.addr.toNat - 0x3FFF0000) w, x.1 / 64 = 31) ∧
    (s .free false).cmd.slots[31].state = .free ∧ (s .ready false).cmd.slots[31].state = .ready ∧
    (s .ready false).cmd.slots[31].overrun = false ∧ (s .ready true).cmd.slots[31].overrun = true :=
  ⟨by decide, fun _ _ => ⟨rfl, rfl⟩, by decide +kernel, by decide +kernel, by decide +kernel,
    by decide +kernel, by decide +kernel, by decide +kernel, by decide +kernel, by decide +kernel,
    by decide +kernel⟩

/-- A write over slots 30 and 31, one that copies no byte, and one over the acknowledge word; a trailer
with marker A5h, one with another, and one whose word 15 stays unseen. -/
theorem witness_ControlPageCopies_forms :
    (let w : WriteReq := ⟨7, 0x3FFF07B0, 2, 4, List.replicate 32 1, List.replicate 32 true⟩
     w.wf = true ∧ base.windowAt w.addr = some ⟨0x3FFF0000, 65536, .control, true⟩ ∧
     (slotBytes 30 (copiedBytes (w.addr.toNat - 0x3FFF0000) w)).length = 16 ∧
     (slotBytes 31 (copiedBytes (w.addr.toNat - 0x3FFF0000) w)).length = 16) ∧
    copiedBytes 0 { wr 7 0x3FFF0000 with strobes := List.replicate 16 false } = [] ∧
    (ackBytes (copiedBytes 0x800 (wr 7 0x3FFF0800))).length = 4 ∧
    (let trailer (m : Byte) : List (Fin 64 × Byte) := [(60, 0), (61, m), (62, 2), (63, 1)]
     ((trailer 0xA5).map Prod.fst).Nodup ∧ (∃ x ∈ trailer 0xA5, 60 ≤ x.1.val) ∧
     (∀ m ∈ [(0xA5 : Byte), 0], ((trailer m).foldl Slot.captureByte Slot.freed).seen 15 = true ∧
       ((trailer m).foldl Slot.captureByte Slot.freed).byte 61 = m.toNat) ∧
     (((trailer 0xA5).take 3).foldl Slot.captureByte Slot.freed).seen 15 = false) := by decide +kernel

theorem test_wrong_marker_clears_the_trailer :
    let sl := Slot.freed.capture [(60, 0), (61, 0), (62, 2), (63, 1)]
    (sl.state, sl.byte 63, sl.marked 63) = (.free, 1, false) := by decide +kernel

/-- A Report Unit with the given indices and offered acknowledge value. -/
def ackReport (write ack offer : Half) : Report :=
  { Report.reset .power with
    writeIndex := write
    ackIndex := ack
    ackCopy := #v[offer.setWidth 8, (offer >>> 8).setWidth 8, 0, 0] }

/-- Offers at the clauses' ends: 256 and 1 behind, equal, the write index, one beyond it, 257 behind. -/
theorem witness_AcknowledgeTaken :
    (∀ x ∈ [(44, 256), (299, 1)], let n : Half := BitVec.ofNat 16 x.1
      BitVec.ofNat 16 ((ackReport 310 300 n).ackCopy[0].toNat + 256 * (ackReport 310 300 n).ackCopy[1].toNat)
        = n ∧ ((300 : Half) - n).toNat = x.2) ∧
    (∀ x ∈ [300, 310], ((BitVec.ofNat 16 x : Half) - 300).toNat ≤ ((310 : Half) - 300).toNat ∧
      ((300 : Half) = BitVec.ofNat 16 x ∨ 256 < ((300 : Half) - BitVec.ofNat 16 x).toNat)) ∧
    (∀ x ∈ [311, 43], ((310 : Half) - 300).toNat < ((BitVec.ofNat 16 x : Half) - 300).toNat ∧
      256 < ((300 : Half) - BitVec.ofNat 16 x).toNat) := by decide +kernel

/-- The write index stays, and an offer beyond it is clamped (R177). -/
theorem test_acknowledge :
    (ackReport 310 300 310).takeAck.ackIndex = 310 ∧ (ackReport 310 300 299).takeAck.ackIndex = 300 ∧
    (ackReport 310 300 311).takeAck.ackIndex = 310 := by decide +kernel

theorem witness_AcknowledgeTaken_copy :
    let bs : List (Fin 4 × Byte) := [(0, 4), (3, 9)]
    (bs.map Prod.fst).Nodup ∧ bs ≠ [] ∧ (((ackReport 310 300 300).copyAck bs).ackCopy[0] = 4) := by
  decide +kernel

/-! ### Views and timers -/

/-- A plan showing store 0 of source 0. -/
def plan0 : Plan :=
  ⟨1, 2048, 134217728, 100663296, some ⟨0, 0, 65536, 0, 0, .neutral, 0, 63⟩, none, 0⟩

/-- Row 5 of the plan's store. -/
def key0 : RowKey := ⟨.fromSide, 0, 0, 5⟩

/-- An open frame whose idle timer was loaded 10 ms before 100,000 µs. -/
def frame0 : FrameRecord := ⟨1, 0, 0, false, 90000⟩

/-- View 0 in frame 1 under the plan. -/
def openView : View :=
  { viewState.views[0] with state := .opened frame0, framesOpened := 1, plan := some plan0 }

/-- A read of row 1 held since `t`, waiting for row 5 of the plan's store. -/
def heldAt (t : Word) : HeldRead := ⟨rd 0x20000100, t, some 1, [1], [key0], false⟩

/-- View 0 with one held read whose limit of 16 µs ends at 100,000 µs. -/
def heldState : State := withView { openView with held := [heldAt 99984] } viewState

/-- View 0 in its frame with a degrade level, a clean run and an underrun count. -/
def degraded (l : DegradeLevel) (run underruns : Nat) : State :=
  withView { openView with
    degrade := l, cleanRun := run, state := .opened { frame0 with underruns } } viewState

/-- Source 0 WAITING with its watchdog of 25 ms loaded at `t`. -/
def watched (t : Word) : State := withSource { camState.sources[0] with watchdog := some t } camState

/-- What view 0's step reads, and its work on a view. -/
def env0 : ViewEnv := ⟨0, viewRec, 100000, viewState.sources⟩
/-- The start of a step's work on a view. -/
def work0 (v : View) : ViewWork := ⟨v, [], [], [], 0⟩

/-- View 0 with one entry of each state: 0 FETCHING and owed, 1 FETCHING and queued, 2 FETCHING and issued with
nothing owed, 3 VALID, 4 FAILED, 5 DISCARDING, the others EMPTY; a fetch of view 1 in flight too. -/
def busyView : View :=
  let k := fun row => { key0 with row }
  let entries : List CacheEntry := [.fetching (k 0) false [], .fetching (k 1) true [], .fetching (k 2) false [],
    .valid (k 3) 1 [], .failed (k 4) 2, .discarding]
  { openView with
    cache := Vector.ofFn fun n => entries.getD n.val .empty
    fetchQ := ⟨[1], []⟩
    markRow := 7 }
/-- The in-flight list beside it. -/
def busyInflight : List Fetch :=
  [⟨0, 0, 1, 2, 1, [⟨0x10000100, 1⟩], 0x10000000, false, false⟩,
   ⟨0, 2, 1, 2, 0, [⟨0x10000300, 1⟩], 0x10000200, false, false⟩,
   ⟨1, 0, 1, 2, 0, [⟨0x10000300, 1⟩], 0x10000200, false, false⟩, ⟨0, 5, 1, 1, 1, [], 0x10000200, false, false⟩]

/-- View 0 with a request queued for row 5, not urgent. -/
def lawView : View :=
  { openView with cache := openView.cache.set 3 (.fetching key0 false []), fetchQ := ⟨[], [3]⟩ }

theorem test_hold_limit_expiry :
    (after (.holdLimitExpiry 0) heldState).map
      (fun t => (t.views[0].totalUnderruns, t.views[0].degrade, t.up.responses.map UpResponse.num)) =
      some (1, .single, [3]) := by decide +kernel

theorem test_idle_timer_expiry :
    (after (.idleTimerExpiry 0) (degraded .single 7 0)).map
      (fun t => (t.views[0].state, t.views[0].degrade, t.report.output)) =
      some (.idle, .full, [.record ⟨.degradeExit, 2, 0, 1, 100000, 100000, 1, 0⟩]) := by decide +kernel

theorem test_watchdog_expiry :
    (after (.watchdogExpiry 0) (watched 75000)).map (fun t => (t.sources[0].state, t.report.output)) =
      some (.stalled, [.record ⟨.streamStalled, 3, 0, 1, 100000, 100000, 2, 25⟩]) ∧
    (after (.watchdogExpiry 0) (watched 75001)).map (fun t => t.sources[0].state) = some .waiting := by
  decide +kernel

theorem witness_ApertureReadHandedToView :
    (rd 0x20000100).wf = true ∧ heldState.quiet ∧
    heldState.windowAt 0x20000100 = some ⟨0x20000000, 0x4000, .aperture 0, true⟩ ∧
    heldState.views[0].record = some viewRec ∧ heldState.views[0].held.length < 8 :=
  ⟨by decide, ⟨rfl, rfl⟩, by decide +kernel, by decide +kernel, by decide +kernel⟩

theorem witness_ApertureReadHandedToView_idle :
    (rd 0x20003FF0).wf = true ∧ viewState.quiet ∧
    viewState.windowAt 0x20003FF0 = some ⟨0x20000000, 0x4000, .aperture 0, true⟩ ∧
    viewState.views[0].record = some viewRec ∧ viewState.views[0].state = .idle ∧
    viewState.views[0].plan = none ∧ viewState.views[0].held = [] ∧
    (viewRec.touched (rd 0x20003FF0)).contains 0 = false :=
  ⟨by decide, viewState_quiet, by decide +kernel, by decide +kernel, by decide +kernel, by decide +kernel,
    by decide +kernel, by decide +kernel⟩

/-- View 0 in its frame with row 32 or 31 of 64 served, a read of row 1 held. -/
def halfway (highest : Nat) : State :=
  withView { openView with state := .opened { frame0 with highest }, held := [heldAt 99990] } viewState

/-- A read of row 0 opens in IDLE and from row 32 on, and stays in the frame before; a read of row 1 and
the last read of the picture stay in it. -/
theorem witness_ApertureReadOpensOrStaysInFrame :
    (rd 0x20000000).wf = true ∧ (rd 0x20000100).wf = true ∧ (rd 0x20003FF0).wf = true ∧
    (∀ n, (halfway n).quiet) ∧ viewState.quiet ∧
    viewState.windowAt 0x20000000 = some ⟨0x20000000, 0x4000, .aperture 0, true⟩ ∧
    (halfway 32).windowAt 0x20000100 = some ⟨0x20000000, 0x4000, .aperture 0, true⟩ ∧
    viewState.views[0].record = some viewRec ∧ viewState.views[0].state = .idle ∧
    (halfway 32).views[0].record = some viewRec ∧
    (halfway 31).views[0].state = .opened { frame0 with highest := 31 } ∧
    (halfway 32).views[0].state = .opened { frame0 with highest := 32 } ∧
    (halfway 32).views[0].held.length < 8 ∧ viewRec.height / 2 = 32 ∧
    (viewRec.touched (rd 0x20000000)).contains 0 = true ∧
    (viewRec.touched (rd 0x20000100)).contains 0 = false ∧ viewRec.coversLast (rd 0x20000100) = false ∧
    viewRec.coversLast (rd 0x20003FF0) = true :=
  ⟨by decide, by decide, by decide, fun _ => ⟨rfl, rfl⟩, viewState_quiet, by decide +kernel,
    by decide +kernel, by decide +kernel, by decide +kernel, by decide +kernel, by decide +kernel,
    by decide +kernel, by decide +kernel, by decide, by decide +kernel, by decide +kernel, by decide +kernel,
    by decide +kernel⟩

/-- A new top in OPEN: the held read is filled and counted, the limit of 1 degrades the view, frame 1
closes cut short, and frame 2 opens. Its source does not run, so FROZEN repeats the plan's side and the new
read waits for its rows (R75, R89, R92, R98, R102). -/
theorem test_aperture_read_opens_again :
    (after (.apertureRead (rd 0x20000000)) (halfway 32)).map
      (fun t => (t.views[0].framesOpened, t.views[0].totalUnderruns, t.views[0].degrade,
        t.up.responses.length, t.report.output.length)) = some (2, 1, .single, 1, 4) := by decide +kernel

/-- View 1 beside view 0, with an aperture of its own. -/
def twoViews : State := (viewState.setUpView 1 { viewRec with base := 0x30000000 }).enableView 1

/-- An opening of the lead view, one of view 1 alone, one of view 1 beside view 0, and no opening. -/
theorem witness_OpeningRuns :
    (rd 0x30000000).wf = true ∧ twoViews.quiet ∧ viewState.quiet ∧
    twoViews.windowAt 0x30000000 = some ⟨0x30000000, 0x4000, .aperture 1, true⟩ ∧
    twoViews.views[(1 : Fin 2)].record = some { viewRec with base := 0x30000000 } ∧
    twoViews.views[(1 : Fin 2)].state = .idle ∧ twoViews.views[(1 : Fin 2)].held.length < 8 ∧
    twoViews.views[(0 : Fin 2)].state ≠ .disabled ∧
    viewState.views[(1 : Fin 2)].state = .disabled ∧
    ({ viewRec with base := 0x30000000 } : ViewRecord).touched (rd 0x30000000) = [0] ∧
    viewRec.touched (rd 0x20000000) = [0] ∧ (viewRec.touched (rd 0x20000100)).contains 0 = false :=
  ⟨by decide, ⟨rfl, rfl⟩, viewState_quiet, by decide +kernel, by decide +kernel, by decide +kernel,
    by decide +kernel, by decide +kernel, by decide +kernel, by decide +kernel, by decide +kernel,
    by decide +kernel⟩

/-- A lead opening activates the staged set and asks for the mirror; view 1's opening beside view 0 does
neither (R39, R93, R181). -/
theorem test_lead_opening :
    let s := { twoViews with cal := ⟨none, some ⟨1, 7, [⟨65536, 0, 0, 1024, none⟩], []⟩, none⟩ }
    (after (.apertureRead (rd 0x20000000)) s).map
      (fun t => (t.cal.active.isSome, t.report.output.contains .mirror)) = some (true, true) ∧
    (after (.apertureRead (rd 0x30000000)) s).map
      (fun t => (t.cal.active.isSome, t.report.output.contains .mirror)) = some (false, false) := by
  decide +kernel

/-- Frame 1 with a limit of 1 and a read of it held; a frame one underrun past it; reads before any frame; the
examinations at FULL, at SINGLE with an unclean frame, and at SINGLE with a clean run of 6 and 7. -/
theorem witness_OpeningRuns_stages :
    let w := work0 { openView with held := [heldAt 99990] }
    w.view.held = heldAt 99990 :: [] ∧ (heldAt 99990).rows = 1 :: [] ∧ w.view.underrunRaised = false ∧
    (∀ f, (work0 viewState.views[0]).view.state ≠ .opened f) ∧ w.view.state = .opened frame0 ∧
    w.view.degrade = .full ∧ frame0.underruns < env0.conf.underrunLimit ∧
    env0.conf.underrunLimit ≤
      frame0.underruns + (w.view.held.filter fun h => h.frame = some frame0.number).length ∧
    (∀ x ∈ [(DegradeLevel.full, 0), (.single, 6), (.single, 7)],
      ({ openView with degrade := x.1, cleanRun := x.2 } : View).degrade = x.1 ∧
      ({ openView with degrade := x.1, cleanRun := x.2 } : View).cleanRun = x.2) ∧
    frame0.underruns = 0 ∧ frame0.warned = false ∧ ({ frame0 with underruns := 1 } : FrameRecord).underruns ≠ 0 :=
  ⟨rfl, rfl, by decide +kernel, (by intro f h; cases h), rfl, by decide +kernel, by decide +kernel,
    by decide +kernel, by decide +kernel, by decide, by decide, by decide⟩

/-- The flush of a held read of frame 1 at the limit of 1: SINGLE with its two events and no clean frame; the
raised flags are clear after it (R92, R102, R131 to R133). -/
theorem test_opening_stage :
    let w := (work0 { openView with held := [heldAt 99990], warnRaised := true, fetchErrorRaised := true }).openingStage1 env0
    w.events = [⟨.degradeEnter, 2, 0, 1, 1⟩, ⟨.underrun, 3, 0, 1, 1⟩] ∧
    (w.view.degrade, w.view.cleanRun, w.view.totalUnderruns) = (.single, 0, 1) ∧
    (w.view.underrunRaised, w.view.fetchErrorRaised, w.view.warnRaised) = (false, false, false) := by
  decide +kernel

theorem witness_OpeningRuns_accept :
    (work0 viewState.views[0]).view.state = .idle ∧ (work0 openView).view.state = .opened frame0 ∧
    env0.conf.coversLast (rd 0x20000100) = false ∧ env0.conf.coversLast (rd 0x20003FF0) = true := by
  decide +kernel

theorem witness_ApertureWriteRefused :
    (wr 9 0x20003FF0).wf = true ∧ viewState.quiet ∧
    viewState.windowAt 0x20003FF0 = some ⟨0x20000000, 0x4000, .aperture 0, true⟩ ∧
    (0x20003FF0 : Addr).toNat - 0x20000000 < 2 ^ 32 :=
  ⟨by decide, viewState_quiet, by decide +kernel, by decide⟩

/-- A read in the active CONTROL window. -/
theorem witness_RequestsForwardedOrWaiting_control :
    (rd 0x3FFF0900).wf = true ∧ base.quiet ∧
    base.windowAt 0x3FFF0900 = some ⟨0x3FFF0000, 65536, .control, true⟩ ∧ base.queuedReads < 16 :=
  ⟨by decide, base_quiet, by decide +kernel, by decide +kernel⟩

/-- A view with a full queue, and a pass-through queue full of one kind. -/
theorem witness_RequestsForwardedOrWaiting_waiting :
    (rd 0x20000000).wf = true ∧
    (let s := withView { openView with held := List.replicate 8 (heldAt 99990) } viewState;
      s.quiet ∧ s.apertureAt 0x20000000 = some 0 ∧ s.views[0].held.length = 8) ∧
    (let s := { viewState with passQueue := List.replicate 16 (.read (rd 0)) };
      s.quiet ∧ s.apertureAt (rd 0x12345670).addr = none ∧ s.queuedReads = 16) ∧
    (wr 9 0x12345670).wf = true ∧
    (let s := { viewState with passQueue := List.replicate 16 (.write (wr 9 0)) };
      s.quiet ∧ s.apertureAt (wr 9 0x12345670).addr = none ∧ s.queuedWrites = 16) :=
  ⟨by decide, ⟨⟨rfl, rfl⟩, by decide +kernel, by decide +kernel⟩,
    ⟨⟨rfl, rfl⟩, by decide +kernel, by decide +kernel⟩, by decide,
    ⟨⟨rfl, rfl⟩, by decide +kernel, by decide +kernel⟩⟩

theorem witness_IdleStepsUndueRowsAndBadTraffic :
    (Request.read ⟨0, 0, 0, 0⟩).wf = false ∧ (⟨0, 0xFF8, 1, 0⟩ : ReadReq).wf = false ∧
    (⟨0, 0, 17, 0, [], []⟩ : WriteReq).wf = false ∧ base.outstanding[(63 : Fin 64)] = none ∧
    (withOut 63 (.load ⟨0, 1⟩) base).outstanding[(63 : Fin 64)] = some ⟨.load ⟨0, 1⟩, false⟩ ∧
    (List.replicate 15 (0 : Byte)).length ≠ (Owner.load ⟨0, 1⟩).dataLength := by decide +kernel

theorem witness_TimersExpire :
    (watched 75000).phase = .running ∧ (watched 75000).sources[0].state = .waiting ∧
    (watched 75000).sources[0].watchdog = some 75000 ∧ (watched 75000).sources[0].record = some srcRec ∧
    1000 * watchdogMs srcRec.watchdog ≤ ((watched 75000).timeBase - 75000).toNat := by decide +kernel

/-- Each clause: FULL; SINGLE after a frame that is not clean; SINGLE with a clean run of 6 and of 7. -/
theorem witness_TimersExpire_idle :
    (∀ x ∈ [(DegradeLevel.full, 0, 0), (.single, 0, 1), (.single, 6, 0), (.single, 7, 0)],
      (degraded x.1 x.2.1 x.2.2).phase = .running ∧
      (degraded x.1 x.2.1 x.2.2).views[0].record = some viewRec ∧
      (degraded x.1 x.2.1 x.2.2).views[0].degrade = x.1 ∧
      (degraded x.1 x.2.1 x.2.2).views[0].cleanRun = x.2.1 ∧
      (degraded x.1 x.2.1 x.2.2).views[0].state = .opened { frame0 with underruns := x.2.2 } ∧
      1000 * viewRec.idleTimeout ≤ ((degraded x.1 x.2.1 x.2.2).timeBase - frame0.idleLoad).toNat) ∧
    frame0.warned = false := by decide +kernel

theorem witness_TimersExpire_hold :
    heldState.quiet ∧ heldState.views[0].record = some viewRec ∧
    heldState.views[0].held = [heldAt 99984] ∧ heldState.views[0].plan = some plan0 ∧
    (heldAt 99984).rows ≠ [] ∧ (heldAt 99984).expired = false ∧
    viewRec.holdLimit ≤ (heldState.timeBase - (heldAt 99984).accepted).toNat ∧
    key0 ∈ (heldAt 99984).needed ∧ heldState.views[0].rowReady key0 = false :=
  ⟨⟨rfl, rfl⟩, by decide +kernel, by decide +kernel, by decide +kernel, by decide, by decide, by decide +kernel,
    by decide, by decide +kernel⟩

/-- A due read behind one that is not due and waits; one at the head. -/
theorem witness_TimersExpire_several :
    let s := withView { openView with held := [heldAt 99985, heldAt 99984] } viewState
    s.quiet ∧ s.views[0].record = some viewRec ∧ s.views[0].held = [heldAt 99985] ++ heldAt 99984 :: [] ∧
    ¬ viewRec.holdLimit ≤ (s.timeBase - (heldAt 99985).accepted).toNat ∧
    viewRec.holdLimit ≤ (s.timeBase - (heldAt 99984).accepted).toNat ∧ (heldAt 99984).expired = false ∧
    (∃ k ∈ (heldAt 99984).needed, s.views[0].rowReady k = false) ∧ s.views[0].plan = some plan0 ∧
    ¬ (plan0.fromSide = none ∧ plan0.toSide = none) ∧ (heldAt 99985).rows ≠ [] ∧
    heldState.views[0].held = [] ++ heldAt 99984 :: [] :=
  ⟨⟨rfl, rfl⟩, by decide +kernel, by decide +kernel, by decide +kernel, by decide +kernel, by decide,
    by decide +kernel, by decide +kernel, by decide +kernel, by decide, by decide +kernel⟩

/-- The due read behind a head that waits stays in its place, marked, with its underrun counted; once it is at
the head it is filled, and the one behind it waits (R127, R129 to R131). -/
theorem test_expiry_in_place :
    (after (.holdLimitExpiry 0) (withView { openView with held := [heldAt 99985, heldAt 99984] } viewState)).map
      (fun t => (t.views[0].held.map HeldRead.expired, t.views[0].totalUnderruns, t.up.responses.length)) =
      some ([false, true], 1, 0) ∧
    (after (.holdLimitExpiry 0) (withView { openView with held := [heldAt 99984, heldAt 99985] } viewState)).map
      (fun t => (t.views[0].held.map HeldRead.expired, t.views[0].totalUnderruns, t.up.responses.length)) =
      some ([false], 1, 1) := by decide +kernel

/-- One microsecond short of each timeout, a watchdog in another state, a read that has expired, and one with
its row there. -/
theorem witness_TimersExpire_undue :
    let idle := withView { openView with state := .opened { frame0 with idleLoad := 90001 } } viewState
    let there := openView.cache.set 15 (.valid key0 1 (List.replicate 256 0))
    (watched 75001).sources[0].watchdog = some 75001 ∧ (watched 75001).sources[0].record = some srcRec ∧
    ((watched 75001).timeBase - 75001).toNat < 1000 * watchdogMs srcRec.watchdog ∧
    base.sources[(3 : Fin 4)].state ≠ .waiting ∧ base.sources[(3 : Fin 4)].state ≠ .running ∧
    idle.views[0].record = some viewRec ∧
    (idle.timeBase - 90001).toNat < 1000 * viewRec.idleTimeout ∧
    (∀ v ∈ [{ openView with held := [heldAt 99985] },
        { openView with held := [{ heldAt 99984 with expired := true }] },
        { openView with held := [heldAt 99984], cache := there }],
      let s := withView v viewState
      s.up.reads = [] ∧ s.up.writes = [] ∧ s.views[0].record = some viewRec ∧
      ∀ h ∈ s.views[0].held, h.expired = true ∨ (s.timeBase - h.accepted).toNat < viewRec.holdLimit ∨
        ∀ k ∈ h.needed, s.views[0].rowReady k = true) := by decide +kernel

/-- A due test one microsecond too early would show here. -/
theorem test_timers_not_due :
    (after (.holdLimitExpiry 0) (withView { openView with held := [heldAt 99985] } viewState)).map
      (fun t => t.views[0].held.length) = some 1 ∧
    (after (.idleTimerExpiry 0) (withView { openView with
      state := .opened { frame0 with idleLoad := 90001 } } viewState)).map (fun t => t.views[0].state) =
      some (.opened { frame0 with idleLoad := 90001 }) := by decide +kernel

theorem witness_IdleStepsUndueRowsAndBadTraffic_rows :
    base.phase ≠ .initializing ∧ base.sources[(3 : Fin 4)].watchdog = none ∧
    viewState.views[(0 : Fin 2)].state = .idle ∧ viewState.quiet ∧
    viewState.views[(0 : Fin 2)].held = [] ∧ (commandRow .zoomSet).isSome = true ∧
    viewState.cmd.slots[viewState.cmd.next].state ≠ .ready :=
  ⟨by decide, by decide +kernel, by decide +kernel, viewState_quiet, by decide +kernel, rfl,
    by decide +kernel⟩

/-! ### The memory port -/

/-- The outstanding list with only its last entry free. -/
def nearlyFull (s : State) : State :=
  { s with outstanding := Vector.ofFn fun e => if e.val = 63 then none else some ⟨.recordWrite, false⟩ }

/-- One forwarded read waits. -/
def passState : State := nearlyFull { viewState with passQueue := [.read (rd 0x12345670)] }

/-- Both views offer an urgent fetch of row 5. -/
def urgentState : State :=
  { viewState with views := Vector.replicate 2 { openView with
      cache := openView.cache.set 0 (.fetching key0 true [])
      fetchQ := ⟨[0], []⟩ } }

/-- The Report Unit offers a record with its mirror behind it, or the mirror. -/
def reportState (items : List OutItem) : State :=
  nearlyFull { base with report := { base.report with output := items, writeIndex := 65535 } }

/-- A record of a forced event. -/
def forced : Record := ⟨.eventForced, 3, 0, 1, 1, 1, 7, 8⟩

theorem test_arbiter_grant :
    (after .arbiterGrant passState).map (fun t => (t.passQueue, t.memRequests)) =
      some ([], [.read ⟨9, 0x12345670, 1, 63⟩]) := by decide +kernel

/-- Row 5 of store 0 lies at 10000500h: one read of 16 beats (R124), tag 255. -/
theorem test_arbiter_grant_of_a_fetch :
    (after .arbiterGrant urgentState).map (fun t => (t.memRequests, t.arb.urgentPtr)) =
      some ([.read ⟨255, 0x10000500, 16, 0⟩], 1) := by decide +kernel

theorem test_response_relay :
    (after (.responseRelay 63 ⟨.error, List.replicate 16 0xAA⟩) (withOut 63 (.forwarded 9 3 true 1) base)).map
      (fun t => t.up.responses) = some [⟨9, 3, .error, true, 1, List.replicate 16 0xAA⟩] := by decide +kernel

theorem test_discarded_response :
    (after (.discardedResponse 0 ⟨.okay, []⟩)
      { base with outstanding := base.outstanding.set 0 (some ⟨.mirrorWrite, true⟩) }).map
      (fun t => (t.outstanding[0], t.up.responses)) = some (none, []) := by decide +kernel

theorem test_own_request_response :
    (after (.ownRequestResponse 0 ⟨.error, []⟩) (withOut 0 .recordWrite base)).map
      (fun t => (t.outstanding[0], t.report.output)) = some (none, []) := by decide +kernel

/-- A fetch into entry 15 of view 0 with its last response owed. -/
def fetchState (c : CacheEntry) : State :=
  withOut 63 (.fetch 0 15 ⟨0x10000500, 1⟩)
    { withView { openView with cache := openView.cache.set 15 c } viewState with
      inflight := [⟨0, 15, 1, 1, 1, [], 0x10000500, false, false⟩] }

theorem test_fetch_completion :
    (after (.fetchCompletion 63 ⟨.okay, List.replicate 16 0x33⟩)
      (fetchState (.fetching key0 false (List.replicate 16 0)))).map
      (fun t => (t.views[0].cache[15], t.inflight)) =
      some (.valid key0 1 (List.replicate 16 0x33), []) ∧
    (after (.fetchCompletion 63 ⟨.error, List.replicate 16 0x33⟩)
      (fetchState (.fetching key0 false (List.replicate 16 0)))).map (fun t => t.views[0].cache[15]) =
      some (.failed key0 1) := by decide +kernel

/-- The first two sources of the set of section 2.7 as a block of 76 bytes (R198), with its CRC. -/
def calBlock : List Byte :=
  let body := [1, 2, 76, 0, 0, 0, 0, 0, 0, 0] ++ le32 65536 ++ le32 0 ++ le32 0 ++ le16 1024 ++ [0, 0] ++
    le16 1000 ++ le16 750 ++ le16 2999 ++ le16 2249 ++
    le32 65536 ++ le32 0 ++ le32 0 ++ le16 2048 ++ [0, 0] ++ List.replicate 8 0 ++
    le16 2176 ++ le16 2048 ++ le16 96 ++ le16 32 ++ [8, 30, 0, 0]
  [0x4C, 0x5A] ++ le32 (crc32 body).toNat ++ body

/-- A load of 76 bytes whose one response is owed. -/
def loadState : State :=
  withOut 63 (.load ⟨0x8000, 5⟩)
    { base with cal := ⟨none, none, some ⟨0x8000, 76, List.replicate 76 0, [], 1, none⟩⟩ }

/-- The response that brings the block, with 4 bytes beyond it. -/
def blockResponse : MemResp := ⟨.okay, calBlock ++ [1, 2, 3, 4]⟩

/-- The CRC-32 of the ASCII digits 1 to 9, the check value known for this CRC. -/
theorem test_crc : crc32 [0x31, 0x32, 0x33, 0x34, 0x35, 0x36, 0x37, 0x38, 0x39] = 0xCBF43926 := by
  decide +kernel

theorem test_calibration_load_end :
    (after (.calibrationLoadEnd 63 blockResponse) loadState).map
      (fun t => (t.cal.stateCode, t.cal.staged.map fun c => (c.count, c.pairs))) =
      some (2, some (2, [⟨2176, 2048, 96, 32, 8, 30⟩])) := by decide +kernel

theorem test_calibration_load_end_bad :
    (after (.calibrationLoadEnd 63 ⟨.okay, List.replicate 80 0⟩) loadState).map
      (fun t => (t.cal.stateCode, t.report.output)) =
      some (0, [.record ⟨.calBad, 3, 0, 1, 100000, 100000, 1, 1⟩]) := by decide +kernel

/-- What the requesters offer: an urgent or a prefetch read of the views listed, a forwarded read, a record and
a calibration read, each count at `age` and both pointers at view 1. -/
def rankState (urgent : Bool) (views : List (Fin 2)) (pass report cal : Bool) (age : Nat) : State :=
  { viewState with
    views := Vector.ofFn fun v =>
      if v ∈ views then { openView with
        cache := openView.cache.set 0 (.fetching key0 urgent [])
        fetchQ := if urgent then ⟨[0], []⟩ else ⟨[], [0]⟩ }
      else viewState.views[0]
    passQueue := if pass then [.read (rd 0x12345670)] else []
    report := { viewState.report with output := if report then [.record forced] else [] }
    cal := ⟨none, none, if cal then some ⟨0x8000, 76, List.replicate 76 0, [⟨0x8000, 5⟩], 0, none⟩ else none⟩
    arb := ⟨Vector.replicate 2 age, age, age, 1, 1⟩ }

/-- Every rank, with what stands below it offered too; a view alone, and both. -/
theorem test_ranks :
    ([rankState true [0, 1] true true true 64, rankState true [0] true true true 64,
      rankState false [0, 1] true true true 64, rankState false [0] true true true 64,
      rankState false [] true true true 64, rankState false [] true false true 64,
      rankState false [0, 1] true true true 63, rankState false [0, 1] false true true 63,
      rankState false [0] false true true 63, rankState false [] false true true 63,
      rankState false [] false false true 63, rankState false [] false false false 63].map State.winner) =
      [some (.view 1), some (.view 0), some (.view 1), some (.view 0), some .report, some .cal, some .pass,
       some (.view 1), some (.view 0), some .report, some .cal, none] := by decide +kernel

/-- Grant 54 and 65 of section 9.7: W1's count reaches 64; P0's grant takes its count to 0, raises the Report
Unit's, and moves the prefetch pointer to view 1. -/
theorem test_ages :
    (let s := { rankState false [0] true true false 53 with arb := ⟨#v[53, 0], 63, 0, 0, 1⟩ }
     (after .arbiterGrant s).map State.arb = some ⟨#v[54, 0], 64, 0, 0, 1⟩) ∧
    (let s := { rankState false [0] true true false 64 with arb := ⟨#v[64, 0], 9, 0, 0, 1⟩ }
     (after .arbiterGrant s).map State.arb = some ⟨#v[0, 0], 10, 0, 0, 1⟩) := by decide +kernel

theorem witness_GrantsRanked :
    passState.quiet ∧ passState.lowestFree 63 ∧ passState.winner = some .pass ∧
    passState.passQueue = [.read (rd 0x12345670)] ∧
    (let s := withOut 63 .mirrorWrite passState;
      s.quiet ∧ ∀ e : Fin 64, s.outstanding[e] ≠ none) ∧
    (rankState false [] false false false 63).quiet :=
  ⟨⟨rfl, rfl⟩, ⟨by decide +kernel, by decide +kernel⟩, by decide +kernel, by decide +kernel,
    ⟨⟨rfl, rfl⟩, by decide +kernel⟩, ⟨rfl, rfl⟩⟩

/-- The offers behind the ranks: urgent or not, aged or not, from both views or one or none. -/
theorem witness_GrantsRanked_offers :
    (∀ x ∈ [true, false], ∀ v : Fin 2, ∀ n ∈ [63, 64],
      let s := rankState x [0, 1] true true true n
      (s.viewOffer v).map Fetch.urgent = some x ∧ s.arb.ageView[v] = n ∧ s.reportOffer ≠ none ∧
      s.calOffer ≠ none ∧ s.arb.ageReport = n ∧ s.arb.ageCal = n ∧ s.passQueue ≠ []) ∧
    (let s := rankState false [] false false false 64
     (∀ v, s.viewOffer v = none) ∧ s.reportOffer = none ∧ s.calOffer = none ∧ s.passQueue = []) ∧
    (rankState true [0, 1] true true true 64).phase = .running ∧ State.reset.phase ≠ .running := by
  decide +kernel

/-- The fetch of row 5 of store 0 before its first grant. -/
def fetch0 (urgent : Bool) : Fetch := ⟨0, 0, 0, 1, 0, [⟨0x10000500, 16⟩], 0x10000500, urgent, false⟩

/-- The head of a queue granted first, and its entry's row in its plan. -/
theorem witness_ReadsGranted :
    (∀ x ∈ [true, false],
      let s := rankState x [0] false false false 0
      s.up.reads = [] ∧ s.up.writes = [] ∧ s.outstanding[(0 : Fin 64)] = none ∧ s.phase = .running ∧
      s.winner = some (.view 0) ∧ s.viewOffer 0 = some (fetch0 x) ∧ s.formFetch 0 0 = some (fetch0 x) ∧
      s.views[0].cache[0] = .fetching key0 x [] ∧ s.views[0].plan = some plan0 ∧
      s.views[0].fetchQ = (if x then ⟨[0], []⟩ else ⟨[], [0]⟩) ∧ s.inflight = [] ∧
      s.sources[key0.source].record = some srcRec) ∧
    plan0.fromSide = some ⟨0, 0, 65536, 0, 0, .neutral, 0, 63⟩ ∧
    (srcRec.posBases ++ srcRec.spareBases)[key0.store]? = some 0x10000000 ∧
    readsFor (0x10000000 + key0.row * srcRec.stride) (0x10000000 + key0.row * srcRec.stride + 4 * 63 + 3) =
      [⟨0x10000500, 16⟩] := by decide +kernel

/-- An issued fetch with a read left, urgent and not, behind one that has none; and a load. -/
theorem witness_ReadsGranted_later :
    let f (urgent : Bool) : Fetch := ⟨0, 3, 1, 2, 1, [⟨0x10000600, 4⟩], 0x10000500, urgent, false⟩
    let done : Fetch := ⟨0, 2, 1, 1, 1, [], 0x10000400, false, false⟩
    (∀ x ∈ [true, false],
      let s := { rankState true [] false false false 0 with inflight := [done] ++ f x :: [] }
      s.up.reads = [] ∧ s.up.writes = [] ∧ s.outstanding[(0 : Fin 64)] = none ∧ s.phase = .running ∧
      s.winner = some (.view 0) ∧ s.viewOffer 0 = some (f x) ∧ s.views[0].fetchQ = ⟨[], []⟩) ∧
    (let s := rankState false [] false false true 0
     s.up.reads = [] ∧ s.up.writes = [] ∧ s.outstanding[(0 : Fin 64)] = none ∧ s.winner = some .cal ∧
     s.cal.load = some ⟨0x8000, 76, List.replicate 76 0, [⟨0x8000, 5⟩], 0, none⟩) := by decide +kernel

/-- A later grant and a load's grant, by what they leave. -/
theorem test_later_reads :
    (after .arbiterGrant { rankState true [] false false false 0 with
        inflight := [⟨0, 3, 1, 2, 1, [⟨0x10000600, 4⟩], 0x10000500, true, false⟩] }).map
      (fun t => (t.inflight, t.memRequests)) =
      some ([⟨0, 3, 2, 2, 2, [], 0x10000500, true, false⟩], [.read ⟨255, 0x10000600, 4, 0⟩]) ∧
    (after .arbiterGrant (rankState false [] false false true 0)).map
      (fun t => (t.cal.load.map fun l => (l.todo, l.owed), t.memRequests)) =
      some (some ([], 1), [.read ⟨255, 0x8000, 5, 0⟩]) := by decide +kernel

theorem witness_ReportGrants :
    (reportState [.record forced, .mirror]).quiet ∧ (reportState [.mirror]).quiet ∧
    (reportState [.record forced, .mirror]).lowestFree 63 ∧ (reportState [.mirror]).lowestFree 63 ∧
    (reportState [.record forced, .mirror]).winner = some .report ∧
    (reportState [.mirror]).winner = some .report ∧
    (reportState [.record forced, .mirror]).report.output = [.record forced, .mirror] ∧
    (reportState [.mirror]).report.output = [.mirror] :=
  ⟨⟨rfl, rfl⟩, ⟨rfl, rfl⟩, ⟨by decide +kernel, by decide +kernel⟩, ⟨by decide +kernel, by decide +kernel⟩,
    by decide +kernel, by decide +kernel, by decide +kernel, by decide +kernel⟩

/-- A Report Unit with records queued, kinds pending and a record floor. -/
def busyReport (queued : Nat) (kinds : List Record) (floor : Nat) : Report :=
  { base.report with output := List.replicate queued (.record forced), pendingKinds := kinds, floor }

/-- Below the floor; room at 3 queued and none at 4; a kind that is pending, and one that is not. -/
theorem witness_EventsRaised :
    let e : Event := ⟨.frameTorn, 3, 0, 0, 0⟩
    let torn : Record := ⟨.frameTorn, 3, 0, 65535, 1, 1, 7, 8⟩
    base.phase = .running ∧ (initState 0).phase ≠ .running ∧
    (1 : Nat) < (busyReport 0 [] 2).floor ∧ (busyReport 3 [] 3).floor ≤ e.level ∧
    (busyReport 3 [] 3).queued = 3 ∧ (busyReport 3 [] 3).unacked = 0 ∧ (busyReport 4 [] 3).queued = 4 ∧
    (∀ p ∈ (busyReport 4 [forced] 3).pendingKinds, p.kind ≠ e.kind) ∧
    (busyReport 0 [forced, torn] 3).pendingKinds = [forced] ++ torn :: [] ∧ torn.kind = e.kind ∧
    (∀ x ∈ [forced] ++ [], x.kind ≠ e.kind) ∧ OutItem.mirror ∈ (reportState [.mirror]).report.output ∧
    OutItem.mirror ∉ (busyReport 3 [] 3).output := by decide +kernel

/-- A folded event raises the count to 65,535 at most and keeps the first time (R175). -/
theorem test_event_folds :
    ((busyReport 0 [⟨.eventForced, 3, 0, 65535, 1, 1, 7, 8⟩] 1).raise 100 ⟨.eventForced, 2, 0, 5, 6⟩).pendingKinds
      = [⟨.eventForced, 2, 0, 65535, 1, 100, 5, 6⟩] := by decide +kernel

/-- Codes on either side of the ten commands (R191). -/
theorem witness_RecordAndMirrorLayout : (0 : Nat) = 0 ∧ 10 < (11 : Nat) ∧ CmdCode.ofByte 11 = none := by decide

/-- A granted position with its alert flag set pulls EVT_N low (R176, R178). -/
theorem test_evt_n :
    (after .arbiterGrant (reportState [.record forced])).map
      (fun t => (t.report.writeIndex, t.report.alertFlags[255], t.evtN)) = some (0, true, true) ∧
    (after .arbiterGrant { reportState [.record forced] with
      report := { (reportState [.record forced]).report with ackIndex := 65535 } }).map State.evtN =
        some false := by decide +kernel

/-- One read cut at a page, one at 16 beats, and the last. -/
theorem witness_FetchReadsDivide :
    (4095 : Nat) ≤ 4096 ∧ readsFor 4095 4096 = [⟨4080, 1⟩, ⟨4096, 1⟩] ∧
    readsFor 0 300 = [⟨0, 16⟩, ⟨256, 3⟩] := by decide +kernel

theorem witness_ResponsesHandedOver :
    (withOut 63 (.forwarded 9 3 true 16) base).quiet ∧
    (withOut 63 (.forwarded 9 3 true 16) base).outstanding[(63 : Fin 64)] =
      some ⟨.forwarded 9 3 true 16, false⟩ ∧ (List.replicate 256 (0 : Byte)).length = 16 * 16 :=
  ⟨⟨rfl, rfl⟩, by decide +kernel, by decide +kernel⟩

theorem witness_ResponsesHandedOver_own :
    (withOut 63 .mirrorWrite base).quiet ∧
    (withOut 63 .mirrorWrite base).outstanding[(63 : Fin 64)] = some ⟨.mirrorWrite, false⟩ ∧
    (let s := { base with outstanding := base.outstanding.set 0 (some ⟨.load ⟨0, 16⟩, true⟩) };
      s.quiet ∧ s.outstanding[(0 : Fin 64)] = some ⟨.load ⟨0, 16⟩, true⟩) ∧
    (List.replicate 256 (0 : Byte)).length = (Owner.load ⟨0, 16⟩).dataLength :=
  ⟨⟨rfl, rfl⟩, by decide +kernel, ⟨⟨rfl, rfl⟩, by decide +kernel⟩, by decide +kernel⟩

theorem witness_FetchCompletes :
    let c : CacheEntry := .fetching key0 false (List.replicate 16 0)
    let f : Fetch := ⟨0, 15, 1, 1, 1, [], 0x10000500, false, false⟩
    (∀ x, (fetchState x).quiet) ∧
    (∀ x ∈ [c, .discarding],
      (fetchState x).outstanding[(63 : Fin 64)] = some ⟨.fetch 0 15 ⟨0x10000500, 1⟩, false⟩ ∧
      (fetchState x).views[0].record = some viewRec ∧ (fetchState x).views[0].held = [] ∧
      (fetchState x).inflight.find? (fun g => g.isOf 0 15) = some f ∧
      (fetchState x).views[0].cache[15] = x) ∧
    (List.replicate 16 (0 : Byte)).length = 16 * 1 ∧ f.todo = [] ∧ f.owed = 1 :=
  ⟨fun _ => ⟨rfl, rfl⟩, by decide +kernel, by decide, rfl, rfl⟩

/-- A held read that waits for the one row in flight: the row comes VALID, or FAILED. -/
theorem witness_FetchCompletes_held :
    let s := withOut 63 (.fetch 0 15 ⟨0x10000500, 1⟩)
      { withView { openView with
          cache := openView.cache.set 15 (.fetching key0 false (List.replicate 16 0))
          held := [heldAt 99990] } viewState with
        inflight := [⟨0, 15, 1, 1, 1, [], 0x10000500, false, false⟩] }
    let done (c : CacheEntry) : View := { s.views[0] with
      completionCount := s.views[0].completionCount + 1, cache := s.views[0].cache.set 15 c }
    s.up.reads = [] ∧ s.up.writes = [] ∧ s.views[0].record = some viewRec ∧
    s.outstanding[(63 : Fin 64)] = some ⟨.fetch 0 15 ⟨0x10000500, 1⟩, false⟩ ∧
    s.inflight.find? (fun g => g.isOf 0 15) = some ⟨0, 15, 1, 1, 1, [], 0x10000500, false, false⟩ ∧
    s.views[0].cache[15] = .fetching key0 false (List.replicate 16 0) ∧
    s.views[0].held = [heldAt 99990] ∧ s.views[0].plan = some plan0 ∧ plan0.isFill = false ∧
    (heldAt 99990).rows ≠ [] ∧ (heldAt 99990).expired = false ∧
    (∀ k ∈ (heldAt 99990).needed, (done (.valid key0 1 (List.replicate 16 0x33))).rowValid k = true) ∧
    (∀ k ∈ (heldAt 99990).needed, (done (.failed key0 1)).rowReady k = true) ∧
    (∃ k ∈ (heldAt 99990).needed, (done (.failed key0 1)).rowFailed k = true) := by decide +kernel

/-- A held read whose row is not the one that comes in, in a sound cache; a DISCARDING entry beside it. -/
theorem witness_FetchCompletes_waits :
    let other : RowKey := { key0 with row := 6 }
    let view (c : CacheEntry) : View := { openView with
      cache := openView.cache.set 15 c, held := [heldAt 99990] }
    let done : View := { view .discarding with
      completionCount := 1, cache := openView.cache.set 15 (.valid other 1 (List.replicate 16 0x33)) }
    (∀ m n : Fin 16, (view (.fetching other false [])).cache[m].liveKey ≠ none →
      (view (.fetching other false [])).cache[n].liveKey ≠ none → m = n) ∧
    (view (.fetching other false [])).fetchQ.length ≤ 8 ∧
    (∃ k ∈ (heldAt 99990).needed, done.rowReady k = false) ∧
    (view .discarding).cache[15] = .discarding ∧ (view .discarding).held = [heldAt 99990] := by
  decide +kernel

/-- Row 6 comes in while row 5 is waited for: the read stays, and row 5 is requested (R122, R125). -/
theorem test_fetch_completion_waits :
    let s := fetchState (.fetching { key0 with row := 6 } false (List.replicate 16 0))
    (after (.fetchCompletion 63 ⟨.okay, List.replicate 16 0x33⟩)
      { s with views := s.views.set 0 { s.views[0] with held := [heldAt 99990] } }).map
      (fun t => (t.views[0].held, t.views[0].fetchQ, t.up.responses.length)) =
      some ([heldAt 99990], ⟨[0], []⟩, 0) := by decide +kernel

theorem witness_CalibrationLoads_end :
    let l : Load := ⟨0x8000, 76, List.replicate 76 0, [], 1, none⟩
    loadState.phase = .running ∧ loadState.quiet ∧
    loadState.outstanding[(63 : Fin 64)] = some ⟨.load ⟨0x8000, 5⟩, false⟩ ∧
    blockResponse.data.length = 16 * 5 ∧ loadState.cal.load = some l ∧
    checkLoad (l.respond ⟨0x8000, 5⟩ blockResponse) loadState.sources = none ∧
    checkLoad (l.respond ⟨0x8000, 5⟩ ⟨.error, blockResponse.data⟩) loadState.sources =
      some ⟨4, 0, 0⟩ :=
  ⟨by decide, ⟨rfl, rfl⟩, by decide +kernel, by decide +kernel, by decide +kernel, by decide +kernel,
    by decide +kernel⟩

/-- A fetch and a load that are owed one response more, and a DISCARDING entry. -/
theorem witness_ResponsesHandedOver_more :
    let c : CacheEntry := .fetching key0 true (List.replicate 32 0)
    let f : Fetch := ⟨0, 15, 2, 2, 2, [], 0x10000500, true, false⟩
    let l : Load := ⟨0x8000, 76, List.replicate 76 0, [], 2, none⟩
    let load := { loadState with cal := ⟨none, none, some l⟩ }
    (∀ x ∈ [c, .discarding],
      let s := { fetchState x with inflight := [f] }
      s.outstanding[(63 : Fin 64)] = some ⟨.fetch 0 15 ⟨0x10000500, 1⟩, false⟩ ∧
      s.views[0].record = some viewRec ∧ s.inflight.find? (fun g => g.isOf 0 15) = some f ∧
      s.views[0].cache[15] = x ∧ s.up.reads = [] ∧ s.up.writes = []) ∧
    (List.replicate 16 (0 : Byte)).length = 16 * 1 ∧ 2 ≤ f.owed ∧
    load.outstanding[(63 : Fin 64)] = some ⟨.load ⟨0x8000, 5⟩, false⟩ ∧ load.cal.load = some l ∧
    blockResponse.data.length = 16 * 5 ∧ 2 ≤ l.owed ∧ load.up.reads = [] ∧ load.up.writes = [] ∧
    (List.replicate 32 (0 : Byte))[16]? = some 0 := by decide +kernel

/-- Bytes beyond the buffer are dropped, and those before stay (R35). -/
theorem test_place_bytes : placeBytes 8 [1, 2, 3, 4] 10 [7, 8, 9] = [1, 2, 7, 8] ∧
    placeBytes 8 [1, 2, 3, 4] 6 [5, 6, 7] = [7, 2, 3, 4] := by decide

/-! ### Takes of command slots -/

def nopSlot : Slot := slotOf [1]
/-- SOURCE_SETUP of `srcRec` for source 0 (R193). -/
def sourceSlot : Slot := slotOf
  [2, 10, 0, 0, 0, 16, 2, 1, 64, 0, 64, 0, 0, 1, 0, 0, 0, 0, 0, 0, 0, 0, 1, 0, 0x10, 0, 1, 0,
   0, 0, 0, 0, 0, 0, 0, 0, 0x20, 0, 1, 0, 0, 0, 0, 0]
/-- SOURCE_CONTROL with a source and an action (R193). -/
def sourceControl (i a : Nat) : Slot := slotOf [3, 1, 0, 0, i, a, 0, 0]
/-- VIEW_SETUP of `viewRec` for view 0 (R193). -/
def viewSlot : Slot := slotOf
  [4, 7, 0, 0, 0, 0, 0, 0, 64, 0, 64, 0, 0, 1, 0, 0, 0, 0, 2, 0, 16, 128, 128, 0, 1, 1, 1, 10, 16, 0, 0, 0]
/-- VIEW_CONTROL with a view and an action (R193). -/
def viewControl (v a : Nat) : Slot := slotOf [5, 1, 0, 0, v, a, 0, 0]
/-- CAL_LOAD of a block at an offset in a page (R193). -/
def calSlot (page offset length : Nat) : Slot := slotOf
  [6, 2, 0, 0, page % 256, page / 256 % 256, page / 65536 % 256, page / 16777216,
   offset % 256, offset / 256, length % 256, length / 256]
/-- ZOOM_SET of a target and a slew, the pan kept (R193). -/
def zoomSet (target slew : Nat) : Slot := slotOf
  [7, 4, 0, 0, target % 256, target / 256, slew % 256, slew / 256, 0, 0, 0, 0, 0, 0, 0, 0, 1, 0, 0, 0]
/-- EVENT_SETUP of a floor, check enable off, mask 3Fh (R193). -/
def eventSetup (floor : Nat) : Slot := slotOf [8, 2, 0, 0, floor, 0, 0, 0, 0x3F, 0, 0, 0]
/-- EVENT_FORCE of a level with argument 78563412h (R193). -/
def eventForce (level : Nat) : Slot := slotOf [9, 2, 0, 0, level, 0, 0, 0, 0x12, 0x34, 0x56, 0x78]
def resetSlot : Slot := slotOf [10]
/-- A slot whose code is none of the ten. -/
def strangeSlot : Slot := slotOf [11]
/-- A slot made READY by its trailer alone. -/
def bareSlot : Slot :=
  { strangeSlot with marks := Vector.ofFn fun i => decide (60 ≤ i.val), incomplete := true }

theorem test_nop :
    (after .nop (withSlot nopSlot base)).map
      (fun t => (t.cmd.next, t.cmd.consumed, t.cmd.last, t.report.output)) =
      some (0, 32, some ⟨31, .ok, 0x0102⟩, [.mirror]) := by decide +kernel

theorem test_source_setup :
    sourceSlot.sourceRecord = srcRec ∧
    (after .sourceSetup (withSlot sourceSlot base)).map
      (fun t => (t.sources[0].state, t.sources[0].ringMap, t.sources[0].stores.length)) =
      some (.off, [0, 1], 3) := by decide +kernel

theorem test_source_control_enable :
    (after .sourceControlEnable (withSlot (sourceControl 0 1) (base.setUpSource 0 srcRec))).map
      (fun t => (t.sources[0].state, t.sources[0].watchdog, t.windows.map Window.active)) =
      some (.waiting, some 100000, [true, true, true]) := by decide +kernel

theorem test_source_control_disable :
    (after .sourceControlDisable (withSlot (sourceControl 0 2) movedState)).map
      (fun t => (t.sources[0].state, t.sources[0].ringMap, t.windows.map Window.active)) =
      some (.off, [0, 1], [true, false, false]) := by decide +kernel

theorem test_view_setup :
    viewSlot.viewRecord = viewRec ∧
    (after .viewSetup (withSlot viewSlot camState)).map
      (fun t => (t.views[0].state, t.windows.getLast?)) =
      some (.disabled, some ⟨0x20000000, 0x4000, .aperture 0, false⟩) := by decide +kernel

theorem test_view_control_enable :
    (after .viewControlEnable (withSlot (viewControl 0 1) (camState.setUpView 0 viewRec))).map
      (fun t => (t.views[0].state, t.windows.map Window.active)) =
      some (.idle, [true, true, true, true]) := by decide +kernel

/-- The held read is answered and the plan's pin on store 0 released (R84). -/
theorem test_view_control_disable :
    (after .viewControlDisable (withSlot (viewControl 0 2)
      (withSource (poolSource (.ready, 1) (.free, 0) (.free, 0)) heldState))).map
      (fun t => (t.views[0].state, t.up.responses.length, t.sources[0].stores.map FrameStore.pins)) =
      some (.disabled, 1, [0, 0, 0]) := by decide +kernel

/-- A block of 148 bytes at offset 16 of page 5 (R34, R35). -/
theorem test_cal_load :
    (after .calLoad (withSlot (calSlot 5 16 148) base)).map
      (fun t => (t.cal.load.map fun l => (l.addr, l.todo), t.cmd.last)) =
      some (some (0x5010, [⟨0x5010, 10⟩]), some ⟨31, .ok, 0x0102⟩) := by decide +kernel

/-- The clamp of section 3.1: 30,000 becomes 24,576. -/
theorem test_zoom_set :
    (after .zoomSet (withSlot (zoomSet 30000 128) base)).map
      (fun t => (t.zoom.target, t.zoom.slew, t.zoom.panX, t.report.output)) =
      some (24576, 128, 2048 * 65536,
        [.record ⟨.zoomClamped, 2, 0, 1, 100000, 100000, 1, 30000 + 65536 * 24576⟩, .mirror]) := by
  decide +kernel

theorem test_event_setup :
    (after .eventSetup (withSlot (eventSetup 3) base)).map
      (fun t => (t.report.floor, t.report.mask, t.cmd.checkEnable)) = some (3, 0x3F, false) := by decide +kernel

theorem test_event_force :
    (after .eventForce (withSlot (eventForce 3) base)).map (fun t => t.report.output) =
      some [.record ⟨.eventForced, 3, 0, 1, 100000, 100000, 0x78563412, 0x0102⟩, .mirror] := by
  decide +kernel

theorem test_part_reset :
    (after .partReset (withSlot resetSlot viewState)).map
      (fun t => (t.phase, t.report.cause, t.cmd.next, t.cmd.last, t.sources[0].state)) =
      some (.initializing, .soft, 0, none, .unset) := by decide +kernel

theorem test_unknown_command_take :
    (after .unknownCommandTake (withSlot strangeSlot base)).map (fun t => (t.cmd.last, t.report.output)) =
      some (some ⟨31, .unknown, 0x0102⟩,
        [.record ⟨.cmdRefused, 2, 31, 1, 100000, 100000, 11 + 256, 0x0102⟩, .mirror]) := by
  decide +kernel

/-- The READY slot put at the pointer stands there. -/
theorem withSlot_ready {sl : Slot} (s : State) (h : sl.state = .ready) :
    (withSlot sl s).readySlot = some sl := by
  simp [State.readySlot, withSlot, h]

/-- A READY slot put at the pointer that holds the command and passes the Command Unit's checks. -/
theorem offers_of {s : State} {c : CmdCode} {sl : Slot} (hr : sl.state = .ready)
    (h : (sl.command == some c && ownCheck sl s.cmd.checkEnable == none) = true) :
    (withSlot sl s).offers c sl :=
  ⟨withSlot_ready s hr, by simpa [withSlot] using h⟩

theorem witness_NopCompletes : (withSlot nopSlot base).offers .nop nopSlot := offers_of rfl (by decide +kernel)

/-- A NOP with a wrong check byte, and an EVENT_SETUP with floor 4. -/
theorem witness_RefusedChangesNothing :
    let bad : Slot := { nopSlot with bytes := nopSlot.bytes.set 60 0 }
    (∃ mine act, commandRow .nop = some (mine, act) ∧ (withSlot bad base).phase = .running ∧
      (withSlot bad base).quiet ∧ (withSlot bad base).readySlot = some bad ∧ mine bad = true ∧
      ownCheck bad true = some .check) ∧
    (∃ mine act, commandRow .eventSetup = some (mine, act) ∧
      (withSlot (eventSetup 4) base).phase = .running ∧ (withSlot (eventSetup 4) base).quiet ∧
      (withSlot (eventSetup 4) base).readySlot = some (eventSetup 4) ∧ mine (eventSetup 4) = true ∧
      ownCheck (eventSetup 4) true = none ∧
      (act (eventSetup 4) (withSlot (eventSetup 4) base).markTaken).1 = .range) :=
  ⟨⟨_, _, rfl, rfl, ⟨rfl, rfl⟩, withSlot_ready _ rfl, by decide +kernel, by decide +kernel⟩,
    ⟨_, _, rfl, rfl, ⟨rfl, rfl⟩, withSlot_ready _ rfl, by decide +kernel, by decide +kernel,
      by decide +kernel⟩⟩

/-- A slot of code 1 and a length, incomplete but for its head. -/
def shortSlot (length : Nat) : Slot := { slotOf [1, length] with incomplete := true }

/-- Each row's condition, at the lengths 14 and 15 and at a command's words. -/
theorem witness_RefusedChangesNothing_rows :
    let seen := fun sl : Slot => ∀ p : Fin 64, p.val < 4 → sl.marks[p] = true
    let length := fun sl : Slot => (sl.bytes.toList.map BitVec.toNat).getD 1 0
    let passes := fun sl : Slot => (((sl.bytes.toList.map BitVec.toNat).take (4 * (length sl + 1))).sum +
      (sl.bytes.toList.map BitVec.toNat).getD 60 0) % 256 = 0
    let bad : Slot := { nopSlot with bytes := nopSlot.bytes.set 60 0 }
    (bareSlot.incomplete = true ∧ ¬ seen bareSlot) ∧ (seen (shortSlot 15) ∧ 14 < length (shortSlot 15)) ∧
    (length (shortSlot 14) ≤ 14 ∧ (shortSlot 14).incomplete = true) ∧
    (bad.incomplete = false ∧ length bad ≤ 14 ∧ ¬ passes bad) ∧
    (passes strangeSlot ∧ CmdCode.ofByte 11 = none) ∧ CmdCode.ofByte 9 = some .eventForce ∧
    (length (slotOf [9, 1]) < CmdCode.words .eventForce ∧ passes (slotOf [9, 1])) ∧
    CmdCode.words .eventForce ≤ length (eventForce 1) := by decide +kernel

/-- The six rows in their order, and none of them (R164). -/
theorem test_own_check :
    let bad : Slot := { nopSlot with bytes := nopSlot.bytes.set 60 0 }
    [bareSlot, shortSlot 15, shortSlot 14, bad, strangeSlot, slotOf [9, 1], eventForce 1].map (ownCheck · true) =
      [some .incomplete, some .range, some .incomplete, some .check, some .unknown, some .range, none] ∧
    ownCheck bad false = none := by decide +kernel

theorem witness_UnknownCommandRefused :
    (withSlot strangeSlot base).phase = .running ∧
    (withSlot strangeSlot base).readySlot = some strangeSlot ∧ strangeSlot.incomplete = false ∧
    strangeSlot.seen 0 = true ∧ strangeSlot.bodyLength ≤ 14 ∧ strangeSlot.checkPasses = true ∧
    CmdCode.ofByte strangeSlot.code = none ∧ (withSlot bareSlot base).readySlot = some bareSlot ∧
    bareSlot.incomplete = true ∧ bareSlot.seen 0 = false :=
  ⟨rfl, withSlot_ready _ rfl, rfl, by decide +kernel, by decide +kernel, by decide +kernel,
    by decide +kernel, withSlot_ready _ rfl, rfl, by decide +kernel⟩

/-- SOURCE_SETUP of a record like `srcRec` with another index, tag or width (R193). -/
def sourceSlotWith (i tag width : Nat) : Slot := slotOf
  [2, 10, 0, 0, i, tag, 2, 1, width, 0, 64, 0, 0, 1, 0, 0, 0, 0, 0, 0, 0, 0, 1, 0, 0x10, 0, 1, 0,
   0, 0, 0, 0, 0, 0, 0, 0, 0x20, 0, 1, 0, 0, 0, 0, 0]

/-- All checks pass from the state after initialization: no other record, and no store. -/
theorem witness_SourceSetUp :
    let r := srcRec
    let apart := fun x y : Nat × Nat => x.1 + x.2 ≤ y.1 ∨ y.1 + y.2 ≤ x.1
    (withSlot sourceSlot base).offers .sourceSetup sourceSlot ∧ sourceSlot.source = some 0 ∧
    sourceSlot.sourceRecord = r ∧ base.sources[(0 : Fin 4)].state = .unset ∧
    (64 ≤ r.width ∧ r.width ≤ 4096 ∧ 64 ≤ r.height ∧ r.height ≤ 3072 ∧ r.stride % 64 = 0 ∧
      4 * r.width ≤ r.stride ∧ 2 ≤ r.positions ∧ r.positions ≤ 4 ∧ 1 ≤ r.spares ∧ r.spares ≤ 2 ∧
      r.watchdog ≤ 7 ∧ ∀ b ∈ r.posBases ++ r.spareBases,
        b % 4096 = 0 ∧ b + roundUpPage (r.height * r.stride) ≤ 2 ^ 40) ∧
    r.ranges.Pairwise apart ∧ (∀ x ∈ r.ranges, apart x (controlBase base.strapCp, 65536)) ∧
    (∀ j : Fin 4, base.sources[j].record = none ∧ base.sources[j].stores = []) ∧
    ∀ v : Fin 2, base.views[v].record = none :=
  ⟨offers_of rfl (by decide +kernel), by decide +kernel, by decide +kernel, by decide +kernel,
    by decide +kernel, by decide +kernel, by decide +kernel, by decide +kernel, by decide +kernel⟩

/-- Each refusal: index 4, a WAITING source, a width of 63, another source on the same ranges, another
with the same tag on ranges of its own, and a pinned store of an OFF source. -/
theorem witness_SourceSetUp_refusals :
    (withSlot (sourceSlotWith 4 16 64) base).offers .sourceSetup (sourceSlotWith 4 16 64) ∧
    (sourceSlotWith 4 16 64).source = none ∧
    (withSlot sourceSlot camState).offers .sourceSetup sourceSlot ∧ camState.sources[0].state = .waiting ∧
    (withSlot (sourceSlotWith 0 16 63) base).offers .sourceSetup (sourceSlotWith 0 16 63) ∧
    (sourceSlotWith 0 16 63).sourceRecord.width = 63 ∧
    (withSlot (sourceSlotWith 1 17 64) (base.setUpSource 0 srcRec)).offers .sourceSetup
      (sourceSlotWith 1 17 64) ∧
    (base.setUpSource 0 srcRec).sources[0].record = some srcRec ∧
    (sourceSlotWith 1 17 64).sourceRecord.ranges = srcRec.ranges ∧
    (let other : SourceRecord := { srcRec with posBases := [0x30000000, 0x30010000], spareBases := [0x30020000] }
     (withSlot sourceSlot (base.setUpSource 1 other)).offers .sourceSetup sourceSlot ∧
     (base.setUpSource 1 other).sources[1].record = some other ∧ other.tag = sourceSlot.sourceRecord.tag ∧
     ∀ x ∈ srcRec.ranges, ∀ y ∈ other.ranges, x.1 + x.2 ≤ y.1) ∧
    (let s := withSource { poolSource (.ready, 1) (.free, 0) (.free, 0) with state := .off } base
     (withSlot sourceSlot s).offers .sourceSetup sourceSlot ∧ s.sources[0].state = .off ∧
     (s.sources[0].stores[0]?).map FrameStore.pins = some 1) :=
  ⟨offers_of rfl (by decide +kernel), by decide +kernel, offers_of rfl (by decide +kernel), by decide +kernel,
    offers_of rfl (by decide +kernel), by decide +kernel, offers_of rfl (by decide +kernel), by decide +kernel,
    by decide +kernel, ⟨offers_of rfl (by decide +kernel), by decide +kernel, by decide +kernel, by decide +kernel⟩,
    ⟨offers_of rfl (by decide +kernel), by decide +kernel, by decide +kernel⟩⟩

/-- A pinned store refuses with BUSY, behind the other checks (R4). -/
theorem test_source_setup_busy :
    (after .sourceSetup (withSlot sourceSlot
      (withSource { poolSource (.ready, 1) (.free, 0) (.free, 0) with state := .off } base))).map
      (fun t => t.cmd.last.map LastCommand.result) = some (some .busy) := by decide +kernel

/-- Every clause: an index of 4, an action of 3, and an enable and a disable in each state. -/
theorem witness_SourceControl :
    (withSlot (sourceControl 4 1) camState).offers .sourceControl (sourceControl 4 1) ∧
    (sourceControl 4 1).source = none ∧ (sourceControl 3 3).action ≠ 1 ∧ (sourceControl 3 3).action ≠ 2 ∧
    (withSlot (sourceControl 3 3) camState).offers .sourceControl (sourceControl 3 3) ∧
    (withSlot (sourceControl 0 1) camState).offers .sourceControl (sourceControl 0 1) ∧
    (withSlot (sourceControl 0 2) camState).offers .sourceControl (sourceControl 0 2) ∧
    (sourceControl 0 1).action = 1 ∧ (sourceControl 0 2).action = 2 ∧ (sourceControl 0 2).source = some 0 ∧
    camState.sources[0].state.windowsActive = true ∧ camState.sources[0].record = some srcRec ∧
    (base.setUpSource 0 srcRec).sources[0].state = .off ∧ base.sources[0].state = .unset :=
  ⟨offers_of rfl (by decide +kernel), by decide +kernel, by decide +kernel, by decide +kernel,
    offers_of rfl (by decide +kernel), offers_of rfl (by decide +kernel), offers_of rfl (by decide +kernel),
    by decide +kernel, by decide +kernel, by decide +kernel, by decide +kernel, by decide +kernel,
    by decide +kernel, by decide +kernel⟩

/-- VIEW_SETUP of a record like `viewRec` with another index, base page or lookahead (R193). -/
def viewSlotWith (v page lookahead : Nat) : Slot := slotOf
  [4, 7, 0, 0, v, 0, 0, 0, 64, 0, 64, 0, 0, 1, 0, 0, 0, 0, page, 0, 16, 128, 128, 0, lookahead, 1, 1, 10, 16, 0, 0, 0]

/-- All checks pass beside source 0. -/
theorem witness_ViewSetUp :
    let r := viewRec
    let size := roundUpPage (r.height * r.stride)
    let apart := fun y : Nat × Nat => r.base + size ≤ y.1 ∨ y.1 + y.2 ≤ r.base
    (withSlot viewSlot camState).offers .viewSetup viewSlot ∧ viewSlot.view = some 0 ∧
    viewSlot.viewRecord = r ∧ camState.views[(0 : Fin 2)].state = .disabled ∧
    (64 ≤ r.width ∧ r.width ≤ 3840 ∧ 64 ≤ r.height ∧ r.height ≤ 2160 ∧ r.stride % 16 = 0 ∧
      4 * r.width ≤ r.stride ∧ r.base % 4096 = 0 ∧ 1 ≤ r.lookahead ∧ r.lookahead ≤ 8 ∧ r.warnLead ≤ 8 ∧
      4 ≤ r.holdLimit ∧ r.holdLimit ≤ 1020 ∧ r.holdLimit % 4 = 0 ∧ 1 ≤ r.underrunLimit ∧
      r.underrunLimit ≤ 15 ∧ 1 ≤ r.idleTimeout ∧ r.idleTimeout ≤ 255 ∧ r.base + size ≤ 2 ^ 40) ∧
    apart (controlBase camState.strapCp, 65536) ∧ (∀ y ∈ srcRec.ranges, apart y) ∧
    (∀ j : Fin 4, camState.sources[j].record = if j = 0 then some srcRec else none) ∧
    ∀ u : Fin 2, camState.views[u].record = none :=
  ⟨offers_of rfl (by decide +kernel), by decide +kernel, by decide +kernel, by decide +kernel,
    by decide +kernel, by decide +kernel, by decide +kernel, by decide +kernel, by decide +kernel⟩

/-- VIEW_SETUP with the defaults flag, another flag bit set and words 5 to 7 that are not read (R81, R194). -/
def defaultsSlot : Slot := slotOf
  [4, 7, 0, 0, 1, 3, 0, 0, 64, 0, 64, 0, 0, 1, 0, 0, 0, 0, 2, 0, 9, 9, 9, 0, 99, 99, 99, 0, 7, 0, 0, 0]

theorem test_view_setup_defaults :
    defaultsSlot.viewRecord = ⟨64, 64, 256, 0x20000000, 16, 128, 128, 4, 2, 64, 4, 50⟩ ∧
    (after .viewSetup (withSlot defaultsSlot camState)).map (fun t => (t.views[1].record, t.cmd.last)) =
      some (some defaultsSlot.viewRecord, some ⟨31, .ok, 0x0102⟩) := by decide +kernel

/-- The defaults flag set and clear; view 1 named. -/
theorem witness_ViewSetUp_fields :
    readLE defaultsSlot.bytes.toList 5 1 % 2 = 1 ∧ readLE viewSlot.bytes.toList 5 1 % 2 = 0 ∧
    readLE defaultsSlot.bytes.toList 4 1 = (1 : Fin 2).val := by decide +kernel

/-- Each refusal: index 2, an enabled view, a lookahead of 0, an aperture on source 0's window. -/
theorem witness_ViewSetUp_refusals :
    (withSlot (viewSlotWith 2 2 1) camState).offers .viewSetup (viewSlotWith 2 2 1) ∧
    (viewSlotWith 2 2 1).view = none ∧
    (withSlot viewSlot viewState).offers .viewSetup viewSlot ∧ viewState.views[0].state = .idle ∧
    (withSlot (viewSlotWith 0 2 0) camState).offers .viewSetup (viewSlotWith 0 2 0) ∧
    (viewSlotWith 0 2 0).viewRecord.lookahead = 0 ∧
    (withSlot (viewSlotWith 0 1 1) camState).offers .viewSetup (viewSlotWith 0 1 1) ∧
    (viewSlotWith 0 1 1).viewRecord.base = 0x10000000 ∧ (0x10000000, 0x4000) ∈ srcRec.ranges :=
  ⟨offers_of rfl (by decide +kernel), by decide +kernel, offers_of rfl (by decide +kernel), by decide +kernel,
    offers_of rfl (by decide +kernel), by decide +kernel, offers_of rfl (by decide +kernel), by decide +kernel,
    by decide +kernel⟩

/-- Every clause: an index of 2, an action of 0, no record, enabled already, and DISABLED. -/
theorem witness_ViewControl :
    let s := withSlot (viewControl 0 1) (camState.setUpView 0 viewRec)
    s.phase = .running ∧ s.quiet ∧ s.offers .viewControl (viewControl 0 1) ∧
    s.views[0].record = some viewRec ∧ s.views[0].state = .disabled ∧
    (viewControl 0 1).view = some 0 ∧ (viewControl 0 1).action = 1 ∧
    camState.views[0].record = none ∧ viewState.views[0].state ≠ .disabled ∧
    (withSlot (viewControl 2 1) camState).offers .viewControl (viewControl 2 1) ∧
    (viewControl 2 1).view = none ∧
    (withSlot (viewControl 0 0) camState).offers .viewControl (viewControl 0 0) ∧
    (viewControl 0 0).action = 0 :=
  ⟨by decide, ⟨rfl, rfl⟩, offers_of rfl (by decide +kernel), by decide +kernel, by decide +kernel,
    by decide +kernel, by decide +kernel, by decide +kernel, by decide +kernel,
    offers_of rfl (by decide +kernel), by decide +kernel, offers_of rfl (by decide +kernel), by decide +kernel⟩

theorem witness_ViewControl_disable :
    let s := withSlot (viewControl 0 2) heldState
    s.quiet ∧ s.offers .viewControl (viewControl 0 2) ∧ (viewControl 0 2).view = some 0 ∧
    (viewControl 0 2).action = 2 ∧ s.views[0].record = some viewRec ∧ s.views[0].state ≠ .disabled :=
  ⟨⟨rfl, rfl⟩, offers_of rfl (by decide +kernel), by decide +kernel, by decide +kernel, by decide +kernel,
    by decide +kernel⟩

/-- What a clearing leaves of each (R126). -/
theorem test_clearing :
    let w := ViewWork.clear 0 { work0 busyView with inflight := busyInflight }
    w.view.cache.toList = [.discarding, .empty, .empty, .empty, .empty, .discarding] ++ List.replicate 10 .empty ∧
    w.inflight.map (fun f => (f.view, f.entry, f.total, f.todo.length, f.owed)) =
      [(0, 0, 1, 0, 1), (1, 0, 2, 1, 0), (0, 5, 1, 0, 1)] ∧
    w.view.fetchQ = ⟨[], []⟩ ∧ w.view.markRow = 0 := by decide +kernel

/-- A disable without a record, and of a view that is DISABLED already. -/
theorem witness_ViewControl_disabled :
    (withSlot (viewControl 0 2) camState).offers .viewControl (viewControl 0 2) ∧
    camState.views[(0 : Fin 2)].record = none ∧
    (let s := withSlot (viewControl 0 2) (camState.setUpView 0 viewRec)
     s.quiet ∧ s.offers .viewControl (viewControl 0 2) ∧ s.views[0].record = some viewRec ∧
     s.views[0].state = .disabled) :=
  ⟨offers_of rfl (by decide +kernel), by decide +kernel,
    ⟨⟨rfl, rfl⟩, offers_of rfl (by decide +kernel), by decide +kernel, by decide +kernel⟩⟩

/-- A pass-through queue full of reads, its head granted, with another read waiting. -/
def crowdedState : State :=
  { viewState with passQueue := List.replicate 16 (.read (rd 0x12345670)), up := ⟨[rd 0x12345680], [], []⟩ }

/-- View 0 with eight reads held, the first due, and a ninth waiting. -/
def fullHeldState : State :=
  { withView { openView with held := List.replicate 8 (heldAt 99984) } viewState with
    up := ⟨[rd 0x20000100], [], []⟩ }

/-- No head with room, each head alone, and both. -/
theorem witness_WaitingRequestsAccepted :
    crowdedState.up.reads = rd 0x12345680 :: [] ∧ crowdedState.apertureAt 0x12345680 = none ∧
    ¬ crowdedState.queuedReads < 16 ∧ crowdedState.up.writes = [] ∧
    (let s := { viewState with up := ⟨[rd 0x20000100], [wr 9 0x12345670], []⟩ };
      s.apertureAt 0x20000100 = some 0 ∧ s.views[0].held.length < 8 ∧ s.apertureAt 0x12345670 = none ∧
      s.queuedWrites < 16) ∧
    (let s := { viewState with up := ⟨[], [wr 9 0x20000100], []⟩ };
      s.apertureAt 0x20000100 = some 0 ∧ s.up.reads = [] ∧ s.up.writes = wr 9 0x20000100 :: []) ∧
    (rd 0x20000100).wf = true ∧ (wr 9 0x20000100).wf = true ∧ viewState.up.reads = [] ∧ viewState.up.writes = [] := by
  decide +kernel

/-- A grant that lets a waiting read in, an expiry that does, and a disable (R84, R128, R153). -/
theorem witness_WaitingRequestsAccepted_room :
    crowdedState.lowestFree 0 ∧ crowdedState.winner = some .pass ∧ crowdedState.queuedReads = 16 ∧
    crowdedState.windowAt 0x12345680 = none ∧
    fullHeldState.views[0].record = some viewRec ∧
    fullHeldState.views[0].held = heldAt 99984 :: List.replicate 7 (heldAt 99984) ∧
    viewRec.holdLimit ≤ (fullHeldState.timeBase - (heldAt 99984).accepted).toNat ∧
    (∃ k ∈ (heldAt 99984).needed, fullHeldState.views[0].rowReady k = false) ∧
    fullHeldState.apertureAt 0x20000100 = some 0 ∧
    (let s := withSlot (viewControl 0 2) fullHeldState
     s.offers .viewControl (viewControl 0 2) ∧ s.apertureAt 0x20000100 = some 0 ∧ s.queuedReads < 16 ∧
     s.views[0].state ≠ .disabled ∧
     ∀ w ∈ s.windows, w.active = true → w.contains 0x20000100 = true → w.ofView 0 = true) ∧
    (∃ t, exec .arbiterGrant (crowdedState.withChannels [] []) = .next t) :=
  ⟨⟨by decide +kernel, by decide +kernel⟩, by decide +kernel, by decide +kernel, by decide +kernel,
    by decide +kernel, by decide +kernel, by decide +kernel, by decide +kernel, by decide +kernel,
    ⟨offers_of rfl (by decide +kernel), by decide +kernel, by decide +kernel, by decide +kernel, by decide +kernel⟩,
    ⟨_, rfl⟩⟩

/-- The waiting read joins the queue behind the others; the ninth read joins its view; after a disable it is
forwarded. -/
theorem test_waiting_accepted :
    (after .arbiterGrant crowdedState).map (fun t => (t.up.reads, t.passQueue.length, t.passQueue.getLast?)) =
      some ([], 16, some (.read (rd 0x12345680))) ∧
    (after (.holdLimitExpiry 0) fullHeldState).map (fun t => (t.up.reads, t.views[0].held.length)) =
      some ([], 8) ∧
    (after .viewControlDisable (withSlot (viewControl 0 2) fullHeldState)).map
      (fun t => (t.up.reads, t.passQueue, t.up.responses.length)) =
      some ([], [.read (rd 0x20000100)], 8) := by decide +kernel

/-- Every clause at its bounds: offset 4095 and 4096, length 15, 16, 1024 and 1025, the top page. -/
theorem witness_CalibrationLoads :
    loadState.cal.load ≠ none ∧ base.cal.load = none ∧ base.phase = .running ∧
    (withSlot (calSlot 5 16 148) loadState).offers .calLoad (calSlot 5 16 148) ∧
    (∀ x ∈ [(5, 4095, 16), (5, 4095, 1024), (5, 4096, 16), (5, 0, 15), (5, 0, 1025), (268435455, 4095, 16)],
      (withSlot (calSlot x.1 x.2.1 x.2.2) base).offers .calLoad (calSlot x.1 x.2.1 x.2.2)) ∧
    (calSlot 5 4095 1024).loadOffset = 4095 ∧ (calSlot 5 4095 1024).loadLength = 1024 ∧
    4095 < (calSlot 5 4096 16).loadOffset ∧ (calSlot 5 0 15).loadLength < 16 ∧
    1024 < (calSlot 5 0 1025).loadLength ∧
    2 ^ 40 < (calSlot 268435455 4095 16).loadAddr + (calSlot 268435455 4095 16).loadLength := by
  refine ⟨by decide +kernel, by decide +kernel, by decide, offers_of rfl (by decide +kernel),
    fun x hx => offers_of rfl ?_, by decide +kernel, by decide +kernel, by decide +kernel, by decide +kernel,
    by decide +kernel, by decide +kernel⟩
  revert x
  decide +kernel

/-- Each clause: an ERROR noted; the identifier, the version, the length and the CRC wrong; and a block
that passes them all. -/
theorem witness_BlockChecks :
    let good (bs : List Byte) : Load := ⟨0x8000, 76, bs, [], 0, none⟩
    ({ good calBlock with error := some 16 } : Load).error = some 16 ∧ (good calBlock).error = none ∧
    readLE (calBlock.set 0 0) 0 2 ≠ 0x5A4C ∧ readLE (calBlock.set 6 2) 6 1 ≠ 1 ∧
    readLE calBlock 0 2 = 0x5A4C ∧ readLE calBlock 6 1 = 1 ∧ readLE calBlock 8 2 = (good calBlock).length ∧
    readLE calBlock 8 2 ≠ 75 ∧ crc32 ((calBlock.take 76).drop 6) = BitVec.ofNat 32 (readLE calBlock 2 4) ∧
    crc32 (((calBlock.set 28 9).take 76).drop 6) ≠ BitVec.ofNat 32 (readLE (calBlock.set 28 9) 2 4) := by
  decide +kernel

/-- The set that the block holds, field by field: the rectangle of source 1, its last, is absent (R198). -/
theorem test_block_set :
    (blockSet calBlock).sources = [⟨65536, 0, 0, 1024, some ⟨1000, 750, 2999, 2249⟩⟩, ⟨65536, 0, 0, 2048, none⟩] ∧
    (blockSet calBlock).pairs = [⟨2176, 2048, 96, 32, 8, 30⟩] := by decide +kernel

/-- A source with a rectangle and the last one, and the one pair of two sources. -/
theorem witness_BlockChecks_records :
    0 < readLE calBlock 7 1 ∧ 1 < readLE calBlock 7 1 ∧ 1 + 1 = readLE calBlock 7 1 ∧
    0 + 1 < readLE calBlock 7 1 := by decide +kernel

/-- The lowest code that fails is reported, at its lowest index: k of source 0 before its floor, the
floor alone, and the order of the floors (R37). -/
theorem test_range_checks :
    let low := (calBlock.set 28 0).set 29 0
    checkRange (low.set 18 0) 76 base.sources = some ⟨3, 3, 0⟩ ∧
    checkRange low 76 base.sources = some ⟨3, 4, 0⟩ ∧
    checkRange (calBlock.set 53 4) 76 base.sources = some ⟨3, 6, 1⟩ ∧
    checkRange calBlock 76 base.sources = none := by decide +kernel

/-- Every clause at its bounds: slew 4096 and 4097, target 1023, 1024, 24,576 and 24,577. -/
theorem witness_ZoomSetTaken :
    (∀ x ∈ [(1024, 4096), (24576, 0), (1023, 4096), (24577, 4096), (2048, 4097)],
      (withSlot (zoomSet x.1 x.2) base).phase = .running ∧
      (withSlot (zoomSet x.1 x.2) base).offers .zoomSet (zoomSet x.1 x.2)) ∧
    (zoomSet 1023 4096).zoomTarget < 1024 ∧ 24576 < (zoomSet 24577 4096).zoomTarget ∧
    (zoomSet 1024 4096).zoomTarget = 1024 ∧ (zoomSet 24576 0).zoomTarget = 24576 ∧
    4096 < (zoomSet 2048 4097).zoomSlew ∧ (zoomSet 1024 4096).zoomSlew ≤ 4096 := by
  refine ⟨fun x hx => ⟨rfl, offers_of rfl ?_⟩, by decide +kernel, by decide +kernel, by decide +kernel,
    by decide +kernel, by decide +kernel, by decide +kernel⟩
  revert x
  decide +kernel

/-- The same with view 0 enabled, where the reach report follows the command. -/
theorem witness_ZoomSetTaken_lead :
    (withSlot (zoomSet 1024 4096) viewState).offers .zoomSet (zoomSet 1024 4096) ∧
    viewState.phase = .running ∧ viewState.views[(0 : Fin 2)].state = .idle :=
  ⟨offers_of rfl (by decide +kernel), by decide +kernel, by decide +kernel⟩

/-- ZOOM_SET with a pan target of (−1, 1) in units of 2⁻¹⁶ and 1.0, the keep-pan flag clear and another bit of its
byte set; and the slot of section 13.4, where it is set (R193). -/
theorem witness_ZoomSetTaken_fields :
    let pan := slotOf [7, 4, 0, 0, 0, 0x10, 0, 0, 0xFF, 0xFF, 0xFF, 0xFF, 0, 0, 1, 0, 2, 0, 0, 0]
    readLE pan.bytes.toList 16 1 % 2 = 0 ∧ pan.zoomPan = some (-1, 65536) ∧
    readLE zoomSlot.bytes.toList 16 1 % 2 = 1 := by decide +kernel

/-- The reach report is armed by a ZOOM_SET with a view enabled, and stays with none (R44, R52). -/
theorem test_zoom_set_arms :
    (after .zoomSet (withSlot (zoomSet 4096 0) viewState)).map (fun t => t.zoom.reachArm) = some true ∧
    (after .zoomSet (withSlot (zoomSet 4096 0) base)).map (fun t => t.zoom.reachArm) = some false := by
  decide +kernel

/-- Both commands at levels 0, 1, 3 and 4; an event below a floor; a position granted and one that is not; a
kind alerted by default and one that is not. -/
theorem witness_EventCommands :
    (∀ n ∈ [0, 1, 3, 4], (withSlot (eventSetup n) base).offers .eventSetup (eventSetup n) ∧
      (withSlot (eventForce n) base).offers .eventForce (eventForce n)) ∧
    (∀ n ∈ [0, 1, 3, 4], (eventSetup n).index = n ∧ (eventForce n).index = n) ∧ base.phase = .running ∧
    (⟨.zoomReached, 1, 0, 0, 0⟩ : Event).level < ({ base.report with floor := 2 } : Report).floor ∧
    (2 ≤ EventKind.zoomClamped.level ∨ EventKind.zoomClamped = .eventForced) ∧
    ¬ (2 ≤ EventKind.zoomReached.level ∨ EventKind.zoomReached = .eventForced) := by
  refine ⟨fun n hn => ⟨offers_of rfl ?_, offers_of rfl ?_⟩, by decide +kernel, rfl, by decide +kernel,
    by decide +kernel, by decide +kernel⟩
  all_goals
    revert n
    decide +kernel

theorem witness_ResetsTaken_part :
    (withSlot resetSlot viewState).quiet ∧ (withSlot resetSlot viewState).offers .partReset resetSlot :=
  ⟨⟨rfl, rfl⟩, offers_of rfl (by decide +kernel)⟩

/-! ### Blocks and laws -/

/-- A blend on pair 1 upward from source 1, both cameras running, thresholds 6400 and 6144, step 32. -/
def blendInput (z : Nat) : StageInput :=
  ⟨z, some ⟨3, 0, [⟨1, 0, 0, 1024, none⟩, ⟨1, 0, 0, 2048, none⟩, ⟨1, 0, 0, 6144, none⟩],
      [⟨2176, 2048, 96, 32, 8, 30⟩, ⟨6400, 6144, 192, 32, 8, 30⟩]⟩,
    Vector.replicate 4 { camState.sources[0] with state := .running }, none⟩

/-- The controller in that blend with a weight and a direction. -/
def blending (w : Nat) (d : BlendDir) : Handoff :=
  { Handoff.reset with state := .blend 1 .up d, fromSrc := 1, weight := w }

/-- Every clause: ahead at 6400 with weights 224 and 223, back below 6144 with weights 32 and 33, and a
direction kept between the thresholds. -/
theorem witness_BlendSteps :
    (∀ z ∈ [6400, 6143, 6144],
      (blendInput z).runs 1 = true ∧ (blendInput z).runs (toOf 1 .up) = true ∧
      (blendInput z).pair 1 = some ⟨6400, 6144, 192, 32, 8, 30⟩) ∧
    (∀ w ∈ [224, 223, 32, 33], (blending w .forward).state = .blend 1 .up .forward ∧
      (blending w .reverse).state = .blend 1 .up .reverse) := by decide +kernel

theorem test_blend_ends :
    ((blending 224 .forward).transition (blendInput 6400)).1.state = .settled ∧
    ((blending 224 .forward).transition (blendInput 6400)).1.fromSrc = 2 ∧
    ((blending 32 .forward).transition (blendInput 6143)).1.fromSrc = 1 := by decide +kernel

/-- An underrun at the limit, one of a view in SINGLE, and one outside its frame; a served row before the
lookahead, one with enough rows ahead, and one at it with none; a FAILED row. -/
theorem witness_UnderrunsAndWarnings :
    let h := heldAt 99990
    let failed := { openView with cache := openView.cache.set 15 (.failed key0 1) }
    h.rows = 1 :: [] ∧ openView.state = .opened frame0 ∧ h.frame = some frame0.number ∧
    frame0.underruns + 1 = env0.conf.underrunLimit ∧ openView.degrade = .full ∧
    ({ openView with degrade := .single } : View).degrade = .single ∧
    viewState.views[0].state = .idle ∧ ({ h with frame := some 7 } : HeldRead).frame ≠ some frame0.number ∧
    (0 : Nat) < env0.conf.lookahead ∧ env0.conf.lookahead ≤ 1 ∧
    leadFrom env0 openView plan0 env0.conf.lookahead 1 < env0.conf.warnLead ∧
    env0.conf.warnLead ≤ leadFrom env0 openView plan0 env0.conf.lookahead 63 ∧
    failed.fetchErrorRaised = false ∧ (∃ k ∈ h.needed, failed.rowFailed k = true) ∧
    ({ failed with fetchErrorRaised := true } : View).fetchErrorRaised = true := by decide +kernel

/-- The limit of 1 brings DEGRADE_ENTER, then UNDERRUN; the row after the last counts as ready (R133). -/
theorem test_underrun_events :
    ((work0 openView).underrun env0 (heldAt 99990)).events =
      [⟨.degradeEnter, 2, 0, 1, 1⟩, ⟨.underrun, 3, 0, 1, 1⟩] ∧
    ((work0 openView).latencyTest env0 plan0 (heldAt 99990) 1).events = [⟨.latencyWarn, 2, 0, 1, 0⟩] ∧
    ((work0 openView).latencyTest env0 plan0 (heldAt 99990) 63).events = [] := by decide +kernel

/-- Every case of the table of R129, with the entries and plans behind it, and a head that waits. -/
theorem witness_AnswersInOrder :
    let h := heldAt 99990
    let with15 (c : CacheEntry) : View := { openView with cache := openView.cache.set 15 c, held := [h] }
    let there := with15 (.valid key0 1 (List.replicate 256 0x33))
    let failed := with15 (.failed key0 1)
    let noRow : HeldRead := { h with req := rd 0x20004000, rows := [], needed := [] }
    there.entryOf key0 = some 15 ∧ there.cache[15] = .valid key0 1 (List.replicate 256 0x33) ∧
    failed.entryOf key0 = some 15 ∧ failed.cache[15] = .failed key0 1 ∧
    (work0 { openView with held := [] }).view.held = [] ∧
    (work0 { openView with held := [noRow, h] }).view.held = noRow :: [h] ∧
    noRow.rows = [] ∧ env0.conf.touched noRow.req = [] ∧ h.rows ≠ [] ∧ h.expired = false ∧
    ({ openView with plan := none } : View).plan = none ∧ openView.plan = some plan0 ∧
    ¬ (plan0.fromSide = none ∧ plan0.toSide = none) ∧
    (let fill := { plan0 with fromSide := none }; fill.fromSide = none ∧ fill.toSide = none) ∧
    ({ h with expired := true } : HeldRead).expired = true ∧
    (∀ k ∈ h.needed, there.rowValid k = true) ∧
    (∀ k ∈ h.needed, failed.rowValid k = true ∨ failed.rowFailed k = true) ∧
    (∃ k ∈ h.needed, failed.rowFailed k = true) ∧
    (∃ k ∈ h.needed, ¬ (openView.rowValid k = true ∨ openView.rowFailed k = true)) ∧
    ((work0 { openView with held := [h, h] }).answerAll env0).view.held = h :: [h] := by decide +kernel

/-- A queue of three: the served read and the one that touches no row are answered, the last waits. -/
theorem test_answers_in_order :
    let rows : List RowKey := [{ key0 with row := 1 }, { key0 with row := 2 }]
    let h := { heldAt 99990 with needed := rows }
    let noRow : HeldRead := { h with req := { rd 0x20004000 with num := 77 }, rows := [], needed := [] }
    let px := List.replicate 256 (0x33 : Byte)
    let w := (work0 { openView with
      cache := (openView.cache.set 14 (.valid { key0 with row := 1 } 1 px)).set 15 (.valid { key0 with row := 2 } 2 px)
      held := [h, noRow, heldAt 99990] }).answerAll env0
    env0.conf.touched h.req = [1] ∧ neededRows env0 (some plan0) [1] = rows ∧
    w.view.held = [heldAt 99990] ∧ w.view.markRow = 1 ∧ w.answers.map UpResponse.num = [h.req.num, 77] ∧
    w.answers.map (fun a => a.data.take 4) = [[0x33, 0x33, 0x33, 0], [0, 0, 0, 0]] := by decide +kernel

/-- A view whose entries are all taken: VALID but for one FAILED, completed in their order under a count of 20. -/
def fullView : View :=
  { openView with
    completionCount := 20
    cache := Vector.ofFn fun n =>
      let k := { key0 with row := n.val + 10 }
      if n.val = 3 then .failed k 4 else .valid k (BitVec.ofNat 32 (n.val + 1)) (List.replicate 256 0) }

/-- A queue of 8 whose newest request, not urgent, names entry 9. -/
def fullQueue : FetchQueue := ⟨[1, 2, 3, 4, 5, 6, 7], [9]⟩

/-- An EMPTY entry and none; evictable ones and none; room and none, with a request to displace and without. -/
theorem witness_RowsRequested :
    openView.cache[0] = .empty ∧ (∀ n : Fin 16, fullView.cache[n] ≠ .empty) ∧
    chooseEntry env0 fullView = some 0 ∧ fullView.cache[0] = .valid { key0 with row := 10 } 1 (List.replicate 256 0) ∧
    chooseEntry env0 { fullView with cache := Vector.replicate 16 .discarding } = none ∧
    chooseEntry env0 openView = some 0 ∧ requestNormal env0 openView key0 ≠ none ∧
    requestNormal env0 { openView with fetchQ := fullQueue } key0 = none ∧
    fullQueue.normal = [] ++ [9] ∧ fullQueue.length ≤ 8 ∧
    ({ fullQueue with normal := [] } : FetchQueue).normal = [] ∧
    openView.entryOf key0 = none ∧ fullView.entryOf { key0 with row := 12 } = some 2 ∧
    busyView.cache[0] = .fetching { key0 with row := 0 } false [] ∧
    busyView.entryOf { key0 with row := 0 } = some 0 ∧ (0 : Fin 16) ∉ busyView.fetchQ.normal ∧
    (3 : Fin 16) ∈ lawView.fetchQ.normal ∧ lawView.cache[3] = .fetching key0 false [] ∧
    openView.plan = some plan0 ∧ env0.sources[(0 : Fin 4)].record = some srcRec := by decide +kernel

/-- The oldest completion goes unless a held read needs its row; the newest request that is not urgent is
displaced; a queued request and an issued fetch become urgent (R119 to R122). -/
theorem test_rows :
    chooseEntry env0 { fullView with held := [{ heldAt 99990 with needed := [{ key0 with row := 10 }] }] } = some 1 ∧
    (requestUrgent env0 { openView with fetchQ := fullQueue } key0).map (fun v => (v.fetchQ, v.cache[0])) =
      some (⟨[1, 2, 3, 4, 5, 6, 7, 0], []⟩, .fetching key0 true []) ∧
    ((work0 { lawView with held := [heldAt 99990] }).demandPass env0).view.fetchQ = ⟨[3], []⟩ ∧
    (((work0 openView).prefetch env0 5).view.fetchQ, (rowKeys env0 plan0 5).map RowKey.row) =
      (⟨[], [0, 1, 2]⟩, [5, 6]) := by decide +kernel

/-- A calibration set of sources 0 to 2: floors 0.5, 1.0 and 3.0, and the pairs between them. -/
def cal3 : CalSet :=
  ⟨3, 7, [⟨65536, 0, 0, 1024, some ⟨0, 0, 63, 63⟩⟩, ⟨32768, 0, 0, 2048, some ⟨8, 8, 55, 55⟩⟩, ⟨16384, 0, 0, 6144, none⟩],
    [⟨2176, 2048, 96, 32, 8, 30⟩, ⟨6400, 6144, 192, 32, 8, 30⟩]⟩

/-- A state with a staged set and a hand-off state. -/
def stagedState (h : HandoffState) : State :=
  { viewState with cal := ⟨none, some cal3, none⟩, handoff := { Handoff.reset with state := h } }

/-- A staged set that may be activated and one that waits; the four cases of the advance at their bounds;
a zoom below the floor with its target there, and one that reaches its target. -/
theorem witness_LeadOpeningStages :
    (∀ h ∈ [HandoffState.settled, .frozen, .prepare 0 .up 0],
      (stagedState h).phase = .running ∧ (stagedState h).cal.staged = some cal3 ∧
      (stagedState h).handoff.state = h) ∧
    viewState.cal.staged = none ∧
    (let z (slew target : Nat) : Zoom := { Zoom.reset with slew, target }
     (z 0 24576).slew = 0 ∧ (z 16 2064).target ≤ (z 16 2064).current + (z 16 2064).slew ∧
     (z 16 2064).current ≤ (z 16 2064).target + (z 16 2064).slew ∧
     (z 16 2065).current + (z 16 2065).slew < (z 16 2065).target ∧
     (z 16 2031).target + (z 16 2031).slew < (z 16 2031).current) ∧
    cal3.sources[(2 : Fin 4).val]? = some ⟨16384, 0, 0, 6144, none⟩ ∧
    floorOf (some cal3) 2 = 6144 ∧ floorOf (some cal3) 3 = 2048 ∧
    (let at6144 : Zoom := { Zoom.reset with current := 6144, target := 6144, reachArm := true }
     at6144.current = at6144.target ∧ servedFloor (some cal3) { Handoff.reset with fromSrc := 2 } ≤ at6144.target) :=
  by decide +kernel

/-- The floor holds a zoom of 2.0 at 3.0 with ZOOM_CLAMPED, and a target reached is reported (R49 to R51). -/
theorem test_clamp_stage :
    (({ Zoom.reset with target := 4096 } : Zoom).clampStage (some cal3) { Handoff.reset with fromSrc := 2 } 4096 5).2
      = [⟨.zoomClamped, 2, 2, 2, 6144 + 65536 * 4096⟩] ∧
    (({ Zoom.reset with target := 4096, reachArm := true } : Zoom).clampStage none Handoff.reset 4096 5).2
      = [⟨.zoomReached, 1, 0, 4096, 5⟩] := by decide +kernel

/-- A ZOOM_SET to zoom current with no view enabled leaves an armed report as it is (R52), and the next
opening raises nothing (R44, R52). -/
theorem test_reach_not_owed :
    let zm := ((({ Zoom.reset with target := 4096, reachArm := true } : Zoom).set false 2048 0 none)).1
    zm.reachArm = true ∧ zm.target = zm.current ∧
    zm.clampStage none Handoff.reset zm.proposed 5 = ({ zm with reachArm := false }, []) := by decide +kernel

/-- What the controller reads at a zoom: the set above, source `i` in state `x i`, a READY store in each. -/
def handInput (z : Nat) (x : Fin 4 → SourceState) : StageInput :=
  ⟨z, some cal3, Vector.ofFn fun i =>
    { poolSource (.free, 0) (.ready, 0) (.free, 0) with state := x i }, none⟩

/-- Every source RUNNING. -/
def allRun : Fin 4 → SourceState := fun _ => .running

/-- Every source RUNNING but the given ones. -/
def lost (l : List (Fin 4)) : Fin 4 → SourceState := fun i => if i ∈ l then .stalled else .running

/-- The controller in a state on a source. -/
def handoffIn (st : HandoffState) (f : Fin 4) : Handoff := { Handoff.reset with state := st, fromSrc := f }

/-- Both warm bands at their ends, and sources with no pair above or below; the three ways a stage goes on;
a residual above and below 256, with its pair and without. -/
theorem witness_HandoffStageSteps :
    ((blending 223 .forward).bandTests (handInput 6400 allRun)).state ≠ .settled ∧
    (((handoffIn .settled 0).bandTests (handInput 2048 allRun)).transition (handInput 2048 allRun)).1.state =
      .settled ∧ (handoffIn .settled 0).state = .settled ∧
    (((blending 224 .forward).bandTests (handInput 6400 allRun)).transition (handInput 6400 allRun)).1.state =
      .settled ∧ (blending 224 .forward).state ≠ .settled ∧
    (handInput 0 allRun).pair 1 = some ⟨6400, 6144, 192, 32, 8, 30⟩ ∧ (handInput 0 allRun).pair 2 = none ∧
    (∀ z ∈ [2080, 2175], (handInput z allRun).z = z ∧ 2176 ≤ z + 96 ∧ z < 2176) ∧
    (∀ z ∈ [2048, 2143], 2048 ≤ z ∧ z < 2048 + 96) ∧ (handoffIn .settled 0).fromSrc = pairLow 0 ∧
    (handoffIn .settled 1).fromSrc = pairHigh 0 ∧ (handoffIn .settled 0).armUp[0] = true ∧
    (handoffIn .settled 0).relaxPair = none ∧ (∀ p, (handoffIn .settled 3).fromSrc ≠ pairLow p) ∧
    (∀ p, (handoffIn .settled 0).fromSrc ≠ pairHigh p) := by decide +kernel

/-- The same residual with the pair gone ends at once, its offsets with its gain (R77, R78). -/
theorem test_residual_ends :
    let h : Handoff := { handoffIn .settled 3 with fromCorr := ⟨300, -4, 32⟩, relaxPair := some 2 }
    (h.relax (handInput 2300 allRun)).fromCorr = ⟨256, 0, 0⟩ ∧
    (h.relax (handInput 2300 allRun)).relaxPair = none := by decide +kernel

/-- The up warm request of pair 0 at 2080, and a residual of 300 relaxed by 8 (R63, R77). -/
theorem test_warm_and_relax :
    ((handoffIn .settled 0).stage (handInput 2080 allRun)).2 = [⟨.warmRequest, 2, 1, 0, 1⟩] ∧
    (({ handoffIn .settled 1 with fromCorr := ⟨300, -4, 0⟩, relaxPair := some 0 } : Handoff).relax
      (handInput 2300 allRun)).fromCorr = ⟨292, -3, 0⟩ := by decide +kernel

/-- An up and a down hand-off at their thresholds, with the camera there and not; PREPARE at its limit,
before it, and one below the threshold; a store for both sides, and for neither. -/
theorem witness_HandoffStarts :
    (∀ z ∈ [2176, 2175, 2047], (handInput z allRun).runs 0 = true ∧ (handInput z allRun).runs 1 = true ∧
      (handInput z allRun).pair 0 = some ⟨2176, 2048, 96, 32, 8, 30⟩ ∧
      (handInput z allRun).avail (toOf 0 .up) = true ∧ (handInput z allRun).avail (toOf 0 .down) = true ∧
      (handInput z (lost [1])).avail (toOf 0 .up) = false) ∧
    (handoffIn .settled 0).fromSrc = fromOf 0 .up ∧ (handoffIn .settled 1).fromSrc = fromOf 0 .down ∧
    (∀ p : Fin 3, (handoffIn .settled 0).supUp[p] = false ∧ (handoffIn .settled 1).supDown[p] = false) ∧
    (handInput 2047 allRun).pair 1 = some ⟨6400, 6144, 192, 32, 8, 30⟩ ∧
    (∀ n ∈ [28, 29], (handoffIn (.prepare 0 .up n) 0).state = .prepare 0 .up n) ∧
    chooseStore (handInput 0 allRun).sources none 0 = none ∧
    (let ready : StageInput := ⟨0, some cal3, Vector.replicate 4 { poolSource (.free, 0) (.free, 0) (.free, 0) with
        stores := [⟨.ready, 0, false, some 1, 0, .zero, .zero, ⟨0, 0, 63, 63⟩⟩] }, none⟩
     chooseStore ready.sources none 0 = some 0 ∧ chooseStore ready.sources none 1 = some 0 ∧
     ((ready.sources[(0 : Fin 4)].stores[0]?).isSome = true)) := by decide +kernel

/-- The start of pair 0's hand-off: weight 32 and HANDOFF_START with gain 256 (R69). -/
theorem test_handoff_start :
    (((handoffIn .settled 0).transition (handInput 2176 allRun)).1.weight,
      ((handoffIn .settled 0).transition (handInput 2176 allRun)).2) =
      (32, [⟨.handoffStart, 1, 0, 0, 256⟩]) ∧
    matchGain 256 25600 20480 = 320 ∧ matchOffset 0 (128 * 256) (131 * 256) = -3 := by decide +kernel

/-- A lost from-source with its neighbours running or lost, calibrated or not; a blend that loses one
camera or both; FROZEN with a source at its floor, with none there, and with none running. -/
theorem witness_HandoffLosesCameras :
    (∀ l ∈ [[1], [1, 2], [1, 2, 0], [0, 1, 2, 3]], (handInput 6144 (lost l)).sources[(1 : Fin 4)].state ≠ .running) ∧
    calibrated (some cal3) 1 = true ∧ calibrated (some cal3) 3 = false ∧
    (handInput 6144 (lost [1])).sources[(2 : Fin 4)].state = .running ∧ floorOf (some cal3) 2 = 6144 ∧
    (handInput 6144 (lost [1, 2])).sources[(0 : Fin 4)].state = .running ∧
    (handInput 6144 (lost [1, 2, 0])).sources[(2 : Fin 4)].state ≠ .running ∧
    (handInput 6144 (lost [1, 2, 0])).sources[(0 : Fin 4)].state ≠ .running ∧
    (handInput 6144 (lost [3])).sources[(3 : Fin 4)].state ≠ .running ∧
    (handInput 6144 (lost [3])).sources[(0 : Fin 4)].state = .running ∧
    (handInput 6144 (lost [1])).avail (toOf 1 .up) = true ∧
    (handInput 6144 (lost [1, 2])).avail (toOf 1 .up) = false ∧
    (handInput 6144 (lost [2])).sources[(1 : Fin 4)].state = .running ∧
    (handoffIn .frozen 0).state = .frozen ∧
    (∀ i : Fin 4, (handInput 1023 (lost [0, 1, 2, 3])).sources[i].state ≠ .running) ∧
    (∀ i : Fin 4, 1023 < floorOf (some cal3) i) := by decide +kernel

/-- The rescue upward, the cut, the abort and the exit from FROZEN (R65, R73, R76). -/
theorem test_cameras_lost :
    ((handoffIn .settled 1).transition (handInput 6144 (lost [1]))).2 = [⟨.handoffCut, 3, 2, 1, 1⟩] ∧
    ((blending 100 .forward).transition (handInput 6144 (lost [1]))).2 = [⟨.handoffCut, 3, 2, 2, 1⟩] ∧
    ((blending 100 .forward).transition (handInput 6144 (lost [2]))).2 = [⟨.handoffAborted, 2, 1, 1, 2⟩] ∧
    ((handoffIn .frozen 0).transition (handInput 2048 allRun)).2 = [⟨.frozenExit, 2, 3, 2048, 2048⟩] := by
  decide +kernel

/-- A source whose stores 0 and 2 are READY with close orders 1 and 2³² − 1, at a count of 2. -/
def readySource : Source :=
  { camState.sources[0] with
    readyCount := 2
    stores := [⟨.ready, 0, false, some 1, 0, .zero, .zero, ⟨0, 0, 63, 63⟩⟩,
      ⟨.free, 0, false, none, 0, .zero, .zero, ⟨0, 0, 63, 63⟩⟩,
      ⟨.ready, 0, false, some 4294967295, 0, .zero, .zero, ⟨0, 0, 63, 63⟩⟩] }

/-- The newest store, none, a store of the retiring plan; each hand-off state; a plan with one side, with
both and with neither. -/
theorem witness_PlanLatched :
    let ready : Vector Source 4 := Vector.replicate 4 readySource
    readySource.newestReady = some 0 ∧ camState.sources[0].newestReady = none ∧
    plan0.fromSide = some ⟨0, 0, 65536, 0, 0, .neutral, 0, 63⟩ ∧ plan0.toSide = none ∧
    chooseStore camState.sources (some plan0) 0 = some 0 ∧ chooseStore camState.sources (some plan0) 1 = none ∧
    (∀ st ∈ [HandoffState.settled, .prepare 0 .up 0, .blend 0 .up .forward, .frozen],
      (handoffIn st 0).state = st) ∧
    (arrangement (handoffIn .settled 0) ready none .full).fromSide = some ⟨0, 0, .neutral⟩ ∧
    (arrangement (handoffIn .settled 0) ready none .full).toSide = none ∧
    (arrangement (handoffIn (.blend 0 .up .forward) 0) ready none .full).toSide = some ⟨1, 0, .neutral⟩ ∧
    (arrangement (handoffIn .settled 0) camState.sources none .full).fromSide = none ∧
    (ready[(1 : Fin 4)].record).isSome = true := by decide +kernel

/-- The worked default mappings of section 2.1: 4000 × 3000 and 4000 × 2250 (R32). -/
theorem test_default_mapping :
    defaultMapping { srcRec with width := 4000, height := 3000 } = ⟨64000, -32768, -32768, 2048, none⟩ ∧
    (defaultMapping { srcRec with width := 4000, height := 2250 }).oV * 2 = -751 * 65536 := by decide +kernel

/-- A calibrated source, one at the count of the set, and no set. -/
theorem witness_PlanLatched_mapping :
    (∃ x, cal3.sources[(2 : Fin 4).val]? = some x) ∧ (2 : Fin 4).val < cal3.count ∧
    cal3.count ≤ (3 : Fin 4).val ∧ (none : Option CalSet) = none := by
  refine ⟨⟨_, rfl⟩, ?_⟩
  decide +kernel

/-- Log entry 45: a torn store that the retiring plan names keeps its side when the source has no READY store
(R96), as also after an exit from FROZEN. -/
theorem test_torn_side_kept :
    let torn := poolSource (.filling, 1) (.free, 0) (.free, 0)
    torn.newestReady = none ∧ chooseStore (Vector.replicate 4 torn) (some plan0) 0 = some 0 := by decide +kernel

/-- A both-sided arrangement at weight 127 and 128 in SINGLE keeps the from-side, then the to-side (R100). -/
theorem test_single_keeps_one_side :
    let a (w : Nat) := arrangement { handoffIn (.blend 0 .up .forward) 0 with weight := w }
      (Vector.replicate 4 readySource) none .single
    a 127 = ⟨some ⟨0, 0, .neutral⟩, none, 0⟩ ∧ a 128 = ⟨none, some ⟨1, 0, .neutral⟩, 256⟩ := by decide +kernel

/-- A centre below, inside, above and midway; a tie of either sign; positions before, on and past the edges. -/
theorem witness_PlanGeometry :
    (⟨65536, 0, 0, 1024, none⟩ : CalSource).k ≠ 0 ∧ ((1 : ℚ) / 2 = (0 : Int) + 1 / 2) ∧
    (-(1 : ℚ) / 2 = (-1 : Int) + 1 / 2) ∧
    (let half : ℚ := spanOf 8192 * ((64 : Nat) - 1) / (2 * (64 : Nat))
     (0 : ℚ) + half ≤ 4095 - half ∧ (0 : ℚ) / 65536 < 0 + half ∧ 4095 - half < (268435456 : ℚ) / 65536 ∧
     (0 : ℚ) + half ≤ (134217728 : ℚ) / 65536 ∧ (134217728 : ℚ) / 65536 ≤ 4095 - half ∧
     (100 : ℚ) - half < 0 + half ∧ -(2 ^ 31) ≤ roundAway (65536 * (0 + half)) ∧
     roundAway (65536 * (0 + half)) < 2 ^ 31) ∧
    (∀ x ∈ [((-1 : Int), 0), (0, 0), (63 * 65536 - 1, 0), (63 * 65536, 0)],
      x.1 + ((x.2 : Nat) : Int) * 65536 < 0 ∨ 65536 * (((64 : Nat) : Int) - 1) ≤ x.1 + ((x.2 : Nat) : Int) * 65536 ∨
      (0 ≤ x.1 ∧ x.1 < 65536 * 63)) := by decide +kernel

/-- The clamp of section 3.5 keeps half an output inside the box, and a small box gives its middle (R55). -/
theorem test_pan_clamp :
    clampCentre 0 0 4095 504 = 504 ∧ clampCentre 4095 0 4095 504 = 3591 ∧ clampCentre 7 0 100 504 = 50 ∧
    axisPos (-1) 65536 0 64 = ⟨0, 0, 1⟩ ∧ axisPos 0 65536 63 64 = ⟨63, 0, 63⟩ ∧
    axisPos 32768 65536 62 64 = ⟨62, 128, 63⟩ := by decide +kernel

/-- A fill frame, one side and two; a row whose entry is VALID. -/
theorem witness_PixelsComposed :
    let v := { openView with cache := openView.cache.set 15 (.valid key0 1 (List.replicate 256 0x33)) }
    let side : SidePlan := ⟨0, 0, 65536, 0, 0, .neutral, 0, 63⟩
    plan0.fromSide = some side ∧ plan0.toSide = none ∧
    ({ plan0 with fromSide := none } : Plan).fromSide = none ∧
    ({ plan0 with fromSide := none, toSide := some side } : Plan).toSide = some side ∧
    ({ plan0 with toSide := some side, weight := 96 } : Plan).toSide = some side ∧
    env0.sources[side.source].record = some srcRec ∧
    v.entryOf ⟨.fromSide, side.source, side.store, 5⟩ = some 15 ∧
    v.cache[15] = .valid key0 1 (List.replicate 256 0x33) ∧
    (List.replicate 256 (0x33 : Byte))[4 * (63 - side.cmin) + 3]? = some 0x33 := by decide +kernel

/-- An active byte, a spare one, padding, a byte past the picture; the last byte of the picture; some rows. -/
theorem witness_PixelsComposed_bytes :
    let v : ViewRecord := { viewRec with stride := 272 }
    let place := fun (addr n : Nat) => ((addr + n) / v.stride, (addr + n) % v.stride)
    place 0 1 = (0, 1) ∧ (3 : Nat) % 4 = 3 ∧ place 256 0 = (0, 256) ∧ place (64 * 272) 0 = (v.height, 0) ∧
    0 + 1 < 16 * (rd 0).beats ∧ 63 * 272 + 240 + 15 = (v.height - 1) * v.stride + 4 * v.width - 1 ∧
    ([5, 6] : List Nat) ≠ [] := by decide +kernel

/-- A pixel of row 5 at an exact cell is its sample. -/
theorem test_composed_pixel :
    let v := { openView with cache := openView.cache.set 15 (.valid key0 1 (List.replicate 256 0x33)) }
    composedPixel env0 v plan0 7 5 0 = 0x33 := by decide +kernel

theorem test_pixels_at_the_top : interpolate 255 255 255 255 256 256 = 255 ∧ mixSides 255 255 256 = 255 := by
  decide

/-- View 0 in its frame under the plan, which pins store 0 of source 0 once; a read of row 1 waits. -/
def lawState : State :=
  { withView lawView
      (withSource (poolSource (.ready, 1) (.filling, 0) (.free, 0)) viewState) with
    pending := [.apertureRead (rd 0x20000100)] }

/-- The step of `lawState` answers a next state in which the frame and its plan go on. -/
theorem lawState_steps :
    ∃ t g, step lawState = .next t ∧ t.views[0].state = .opened g ∧ g.number = frame0.number := by
  have h : (match step lawState with
    | .next t => match t.views[0].state with
      | .opened g => g.number == frame0.number
      | _ => false
    | _ => false) = true := by decide +kernel
  split at h
  · next t ht =>
    split at h
    · next g hg => exact ⟨t, g, ht, hg, by simpa using h⟩
    · cases h
  · cases h

theorem witness_ReportRoomKept : (ackReport 300 44 0).Bounded := by
  unfold Report.Bounded
  decide +kernel

theorem witness_RingMapsKept : lawState.MapsOk := by
  intro i hu
  match i with
  | 0 => exact ⟨srcRec, by decide +kernel, by decide +kernel, by decide +kernel, by decide +kernel,
      by decide +kernel⟩
  | 1 => exact absurd (by decide +kernel) hu
  | 2 => exact absurd (by decide +kernel) hu
  | 3 => exact absurd (by decide +kernel) hu

/-- A store number that a source's list of stores has. -/
theorem store_lt {i : Fin 4} {p : Nat} {st : FrameStore} (h : lawState.sources[i].stores[p]? = some st) :
    i = 0 ∧ p < 3 := by
  have hl : ∀ i : Fin 4, lawState.sources[i].stores.length = if i = 0 then 3 else 0 := by decide +kernel
  have hp := (List.getElem?_eq_some_iff.mp h).1
  rw [hl] at hp
  split at hp
  · exact ⟨by assumption, hp⟩
  · omega

theorem lawState_pins : ∀ p : Fin 3, (lawState.sources[(0 : Fin 4)].stores[p.val]?).map FrameStore.pins =
    some (lawState.namedBy 0 p.val) := by decide +kernel

theorem lawState_torn : ∀ p : Fin 3, (lawState.sources[(0 : Fin 4)].stores[p.val]?).all
    (fun st => st.state != .filling || st.pins == 0) = true := by decide +kernel

theorem witness_PinLawKept : lawState.PinsOk := by
  refine ⟨fun i p st h => ?_, fun v i p h => ?_, by decide +kernel⟩
  · obtain ⟨rfl, hp⟩ := store_lt h
    have := lawState_pins ⟨p, hp⟩
    erw [h] at this
    simpa using this
  · have hn : ∀ v : Fin 2, (lawState.views[v].plan.map Plan.stores).getD [] = if v = 0 then [(0, 0)] else [] := by
      decide +kernel
    have hv := hn v
    unfold View.names at h
    cases hp : lawState.views[v].plan with
    | none => rw [hp] at h; cases h
    | some pl =>
      rw [hp] at h hv
      simp only [Option.map_some, Option.getD_some] at hv
      simp only [Option.any_some, hv] at h
      split at h
      · simp only [List.contains_cons, List.contains_nil, Bool.or_false, beq_iff_eq] at h
        cases h
        decide +kernel
      · cases h

theorem witness_TornMarkKept : lawState.TornOk := by
  intro i p st h hf hpos
  obtain ⟨rfl, hp⟩ := store_lt h
  have := lawState_torn ⟨p, hp⟩
  erw [h] at this
  simp [hf] at this
  omega

theorem witness_WindowTableKept : lawState.TableOk := by
  refine ⟨by decide +kernel, ?_⟩
  have hw : lawState.windows = [⟨0x3FFF0000, 65536, .control, true⟩, ⟨0x10000000, 0x4000, .camera 0 0, true⟩,
      ⟨0x10010000, 0x4000, .camera 0 1, true⟩, ⟨0x20000000, 0x4000, .aperture 0, true⟩] := by decide +kernel
  intro w h
  rw [hw] at h
  simp only [List.mem_cons, List.not_mem_nil, or_false] at h
  rcases h with rfl | rfl | rfl | rfl
  · exact ⟨by decide, by decide, by show _ = _; decide +kernel⟩
  · exact ⟨by decide, by decide, srcRec, by decide +kernel, by decide +kernel⟩
  · exact ⟨by decide, by decide, srcRec, by decide +kernel, by decide +kernel⟩
  · exact ⟨by decide, by decide, viewRec, by decide +kernel, by decide +kernel⟩

theorem witness_WindowFlagsKept : lawState.FlagsOk := by
  unfold State.FlagsOk
  decide +kernel

theorem witness_BoundsKept :
    lawState.HeldBounded ∧ lawState.PassBounded ∧ lawState.cmd.InStep ∧ lawState.arb.AgesOk := by
  unfold State.HeldBounded State.PassBounded CommandUnit.InStep Arbiter.AgesOk
  decide +kernel

theorem witness_ZoomLawKept :
    let s : State := { lawState with
      cal := ⟨(blendInput 0).active, none, none⟩, handoff := { Handoff.reset with fromSrc := 1 } }
    s.cal.InRange ∧ s.ZoomOk ∧ floorOf s.cal.active 1 = 2048 ∧ s.zoom.current = 2048 := by
  refine ⟨⟨fun x h => ?_, fun x h => by cases h⟩, ?_, by decide +kernel, by decide +kernel⟩
  · cases h
    unfold CalSet.InRange
    decide +kernel
  · unfold State.ZoomOk
    decide +kernel

theorem witness_CorrectionsKept : lawState.cal.InRange ∧ lawState.CorrectionsOk := by
  refine ⟨⟨fun x h => (by cases h), fun x h => (by cases h)⟩, ⟨by decide, ?_, ?_, ?_, ?_⟩, fun v p h => ?_⟩
  · unfold Correction.InRange; decide
  · unfold Correction.InRange; decide
  · exact fun _ => ⟨rfl, rfl⟩
  · intro p d n h
    cases h
  · have hn : ∀ v : Fin 2, lawState.views[v].plan = if v = 0 then some plan0 else none := by decide +kernel
    rw [hn] at h
    split at h
    · cases h
      unfold Plan.InRange Correction.InRange
      decide +kernel
    · cases h

theorem witness_PlanStaysInFrame :
    lawState.NumbersOk ∧ lawState.quiet ∧ lawState.views[(0 : Fin 2)].state = .opened frame0 := by
  refine ⟨fun v f h => ?_, ⟨rfl, rfl⟩, by decide +kernel⟩
  match v with
  | 0 =>
    have h0 : lawState.views[(0 : Fin 2)].state = .opened frame0 := by decide +kernel
    rw [h0] at h
    cases h
    decide +kernel
  | 1 =>
    have h1 : lawState.views[(1 : Fin 2)].state = .disabled := by decide +kernel
    rw [h1] at h
    cases h

theorem witness_CachesKept : lawState.CachesOk := by
  intro v
  refine ⟨fun m n k hm hn => ?_, ?_⟩
  · have h : ∀ (v : Fin 2) (m n : Fin 16), lawState.views[v].cache[m].liveKey.isSome = true →
        lawState.views[v].cache[n].liveKey.isSome = true → m = n := by decide +kernel
    exact h v m n (by rw [hm]; rfl) (by rw [hn]; rfl)
  · revert v
    decide +kernel

end Sys2Proof.Tests
end

section
/-! PROOFS. The command ring (chapter 10). What a slot's fields and its check are in the terms of its
bytes, one rule for each row of R164, what a completed take leaves (R166), and from these the take of a
NOP and the take of any refused command. -/

namespace Sys2Proof.Machine

/-! ### The bytes and marks of a slot -/

/-- The bytes of a slot as numbers, in their order. -/
def Slot.numbers (sl : Slot) : List Nat := sl.bytes.toList.map BitVec.toNat

theorem Slot.byte_eq_numbers (sl : Slot) (i : Nat) : sl.byte i = sl.numbers.getD i 0 := by
  simp only [Slot.byte, Slot.numbers, List.getD_eq_getElem?_getD, List.getElem?_map,
    Vector.getElem?_toList]
  cases sl.bytes[i]? <;> rfl

theorem sum_map_getD_range (l : List Nat) (n : Nat) :
    ((List.range n).map fun i => l.getD i 0).sum = (l.take n).sum := by
  induction l generalizing n with
  | nil => simp
  | cons x xs ih =>
    cases n with
    | zero => rfl
    | succ n => simp [List.range_succ_eq_map, Function.comp_def, ← ih]

/-- The check of R165, as a sum over the bytes as they stand. -/
theorem Slot.checkPasses_iff (sl : Slot) : sl.checkPasses = true ↔
    ((sl.numbers.take (4 * (sl.bodyLength + 1))).sum + sl.numbers.getD 60 0) % 256 = 0 := by
  simp only [Slot.checkPasses, beq_iff_eq, ← sum_map_getD_range, ← Slot.byte_eq_numbers]

theorem Slot.marked_eq (sl : Slot) (p : Fin 64) : sl.marked p.val = sl.marks[p] := by
  simp [Slot.marked]

/-- Word 0 is seen when its four bytes are marked (R160). -/
theorem Slot.seen_zero_iff (sl : Slot) :
    sl.seen 0 = true ↔ ∀ p : Fin 64, p.val < 4 → sl.marks[p] = true := by
  simp only [← Slot.marked_eq, Slot.seen, Bool.and_eq_true]
  constructor
  · rintro ⟨⟨⟨h0, h1⟩, h2⟩, h3⟩ ⟨n, _⟩ hn
    interval_cases n
    exacts [h0, h1, h2, h3]
  · exact fun h => ⟨⟨⟨h 0 (by decide), h 1 (by decide)⟩, h 2 (by decide)⟩, h 3 (by decide)⟩

theorem Slot.command_of_seen {sl : Slot} (h : sl.seen 0 = true) :
    sl.command = CmdCode.ofByte sl.code := if_pos h

theorem Slot.command_of_unseen {sl : Slot} (h : ¬ sl.seen 0 = true) : sl.command = none := if_neg h

/-! ### The Command Unit's own checks, row by row (R164) -/

section
variable {sl : Slot} {enable : Bool}

/-- Row 1: word 0 was not seen. -/
theorem ownCheck_unseen (hi : sl.incomplete = true) (hs : ¬ sl.seen 0 = true) :
    ownCheck sl enable = some .incomplete := by
  simp [ownCheck, hi, hs]

/-- Row 2: the length is above 14. -/
theorem ownCheck_tooLong (hs : sl.incomplete = false ∨ sl.seen 0 = true) (hl : 14 < sl.bodyLength) :
    ownCheck sl enable = some .range := by
  have h1 : ¬ (sl.incomplete = true ∧ sl.seen 0 = false) := by
    rintro ⟨hi, hn⟩
    simp [hi, hn] at hs
  rw [ownCheck, if_neg h1, if_pos hl]

/-- Row 3: the incomplete mark, word 0 seen or not. -/
theorem ownCheck_incomplete (hl : sl.bodyLength ≤ 14) (hi : sl.incomplete = true) :
    ownCheck sl enable = some .incomplete := by
  by_cases hs : sl.seen 0 = true
  · simp [ownCheck, hs, hi, Nat.not_lt.mpr hl]
  · exact ownCheck_unseen hi hs

/-- Row 4: the check is made and fails. -/
theorem ownCheck_badSum (hl : sl.bodyLength ≤ 14) (hi : sl.incomplete = false) (he : enable = true)
    (hp : ¬ sl.checkPasses = true) : ownCheck sl enable = some .check := by
  simp [ownCheck, hi, he, hp, Nat.not_lt.mpr hl]

/-- Past rows 1 to 4 the code and its words decide. -/
theorem ownCheck_past_sum (hl : sl.bodyLength ≤ 14) (hi : sl.incomplete = false)
    (hp : enable = false ∨ sl.checkPasses = true) :
    ownCheck sl enable =
      (CmdCode.ofByte sl.code).elim (some .unknown)
        fun c => if sl.bodyLength < c.words then some .range else none := by
  have h4 : ¬ (enable = true ∧ sl.checkPasses = false) := by
    rintro ⟨he, hn⟩
    simp [he, hn] at hp
  rw [ownCheck, if_neg (by simp [hi]), if_neg (Nat.not_lt.mpr hl), if_neg (by simp [hi]), if_neg h4]
  cases CmdCode.ofByte sl.code <;> rfl

/-- Every refusal by the Command Unit's own checks is a refusal: its result is not OK. -/
theorem ownCheck_ne_ok {r : CmdResult} (h : ownCheck sl enable = some r) : r ≠ .ok := by
  rintro rfl
  simp only [ownCheck] at h
  repeat' split at h
  all_goals simp at h

end

/-! ### The completion of a take (R166, R167) -/

/-- The mark of the take is overwritten by the completion, which frees the slot. -/
theorem CommandUnit.complete_markTaken (s : State) (sl : Slot) (r : CmdResult) :
    s.markTaken.cmd.complete sl r = s.cmd.complete sl r := by
  simp [State.markTaken, CommandUnit.complete]

theorem State.completeTake_markTaken_ok (s : State) (sl : Slot) :
    s.markTaken.completeTake sl .ok = s.executed sl := by
  simp only [State.completeTake, if_true, CommandUnit.complete_markTaken]
  rfl

theorem State.completeTake_markTaken_refused {s : State} {r : CmdResult} (sl : Slot)
    (hp : s.phase = .running) (hr : r ≠ .ok) : s.markTaken.completeTake sl r = s.refused sl r := by
  have hrun : s.markTaken.phase = .running := hp
  simp only [State.completeTake, if_neg hr, CommandUnit.complete_markTaken, State.raise, if_pos hrun]
  rfl

/-- A refusal leaves the channels as they are, so nothing that waits is accepted after it. -/
theorem State.acceptWaiting_refused {s : State} (hq : s.quiet) (sl : Slot) (r : CmdResult) :
    (s.refused sl r).acceptWaiting = s.refused sl r :=
  State.acceptWaiting_quiet _ hq.1 hq.2

/-! ### The take of a READY slot (R164) -/

theorem State.take_of_ready {s : State} {sl : Slot} {mine : Slot → Bool} (act : OwnerAct)
    (hs : s.readySlot = some sl) (hm : mine sl = true) : s.take mine act = s.runTake sl act := by
  simp only [State.take, hs, if_pos hm]

/-- The Command Unit's own checks refuse the command. -/
theorem State.runTake_of_ownCheck {s : State} {sl : Slot} {r : CmdResult} (act : OwnerAct)
    (h : ownCheck sl s.cmd.checkEnable = some r) : s.runTake sl act = s.markTaken.completeTake sl r := by
  have h' : ownCheck sl s.markTaken.cmd.checkEnable = some r := h
  simp only [State.runTake, h']

/-- Past the Command Unit's own checks the owner decides. -/
theorem State.runTake_of_passed {s : State} {sl : Slot} (act : OwnerAct)
    (h : ownCheck sl s.cmd.checkEnable = none) :
    s.runTake sl act =
      (if (act sl s.markTaken).1 = .ok then (act sl s.markTaken).2 else s.markTaken).completeTake sl
        (act sl s.markTaken).1 := by
  have h' : ownCheck sl s.markTaken.cmd.checkEnable = none := h
  simp only [State.runTake, h']

/-- The two ways a command is refused: by the Command Unit's own checks, or past them by its owner. -/
def State.refuses (s : State) (act : OwnerAct) (sl : Slot) (r : CmdResult) : Prop :=
  ownCheck sl s.cmd.checkEnable = some r ∨
    (ownCheck sl s.cmd.checkEnable = none ∧ (act sl s.markTaken).1 = r ∧ r ≠ .ok)

theorem State.runTake_refused {s : State} {act : OwnerAct} {sl : Slot} {r : CmdResult}
    (hp : s.phase = .running) (h : s.refuses act sl r) : s.runTake sl act = s.refused sl r := by
  rcases h with hc | ⟨hc, rfl, hr⟩
  · rw [State.runTake_of_ownCheck act hc, State.completeTake_markTaken_refused sl hp (ownCheck_ne_ok hc)]
  · rw [State.runTake_of_passed act hc, if_neg hr, State.completeTake_markTaken_refused sl hp hr]

/-- A PART_RESET can only be refused by the Command Unit's own checks, and is then taken as any command is
(R170). -/
theorem State.takePartReset_of_ownCheck {s : State} {sl : Slot} {r : CmdResult}
    (hs : s.readySlot = some sl) (hm : holds .partReset sl = true)
    (h : ownCheck sl s.cmd.checkEnable = some r) :
    s.takePartReset = s.markTaken.completeTake sl r := by
  have h' : ownCheck sl s.markTaken.cmd.checkEnable = some r := h
  simp only [State.takePartReset, hs, if_pos hm, h']

/-! ### The rows that take a slot -/

/-- Every row that takes a slot but PART_RESET runs the take of its owner; a control command of a view then
lets waiting requests be accepted. -/
theorem exec_of_commandRow {i : Instr} {mine : Slot → Bool} {act : OwnerAct} (s : State)
    (h : commandRow i = some (mine, act)) (hi : i ≠ .partReset) :
    exec i s = .next (s.take mine act) ∨ exec i s = .next (s.take mine act).acceptWaiting := by
  cases i with
  | nop | sourceSetup | sourceControlEnable | sourceControlDisable | viewSetup | calLoad | zoomSet
  | eventSetup | eventForce | unknownCommandTake => cases h; exact .inl rfl
  | viewControlEnable | viewControlDisable => cases h; exact .inr rfl
  | partReset => exact absurd rfl hi
  | _ => cases h

theorem exec_partReset_refused {s : State} {sl : Slot} {r : CmdResult} (hp : s.phase = .running)
    (hs : s.readySlot = some sl) (hm : holds .partReset sl = true) (h : s.refuses actNop sl r) :
    exec .partReset s = .next (s.refused sl r) := by
  rcases h with hc | ⟨-, rfl, hr⟩
  · have hrow : exec .partReset s = .next s.takePartReset := rfl
    rw [hrow, State.takePartReset_of_ownCheck hs hm hc,
      State.completeTake_markTaken_refused sl hp (ownCheck_ne_ok hc)]
  · exact absurd rfl hr

/-- A refused command changes nothing but its completion, with CMD_REFUSED, in whichever row takes it
(R167). -/
theorem exec_refused {i : Instr} {mine : Slot → Bool} {act : OwnerAct} {s : State} {sl : Slot}
    {r : CmdResult} (hi : commandRow i = some (mine, act)) (hp : s.phase = .running) (hq : s.quiet)
    (hs : s.readySlot = some sl) (hm : mine sl = true) (h : s.refuses act sl r) :
    exec i s = .next (s.refused sl r) := by
  by_cases hpr : i = .partReset
  · subst hpr
    cases hi
    exact exec_partReset_refused hp hs hm h
  · have htake : s.take mine act = s.refused sl r := by
      rw [State.take_of_ready act hs hm, State.runTake_refused hp h]
    rcases exec_of_commandRow s hi hpr with he | he
    · rw [he, htake]
    · rw [he, htake, State.acceptWaiting_refused hq]

theorem exec_nop_of_offers {s : State} {sl : Slot} (h : s.offers .nop sl) :
    exec .nop s = .next (s.executed sl) := by
  obtain ⟨hs, hc, ho⟩ := h
  have hm : holds .nop sl = true := by simp [holds, hc]
  have hrow : exec .nop s = .next (s.take (holds .nop) actNop) := rfl
  rw [hrow, State.take_of_ready actNop hs hm, State.runTake_of_passed actNop ho]
  exact congrArg Host.Outcome.next (s.completeTake_markTaken_ok sl)

/-! ### The statements -/

/-- Rows 1 to 6 of R164 in the terms of the slot's bytes and marks. -/
theorem ownCheck_rows (sl : Slot) (enable : Bool) :
    let headSeen := ∀ p : Fin 64, p.val < 4 → sl.marks[p] = true
    let length := sl.numbers.getD 1 0
    let passes := ((sl.numbers.take (4 * (length + 1))).sum + sl.numbers.getD 60 0) % 256 = 0
    let result := ownCheck sl enable
    (sl.incomplete = true → ¬ headSeen → result = some .incomplete) ∧
    ((sl.incomplete = false ∨ headSeen) → 14 < length → result = some .range) ∧
    (length ≤ 14 →
      (sl.incomplete = true → result = some .incomplete) ∧
      (sl.incomplete = false →
        (enable = true → ¬ passes → result = some .check) ∧
        ((enable = false ∨ passes) →
          (CmdCode.ofByte (sl.numbers.getD 0 0) = none → result = some .unknown) ∧
          ∀ c, CmdCode.ofByte (sl.numbers.getD 0 0) = some c →
            (length < c.words → result = some .range) ∧ (c.words ≤ length → result = none)))) := by
  have hlen : sl.numbers.getD 1 0 = sl.bodyLength := (sl.byte_eq_numbers 1).symm
  have hcode : sl.numbers.getD 0 0 = sl.code := (sl.byte_eq_numbers 0).symm
  simp only [hlen, hcode, ← Slot.seen_zero_iff, ← Slot.checkPasses_iff]
  refine ⟨ownCheck_unseen, ownCheck_tooLong, fun hl =>
    ⟨ownCheck_incomplete hl, fun hi => ⟨ownCheck_badSum hl hi, fun hp => ?_⟩⟩⟩
  rw [ownCheck_past_sum hl hi hp]
  refine ⟨fun hn => by rw [hn, Option.elim_none], fun c hc => ?_⟩
  rw [hc, Option.elim_some]
  exact ⟨fun hw => if_pos hw, fun hw => if_neg (Nat.not_lt.mpr hw)⟩

/-- Settles O27: the take of an offered NOP ends in the completion with result OK, its effect being none. -/
theorem nopCompletes : Obligations.NopCompletes := fun _ _ h => exec_nop_of_offers h

/-- Settles O28: the slot's fields and the six checks from its bytes, then each row's refusal as the one
state `State.refused`. -/
theorem refusedChangesNothing : Obligations.RefusedChangesNothing := by
  refine ⟨fun sl enable => ⟨sl.byte_eq_numbers 0, ?_, fun h => ?_, fun h => ?_, ownCheck_rows sl enable⟩,
    rfl, fun i mine act s sl r hi hp hq hs hm h => exec_refused hi hp hq hs hm h⟩
  · rw [Slot.tag, Slot.half, Slot.byte_eq_numbers, Slot.byte_eq_numbers]
    rfl
  · rw [Slot.command_of_seen (sl.seen_zero_iff.mpr h), Slot.code, Slot.byte_eq_numbers]
    rfl
  · exact Slot.command_of_unseen fun hs => h (sl.seen_zero_iff.mp hs)

end Sys2Proof.Machine
end

section
/-! PROOFS. EVENT_SETUP and EVENT_FORCE (chapter 11). The fields of a slot as numbers read from its bytes,
the take of an offered command by what its owner answers, and the event floor and the alert mask at their
places in the Report Unit and after a reset (R179, R180). -/

namespace Sys2Proof.Machine

/-! ### Numbers read from bytes (R191) -/

@[simp] theorem readLE_zero (bs : List Byte) (off : Nat) : readLE bs off 0 = 0 := by simp [readLE]

/-- The first byte is the least significant; past the end of the bytes every byte reads as 0. -/
theorem readLE_succ (bs : List Byte) (off n : Nat) :
    readLE bs off (n + 1) = ((bs[off]?).getD 0).toNat + 256 * readLE bs (off + 1) n := by
  unfold readLE
  by_cases h : off < bs.length
  · rw [List.drop_eq_getElem_cons h, List.getElem?_eq_getElem h]
    rfl
  · have hpast : ∀ m, off ≤ m → bs.drop m = [] := fun m hm => List.drop_eq_nil_of_le (by omega)
    simp [hpast off le_rfl, hpast (off + 1) (by omega), List.getElem?_eq_none (Nat.not_lt.mp h)]

theorem readLE_lt (bs : List Byte) (off n : Nat) : readLE bs off n < 256 ^ n := by
  induction n generalizing off with
  | zero => simp
  | succ n ih =>
    have hbyte := ((bs[off]?).getD 0).isLt
    have hrest := ih (off + 1)
    rw [readLE_succ, Nat.pow_succ]
    omega

/-! ### The fields of a slot (R191, R193) -/

theorem Slot.byte_eq_readLE (sl : Slot) (i : Nat) : sl.byte i = readLE sl.bytes.toList i 1 := by
  simp [Slot.byte, readLE_succ]

theorem Slot.half_eq_readLE (sl : Slot) (i : Nat) : sl.half i = readLE sl.bytes.toList i 2 := by
  simp only [Slot.half, Slot.byte_eq_readLE, readLE_succ, readLE_zero, Nat.mul_zero, Nat.add_zero]

theorem Slot.word_eq_readLE (sl : Slot) (i : Nat) : sl.word i = readLE sl.bytes.toList i 4 := by
  simp only [Slot.word, Slot.half_eq_readLE, readLE_succ, readLE_zero, Nat.add_assoc, Nat.reduceAdd]
  omega

theorem Slot.flag_iff_readLE (sl : Slot) (i : Nat) :
    sl.flag i = true ↔ readLE sl.bytes.toList i 1 % 2 = 1 := by
  rw [Slot.flag, beq_iff_eq, Slot.byte_eq_readLE]

theorem Slot.tag_toNat (sl : Slot) : sl.tag.toNat = readLE sl.bytes.toList 62 2 := by
  rw [Slot.tag, Slot.half_eq_readLE, BitVec.toNat_ofNat]
  exact Nat.mod_eq_of_lt (readLE_lt _ _ 2)

theorem Slot.forceArg_toNat (sl : Slot) : sl.forceArg.toNat = readLE sl.bytes.toList 8 4 := by
  rw [Slot.forceArg, Slot.word_eq_readLE, BitVec.toNat_ofNat]
  exact Nat.mod_eq_of_lt (readLE_lt _ _ 4)

theorem Slot.eventMask_getLsbD (sl : Slot) {n : Nat} (h : n < 29) :
    sl.eventMask.getLsbD n = (readLE sl.bytes.toList 8 4).testBit n := by
  rw [Slot.eventMask, Slot.word_eq_readLE, BitVec.getLsbD_ofNat, decide_eq_true h, Bool.true_and]

/-! ### The take of an offered command (R164, R166, R167) -/

theorem State.take_of_offers {s : State} {c : CmdCode} {sl : Slot} (act : OwnerAct)
    (h : s.offers c sl) : s.take (holds c) act = s.runTake sl act := by
  obtain ⟨hs, hc, -⟩ := h
  exact State.take_of_ready act hs (by simp [holds, hc])

/-- An owner that answers OK has its effect completed. The take's mark on the slot is not seen in what is
left, so the effect `t` is given on the state before the take. -/
theorem State.take_executed {s t : State} {c : CmdCode} {sl : Slot} {act : OwnerAct}
    (h : s.offers c sl) (hact : act sl s.markTaken = (.ok, t.markTaken)) :
    s.take (holds c) act = t.executed sl := by
  rw [State.take_of_offers act h]
  obtain ⟨-, -, hown⟩ := h
  rw [State.runTake_of_passed act hown, hact, if_pos rfl, State.completeTake_markTaken_ok]

/-- An owner that answers another result leaves only the refusal. -/
theorem State.take_refused {s : State} {c : CmdCode} {sl : Slot} {act : OwnerAct} {r : CmdResult}
    (h : s.offers c sl) (hp : s.phase = .running) (hact : (act sl s.markTaken).1 = r) (hr : r ≠ .ok) :
    s.take (holds c) act = s.refused sl r := by
  rw [State.take_of_offers act h]
  obtain ⟨-, -, hown⟩ := h
  exact State.runTake_refused hp (.inr ⟨hown, hact, hr⟩)

/-! ### EVENT_SETUP and EVENT_FORCE (R179, R180) -/

theorem isLevel_iff (n : Nat) : isLevel n = true ↔ 1 ≤ n ∧ n ≤ 3 := by simp [isLevel]

theorem not_isLevel_of_outside {n : Nat} (h : n < 1 ∨ 3 < n) : ¬ isLevel n = true := by
  rw [isLevel_iff]
  omega

/-- What EVENT_SETUP sets: the record floor, the alert mask and check enable (R179). -/
def State.eventSetUp (s : State) (sl : Slot) : State :=
  { s with
    report := { s.report with floor := sl.index, mask := sl.eventMask }
    cmd := { s.cmd with checkEnable := sl.flag 5 } }

theorem actEventSetup_of_level {sl : Slot} (s : State) (h : isLevel sl.index = true) :
    actEventSetup sl s.markTaken = (.ok, (s.eventSetUp sl).markTaken) := if_pos h

theorem actEventSetup_of_not_level {sl : Slot} (s : State) (h : ¬ isLevel sl.index = true) :
    actEventSetup sl s = (.range, s) := if_neg h

theorem State.raise_of_running {s : State} (e : Event) (hp : s.phase = .running) :
    s.raise e = { s with report := s.report.raise s.timeBase e } := if_pos hp

/-- What EVENT_FORCE does: EVENT_FORCED reaches the Report Unit (R180). -/
def State.eventForced (s : State) (sl : Slot) : State :=
  { s with report := s.report.raise s.timeBase (eventForcedEvent sl) }

theorem actEventForce_of_level {s : State} {sl : Slot} (hp : s.phase = .running)
    (h : isLevel sl.index = true) :
    actEventForce sl s.markTaken = (.ok, (s.eventForced sl).markTaken) := by
  have hrun : s.markTaken.phase = .running := hp
  rw [actEventForce, if_pos h, State.raise_of_running _ hrun]
  rfl

theorem actEventForce_of_not_level {sl : Slot} (s : State) (h : ¬ isLevel sl.index = true) :
    actEventForce sl s = (.range, s) := if_neg h

theorem exec_eventSetup (s : State) :
    exec .eventSetup s = .next (s.take (holds .eventSetup) actEventSetup) := rfl

theorem exec_eventForce (s : State) :
    exec .eventForce s = .next (s.take (holds .eventForce) actEventForce) := rfl

section
variable {s : State} {sl : Slot}

theorem exec_eventSetup_executed (h : s.offers .eventSetup sl) (hl : isLevel sl.index = true) :
    exec .eventSetup s = .next ((s.eventSetUp sl).executed sl) := by
  rw [exec_eventSetup, State.take_executed h (actEventSetup_of_level s hl)]

theorem exec_eventSetup_refused (hp : s.phase = .running) (h : s.offers .eventSetup sl)
    (hl : ¬ isLevel sl.index = true) : exec .eventSetup s = .next (s.refused sl .range) := by
  have hact : (actEventSetup sl s.markTaken).1 = .range := by rw [actEventSetup_of_not_level _ hl]
  rw [exec_eventSetup, State.take_refused h hp hact (by decide)]

theorem exec_eventForce_executed (hp : s.phase = .running) (h : s.offers .eventForce sl)
    (hl : isLevel sl.index = true) : exec .eventForce s = .next ((s.eventForced sl).executed sl) := by
  rw [exec_eventForce, State.take_executed h (actEventForce_of_level hp hl)]

theorem exec_eventForce_refused (hp : s.phase = .running) (h : s.offers .eventForce sl)
    (hl : ¬ isLevel sl.index = true) : exec .eventForce s = .next (s.refused sl .range) := by
  have hact : (actEventForce sl s.markTaken).1 = .range := by rw [actEventForce_of_not_level _ hl]
  rw [exec_eventForce, State.take_refused h hp hact (by decide)]

end

/-! ### The record floor and the alert mask (R178, R179) -/

theorem Report.raise_below_floor {r : Report} (now : Word) {e : Event} (h : e.level < r.floor) :
    r.raise now e = r := if_pos h

/-- A grant writes the flag of one position; the entries it lets into the queue touch none. -/
theorem Report.grantRecord_alertFlags (r : Report) (x : Record) (n : Fin 256) :
    (r.grantRecord x).alertFlags[n] =
      if n.val = r.writeIndex.toNat % 256 then r.alerts x.kind else r.alertFlags[n] := by
  simp only [Report.grantRecord, Report.testRoom, Report.moveEntries_alertFlags, Fin.getElem_fin,
    Vector.getElem_set, eq_comm]

theorem EventKind.one_le_level (k : EventKind) : 1 ≤ k.level := by cases k <;> decide

theorem EventKind.code_le (k : EventKind) : k.code ≤ 29 := by cases k <;> decide

/-- The six kinds of fixed level INFO stand first in the table of section 11.8. -/
theorem EventKind.seven_le_code_iff (k : EventKind) : 7 ≤ k.code ↔ 2 ≤ k.level ∨ k = .eventForced := by
  cases k <;> decide

/-- After a reset the alert mask is set from bit 6, the bit of code 7, upward. -/
theorem Report.reset_mask_getLsbD (c : ResetCause) {n : Nat} (h : n < 29) :
    (Report.reset c).mask.getLsbD n = true ↔ 6 ≤ n := by
  have hmask : (Report.reset c).mask = BitVec.allOnes 29 <<< 6 := rfl
  simp only [hmask, BitVec.getLsbD_shiftLeft, BitVec.getLsbD_allOnes, Bool.and_eq_true,
    Bool.not_eq_true', decide_eq_true_eq, decide_eq_false_iff_not]
  omega

theorem Report.reset_mask_alerts (c : ResetCause) (k : EventKind) :
    (Report.reset c).mask.getLsbD (k.code - 1) = true ↔ 2 ≤ k.level ∨ k = .eventForced := by
  have hcode := k.code_le
  rw [Report.reset_mask_getLsbD c (by omega), ← k.seven_le_code_iff]
  omega

/-! ### The statement -/

/-- Settles O37: the fields from the slot's bytes, each command by whether its level is in 1 to 3, then the
floor, the mask and their reset values. -/
theorem eventCommands : Obligations.EventCommands := by
  refine ⟨fun sl => ⟨sl.byte_eq_readLE 4, sl.flag_iff_readLE 5, fun _ hn => sl.eventMask_getLsbD hn,
      sl.forceArg_toNat, sl.tag_toNat⟩,
    fun s sl hp => ⟨fun h => ⟨fun hout => ?_, fun h1 h3 => ?_⟩, fun h => ⟨fun hout => ?_, fun h1 h3 => ?_⟩⟩,
    fun _ now _ h => Report.raise_below_floor now h, Report.grantRecord_alertFlags,
    fun _ c k => ⟨rfl, rfl, rfl, k.one_le_level, Report.reset_mask_alerts c k⟩⟩
  · exact exec_eventSetup_refused hp h (not_isLevel_of_outside hout)
  · exact exec_eventSetup_executed h ((isLevel_iff _).mpr ⟨h1, h3⟩)
  · exact exec_eventForce_refused hp h (not_isLevel_of_outside hout)
  · exact exec_eventForce_executed hp h ((isLevel_iff _).mpr ⟨h1, h3⟩)

end Sys2Proof.Machine
end

section
/-! PROOFS. The Report Unit's room (section 11.1): which operations of a step reach the Report Unit, and that
each keeps its queue and its unacknowledged count within their bounds (R173). -/

namespace Sys2Proof.Machine

/-! ### What an idle step and a response touch -/

/-- An idle step moves the time base alone (R186). -/
theorem State.tick_eq_timeBase (s : State) : ∃ t, s.tick = { s with timeBase := t } := by
  rw [State.tick_eq]
  split
  · exact ⟨s.timeBase, rfl⟩
  · exact ⟨s.timeBase, rfl⟩
  · exact ⟨_, rfl⟩
  · exact ⟨_, rfl⟩

/-- A property that the freeing of an entry and the hand-over keep, the arrival of a response keeps. -/
theorem State.arrive_keeps (P : State → Prop) (s : State) (e : Fin 64) (o : OutEntry) (m : MemResp)
    (hfree : P (s.freeOutstanding e)) (hhand : P ((s.freeOutstanding e).hand o.owner m)) :
    P (s.arrive e o m) := by
  unfold State.arrive
  dsimp only
  split
  · exact hfree
  · exact hhand

/-- A response of the load changes the Calibration Store and raises events, nothing else (R35, R38). -/
theorem State.loadResponse_eq (s : State) (sp : Span) (m : MemResp) :
    ∃ cal es, s.loadResponse sp m = State.raiseAll { s with cal } es := by
  unfold State.loadResponse
  split
  · exact ⟨s.cal, [], rfl⟩
  · dsimp only
    split
    · exact ⟨_, _, rfl⟩
    · exact ⟨_, [], rfl⟩

/-- ZOOM_SET changes the Zoom Controller and raises events, nothing else (R44). -/
theorem actZoomSet_eq (s : State) (sl : Slot) :
    ∃ zm es, (actZoomSet sl s).2 = State.raiseAll { s with zoom := zm } es := by
  unfold actZoomSet
  split
  · exact ⟨s.zoom, [], rfl⟩
  · exact ⟨_, _, rfl⟩

/-! ### The room of the report ring (R173) -/

theorem State.hand_bounded (s : State) (o : Owner) (m : MemResp) (h : s.report.Bounded) :
    (s.hand o m).report.Bounded := by
  cases o with
  | forwarded tag num isRead beats => exact h
  | fetch v n sp => exact State.onView_bounded s v _ h
  | load sp =>
    obtain ⟨cal, es, heq⟩ := s.loadResponse_eq sp m
    show (s.loadResponse sp m).report.Bounded
    rw [heq]
    exact State.raiseAll_bounded _ _ h
  | recordWrite => exact h
  | mirrorWrite => exact h

theorem State.grantReport_bounded (s : State) (e : Fin 64) (h : s.report.Bounded) :
    (s.grantReport e).report.Bounded := by
  have hhead : ∀ i, s.reportOffer = some i → ∃ rest, s.report.output = i :: rest := by
    intro i hi
    unfold State.reportOffer at hi
    split at hi
    · exact List.head?_eq_some_iff.mp hi
    · cases hi
  unfold State.grantReport
  split
  · next r hr =>
    obtain ⟨rest, hout⟩ := hhead _ hr
    exact Report.grantRecord_bounded _ r rest hout h
  · next hm =>
    obtain ⟨rest, hout⟩ := hhead _ hm
    exact Report.grantMirror_bounded _ rest hout h
  · exact h

theorem State.grantTo_bounded (s : State) (e : Fin 64) (g : Requester) (h : s.report.Bounded) :
    (s.grantTo e g).report.Bounded := by
  cases g with
  | pass => simpa [State.grantTo] using h
  | view v => simpa [State.grantTo] using h
  | report => exact s.grantReport_bounded e h
  | cal => simpa [State.grantTo] using h

theorem State.completeTake_bounded (s : State) (sl : Slot) (r : CmdResult) (h : s.report.Bounded) :
    (s.completeTake sl r).report.Bounded := by
  refine Report.requestMirror_bounded _ ?_
  split
  · exact h
  · exact State.raise_bounded _ _ h

theorem keeps_reportBounded : Keeps fun s => s.report.Bounded where
  queue _ _ h := h
  tick s h := by
    obtain ⟨t, ht⟩ := s.tick_eq_timeBase
    rw [ht]
    exact h
  draw _ h := h
  powerOn _ _ := Report.reset_bounded .power
  pin _ _ h := h
  sample _ _ _ _ h := h
  beginInit _ _ h := h
  reset _ c _ _ _ := Report.reset_bounded c
  endInit s _ h := Report.requestMirror_bounded _ (State.raise_bounded _ _ h)
  read s r _ _ _ h := State.acceptRead_bounded _ r h
  write s w _ _ _ h := State.acceptWrite_bounded _ w h
  arriveRead _ _ h := h
  arriveWrite _ _ h := h
  hold s v h := State.onView_bounded s v _ h
  idle s v h := State.onView_bounded s v _ h
  stall s i _ h := State.onSource_bounded s i _ h
  grant s e g _ _ h := State.grantTo_bounded s e g h
  respond s e o m _ _ h := State.arrive_keeps (fun s => s.report.Bounded) s e o m h (State.hand_bounded _ _ _ h)
  mark _ h := h
  complete s sl r h := State.completeTake_bounded s sl r h
  partReset _ _ h := h
  setUpSource _ _ _ _ h := h
  enableSource _ _ _ h := h
  disableSource _ _ _ h := h
  setUpView _ _ _ _ h := h
  enableView _ _ _ _ h := h
  disableView s v _ _ h := State.onView_bounded _ v _ h
  calLoad _ _ _ h := h
  zoomSet s sl _ h := by
    obtain ⟨zm, es, heq⟩ := actZoomSet_eq s sl
    rw [heq]
    exact State.raiseAll_bounded _ _ h
  eventSetup s sl hl h := by
    simp only [actEventSetup, if_pos hl]
    exact h
  eventForce s sl _ h := State.raise_bounded _ _ h

/-- Settles O49: every operation of a step keeps the room of the report ring. -/
theorem reportRoomKept : Obligations.ReportRoomKept := fun _ _ h ht => keeps_reportBounded.step h ht

end Sys2Proof.Machine
end

section
/-! PROOFS. The ring maps (section 1.3): the parts of a source that its ring map is judged by, what pins,
camera writes and commands make of them, and that every step keeps each map one to one (R9). -/

namespace Sys2Proof.Machine

/-! ### Which operations leave the sources alone -/

@[simp] theorem State.grantedTo_sources (s : State) (e : Fin 64) (g : Requester) :
    (s.grantedTo e g).sources = s.sources := by
  cases g <;> simp [State.grantedTo, State.grantTo]

@[simp] theorem State.arrive_sources (s : State) (e : Fin 64) (o : OutEntry) (m : MemResp) :
    (s.arrive e o m).sources = s.sources := by
  unfold State.arrive
  dsimp only
  split <;> simp

@[simp] theorem State.tick_sources (s : State) : s.tick.sources = s.sources := by
  obtain ⟨t, ht⟩ := s.tick_eq_timeBase
  rw [ht]

@[simp] theorem actZoomSet_sources (s : State) (sl : Slot) :
    (actZoomSet sl s).2.sources = s.sources := by
  obtain ⟨zm, es, heq⟩ := actZoomSet_eq s sl
  simp [heq]

@[simp] theorem State.initEnded_sources (s : State) : s.initEnded.sources = s.sources := by
  simp [State.initEnded]

@[simp] theorem actEventSetup_sources (s : State) (sl : Slot) :
    (actEventSetup sl s).2.sources = s.sources := by
  unfold actEventSetup
  split <;> rfl

@[simp] theorem State.disableView_sources (s : State) (v : Fin 2) :
    (s.disableView v).sources = releasePlan s.sources s.views[v].plan := by
  simp [State.disableView]

theorem State.onSource_sources (s : State) (i : Fin 4) (f : Source → Source × List Event) :
    (s.onSource i f).sources = s.sources.set i.val (f s.sources[i]).1 i.isLt :=
  State.raiseAll_sources _ _

/-! ### A property of every source, through pins and through accepted requests -/

theorem forall_sources_set {Q : Source → Prop} {ss : Vector Source 4} {i : Fin 4} {src : Source}
    (hsrc : Q src) (h : ∀ j : Fin 4, Q ss[j]) : ∀ j : Fin 4, Q (ss.set i.val src i.isLt)[j] := by
  intro j
  rw [vector_get_set]
  split
  · exact hsrc
  · exact h j

/-- A step made store by store keeps what it keeps of one source. -/
theorem forall_sources_onStore {Q : Source → Prop} {f : Source → Nat → Source}
    (hf : ∀ src p, Q src → Q (f src p)) (l : List (Fin 4 × Nat)) (ss : Vector Source 4)
    (h : ∀ i : Fin 4, Q ss[i]) : ∀ i : Fin 4, Q (l.foldl (onStore f) ss)[i] := by
  induction l generalizing ss with
  | nil => exact h
  | cons x l ih => exact ih _ (forall_sources_set (hf _ _ (h x.1)) h)

theorem forall_sources_acceptRead {Q : Source → Prop} (hpin : ∀ src p, Q src → Q (src.pin p))
    (hrelease : ∀ src p, Q src → Q (src.release p)) (s : State) (r : ReadReq)
    (h : ∀ i : Fin 4, Q s.sources[i]) : ∀ i : Fin 4, Q (s.acceptRead r).sources[i] := by
  rcases s.acceptRead_sources r with heq | ⟨v, -, heq⟩
  · rwa [heq]
  rw [heq]
  rcases s.acceptAperture_sources v r with heq | ⟨a, b, heq⟩
  · rwa [heq]
  rw [heq]
  exact forall_sources_onStore hrelease _ _ (forall_sources_onStore hpin _ _ h)

theorem forall_sources_acceptWrite {Q : Source → Prop}
    (hwrite : ∀ src i active now k off w, Q src → Q (Source.onWrite src i active now k off w).1)
    (s : State) (w : WriteReq) (h : ∀ i : Fin 4, Q s.sources[i]) :
    ∀ i : Fin 4, Q (s.acceptWrite w).sources[i] := by
  rcases s.acceptWrite_sources w with heq | ⟨i, k, off, heq⟩
  · rwa [heq]
  · rw [heq]
    exact forall_sources_set (hwrite _ _ _ _ _ _ _ (h i)) h

/-! ### The ring map of one source (R9) -/

/-- A ring map is judged by the record, by whether the source is UNSET, and by the number of stores. -/
theorem Source.MapOk.congr {a b : Source} (h : a.MapOk) (hrec : b.record = a.record)
    (hunset : b.state = .unset ↔ a.state = .unset) (hmap : b.ringMap = a.ringMap)
    (hlen : b.stores.length = a.stores.length) : b.MapOk := by
  unfold Source.MapOk at h ⊢
  rw [hrec, hmap, hlen, ne_eq, hunset]
  exact h

/-- An exchange with a store that is mapped to no position keeps the map one to one (R16). -/
theorem Source.MapOk.exchange {a b : Source} {k q : Nat} (h : a.MapOk) (hrec : b.record = a.record)
    (hunset : b.state = .unset ↔ a.state = .unset) (hlen : b.stores.length = a.stores.length)
    (hq : q < a.stores.length) (hnew : q ∉ a.ringMap) (hmap : b.ringMap = a.ringMap.set k q) :
    b.MapOk := by
  intro hb
  obtain ⟨r, hr, hpos, hstores, hnodup, hlt⟩ := h (mt hunset.mpr hb)
  refine ⟨r, hrec.trans hr, ?_, hlen.trans hstores, ?_, ?_⟩
  · rw [hmap, List.length_set, hpos]
  · rw [hmap]
    exact List.Nodup.set hnodup hnew
  · intro p hp
    rw [hlen]
    rw [hmap] at hp
    rcases List.mem_or_eq_of_mem_set hp with hold | rfl
    · exact hlt p hold
    · exact hq

theorem Source.MapOk.onWrite {src : Source} (h : src.MapOk) (i : Fin 4) (active : Option CalSet)
    (now : Word) (k off : Nat) (w : WriteReq) : (src.onWrite i active now k off w).1.MapOk := by
  have hkept := src.onWrite_kept i active now k off w
  rcases src.onWrite_ringMap i active now k off w with hmap | ⟨q, hq, hnew, hmap⟩
  · exact h.congr hkept.record hkept.unset hmap hkept.length
  · exact h.exchange hkept.record hkept.unset hkept.length hq hnew hmap

theorem Source.reset_mapOk : Source.reset.MapOk := fun h => absurd rfl h

theorem Source.setUp_mapOk (r : SourceRecord) : (Source.setUp r).MapOk := by
  refine fun _ => ⟨r, rfl, by simp [Source.setUp, identityMap],
    by simp [Source.setUp, SourceRecord.storeCount], List.nodup_range, fun p hp => ?_⟩
  have : p < r.positions := by simpa [Source.setUp, identityMap] using hp
  simp only [Source.setUp, List.length_replicate, SourceRecord.storeCount]
  omega

theorem Source.MapOk.enable {src : Source} (h : src.MapOk) (hs : src.state = .off) (now : Word) :
    (src.enable now).MapOk :=
  h.congr rfl (by simp [Source.enable, hs]) rfl (by simp [Source.enable])

/-- A disable puts the identity map back (R7). -/
theorem Source.MapOk.disable {src : Source} (h : src.MapOk) (hs : src.state.windowsActive = true) :
    src.disable.MapOk := by
  have hset : src.state ≠ .unset := by
    intro hu
    rw [hu] at hs
    cases hs
  obtain ⟨r, hr, -, hstores, -, -⟩ := h hset
  refine fun _ => ⟨r, hr, by simp [Source.disable, identityMap, hr], hstores, List.nodup_range,
    fun p hp => ?_⟩
  have : p < r.positions := by simpa [Source.disable, identityMap, hr] using hp
  show p < src.stores.length
  omega

theorem Source.MapOk.stall {src : Source} {now : Word} (h : src.MapOk)
    (hdue : src.watchdogDue now = true) (i : Fin 4) : (src.stall i).1.MapOk := by
  have hset : src.state ≠ .unset := by
    intro hu
    unfold Source.watchdogDue at hdue
    split at hdue <;> simp [hu] at hdue
  exact h.congr rfl (iff_of_false (by simp [Source.stall]) hset) rfl rfl

theorem Source.MapOk.pin {src : Source} (h : src.MapOk) (p : Nat) : (src.pin p).MapOk :=
  h.congr rfl Iff.rfl rfl (src.pin_length p)

theorem Source.MapOk.release {src : Source} (h : src.MapOk) (p : Nat) : (src.release p).MapOk :=
  h.congr rfl Iff.rfl rfl (src.release_length p)

/-! ### Every step -/

theorem State.MapsOk.congr {s t : State} (h : s.MapsOk) (heq : t.sources = s.sources) : t.MapsOk := by
  unfold State.MapsOk
  rwa [heq]

theorem State.mapsOk_reset {s : State} (h : s.sources = Vector.replicate 4 Source.reset) :
    s.MapsOk := by
  intro i
  simp only [h, Fin.getElem_fin, Vector.getElem_replicate]
  exact Source.reset_mapOk

theorem keeps_mapsOk : Keeps State.MapsOk where
  queue _ _ h := h
  tick s h := h.congr s.tick_sources
  draw _ h := h
  powerOn _ _ := State.mapsOk_reset rfl
  pin _ _ h := h
  sample _ _ _ _ h := h
  beginInit _ _ h := h
  reset _ _ _ _ _ := State.mapsOk_reset rfl
  endInit s _ h := h.congr s.initEnded_sources
  read _ r _ _ _ h :=
    forall_sources_acceptRead (Q := Source.MapOk) (fun _ p h => h.pin p) (fun _ p h => h.release p) _ r h
  write _ w _ _ _ h :=
    forall_sources_acceptWrite (Q := Source.MapOk)
      (fun _ i active now k off w h => h.onWrite i active now k off w) _ w h
  arriveRead _ _ h := h
  arriveWrite _ _ h := h
  hold s v h := h.congr (s.onView_sources v _)
  idle s v h := h.congr (s.onView_sources v _)
  stall s i hdue h := by
    unfold State.MapsOk
    rw [s.onSource_sources]
    exact forall_sources_set (Source.MapOk.stall (h i) hdue i) h
  grant s e g _ _ h := h.congr (s.grantedTo_sources e g)
  respond s e o m _ _ h := h.congr (s.arrive_sources e o m)
  mark _ h := h
  complete s sl r h := h.congr (s.completeTake_sources sl r)
  partReset _ _ h := h
  setUpSource _ _ r _ h := forall_sources_set (Source.setUp_mapOk r) h
  enableSource s i hoff h := forall_sources_set (Source.MapOk.enable (h i) hoff s.timeBase) h
  disableSource _ i hact h := forall_sources_set (Source.MapOk.disable (h i) hact) h
  setUpView _ _ _ _ h := h
  enableView _ _ _ _ h := h
  disableView s v _ _ h := by
    unfold State.MapsOk
    rw [s.disableView_sources v]
    exact forall_sources_onStore (Q := Source.MapOk) (fun _ p h => h.release p) _ _ h
  calLoad _ _ _ h := h
  zoomSet s sl _ h := h.congr (actZoomSet_sources s sl)
  eventSetup s sl _ h := h.congr (actEventSetup_sources s sl)
  eventForce s sl _ h := h.congr (s.raise_sources _)

/-- Settles O50: the map of a source moves by one exchange at most, or is the identity again. -/
theorem ringMapsKept : Obligations.RingMapsKept := fun _ _ h ht => keeps_mapsOk.step h ht

end Sys2Proof.Machine
end

section
/-! PROOFS. The pins of the frame stores (section 1.7). The law of pins read store by store, what an opening,
a disable and a set-up make of it, and that every step keeps it (R22, R99). -/

namespace Sys2Proof.Machine

/-! ### The law of pins, store by store -/

theorem View.enabled_eq_false_iff (v : View) : v.enabled = false ↔ v.state = .disabled := by
  unfold View.enabled
  cases v.state <;> simp

theorem pinAt_eq_some_iff (ss : Vector Source 4) (i : Fin 4) (p n : Nat) :
    pinAt ss i p = some n ↔ ∃ st, ss[i].stores[p]? = some st ∧ st.pins = n := Option.map_eq_some_iff

theorem pinAt_isSome_iff (ss : Vector Source 4) (i : Fin 4) (p : Nat) :
    (pinAt ss i p).isSome = true ↔ p < ss[i].stores.length := by
  simp [pinAt]

theorem planCount_eq_oneIf (v : View) (i : Fin 4) (p : Nat) :
    planCount v.plan (i, p) = oneIf (v.names i p) := rfl

theorem planCount_ne_zero_iff (v : View) (i : Fin 4) (p : Nat) :
    planCount v.plan (i, p) ≠ 0 ↔ v.names i p = true := by
  rw [planCount_eq_oneIf]
  cases v.names i p <;> simp [oneIf]

theorem View.names_iff (v : View) (i : Fin 4) (p : Nat) :
    v.names i p = true ↔ ∃ pl, v.plan = some pl ∧ (i, p) ∈ pl.stores := by
  unfold View.names
  cases v.plan <;> simp

theorem State.namedBy_ne_zero {s : State} {v : Fin 2} {i : Fin 4} {p : Nat}
    (h : s.views[v].names i p = true) : s.namedBy i p ≠ 0 := by
  have hone := (planCount_ne_zero_iff s.views[v] i p).mpr h
  rw [s.namedBy_sum v]
  omega

/-- Each pin count is the number of plans that name its store. -/
theorem State.PinsOk.pinAt_eq {s : State} (h : s.PinsOk) {i : Fin 4} {p n : Nat}
    (hn : pinAt s.sources i p = some n) : n = s.namedBy i p := by
  obtain ⟨st, hst, rfl⟩ := (pinAt_eq_some_iff _ _ _ _).mp hn
  obtain ⟨hcount, -, -⟩ := h
  exact hcount i p st hst

theorem State.PinsOk.stores_exist {s : State} (h : s.PinsOk) (v : Fin 2) (pl : Plan)
    (hpl : s.views[v].plan = some pl) (x : Fin 4 × Nat) (hx : x ∈ pl.stores) :
    storeExists s.sources x := by
  obtain ⟨-, hexist, -⟩ := h
  exact hexist v x.1 x.2 ((View.names_iff _ _ _).mpr ⟨pl, hpl, hx⟩)

theorem State.PinsOk.plan_of_not_enabled {s : State} (h : s.PinsOk) {v : Fin 2}
    (hv : s.views[v].enabled = false) : s.views[v].plan = none := by
  obtain ⟨-, -, hplan⟩ := h
  exact hplan v ((View.enabled_eq_false_iff _).mp hv)

/-- The law of pins from the pin counts, the stores of the plans, and the views that are not enabled. -/
theorem State.pinsOk_of {s : State}
    (hpins : ∀ i p n, pinAt s.sources i p = some n → n = s.namedBy i p)
    (hexist : ∀ v : Fin 2, ∀ pl, s.views[v].plan = some pl → ∀ x ∈ pl.stores, storeExists s.sources x)
    (hplan : ∀ v : Fin 2, s.views[v].enabled = false → s.views[v].plan = none) : s.PinsOk := by
  refine ⟨fun i p st hst => hpins i p _ ((pinAt_eq_some_iff _ _ _ _).mpr ⟨st, hst, rfl⟩),
    fun v i p hn => ?_, fun v hv => hplan v ((View.enabled_eq_false_iff _).mpr hv)⟩
  obtain ⟨pl, hpl, hmem⟩ := (View.names_iff _ _ _).mp hn
  exact hexist v pl hpl (i, p) hmem

/-- Only pin counts, plans and the views that are not enabled are judged. -/
theorem State.PinsOk.congr {s t : State} (h : s.PinsOk)
    (hpins : ∀ i p, pinAt t.sources i p = pinAt s.sources i p)
    (hplan : ∀ v : Fin 2, t.views[v].plan = s.views[v].plan)
    (henabled : ∀ v : Fin 2, t.views[v].enabled = false → s.views[v].enabled = false) : t.PinsOk := by
  refine State.pinsOk_of (fun i p n hn => ?_) (fun v pl hpl x hx => ?_) (fun v hv => ?_)
  · rw [hpins] at hn
    rw [h.pinAt_eq hn, State.namedBy_eq, State.namedBy_eq, hplan, hplan]
  · rw [hplan] at hpl
    have := h.stores_exist v pl hpl x hx
    rw [storeExists, ← pinAt_isSome_iff] at this ⊢
    rwa [hpins]
  · rw [hplan, h.plan_of_not_enabled (henabled v hv)]

/-! ### A view exchanges its plan -/

theorem otherView_ne (v : Fin 2) : otherView v ≠ v := by
  revert v
  decide

/-- With one view's plan exchanged, the sources pinned for the new and released for the old, the law of pins
stands. -/
theorem State.PinsOk.replan {s t : State} {v : Fin 2} {new : Option Plan} (h : s.PinsOk)
    (hplan : t.views[v].plan = new) (hother : ∀ j, j ≠ v → t.views[j] = s.views[j])
    (hpins : ∀ i p, pinAt t.sources i p = (pinAt s.sources i p).map fun n =>
      n + planCount new (i, p) - planCount s.views[v].plan (i, p))
    (hexist : ∀ pl, new = some pl → ∀ x ∈ pl.stores, storeExists s.sources x)
    (henabled : t.views[v].enabled = false → new = none) : t.PinsOk := by
  have hov := otherView_ne v
  have hstores : ∀ x, storeExists t.sources x ↔ storeExists s.sources x := by
    intro x
    rw [storeExists, storeExists, ← pinAt_isSome_iff, ← pinAt_isSome_iff, hpins, Option.isSome_map]
  refine State.pinsOk_of (fun i p n hn => ?_) (fun j pl hpl x hx => (hstores x).mpr ?_) (fun j hj => ?_)
  · rw [hpins] at hn
    obtain ⟨m, hm, rfl⟩ := Option.map_eq_some_iff.mp hn
    rw [h.pinAt_eq hm, s.namedBy_sum v, t.namedBy_sum v, hplan, hother _ hov]
    omega
  · by_cases hjv : j = v
    · subst hjv
      exact hexist pl (hplan ▸ hpl) x hx
    · rw [hother j hjv] at hpl
      exact h.stores_exist j pl hpl x hx
  · by_cases hjv : j = v
    · subst hjv
      rw [hplan, henabled hj]
    · rw [hother j hjv] at hj ⊢
      exact h.plan_of_not_enabled hj

theorem State.PinsOk.openFrame {s : State} (h : s.PinsOk) (i : Fin 2) (rows : List Nat) (r : ViewRecord)
    (hr : s.views[i].record = some r) : (s.openFrame i rows).PinsOk := by
  obtain ⟨hplan, -, henabled, -, hother, hsources⟩ := s.openFrame_spec i rows r hr
  refine h.replan hplan hother (fun j p => ?_) (fun pl hpl => ?_) (fun hf => ?_)
  · rw [hsources, releasePlan_at, pinPlan_at, Option.map_map]
    rfl
  · obtain rfl := Option.some.inj hpl
    exact latchPlan_exists _ _ _ _ _ _ _ _ (h.stores_exist i)
  · rw [henabled] at hf
    cases hf

theorem State.PinsOk.disableView {s : State} (h : s.PinsOk) (v : Fin 2) : (s.disableView v).PinsOk := by
  have hother : ∀ j, j ≠ v → (s.disableView v).views[j] = s.views[j] :=
    fun j => (s.disableView_views v j).1
  obtain ⟨hplan, -, -, -⟩ := (s.disableView_views v v).2
  refine h.replan hplan hother (fun i p => ?_) (fun pl hpl => by cases hpl) (fun _ => rfl)
  rw [State.disableView_sources, releasePlan_at]
  rfl

/-! ### The operations that keep pins and plans -/

/-- A step of one view that keeps the plan, the record and whether the view is enabled keeps the law. -/
theorem State.PinsOk.onView {s : State} (h : s.PinsOk) (i : Fin 2)
    {f : ViewEnv → ViewWork → ViewWork}
    (hf : ∀ e w, (f e w).view.plan = w.view.plan ∧ (f e w).view.enabled = w.view.enabled) :
    (s.onView i f).PinsOk := by
  have hkeep : ∀ v : Fin 2, (s.onView i f).views[v].plan = s.views[v].plan ∧
      (s.onView i f).views[v].enabled = s.views[v].enabled := by
    intro v
    by_cases hv : v = i
    · subst hv
      cases hr : s.views[v].record with
      | none =>
        have hsame : s.onView v f = s := by simp only [State.onView, hr]
        rw [hsame]
        exact ⟨rfl, rfl⟩
      | some r =>
        rw [State.onView_same s v f r hr]
        exact hf _ _
    · rw [State.onView_other _ _ _ _ hv]
      exact ⟨rfl, rfl⟩
  exact h.congr (by simp) (fun v => (hkeep v).1) (fun v hv => (hkeep v).2 ▸ hv)

theorem State.PinsOk.onView_quiet {s : State} (h : s.PinsOk) (i : Fin 2)
    {f : ViewEnv → ViewWork → ViewWork} (hf : ∀ e w, ViewWork.Quiet w (f e w)) :
    (s.onView i f).PinsOk := h.onView i fun e w => ⟨(hf e w).plan, (hf e w).enabled⟩

theorem State.PinsOk.acceptAperture {s : State} (h : s.PinsOk) (i : Fin 2) (q : ReadReq) :
    (s.acceptAperture i q).PinsOk := by
  have haccept : ∀ {u : State} (rows : List Nat), u.PinsOk →
      (u.onView i fun e w => w.acceptRead e q rows).PinsOk := by
    intro u rows hu
    refine hu.onView i fun e w => ?_
    obtain ⟨hplan, -, henabled, -⟩ := w.acceptRead_spec e q rows
    exact ⟨hplan, henabled⟩
  unfold State.acceptAperture
  split
  · exact h
  · next r hr =>
    dsimp only
    split
    · exact haccept _ (h.openFrame i _ r hr)
    · exact haccept _ h

theorem State.PinsOk.acceptRead {s : State} (h : s.PinsOk) (r : ReadReq) : (s.acceptRead r).PinsOk := by
  unfold State.acceptRead
  split
  · next v _ _ => exact (h.acceptAperture v r).congr (by simp) (by simp) (by simp)
  · exact h
  · exact h
  · exact h

theorem State.PinsOk.acceptWrite {s : State} (h : s.PinsOk) (w : WriteReq) :
    (s.acceptWrite w).PinsOk := by
  refine h.congr (fun i p => ?_) (by simp) (by simp)
  rcases s.acceptWrite_sources w with heq | ⟨j, k, off, heq⟩
  · rw [heq]
  · rw [heq, Source.Kept.pinAt_set _ _ _ (Source.onWrite_kept _ _ _ _ _ _ _)]

/-- A source whose pin counts stay may be set. -/
theorem pinAt_set_of_pinList (ss : Vector Source 4) (j : Fin 4) (b : Source)
    (hb : b.pinList = ss[j].pinList) (i : Fin 4) (p : Nat) :
    pinAt (ss.set j.val b j.isLt) i p = pinAt ss i p := by
  unfold pinAt
  rw [vector_get_set]
  split
  · next h =>
    subst h
    simpa [Source.pinList] using congrArg (fun l => l[p]?) hb
  · rfl

theorem FrameStore.atEnable_pins (st : FrameStore) : st.atEnable.pins = st.pins := by
  unfold FrameStore.atEnable
  split <;> rfl

theorem Source.enable_pinList (src : Source) (now : Word) :
    (src.enable now).pinList = src.pinList := by
  simp [Source.pinList, Source.enable, FrameStore.atEnable_pins, Function.comp_def]

theorem State.sourceSetupResult_unpinned {s : State} {i : Fin 4} {r : SourceRecord}
    (h : s.sourceSetupResult i r = .ok) (st : FrameStore) (hst : st ∈ s.sources[i].stores) :
    st.pins = 0 := by
  unfold State.sourceSetupResult at h
  split_ifs at h with _ _ _ _ hany
  · simpa using fun hp : 0 < st.pins => hany (List.any_eq_true.mpr ⟨st, hst, by simpa using hp⟩)

/-- A source with a pinned store is not set up, so no plan names a store of the source that is. -/
theorem State.PinsOk.setUpSource {s : State} (h : s.PinsOk) {i : Fin 4} {r : SourceRecord}
    (hok : s.sourceSetupResult i r = .ok) : (s.setUpSource i r).PinsOk := by
  have hnone : ∀ (v : Fin 2) (p : Nat), s.views[v].names i p = false := by
    intro v p
    by_contra hn
    rw [Bool.not_eq_false] at hn
    obtain ⟨hcount, hexist, -⟩ := h
    have hst := List.getElem?_eq_getElem (hexist v i p hn)
    have hpins := hcount i p _ hst
    rw [State.sourceSetupResult_unpinned hok _ (List.mem_of_getElem? hst)] at hpins
    exact State.namedBy_ne_zero hn hpins.symm
  have hstores : (s.setUpSource i r).sources = s.sources.set i.val (Source.setUp r) i.isLt := rfl
  refine State.pinsOk_of (fun j p n hn => ?_) (fun v pl hpl x hx => ?_)
    (fun v hv => h.plan_of_not_enabled hv)
  · rw [hstores, pinAt, vector_get_set] at hn
    split at hn
    · next hj =>
      subst hj
      have hfresh : n = 0 := by
        obtain ⟨st, hst, rfl⟩ := Option.map_eq_some_iff.mp hn
        rw [List.eq_of_mem_replicate (List.mem_of_getElem? hst)]
        rfl
      have hzero : ∀ v : Fin 2, planCount s.views[v].plan (j, p) = 0 := by
        intro v
        rw [planCount_eq_oneIf, hnone]
        rfl
      have hnamed : (s.setUpSource j r).namedBy j p = s.namedBy j p := rfl
      rw [hfresh, hnamed, State.namedBy_eq, hzero, hzero]
    · exact h.pinAt_eq hn
  · have hold := h.stores_exist v pl hpl x hx
    have hne : x.1 ≠ i := by
      rintro rfl
      have hnamed := (View.names_iff s.views[v] x.1 x.2).mpr ⟨pl, hpl, hx⟩
      rw [hnone] at hnamed
      cases hnamed
    rw [storeExists, hstores, vector_get_set, if_neg hne]
    exact hold

theorem State.pinsOk_reset {s : State} (hs : s.sources = Vector.replicate 4 Source.reset)
    (hv : s.views = Vector.replicate 2 View.reset) : s.PinsOk := by
  have hplan : ∀ v : Fin 2, s.views[v].plan = none := by
    intro v
    simp [hv, View.reset]
  refine State.pinsOk_of (fun i p n hn => ?_) (fun v pl hpl => ?_) (fun v _ => hplan v)
  · simp [pinAt, hs, Source.reset] at hn
  · rw [hplan] at hpl
    cases hpl

/-! ### Every step -/

theorem State.grantedTo_views (s : State) (e : Fin 64) (g : Requester) (j : Fin 2) :
    (s.grantedTo e g).views[j].plan = s.views[j].plan ∧
    (s.grantedTo e g).views[j].record = s.views[j].record ∧
    (s.grantedTo e g).views[j].enabled = s.views[j].enabled ∧
    (s.grantedTo e g).views[j].held = s.views[j].held := s.grantTo_views e g j

/-- The hand-over of a response keeps what the law judges. -/
theorem State.arrive_views (s : State) (e : Fin 64) (o : OutEntry) (m : MemResp) (j : Fin 2) :
    (s.arrive e o m).views[j].plan = s.views[j].plan ∧
    (s.arrive e o m).views[j].record = s.views[j].record ∧
    (s.arrive e o m).views[j].enabled = s.views[j].enabled ∧
    (s.arrive e o m).views[j].held.length ≤ s.views[j].held.length := by
  unfold State.arrive
  dsimp only
  split
  · exact ⟨rfl, rfl, rfl, le_rfl⟩
  · exact (s.freeOutstanding e).hand_views o.owner m j

@[simp] theorem State.tick_views (s : State) : s.tick.views = s.views := by
  obtain ⟨t, ht⟩ := s.tick_eq_timeBase
  rw [ht]

@[simp] theorem State.initEnded_views (s : State) : s.initEnded.views = s.views := by
  simp [State.initEnded]

@[simp] theorem actZoomSet_views (s : State) (sl : Slot) : (actZoomSet sl s).2.views = s.views := by
  obtain ⟨zm, es, heq⟩ := actZoomSet_eq s sl
  simp [heq]

@[simp] theorem actEventSetup_views (s : State) (sl : Slot) :
    (actEventSetup sl s).2.views = s.views := by
  unfold actEventSetup
  split <;> rfl

theorem keeps_pinsOk : Keeps State.PinsOk where
  queue _ _ h := h
  tick s h := h.congr (by simp) (by simp) (by simp)
  draw _ h := h
  powerOn _ _ := State.pinsOk_reset rfl rfl
  pin _ _ h := h
  sample _ _ _ _ h := h
  beginInit _ _ h := h
  reset _ _ _ _ _ := State.pinsOk_reset rfl rfl
  endInit s _ h := h.congr (by simp) (by simp) (by simp)
  read s r _ _ _ h :=
    State.PinsOk.acceptRead (s := { s with up := { s.up with reads := s.up.reads.tail } }) h r
  write s w _ _ _ h :=
    State.PinsOk.acceptWrite (s := { s with up := { s.up with writes := s.up.writes.tail } }) h w
  arriveRead _ _ h := h
  arriveWrite _ _ h := h
  hold _ v h := h.onView_quiet v fun e w => w.expireHold_quiet e
  idle _ v h := h.onView_quiet v fun e w => w.expireIdle_quiet e
  stall s i _ h := by
    refine h.congr (fun j p => ?_) (by simp) (by simp)
    rw [s.onSource_sources]
    exact pinAt_set_of_pinList s.sources i (s.sources[i].stall i).1 rfl j p
  grant s e g _ _ h := by
    refine h.congr (by simp) (fun v => (s.grantedTo_views e g v).1) (fun v hv => ?_)
    obtain ⟨-, -, henabled, -⟩ := s.grantedTo_views e g v
    rwa [henabled] at hv
  respond s e o m _ _ h := by
    refine h.congr (by simp) (fun v => (s.arrive_views e o m v).1) (fun v hv => ?_)
    obtain ⟨-, -, henabled, -⟩ := s.arrive_views e o m v
    rwa [henabled] at hv
  mark _ h := h
  complete s sl r h := h.congr (by simp) (by simp) (by simp)
  partReset _ _ h := h
  setUpSource _ _ _ hok h := h.setUpSource hok
  enableSource s i _ h :=
    h.congr (pinAt_set_of_pinList s.sources i _ (Source.enable_pinList _ _)) (fun _ => rfl) (fun _ => id)
  disableSource s i _ h :=
    h.congr (pinAt_set_of_pinList s.sources i _ rfl) (fun _ => rfl) (fun _ => id)
  setUpView s v r _ h := by
    have hview : ∀ j : Fin 2, (s.setUpView v r).views[j].plan = s.views[j].plan ∧
        (s.setUpView v r).views[j].enabled = s.views[j].enabled := by
      intro j
      simp only [State.setUpView, vector_get_set]
      split
      · next hj => subst hj; exact ⟨rfl, rfl⟩
      · exact ⟨rfl, rfl⟩
    exact h.congr (fun _ _ => rfl) (fun j => (hview j).1) (fun j hj => (hview j).2 ▸ hj)
  enableView s v _ hoff h := by
    have hview : ∀ j : Fin 2, (s.enableView v).views[j].plan = s.views[j].plan ∧
        ((s.enableView v).views[j].enabled = false → s.views[j].enabled = false) := by
      intro j
      simp only [State.enableView, vector_get_set]
      split
      · next hj =>
        subst hj
        exact ⟨(h.plan_of_not_enabled hoff).symm, fun _ => hoff⟩
      · exact ⟨rfl, id⟩
    exact h.congr (fun _ _ => rfl) (fun j => (hview j).1) (fun j => (hview j).2)
  disableView _ v _ _ h := h.disableView v
  calLoad _ _ _ h := h
  zoomSet s sl _ h := h.congr (by simp) (by simp) (by simp)
  eventSetup s sl _ h := h.congr (by simp) (by simp) (by simp)
  eventForce s sl _ h := h.congr (by simp) (by simp) (by simp)

/-- Settles O51: a plan is exchanged with its pins, and nothing else moves a pin or a plan. -/
theorem pinLawKept : Obligations.PinLawKept := fun _ _ h ht => keeps_pinsOk.step h ht

end Sys2Proof.Machine
end

section
/-! PROOFS. The torn mark (sections 1.5 and 1.7). The mark store by store, what each operation of a source
makes of it, which stores a latched plan can name, and that every step keeps the mark (R17). -/

namespace Sys2Proof.Machine

/-! ### The mark of one store and of one source -/

/-- A store that is FILLING while pinned carries the torn mark. -/
def FrameStore.TornOk (st : FrameStore) : Prop := st.state = .filling → 0 < st.pins → st.torn = true

/-- Every store of a source carries the mark it must. -/
def Source.TornOk (src : Source) : Prop :=
  ∀ (p : Nat) (st : FrameStore), src.stores[p]? = some st → st.TornOk

theorem State.tornOk_iff (s : State) : s.TornOk ↔ ∀ i : Fin 4, s.sources[i].TornOk := Iff.rfl

theorem FrameStore.TornOk.of_not_filling {st : FrameStore} (h : st.state ≠ .filling) : st.TornOk :=
  fun hf => absurd hf h

theorem FrameStore.freed_tornOk (st : FrameStore) : st.freed.TornOk := .of_not_filling (by simp [freed])

/-- The counts of a write leave state, pins and mark. -/
theorem FrameStore.addPixel_same (r : SourceRecord) (off : Nat) (st : FrameStore)
    (px : Nat × Byte × Byte × Byte) :
    (st.addPixel r off px).state = st.state ∧ (st.addPixel r off px).torn = st.torn := by
  unfold FrameStore.addPixel
  dsimp only
  split
  · split <;> exact ⟨rfl, rfl⟩
  · exact ⟨rfl, rfl⟩

theorem FrameStore.progress_same (r : SourceRecord) (off : Nat) (w : WriteReq) (st : FrameStore) :
    (st.progress r off w).state = st.state ∧ (st.progress r off w).torn = st.torn := by
  unfold FrameStore.progress
  dsimp only
  have hfold : ∀ (l : List (Nat × Byte × Byte × Byte)) (x : FrameStore),
      (l.foldl (FrameStore.addPixel r off) x).state = x.state ∧
        (l.foldl (FrameStore.addPixel r off) x).torn = x.torn := by
    intro l
    induction l with
    | nil => exact fun _ => ⟨rfl, rfl⟩
    | cons y l ih =>
      intro x
      obtain ⟨hstate, htorn⟩ := ih (x.addPixel r off y)
      obtain ⟨hs, ht⟩ := x.addPixel_same r off y
      exact ⟨hstate.trans hs, htorn.trans ht⟩
  exact hfold _ _

theorem FrameStore.TornOk.progress {st : FrameStore} (h : st.TornOk) (r : SourceRecord) (off : Nat)
    (w : WriteReq) : (st.progress r off w).TornOk := by
  obtain ⟨hstate, htorn⟩ := st.progress_same r off w
  unfold FrameStore.TornOk
  rw [hstate, htorn, FrameStore.progress_pins]
  exact h

/-! ### The operations of a Source Tracker -/

/-- A change of one store keeps the marks when the changed store carries its own. -/
theorem Source.TornOk.modify {a b : Source} {p : Nat} {f : FrameStore → FrameStore} (h : a.TornOk)
    (hb : b.stores = a.stores.modify p f)
    (hf : ∀ st, a.stores[p]? = some st → st.TornOk → (f st).TornOk) : b.TornOk := by
  intro n st hst
  rw [hb, List.getElem?_modify, Option.map_eq_map, Option.map_eq_some_iff] at hst
  obtain ⟨old, hold, rfl⟩ := hst
  by_cases hp : p = n
  · subst hp
    simpa using hf old hold (h p old hold)
  · simpa [hp] using h n old hold

theorem Source.TornOk.map {a b : Source} {f : FrameStore → FrameStore} (h : a.TornOk)
    (hb : b.stores = a.stores.map f) (hf : ∀ st, st.TornOk → (f st).TornOk) : b.TornOk := by
  intro n st hst
  rw [hb, List.getElem?_map, Option.map_eq_some_iff] at hst
  obtain ⟨old, hold, rfl⟩ := hst
  exact hf old (h n old hold)

theorem Source.TornOk.closeShort {src : Source} (h : src.TornOk) (p : Nat) : (src.closeShort p).TornOk :=
  h.modify (p := p) rfl fun st _ _ => .of_not_filling (by simp [FrameStore.closedShort])

theorem Source.TornOk.shortenFilling {src : Source} (h : src.TornOk) (i : Fin 4) (p : Nat) :
    (src.shortenFilling i p).1.TornOk := by
  unfold Source.shortenFilling
  split
  · split
    · exact h.closeShort p
    · exact h
  · exact h

/-- A store is opened without the mark only while it is unpinned. -/
theorem Source.TornOk.openStore {src : Source} (h : src.TornOk) (p : Nat) (rect : Rect) {torn : Bool}
    (hp : torn = true ∨ src.pinsOf p = 0) : (src.openStore p rect torn).TornOk := by
  refine h.modify (p := p) rfl fun st hst _ _ hpins => ?_
  rcases hp with htorn | hzero
  · exact htorn
  · have hst0 : st.pins = 0 := by simpa [Source.pinsOf, hst] using hzero
    simp [FrameStore.opened, hst0] at hpins

theorem Source.Kept.pinsOf {a b : Source} (h : a.Kept b) (p : Nat) : b.pinsOf p = a.pinsOf p := by
  have := congrArg (fun l => l[p]?) h.pins
  simp only [Source.pinList, List.getElem?_map] at this
  simp only [Source.pinsOf, this]

theorem Source.spareStores_pinsOf {src : Source} {q : Nat} (h : src.spareStores.head? = some q) :
    src.pinsOf q = 0 := by
  have hmem := List.mem_of_mem_head? (by rw [h]; rfl : q ∈ src.spareStores.head?)
  simp only [Source.spareStores, List.mem_filter, Bool.and_eq_true, beq_iff_eq] at hmem
  exact hmem.2.2

theorem Source.TornOk.frameOpen {src : Source} (h : src.TornOk) (i : Fin 4) (rect : Rect) (k : Nat) :
    (src.frameOpen i rect k).1.TornOk := by
  unfold Source.frameOpen
  split
  · exact h
  · next p _ =>
    dsimp only
    have hshort := h.shortenFilling i p
    split
    · next hp => exact hshort.openStore p rect (.inr hp)
    · split
      · next q hq =>
        have hpins : ((src.shortenFilling i p).1.shortenFilling i q).1.pinsOf q = 0 := by
          rw [(Source.shortenFilling_kept _ i q).pinsOf, Source.spareStores_pinsOf hq]
        exact (hshort.shortenFilling i q).openStore q rect (.inr hpins)
      · exact hshort.openStore p rect (.inl rfl)

theorem Source.afterReady_stores (src : Source) (i : Fin 4) (now : Word) (p : Nat) :
    (src.afterReady i now p).1.stores = src.stores := by
  unfold Source.afterReady
  split
  · rfl
  · rfl
  · split <;> rfl
  · rfl
  · rfl

theorem Source.TornOk.closeStore {src : Source} (h : src.TornOk) (i : Fin 4) (now : Word)
    (r : SourceRecord) (p : Nat) : (src.closeStore i now r p).1.TornOk := by
  unfold Source.closeStore
  split
  · exact h
  · split
    · exact h.modify (Source.afterReady_stores _ i now p)
        fun st _ _ => .of_not_filling (by simp [FrameStore.closedReady])
    · exact h.closeShort p

theorem Source.TornOk.progress {src : Source} (h : src.TornOk) (i : Fin 4) (now : Word)
    (r : SourceRecord) (k off : Nat) (w : WriteReq) : (src.progress i now r k off w).1.TornOk := by
  unfold Source.progress
  split
  · exact h
  · next p _ =>
    split
    · have hcount : ({ src with stores := src.stores.modify p (FrameStore.progress r off w) } : Source).TornOk :=
        h.modify rfl fun st _ hst => hst.progress r off w
      dsimp only
      split
      · exact hcount.closeStore i now r p
      · exact hcount
    · exact h

theorem Source.TornOk.onWrite {src : Source} (h : src.TornOk) (i : Fin 4) (active : Option CalSet)
    (now : Word) (k off : Nat) (w : WriteReq) : (src.onWrite i active now k off w).1.TornOk := by
  unfold Source.onWrite
  split
  · exact h
  · split
    · dsimp only
      split
      · exact (h.frameOpen _ _ _).progress _ _ _ _ _ _
      · exact h.progress _ _ _ _ _ _
    · exact h

theorem Source.TornOk.release {src : Source} (h : src.TornOk) (p : Nat) : (src.release p).TornOk := by
  refine h.modify (p := p) rfl fun st _ hst => ?_
  dsimp only
  split
  · exact FrameStore.freed_tornOk _
  · exact fun hf hpins => hst hf (by simp only at hpins; omega)

theorem Source.TornOk.enable {src : Source} (h : src.TornOk) (now : Word) : (src.enable now).TornOk := by
  refine h.map rfl fun st hst => ?_
  unfold FrameStore.atEnable
  split
  · exact FrameStore.freed_tornOk st
  · exact hst

theorem Source.setUp_tornOk (r : SourceRecord) : (Source.setUp r).TornOk := by
  intro p st hst
  rw [List.eq_of_mem_replicate (List.mem_of_getElem? hst)]
  exact .of_not_filling (by simp [FrameStore.fresh])

/-! ### The stores of a plan, when they are pinned -/

/-- A store that may be pinned: FILLING only with the torn mark. -/
def pinnable (ss : Vector Source 4) (x : Fin 4 × Nat) : Prop :=
  ∀ st, ss[x.1].stores[x.2]? = some st → st.state = .filling → st.torn = true

/-- Pinning moves no store's state or mark. -/
theorem pinnable_onStore_pin (ss : Vector Source 4) (x y : Fin 4 × Nat) (h : pinnable ss y) :
    pinnable (onStore Source.pin ss x) y := by
  intro st hst
  unfold onStore at hst
  rw [vector_get_set] at hst
  split at hst
  · next heq =>
    rw [Source.pin, List.getElem?_modify, Option.map_eq_map, Option.map_eq_some_iff] at hst
    obtain ⟨old, hold, rfl⟩ := hst
    simp only [← heq] at hold
    split
    · exact h old hold
    · exact h old hold
  · exact h st hst

theorem forall_tornOk_pin (l : List (Fin 4 × Nat)) (ss : Vector Source 4)
    (hl : ∀ x ∈ l, pinnable ss x) (h : ∀ i : Fin 4, ss[i].TornOk) :
    ∀ i : Fin 4, (l.foldl (onStore Source.pin) ss)[i].TornOk := by
  induction l generalizing ss with
  | nil => exact h
  | cons x l ih =>
    refine ih _ (fun y hy => pinnable_onStore_pin _ _ _ (hl y (List.mem_cons_of_mem _ hy))) ?_
    refine forall_sources_set ?_ h
    exact (h x.1).modify (p := x.2) rfl fun st hst _ hf _ => hl x List.mem_cons_self st hst hf

/-- What the newest READY store of a source is: READY. -/
theorem Source.newestReady_ready {src : Source} {p : Nat} (h : src.newestReady = some p) :
    ∃ st, src.stores[p]? = some st ∧ st.state = .ready := by
  obtain ⟨x, hx, rfl⟩ := Option.map_eq_some_iff.mp h
  obtain ⟨n, -, hn⟩ := List.mem_filterMap.mp (leastSecond_mem _ _ hx)
  split at hn
  · next st hst =>
    split at hn
    · next hready =>
      obtain ⟨o, -, rfl⟩ := Option.map_eq_some_iff.mp hn
      exact ⟨st, hst, hready⟩
    · cases hn
  · cases hn

/-- A side takes its source's newest READY store, or a store of the retiring plan (R96). -/
theorem chooseStore_cases {ss : Vector Source 4} {cur : Option Plan} {i : Fin 4} {q : Nat}
    (h : chooseStore ss cur i = some q) :
    ss[i].newestReady = some q ∨ ∃ p, cur = some p ∧ (i, q) ∈ p.stores := by
  unfold chooseStore at h
  rcases Option.or_eq_some_iff.mp h with hnew | ⟨-, hold⟩
  · exact .inl hnew
  · obtain ⟨p, hp, hq⟩ := Option.bind_eq_some_iff.mp hold
    exact .inr ⟨p, hp, Plan.storeFor_mem p i q hq⟩

/-- A store that an arrangement or a plan may name: the newest READY one of its source, or one of the
retiring plan (R96, R98). -/
def NewOrRetired (ss : Vector Source 4) (cur : Option Plan) (x : Fin 4 × Nat) : Prop :=
  ss[x.1].newestReady = some x.2 ∨ ∃ p, cur = some p ∧ x ∈ p.stores

theorem chosenArrangement_newOrRetired (h : Handoff) (ss : Vector Source 4) (cur : Option Plan)
    (c : SideChoice) (hc : (chosenArrangement h ss cur).fromSide = some c ∨
      (chosenArrangement h ss cur).toSide = some c) : NewOrRetired ss cur (c.source, c.store) := by
  rcases hc with hc | hc
  · obtain ⟨q, hq, rfl⟩ := Option.map_eq_some_iff.mp hc
    exact chooseStore_cases hq
  · obtain ⟨t, -, hc⟩ := Option.bind_eq_some_iff.mp hc
    obtain ⟨q, hq, rfl⟩ := Option.map_eq_some_iff.mp hc
    exact chooseStore_cases hq

theorem frozenArrangement_newOrRetired (h : Handoff) (ss : Vector Source 4) (cur : Option Plan)
    (c : SideChoice) (hc : (frozenArrangement h cur).fromSide = some c ∨
      (frozenArrangement h cur).toSide = some c) : NewOrRetired ss cur (c.source, c.store) := by
  rcases hc with hc | hc
  · obtain ⟨x, hx, rfl⟩ := Option.map_eq_some_iff.mp hc
    obtain ⟨p, hp, hs⟩ := Option.bind_eq_some_iff.mp hx
    exact .inr ⟨p, hp, (Plan.mem_stores _ _).mpr (.inl ⟨x, hs, rfl⟩)⟩
  · obtain ⟨x, hx, rfl⟩ := Option.map_eq_some_iff.mp hc
    obtain ⟨p, hp, hs⟩ := Option.bind_eq_some_iff.mp hx
    exact .inr ⟨p, hp, (Plan.mem_stores _ _).mpr (.inr ⟨x, hs, rfl⟩)⟩

/-- The degrade level drops sides and takes none (R100). -/
theorem Arrangement.degraded_sides (a : Arrangement) (level : DegradeLevel) (c : SideChoice) :
    ((a.degraded level).fromSide = some c → a.fromSide = some c) ∧
      ((a.degraded level).toSide = some c → a.toSide = some c) := by
  unfold Arrangement.degraded
  split
  · split <;> simp
  · simp

theorem arrangement_newOrRetired (h : Handoff) (ss : Vector Source 4) (cur : Option Plan)
    (level : DegradeLevel) (c : SideChoice) (hc : (arrangement h ss cur level).fromSide = some c ∨
      (arrangement h ss cur level).toSide = some c) : NewOrRetired ss cur (c.source, c.store) := by
  unfold arrangement at hc
  obtain ⟨hfrom, hto⟩ := Arrangement.degraded_sides
    (if h.state = .frozen then frozenArrangement h cur else chosenArrangement h ss cur) level c
  have hc' := hc.imp hfrom hto
  split at hc'
  · exact frozenArrangement_newOrRetired h ss cur c hc'
  · exact chosenArrangement_newOrRetired h ss cur c hc'

theorem latchPlan_newOrRetired (r : ViewRecord) (n : Word) (level : DegradeLevel) (cur : Option Plan)
    (ss : Vector Source 4) (active : Option CalSet) (zm : Zoom) (h : Handoff) (x : Fin 4 × Nat)
    (hx : x ∈ (latchPlan r n level cur ss active zm h).stores) : NewOrRetired ss cur x := by
  rw [Plan.mem_stores] at hx
  rcases hx with ⟨sp, hsp, rfl⟩ | ⟨sp, hsp, rfl⟩
  · obtain ⟨c, hc, hl⟩ := Option.bind_eq_some_iff.mp hsp
    obtain ⟨hsource, hstore⟩ := SideChoice.latch_same _ _ _ _ _ _ _ _ hl
    rw [hsource, hstore]
    exact arrangement_newOrRetired h ss cur level c (.inl hc)
  · obtain ⟨c, hc, hl⟩ := Option.bind_eq_some_iff.mp hsp
    obtain ⟨hsource, hstore⟩ := SideChoice.latch_same _ _ _ _ _ _ _ _ hl
    rw [hsource, hstore]
    exact arrangement_newOrRetired h ss cur level c (.inr hc)

/-- Under the law of pins a store of a current plan is pinned, so a FILLING one has the mark. -/
theorem State.PinsOk.pinnable_of_newOrRetired {s : State} (h : s.PinsOk) (ht : s.TornOk) (v : Fin 2)
    {x : Fin 4 × Nat} (hx : NewOrRetired s.sources s.views[v].plan x) : pinnable s.sources x := by
  intro st hst hf
  rcases hx with hnew | ⟨p, hp, hmem⟩
  · obtain ⟨st', hst', hready⟩ := Source.newestReady_ready hnew
    obtain rfl := Option.some.inj (hst.symm.trans hst')
    rw [hready] at hf
    cases hf
  · obtain ⟨hcount, -, -⟩ := h
    have hpins := hcount x.1 x.2 st hst
    have hnamed := State.namedBy_ne_zero ((View.names_iff s.views[v] x.1 x.2).mpr ⟨p, hp, hmem⟩)
    exact ht x.1 x.2 st hst hf (by omega)

/-! ### Every step -/

theorem State.TornOk.congr {s t : State} (h : s.TornOk) (heq : t.sources = s.sources) : t.TornOk := by
  unfold State.TornOk
  rwa [heq]

theorem State.TornOk.openFrame {s : State} (h : s.TornOk) (hp : s.PinsOk) (i : Fin 2) (rows : List Nat)
    (r : ViewRecord) (hr : s.views[i].record = some r) : (s.openFrame i rows).TornOk := by
  obtain ⟨-, -, -, -, -, hsources⟩ := s.openFrame_spec i rows r hr
  rw [State.tornOk_iff, hsources]
  refine forall_sources_onStore (Q := Source.TornOk) (fun _ p h => h.release p) _ _ ?_
  refine forall_tornOk_pin _ _ (fun x hx => ?_) h
  exact hp.pinnable_of_newOrRetired h i (latchPlan_newOrRetired _ _ _ _ _ _ _ _ x hx)

theorem State.TornOk.acceptAperture {s : State} (h : s.TornOk) (hp : s.PinsOk) (i : Fin 2)
    (q : ReadReq) : (s.acceptAperture i q).TornOk := by
  unfold State.acceptAperture
  split
  · exact h
  · next r hr =>
    refine State.TornOk.congr ?_ (State.onView_sources _ _ _)
    split
    · exact h.openFrame hp i _ r hr
    · exact h

theorem State.TornOk.acceptRead {s : State} (h : s.TornOk) (hp : s.PinsOk) (r : ReadReq) :
    (s.acceptRead r).TornOk := by
  rcases s.acceptRead_sources r with heq | ⟨v, -, heq⟩
  · exact h.congr heq
  · exact (h.acceptAperture hp v r).congr heq

theorem State.tornOk_reset {s : State} (h : s.sources = Vector.replicate 4 Source.reset) : s.TornOk := by
  intro i p st hst
  simp [h, Source.reset] at hst

/-- The law of pins and the torn mark go together through a step. -/
theorem keeps_pinsOk_tornOk : Keeps fun s => s.PinsOk ∧ s.TornOk where
  queue _ cs h := ⟨keeps_pinsOk.queue _ cs h.1, h.2⟩
  tick s h := ⟨keeps_pinsOk.tick s h.1, h.2.congr s.tick_sources⟩
  draw s h := ⟨keeps_pinsOk.draw s h.1, h.2⟩
  powerOn s h := ⟨keeps_pinsOk.powerOn s h.1, State.tornOk_reset rfl⟩
  pin s b h := ⟨keeps_pinsOk.pin s b h.1, h.2⟩
  sample s cp clk hph h := ⟨keeps_pinsOk.sample s cp clk hph h.1, h.2⟩
  beginInit s hph h := ⟨keeps_pinsOk.beginInit s hph h.1, h.2⟩
  reset s c ph hph h := ⟨keeps_pinsOk.reset s c ph hph h.1, State.tornOk_reset rfl⟩
  endInit s hph h := ⟨keeps_pinsOk.endInit s hph h.1, h.2.congr s.initEnded_sources⟩
  read s r rs hr hc h := ⟨keeps_pinsOk.read s r rs hr hc h.1,
    State.TornOk.acceptRead (s := { s with up := { s.up with reads := s.up.reads.tail } }) h.2 h.1 r⟩
  write s w ws hw hc h := ⟨keeps_pinsOk.write s w ws hw hc h.1,
    forall_sources_acceptWrite (Q := Source.TornOk)
      (fun _ i active now k off w h => h.onWrite i active now k off w) _ w h.2⟩
  arriveRead s r h := ⟨keeps_pinsOk.arriveRead s r h.1, h.2⟩
  arriveWrite s w h := ⟨keeps_pinsOk.arriveWrite s w h.1, h.2⟩
  hold s v h := ⟨keeps_pinsOk.hold s v h.1, h.2.congr (s.onView_sources v _)⟩
  idle s v h := ⟨keeps_pinsOk.idle s v h.1, h.2.congr (s.onView_sources v _)⟩
  stall s i hdue h := by
    refine ⟨keeps_pinsOk.stall s i hdue h.1, ?_⟩
    rw [State.tornOk_iff, s.onSource_sources]
    exact forall_sources_set (Q := Source.TornOk) (h.2 i) h.2
  grant s e g he hg h := ⟨keeps_pinsOk.grant s e g he hg h.1, h.2.congr (s.grantedTo_sources e g)⟩
  respond s e o m ho hm h := ⟨keeps_pinsOk.respond s e o m ho hm h.1, h.2.congr (s.arrive_sources e o m)⟩
  mark s h := ⟨keeps_pinsOk.mark s h.1, h.2⟩
  complete s sl r h := ⟨keeps_pinsOk.complete s sl r h.1, h.2.congr (s.completeTake_sources sl r)⟩
  partReset s sl h := ⟨keeps_pinsOk.partReset s sl h.1, h.2⟩
  setUpSource s i r hok h := ⟨keeps_pinsOk.setUpSource s i r hok h.1,
    forall_sources_set (Q := Source.TornOk) (Source.setUp_tornOk r) h.2⟩
  enableSource s i hoff h := ⟨keeps_pinsOk.enableSource s i hoff h.1,
    forall_sources_set (Q := Source.TornOk) (Source.TornOk.enable (h.2 i) s.timeBase) h.2⟩
  disableSource s i hact h := ⟨keeps_pinsOk.disableSource s i hact h.1,
    forall_sources_set (Q := Source.TornOk) (h.2 i) h.2⟩
  setUpView s v r hok h := ⟨keeps_pinsOk.setUpView s v r hok h.1, h.2⟩
  enableView s v hr hoff h := ⟨keeps_pinsOk.enableView s v hr hoff h.1, h.2⟩
  disableView s v hr hon h := by
    refine ⟨keeps_pinsOk.disableView s v hr hon h.1, ?_⟩
    rw [State.tornOk_iff, s.disableView_sources v]
    exact forall_sources_onStore (Q := Source.TornOk) (fun _ p h => h.release p) _ _ h.2
  calLoad s sl hok h := ⟨keeps_pinsOk.calLoad s sl hok h.1, h.2⟩
  zoomSet s sl hz h := ⟨keeps_pinsOk.zoomSet s sl hz h.1, h.2.congr (actZoomSet_sources s sl)⟩
  eventSetup s sl hl h := ⟨keeps_pinsOk.eventSetup s sl hl h.1, h.2.congr (actEventSetup_sources s sl)⟩
  eventForce s sl hl h := ⟨keeps_pinsOk.eventForce s sl hl h.1, h.2.congr (s.raise_sources _)⟩

/-- Settles O52: a store is opened without the mark only while unpinned, and a plan pins a FILLING store
only when it is pinned already. -/
theorem tornMarkKept : Obligations.TornMarkKept := by
  intro s t hp ht hstep
  obtain ⟨-, htorn⟩ := keeps_pinsOk_tornOk.step (P := fun s => s.PinsOk ∧ s.TornOk) ⟨hp, ht⟩ hstep
  exact htorn

end Sys2Proof.Machine
end

section
/-! PROOFS. The window table (section 8.2). What requests leave of the records, of the cameras' states and of
the enabled views, how the commands change the table, and that every step keeps each window's flag, its
place, and the table free of overlaps (R139). -/

namespace Sys2Proof.Machine

/-! ### What the table is judged by -/

@[simp] theorem State.grantedTo_frame (s : State) (e : Fin 64) (g : Requester) :
    (s.grantedTo e g).windows = s.windows ∧ (s.grantedTo e g).phase = s.phase ∧
    (s.grantedTo e g).strapCp = s.strapCp := by
  cases g <;> simp [State.grantedTo, State.grantTo]

@[simp] theorem State.arrive_frame (s : State) (e : Fin 64) (o : OutEntry) (m : MemResp) :
    (s.arrive e o m).windows = s.windows ∧ (s.arrive e o m).phase = s.phase ∧
    (s.arrive e o m).strapCp = s.strapCp := by
  unfold State.arrive
  dsimp only
  split <;> simp

@[simp] theorem State.tick_frame (s : State) :
    s.tick.windows = s.windows ∧ s.tick.phase = s.phase ∧ s.tick.strapCp = s.strapCp := by
  obtain ⟨t, ht⟩ := s.tick_eq_timeBase
  simp [ht]

@[simp] theorem actZoomSet_frame (s : State) (sl : Slot) :
    (actZoomSet sl s).2.windows = s.windows ∧ (actZoomSet sl s).2.phase = s.phase ∧
    (actZoomSet sl s).2.strapCp = s.strapCp := by
  obtain ⟨zm, es, heq⟩ := actZoomSet_eq s sl
  simp [heq]

@[simp] theorem actEventSetup_frame (s : State) (sl : Slot) :
    (actEventSetup sl s).2.windows = s.windows ∧ (actEventSetup sl s).2.phase = s.phase ∧
    (actEventSetup sl s).2.strapCp = s.strapCp := by
  unfold actEventSetup
  split <;> exact ⟨rfl, rfl, rfl⟩

/-- A step made store by store keeps what it keeps of one source. -/
theorem onStore_fold_same {α : Type} (g : Source → α) {f : Source → Nat → Source}
    (hf : ∀ src p, g (f src p) = g src) (l : List (Fin 4 × Nat)) (ss : Vector Source 4) (i : Fin 4) :
    g (l.foldl (onStore f) ss)[i] = g ss[i] := by
  induction l generalizing ss with
  | nil => rfl
  | cons x l ih =>
    rw [List.foldl_cons, ih, onStore, vector_get_set]
    split
    · next h => subst h; exact hf _ _
    · rfl

/-- An accepted read pins and releases stores, and changes nothing else of a source. -/
theorem State.acceptRead_source_same {α : Type} (g : Source → α) (hpin : ∀ src p, g (src.pin p) = g src)
    (hrelease : ∀ src p, g (src.release p) = g src) (s : State) (r : ReadReq) (i : Fin 4) :
    g (s.acceptRead r).sources[i] = g s.sources[i] := by
  rcases s.acceptRead_sources r with heq | ⟨v, -, heq⟩
  · rw [heq]
  rw [heq]
  rcases s.acceptAperture_sources v r with heq | ⟨a, b, heq⟩
  · rw [heq]
  rw [heq]
  exact (onStore_fold_same g hrelease _ _ i).trans (onStore_fold_same g hpin _ _ i)

/-- An accepted write keeps the record of every source and whether its windows are active. -/
theorem State.acceptWrite_source_same (s : State) (w : WriteReq) (i : Fin 4) :
    (s.acceptWrite w).sources[i].record = s.sources[i].record ∧
    (s.acceptWrite w).sources[i].state.windowsActive = s.sources[i].state.windowsActive := by
  rcases s.acceptWrite_sources w with heq | ⟨j, k, off, heq⟩
  · rw [heq]
    exact ⟨rfl, rfl⟩
  · have hkept := s.sources[j].onWrite_kept j s.cal.active s.timeBase k off w
    rw [heq, vector_get_set]
    split
    · next h => subst h; exact ⟨hkept.record, hkept.active⟩
    · exact ⟨rfl, rfl⟩

/-- An accepted read keeps the record of every view and whether it is enabled. -/
theorem State.acceptRead_view_same (s : State) (r : ReadReq) (v : Fin 2) :
    (s.acceptRead r).views[v].record = s.views[v].record ∧
    (s.acceptRead r).views[v].enabled = s.views[v].enabled := by
  rcases s.acceptRead_views r with heq | ⟨i, -, heq⟩
  · rw [heq]
    exact ⟨rfl, rfl⟩
  · obtain ⟨hrec, -, hen, hother⟩ := s.acceptAperture_views i r
    rw [heq]
    by_cases hv : v = i
    · subst hv
      exact ⟨hrec, hen⟩
    · rw [hother v hv]
      exact ⟨rfl, rfl⟩

theorem State.onView_quiet_view_same (s : State) (i : Fin 2) {f : ViewEnv → ViewWork → ViewWork}
    (hf : ∀ e w, ViewWork.Quiet w (f e w)) (v : Fin 2) :
    (s.onView i f).views[v].record = s.views[v].record ∧
    (s.onView i f).views[v].enabled = s.views[v].enabled := by
  obtain ⟨-, hrec, hen, -⟩ := s.onView_quiet i f hf v
  exact ⟨hrec, hen⟩

theorem Source.watchdogDue_active {src : Source} {now : Word} (h : src.watchdogDue now = true) :
    src.state.windowsActive = true := by
  unfold Source.watchdogDue at h
  split at h
  · simp only [Bool.and_eq_true, Bool.or_eq_true, beq_iff_eq] at h
    rcases h.1 with hs | hs <;> rw [hs] <;> rfl
  · cases h

/-! ### The windows of one source and of one view -/

theorem Window.ofSource_iff (w : Window) (i : Fin 4) :
    w.ofSource i = true ↔ ∃ k, w.kind = .camera i k := by
  unfold Window.ofSource
  cases w.kind <;> simp [@eq_comm _ i]

theorem Window.ofView_iff (w : Window) (v : Fin 2) : w.ofView v = true ↔ w.kind = .aperture v := by
  unfold Window.ofView
  cases w.kind <;> simp [@eq_comm _ v]

theorem Window.isControl_iff (w : Window) : w.isControl = true ↔ w.kind = .control := by
  unfold Window.isControl
  cases w.kind <;> simp

theorem mem_replaceCamera {i : Fin 4} {r : SourceRecord} {ws : List Window} {w : Window} :
    w ∈ replaceCamera i r ws ↔ (w ∈ ws ∧ w.ofSource i = false) ∨ w ∈ cameraWindows i r := by
  simp [replaceCamera]

theorem mem_replaceAperture {v : Fin 2} {r : ViewRecord} {ws : List Window} {w : Window} :
    w ∈ replaceAperture v r ws ↔ (w ∈ ws ∧ w.ofView v = false) ∨ w = apertureWindow v r := by
  simp [replaceAperture]

theorem mem_cameraWindows {i : Fin 4} {r : SourceRecord} {w : Window} (h : w ∈ cameraWindows i r) :
    w.active = false ∧ (∃ k, w.kind = .camera i k) ∧ ∃ b ∈ r.posBases, w.range = (b, r.storeSize) := by
  rw [cameraWindows, List.mem_mapIdx] at h
  obtain ⟨k, hk, rfl⟩ := h
  exact ⟨rfl, ⟨k, rfl⟩, _, List.getElem_mem hk, rfl⟩

theorem mem_setActive {sel : Window → Bool} {b : Bool} {ws : List Window} {w : Window}
    (h : w ∈ setActive sel b ws) :
    ∃ u ∈ ws, w.range = u.range ∧ w.kind = u.kind ∧ w.active = if sel u then b else u.active := by
  rw [setActive, List.mem_map] at h
  obtain ⟨u, hu, rfl⟩ := h
  refine ⟨u, hu, ?_⟩
  split <;> exact ⟨rfl, rfl, rfl⟩

/-! ### The active flags -/

/-- The flag of a window of a kind is read off the phase, the sources and the views. -/
theorem State.flagOf_congr {s t : State} {w u : Window} (hkind : w.kind = u.kind)
    (hphase : (t.phase == .running) = (s.phase == .running))
    (hsource : ∀ i k, u.kind = .camera i k →
      t.sources[i].state.windowsActive = s.sources[i].state.windowsActive)
    (hview : ∀ v, u.kind = .aperture v → t.views[v].enabled = s.views[v].enabled) :
    t.flagOf w = s.flagOf u := by
  unfold State.flagOf
  rw [hkind]
  split
  · exact hphase
  · next i k hk => exact hsource i k hk
  · next v hv => exact hview v hv

theorem State.FlagsOk.congr {s t : State} (h : s.FlagsOk) (hwindows : t.windows = s.windows)
    (hphase : (t.phase == .running) = (s.phase == .running))
    (hsource : ∀ i : Fin 4, t.sources[i].state.windowsActive = s.sources[i].state.windowsActive)
    (hview : ∀ v : Fin 2, t.views[v].enabled = s.views[v].enabled) : t.FlagsOk := by
  intro w hw
  rw [hwindows] at hw
  rw [h w hw]
  exact (State.flagOf_congr rfl hphase (fun i _ _ => hsource i) (fun v _ => hview v)).symm

/-- A flag set for the windows that a test selects, when it is what those now have. -/
theorem State.FlagsOk.setActive {s t : State} {sel : Window → Bool} {b : Bool} (h : s.FlagsOk)
    (hwindows : t.windows = setActive sel b s.windows)
    (hsel : ∀ u w : Window, sel u = true → w.kind = u.kind → t.flagOf w = b)
    (hrest : ∀ u w : Window, sel u = false → w.kind = u.kind → t.flagOf w = s.flagOf u) : t.FlagsOk := by
  intro w hw
  rw [hwindows] at hw
  obtain ⟨u, hu, -, hkind, hactive⟩ := mem_setActive hw
  rw [hactive]
  cases hs : sel u with
  | true => exact (hsel u w hs hkind).symm
  | false =>
    rw [hrest u w hs hkind]
    exact h u hu

theorem State.flagsOk_control {s : State} {cp : BitVec 4} (hw : s.windows = [controlWindow cp false])
    (hp : s.phase ≠ .running) : s.FlagsOk := by
  intro w hw'
  rw [hw, List.mem_singleton] at hw'
  subst hw'
  simp [State.flagOf, controlWindow, hp]

theorem State.FlagsOk.setUpSource {s : State} (h : s.FlagsOk) (i : Fin 4) (r : SourceRecord) :
    (s.setUpSource i r).FlagsOk := by
  intro w hw
  rcases mem_replaceCamera.mp hw with ⟨hold, hne⟩ | hnew
  · rw [h w hold]
    refine (State.flagOf_congr (s := s) (t := s.setUpSource i r) rfl rfl (fun j k hk => ?_) (fun _ _ => rfl)).symm
    have hji : j ≠ i := by
      rintro rfl
      rw [(w.ofSource_iff j).mpr ⟨k, hk⟩] at hne
      cases hne
    simp only [State.setUpSource, vector_get_set, if_neg hji]
  · obtain ⟨hinactive, ⟨k, hk⟩, -⟩ := mem_cameraWindows hnew
    rw [hinactive]
    simp [State.flagOf, hk, State.setUpSource, Source.setUp, SourceState.windowsActive]

theorem State.viewSetupResult_ok {s : State} {v : Fin 2} {r : ViewRecord}
    (h : s.viewSetupResult v r = .ok) :
    s.views[v].enabled = false ∧ r.inRange = true ∧ s.apertureConflict v r = false := by
  unfold State.viewSetupResult at h
  split_ifs at h with henabled hrange hconflict
  exact ⟨by simpa using henabled, by simpa using hrange, by simpa using hconflict⟩

theorem State.sourceSetupResult_ok {s : State} {i : Fin 4} {r : SourceRecord}
    (h : s.sourceSetupResult i r = .ok) : r.inRange = true ∧ s.sourceConflict i r = false := by
  unfold State.sourceSetupResult at h
  split_ifs at h with _ hrange hconflict
  exact ⟨by simpa using hrange, by simpa using hconflict⟩

/-- The state of a set-up view stays, and so does whether it is enabled. -/
theorem State.setUpView_enabled (s : State) (v : Fin 2) (r : ViewRecord) (j : Fin 2) :
    (s.setUpView v r).views[j].enabled = s.views[j].enabled := by
  simp only [State.setUpView, vector_get_set]
  split
  · next h => subst h; rfl
  · rfl

theorem State.FlagsOk.setUpView {s : State} (h : s.FlagsOk) {v : Fin 2} {r : ViewRecord}
    (hok : s.viewSetupResult v r = .ok) : (s.setUpView v r).FlagsOk := by
  obtain ⟨hoff, -, -⟩ := State.viewSetupResult_ok hok
  intro w hw
  rcases mem_replaceAperture.mp hw with ⟨hold, -⟩ | rfl
  · rw [h w hold]
    exact (State.flagOf_congr (s := s) (t := s.setUpView v r) rfl rfl (fun _ _ _ => rfl)
      (fun j _ => s.setUpView_enabled v r j)).symm
  · exact (s.setUpView_enabled v r v).trans hoff |>.symm

/-- A change of one source with its windows' flag set keeps the flags. -/
theorem State.FlagsOk.switchSource {s t : State} (h : s.FlagsOk) (i : Fin 4) (src : Source)
    (hsources : t.sources = s.sources.set i.val src i.isLt) (hviews : t.views = s.views)
    (hphase : t.phase = s.phase)
    (hwindows : t.windows =
      Machine.setActive (fun w => w.ofSource i) src.state.windowsActive s.windows) :
    t.FlagsOk := by
  refine h.setActive hwindows (fun u w hu hk => ?_) (fun u w hu hk => ?_)
  · obtain ⟨k, hcam⟩ := (u.ofSource_iff i).mp hu
    simp [State.flagOf, hk, hcam, hsources]
  · refine State.flagOf_congr hk (by rw [hphase]) (fun j k hcam => ?_) (fun v _ => by rw [hviews])
    have hji : j ≠ i := by
      rintro rfl
      rw [(u.ofSource_iff j).mpr ⟨k, hcam⟩] at hu
      cases hu
    rw [hsources, vector_get_set, if_neg hji]

/-- A change of one view with its aperture's flag set keeps the flags. -/
theorem State.FlagsOk.switchView {s t : State} (h : s.FlagsOk) (v : Fin 2)
    (hsource : ∀ i : Fin 4, t.sources[i].state.windowsActive = s.sources[i].state.windowsActive)
    (hother : ∀ j, j ≠ v → t.views[j] = s.views[j]) (hphase : t.phase = s.phase)
    (hwindows : t.windows =
      Machine.setActive (fun w => w.ofView v) t.views[v].enabled s.windows) : t.FlagsOk := by
  refine h.setActive hwindows (fun u w hu hk => ?_) (fun u w hu hk => ?_)
  · rw [Window.ofView_iff] at hu
    simp only [State.flagOf, hk, hu]
  · refine State.flagOf_congr hk (by rw [hphase]) (fun i _ _ => hsource i) (fun j haper => ?_)
    have hjv : j ≠ v := by
      rintro rfl
      rw [(u.ofView_iff j).mpr haper] at hu
      cases hu
    rw [hother j hjv]

theorem State.disableView_windows (s : State) (v : Fin 2) :
    (s.disableView v).windows = Machine.setActive (fun w => w.ofView v) false s.windows := by
  simp [State.disableView]

@[simp] theorem State.disableView_phase (s : State) (v : Fin 2) : (s.disableView v).phase = s.phase := by
  simp [State.disableView]

@[simp] theorem State.disableView_strapCp (s : State) (v : Fin 2) :
    (s.disableView v).strapCp = s.strapCp := by
  simp [State.disableView]

@[simp] theorem State.enableView_phase (s : State) (v : Fin 2) : (s.enableView v).phase = s.phase := rfl

theorem keeps_flagsOk : Keeps State.FlagsOk where
  queue _ _ h := h
  tick s h := h.congr (by simp) (by simp) (by simp) (by simp)
  draw _ h := h
  powerOn _ _ := State.flagsOk_control (cp := 0) rfl (by simp [State.powerOn, State.reset])
  pin _ _ h := h
  sample s cp clk hp _ := State.flagsOk_control (cp := cp) rfl hp
  beginInit s hp h := by
    have hp' : (s.phase == .running) = false := by simpa using hp
    exact h.congr rfl (by rw [hp']; rfl) (fun _ => rfl) (fun _ => rfl)
  reset s c ph hp _ := State.flagsOk_control (cp := s.strapCp) rfl hp
  endInit s hp h := by
    have hrun : s.initEnded.phase = .running := by simp [State.initEnded]
    refine State.FlagsOk.setActive (sel := Window.isControl) (b := true) h (by simp [State.initEnded])
      (fun u w hu hk => ?_) (fun u w hu hk => ?_)
    · rw [Window.isControl_iff] at hu
      simp [State.flagOf, hk, hu, hrun]
    · have hnot : u.kind ≠ .control := fun hc => by rw [(u.isControl_iff).mpr hc] at hu; cases hu
      unfold State.flagOf
      rw [hk, State.initEnded_sources, State.initEnded_views]
      split
      · next hc => exact absurd hc hnot
      · rfl
      · rfl
  read s r _ _ _ h := by
    refine h.congr (State.acceptRead_windows _ r) (congrArg (· == .running) (State.acceptRead_phase _ r))
      (fun i => ?_) (fun v => ?_)
    · exact State.acceptRead_source_same (fun src => src.state.windowsActive) (fun _ _ => rfl)
        (fun _ _ => rfl) _ r i
    · exact (State.acceptRead_view_same _ r v).2
  write s w _ _ _ h := by
    refine h.congr (State.acceptWrite_windows _ w) (congrArg (· == .running) (State.acceptWrite_phase _ w))
      (fun i => (State.acceptWrite_source_same _ w i).2) (fun v => ?_)
    exact congrArg (fun vs : Vector View 2 => vs[v].enabled) (State.acceptWrite_views _ w)
  arriveRead _ _ h := h
  arriveWrite _ _ h := h
  hold s v h := h.congr (by simp) (by simp) (by simp)
    fun j => (s.onView_quiet_view_same v (fun e w => w.expireHold_quiet e) j).2
  idle s v h := h.congr (by simp) (by simp) (by simp)
    fun j => (s.onView_quiet_view_same v (fun e w => w.expireIdle_quiet e) j).2
  stall s i hdue h := by
    refine h.congr (by simp) (by simp) (fun j => ?_) (by simp)
    rw [s.onSource_sources, vector_get_set]
    split
    · next hj => subst hj; exact (Source.watchdogDue_active hdue).symm
    · rfl
  grant s e g _ _ h := by
    obtain ⟨hw, hp, -⟩ := s.grantedTo_frame e g
    exact h.congr hw (by rw [hp]) (by simp) fun v => (s.grantedTo_views e g v).2.2.1
  respond s e o m _ _ h := by
    obtain ⟨hw, hp, -⟩ := s.arrive_frame e o m
    exact h.congr hw (by rw [hp]) (by simp) fun v => (s.arrive_views e o m v).2.2.1
  mark _ h := h
  complete s sl r h := h.congr (by simp) (by simp) (by simp) (by simp)
  partReset _ _ h := h
  setUpSource _ i r _ h := h.setUpSource i r
  enableSource _ i _ h := h.switchSource i _ rfl rfl rfl rfl
  disableSource _ i _ h := h.switchSource i _ rfl rfl rfl rfl
  setUpView _ _ _ hok h := h.setUpView hok
  enableView s v _ _ h := by
    have hself : (s.enableView v).views[v].enabled = true := by
      simp only [State.enableView, vector_get_set, if_true]
      rfl
    refine h.switchView v (fun _ => rfl) (fun j hj => ?_) rfl (by rw [hself]; rfl)
    simp only [State.enableView, vector_get_set, if_neg hj]
  disableView s v _ _ h := by
    obtain ⟨-, hstate, -, -⟩ := (s.disableView_views v v).2
    have hself : (s.disableView v).views[v].enabled = false := (View.enabled_eq_false_iff _).mpr hstate
    refine h.switchView v (fun i => ?_) (fun j => (s.disableView_views v j).1) (by simp)
      (by rw [hself, s.disableView_windows])
    rw [s.disableView_sources]
    exact onStore_fold_same (f := Source.release) (fun src => src.state.windowsActive) (fun _ _ => rfl) _ _ i
  calLoad _ _ _ h := h
  zoomSet s sl _ h := h.congr (by simp) (by simp) (by simp) (by simp)
  eventSetup s sl _ h := h.congr (by simp) (by simp) (by simp) (by simp)
  eventForce s sl _ h := h.congr (by simp) (by simp) (by simp) (by simp)

/-- Settles O54: each command that moves a camera's or a view's state moves the flag with it. -/
theorem windowFlagsKept : Obligations.WindowFlagsKept := fun _ _ h ht => keeps_flagsOk.step h ht

end Sys2Proof.Machine
end

section
/-! PROOFS. The places of the windows (section 8.2). A window's place is its range and its kind; the checks of
SOURCE_SETUP and VIEW_SETUP are what keeps a new window clear of every old one (R4, R82). -/

namespace Sys2Proof.Machine

/-! ### Places -/

/-- A window without its active flag. -/
def Window.place (w : Window) : (Nat × Nat) × WindowKind := (w.range, w.kind)

theorem setActive_place (sel : Window → Bool) (b : Bool) (ws : List Window) :
    (setActive sel b ws).map Window.place = ws.map Window.place := by
  rw [setActive, List.map_map]
  refine List.map_congr_left fun w _ => ?_
  simp only [Function.comp_apply]
  split <;> rfl

/-- A window's place is right by the straps and by the record that its kind names. -/
theorem State.Placed.congr {s t : State} {w u : Window} (h : s.Placed u) (hplace : w.place = u.place)
    (hstrap : t.strapCp = s.strapCp)
    (hsource : ∀ i k, u.kind = .camera i k → t.sources[i].record = s.sources[i].record)
    (hview : ∀ v, u.kind = .aperture v → t.views[v].record = s.views[v].record) : t.Placed w := by
  obtain ⟨hrange, hkind⟩ := Prod.mk.injEq _ _ _ _ ▸ hplace
  unfold State.Placed at h ⊢
  rw [hkind]
  split at h
  · rw [hrange, hstrap]
    exact h
  · next i k hk => rw [hrange, hsource i k hk]; exact h
  · next v hv => rw [hrange, hview v hv]; exact h

/-- The places of the windows, the straps and the records are judged. -/
theorem State.TableOk.congr {s t : State} (h : s.TableOk)
    (hwindows : t.windows.map Window.place = s.windows.map Window.place)
    (hstrap : t.strapCp = s.strapCp)
    (hsource : ∀ i : Fin 4, t.sources[i].record = s.sources[i].record)
    (hview : ∀ v : Fin 2, t.views[v].record = s.views[v].record) : t.TableOk := by
  obtain ⟨hpair, hall⟩ := h
  have hpairs : ∀ ws : List Window,
      ws.Pairwise (fun a b => rangesOverlap a.range b.range = false) ↔
        (ws.map Window.place).Pairwise fun a b => rangesOverlap a.1 b.1 = false :=
    fun ws => (List.pairwise_map (f := Window.place) (R := fun a b => rangesOverlap a.1 b.1 = false)).symm
  refine ⟨by rwa [hpairs, hwindows, ← hpairs], fun w hw => ?_⟩
  have hmem : w.place ∈ s.windows.map Window.place := hwindows ▸ List.mem_map_of_mem hw
  obtain ⟨u, hu, hplace⟩ := List.mem_map.mp hmem
  obtain ⟨hbase, hlength, hplaced⟩ := hall u hu
  obtain ⟨hrange, -⟩ := Prod.mk.injEq _ _ _ _ ▸ hplace
  obtain ⟨hb, hl⟩ := Prod.mk.injEq _ _ _ _ ▸ hrange
  exact ⟨hb ▸ hbase, hl ▸ hlength,
    hplaced.congr hplace.symm hstrap (fun i _ _ => hsource i) (fun v _ => hview v)⟩

theorem controlBase_aligned (cp : BitVec 4) : controlBase cp % 4096 = 0 := by
  revert cp
  decide

theorem State.tableOk_control {s : State} (hw : s.windows = [controlWindow s.strapCp false]) :
    s.TableOk := by
  rw [State.TableOk, hw]
  refine ⟨List.pairwise_singleton _ _, fun w hw' => ?_⟩
  rw [List.mem_singleton] at hw'
  subst hw'
  exact ⟨controlBase_aligned s.strapCp, by simp [controlWindow, controlLength], rfl⟩

theorem State.reset_windows :
    State.reset.windows = [controlWindow State.reset.strapCp false] := by
  decide

/-! ### Ranges that do not overlap -/

theorem rangesOverlap_comm (a b : Nat × Nat) : rangesOverlap a b = rangesOverlap b a := by
  unfold rangesOverlap
  rw [Bool.and_comm]

theorem pairwise_of_not_anyOverlap {xs : List (Nat × Nat)} (h : anyOverlap xs = false) :
    xs.Pairwise fun a b => rangesOverlap a b = false := by
  induction xs with
  | nil => exact .nil
  | cons x xs ih =>
    simp only [anyOverlap, Bool.or_eq_false_iff, List.any_eq_false, Bool.not_eq_true] at h
    exact .cons h.1 (ih h.2)

theorem roundUpPage_aligned (n : Nat) : roundUpPage n % 4096 = 0 := Nat.mul_mod_left _ _

/-- New windows clear of each other and of the old ones join the table. -/
theorem pairwise_append_clear {old new : List Window}
    (hold : old.Pairwise fun a b => rangesOverlap a.range b.range = false)
    (hnew : new.Pairwise fun a b => rangesOverlap a.range b.range = false)
    (hclear : ∀ a ∈ old, ∀ b ∈ new, rangesOverlap b.range a.range = false) :
    (old ++ new).Pairwise fun a b => rangesOverlap a.range b.range = false :=
  List.pairwise_append.mpr ⟨hold, hnew, fun a ha b hb => by rw [rangesOverlap_comm]; exact hclear a ha b hb⟩

/-! ### SOURCE_SETUP (R4, R5) -/

theorem cameraWindows_range (i : Fin 4) (r : SourceRecord) :
    (cameraWindows i r).map Window.range = r.posBases.map fun b => (b, r.storeSize) := by
  refine List.ext_getElem? fun k => ?_
  simp only [cameraWindows, List.getElem?_map, List.getElem?_mapIdx, Option.map_map]
  rfl

theorem cameraWindows_pairwise (i : Fin 4) {r : SourceRecord} (h : anyOverlap r.ranges = false) :
    (cameraWindows i r).Pairwise fun a b => rangesOverlap a.range b.range = false := by
  rw [← List.pairwise_map (f := Window.range) (R := fun a b => rangesOverlap a b = false),
    cameraWindows_range]
  have hsub : (r.posBases.map fun b => (b, r.storeSize)).Sublist r.ranges :=
    (List.sublist_append_left _ _).map _
  exact (pairwise_of_not_anyOverlap h).sublist hsub

/-- The range of a camera window is one of its source's ranges. -/
theorem cameraWindows_mem_ranges {i : Fin 4} {r : SourceRecord} {w : Window}
    (h : w ∈ cameraWindows i r) : w.range ∈ r.ranges := by
  obtain ⟨-, -, b, hb, hrange⟩ := mem_cameraWindows h
  rw [hrange]
  exact List.mem_map_of_mem (List.mem_append_left _ hb)

theorem SourceRecord.inRange_aligned {r : SourceRecord} (h : r.inRange = true) {b : Nat}
    (hb : b ∈ r.posBases) : b % 4096 = 0 := by
  simp only [SourceRecord.inRange, Bool.and_eq_true, List.all_eq_true, beq_iff_eq] at h
  exact (h.2 b (List.mem_append_left _ hb)).1

/-- A placed window of another owner is among the ranges that SOURCE_SETUP checks against. -/
theorem State.Placed.mem_otherRanges {s : State} {w : Window} {i : Fin 4} (h : s.Placed w)
    (hother : w.ofSource i = false) :
    w.range ∈ controlPage s.strapCp :: (s.otherRanges i ++ s.apertures) := by
  unfold State.Placed at h
  split at h
  · rw [h]
    exact List.mem_cons_self
  · next j k hk =>
    obtain ⟨r, hr, hrange⟩ := h
    have hji : j ≠ i := by
      rintro rfl
      rw [(w.ofSource_iff j).mpr ⟨k, hk⟩] at hother
      cases hother
    refine List.mem_cons_of_mem _ (List.mem_append_left _ (List.mem_flatMap.mpr ⟨j, List.mem_finRange j, ?_⟩))
    rw [if_neg hji, hr]
    exact hrange
  · next v hv =>
    obtain ⟨r, hr, hrange⟩ := h
    refine List.mem_cons_of_mem _ (List.mem_append_right _ (List.mem_filterMap.mpr ⟨s.views[v], ?_, ?_⟩))
    · simp
    · rw [hr, hrange]
      rfl

theorem State.TableOk.setUpSource {s : State} (h : s.TableOk) {i : Fin 4} {r : SourceRecord}
    (hok : s.sourceSetupResult i r = .ok) : (s.setUpSource i r).TableOk := by
  obtain ⟨hpair, hall⟩ := h
  obtain ⟨hrange, hconflict⟩ := State.sourceSetupResult_ok hok
  simp only [State.sourceConflict, Bool.or_eq_false_iff, List.any_eq_false, Bool.not_eq_true] at hconflict
  obtain ⟨hself, hclear⟩ := hconflict
  refine ⟨pairwise_append_clear (hpair.sublist List.filter_sublist) (cameraWindows_pairwise i hself) ?_,
    fun w hw => ?_⟩
  · intro a ha b hb
    rw [List.mem_filter, Bool.not_eq_true'] at ha
    obtain ⟨-, -, hplaced⟩ := hall a ha.1
    exact hclear _ (cameraWindows_mem_ranges hb) _ (hplaced.mem_otherRanges ha.2)
  · rcases mem_replaceCamera.mp hw with ⟨hold, hother⟩ | hnew
    · obtain ⟨hbase, hlength, hplaced⟩ := hall w hold
      refine ⟨hbase, hlength, hplaced.congr rfl rfl (fun j k hk => ?_) (fun _ _ => rfl)⟩
      have hji : j ≠ i := by
        rintro rfl
        rw [(w.ofSource_iff j).mpr ⟨k, hk⟩] at hother
        cases hother
      simp only [State.setUpSource, vector_get_set, if_neg hji]
    · obtain ⟨-, ⟨k, hk⟩, b, hb, hplace⟩ := mem_cameraWindows hnew
      obtain ⟨hbase, hlength⟩ := Prod.mk.injEq _ _ _ _ ▸ hplace
      refine ⟨hbase ▸ SourceRecord.inRange_aligned hrange hb, hlength ▸ roundUpPage_aligned _, ?_⟩
      unfold State.Placed
      rw [hk]
      refine ⟨r, ?_, cameraWindows_mem_ranges hnew⟩
      simp only [State.setUpSource, vector_get_set, if_true]
      rfl

/-! ### VIEW_SETUP (R82) -/

theorem ViewRecord.inRange_aligned {r : ViewRecord} (h : r.inRange = true) : r.base % 4096 = 0 := by
  simp only [ViewRecord.inRange, Bool.and_eq_true, beq_iff_eq] at h
  tauto

theorem Fin.eq_otherView {v j : Fin 2} (h : j ≠ v) : j = otherView v := by
  revert v j
  decide

/-- A placed window of another owner is among the ranges that VIEW_SETUP checks against. -/
theorem State.Placed.mem_ranges {s : State} {w : Window} {v : Fin 2} (h : s.Placed w)
    (hother : w.ofView v = false) :
    w.range ∈ controlPage s.strapCp ::
      (s.sourceRanges ++ ((s.views[otherView v].record).map ViewRecord.aperture).toList) := by
  unfold State.Placed at h
  split at h
  · rw [h]
    exact List.mem_cons_self
  · next j k hk =>
    obtain ⟨r, hr, hrange⟩ := h
    refine List.mem_cons_of_mem _ (List.mem_append_left _ (List.mem_flatMap.mpr ⟨s.sources[j], ?_, ?_⟩))
    · simp
    · rw [hr]
      exact hrange
  · next j hj =>
    obtain ⟨r, hr, hrange⟩ := h
    have hjv : j ≠ v := by
      rintro rfl
      rw [(w.ofView_iff j).mpr hj] at hother
      cases hother
    refine List.mem_cons_of_mem _ (List.mem_append_right _ ?_)
    simp only [← Fin.eq_otherView hjv, hr, hrange]
    exact List.mem_singleton_self _

theorem State.setUpView_record (s : State) (v : Fin 2) (r : ViewRecord) (j : Fin 2) :
    (s.setUpView v r).views[j].record = if j = v then some r else s.views[j].record := by
  simp only [State.setUpView, vector_get_set]
  split <;> rfl

theorem State.TableOk.setUpView {s : State} (h : s.TableOk) {v : Fin 2} {r : ViewRecord}
    (hok : s.viewSetupResult v r = .ok) : (s.setUpView v r).TableOk := by
  obtain ⟨hpair, hall⟩ := h
  obtain ⟨-, hrange, hconflict⟩ := State.viewSetupResult_ok hok
  simp only [State.apertureConflict, List.any_eq_false, Bool.not_eq_true] at hconflict
  refine ⟨pairwise_append_clear (hpair.sublist List.filter_sublist) (List.pairwise_singleton _ _) ?_,
    fun w hw => ?_⟩
  · intro a ha b hb
    rw [List.mem_filter, Bool.not_eq_true'] at ha
    rw [List.mem_singleton] at hb
    subst hb
    obtain ⟨-, -, hplaced⟩ := hall a ha.1
    exact hconflict _ (hplaced.mem_ranges ha.2)
  · rcases mem_replaceAperture.mp hw with ⟨hold, hother⟩ | rfl
    · obtain ⟨hbase, hlength, hplaced⟩ := hall w hold
      refine ⟨hbase, hlength, hplaced.congr rfl rfl (fun _ _ _ => rfl) (fun j hj => ?_)⟩
      have hjv : j ≠ v := by
        rintro rfl
        rw [(w.ofView_iff j).mpr hj] at hother
        cases hother
      rw [State.setUpView_record, if_neg hjv]
    · exact ⟨ViewRecord.inRange_aligned hrange, roundUpPage_aligned _, r,
        (s.setUpView_record v r v).trans (if_pos rfl), rfl⟩

/-! ### Every step -/

theorem State.enableView_record (s : State) (v j : Fin 2) :
    (s.enableView v).views[j].record = s.views[j].record := by
  simp only [State.enableView, vector_get_set]
  split
  · next h => subst h; rfl
  · rfl

theorem State.disableView_record (s : State) (v j : Fin 2) :
    (s.disableView v).views[j].record = s.views[j].record := by
  obtain ⟨hother, -, -, -, hself⟩ := s.disableView_views v j
  by_cases hj : j = v
  · subst hj
    exact hself
  · rw [hother hj]

theorem keeps_tableOk : Keeps State.TableOk where
  queue _ _ h := h
  tick s h := h.congr (by simp) (by simp) (by simp) (by simp)
  draw _ h := h
  powerOn s _ := State.tableOk_control (s := s.powerOn) State.reset_windows
  pin _ _ h := h
  sample _ _ _ _ _ := State.tableOk_control rfl
  beginInit _ _ h := h
  reset _ _ _ _ _ := State.tableOk_control rfl
  endInit s _ h := h.congr (by simp [State.initEnded, setActive_place]) (by simp [State.initEnded]) (by simp)
    (by simp)
  read s r _ _ _ h := by
    refine h.congr (congrArg _ (State.acceptRead_windows _ r)) (State.acceptRead_strapCp _ r)
      (fun i => ?_) (fun v => (State.acceptRead_view_same _ r v).1)
    exact State.acceptRead_source_same Source.record Source.pin_record Source.release_record _ r i
  write s w _ _ _ h := by
    refine h.congr (congrArg _ (State.acceptWrite_windows _ w)) (State.acceptWrite_strapCp _ w)
      (fun i => (State.acceptWrite_source_same _ w i).1) (fun v => ?_)
    exact congrArg (fun vs : Vector View 2 => vs[v].record) (State.acceptWrite_views _ w)
  arriveRead _ _ h := h
  arriveWrite _ _ h := h
  hold s v h := h.congr (by simp) (by simp) (by simp)
    fun j => (s.onView_quiet_view_same v (fun e w => w.expireHold_quiet e) j).1
  idle s v h := h.congr (by simp) (by simp) (by simp)
    fun j => (s.onView_quiet_view_same v (fun e w => w.expireIdle_quiet e) j).1
  stall s i _ h := by
    refine h.congr (by simp) (by simp) (fun j => ?_) (by simp)
    rw [s.onSource_sources, vector_get_set]
    split
    · next hj => subst hj; rfl
    · rfl
  grant s e g _ _ h := by
    obtain ⟨hw, -, hcp⟩ := s.grantedTo_frame e g
    exact h.congr (congrArg _ hw) hcp (by simp) fun v => (s.grantedTo_views e g v).2.1
  respond s e o m _ _ h := by
    obtain ⟨hw, -, hcp⟩ := s.arrive_frame e o m
    exact h.congr (congrArg _ hw) hcp (by simp) fun v => (s.arrive_views e o m v).2.1
  mark _ h := h
  complete s sl r h := h.congr (by simp) (by simp) (by simp) (by simp)
  partReset _ _ h := h
  setUpSource _ _ _ hok h := h.setUpSource hok
  enableSource s i _ h := by
    refine h.congr (setActive_place _ _ _) rfl (fun j => ?_) (fun _ => rfl)
    simp only [State.enableSource, vector_get_set]
    split
    · next hj => subst hj; rfl
    · rfl
  disableSource s i _ h := by
    refine h.congr (setActive_place _ _ _) rfl (fun j => ?_) (fun _ => rfl)
    simp only [State.disableSource, vector_get_set]
    split
    · next hj => subst hj; rfl
    · rfl
  setUpView _ _ _ hok h := h.setUpView hok
  enableView s v _ _ h := h.congr (setActive_place _ _ _) rfl (fun _ => rfl) (s.enableView_record v)
  disableView s v _ _ h := by
    refine h.congr (by rw [s.disableView_windows, setActive_place]) (by simp) (fun i => ?_)
      (s.disableView_record v)
    rw [s.disableView_sources]
    exact onStore_fold_same (f := Source.release) Source.record Source.release_record _ _ i
  calLoad _ _ _ h := h
  zoomSet s sl _ h := h.congr (by simp) (by simp) (by simp) (by simp)
  eventSetup s sl _ h := h.congr (by simp) (by simp) (by simp) (by simp)
  eventForce s sl _ h := h.congr (by simp) (by simp) (by simp) (by simp)

/-- Settles O53: a window comes only with a record whose ranges were checked against all that stand. -/
theorem windowTableKept : Obligations.WindowTableKept := fun _ _ h ht => keeps_tableOk.step h ht

end Sys2Proof.Machine
end

section
/-! PROOFS. The bounds of queues, counts and ages (chapters 7, 9 and 10). A queue grows only at an acceptance
that found room in it, the consumed count and the next-slot pointer move together, and no age passes its
limit (R127, R153, R156, R166). -/

namespace Sys2Proof.Machine

/-! ### At most 8 held reads a view (R127) -/

theorem State.HeldBounded.congr {s t : State} (h : s.HeldBounded)
    (hheld : ∀ v : Fin 2, t.views[v].held.length ≤ s.views[v].held.length) : t.HeldBounded :=
  fun v => (hheld v).trans (h v)

theorem State.HeldBounded.onView {s : State} (h : s.HeldBounded) (i : Fin 2)
    {f : ViewEnv → ViewWork → ViewWork} (hf : ∀ e w, ViewWork.Quiet w (f e w)) :
    (s.onView i f).HeldBounded := by
  refine h.congr fun v => ?_
  obtain ⟨-, -, -, hheld⟩ := s.onView_quiet i f hf v
  exact hheld

/-- A read is accepted by its view only when that holds fewer than 8. -/
theorem State.HeldBounded.acceptRead {s : State} {r : ReadReq} (h : s.HeldBounded)
    (hroom : s.canAcceptRead r = true) : (s.acceptRead r).HeldBounded := by
  intro j
  rcases s.acceptRead_views r with heq | ⟨v, hv, heq⟩
  · rw [heq]
    exact h j
  · obtain ⟨-, hlen, -, hother⟩ := s.acceptAperture_views v r
    rw [heq]
    by_cases hj : j = v
    · subst hj
      simp only [State.canAcceptRead, hv, decide_eq_true_eq] at hroom
      omega
    · rw [hother j hj]
      exact h j

theorem State.heldBounded_reset {s : State} (hv : s.views = Vector.replicate 2 View.reset) :
    s.HeldBounded := by
  intro v
  simp [hv, View.reset]

theorem State.heldBounded_set {s t : State} {v : Fin 2} {x : View} (h : s.HeldBounded)
    (hviews : t.views = s.views.set v.val x v.isLt) (hx : x.held.length ≤ s.views[v].held.length) :
    t.HeldBounded := by
  refine h.congr fun j => ?_
  rw [hviews, vector_get_set]
  split
  · next hj => subst hj; exact hx
  · exact le_rfl

theorem keeps_heldBounded : Keeps State.HeldBounded where
  queue _ _ h := h
  tick s h := h.congr (by simp)
  draw _ h := h
  powerOn _ _ := State.heldBounded_reset rfl
  pin _ _ h := h
  sample _ _ _ _ h := h
  beginInit _ _ h := h
  reset _ _ _ _ _ := State.heldBounded_reset rfl
  endInit s _ h := h.congr (by simp)
  read s r _ _ hroom h :=
    State.HeldBounded.acceptRead (s := { s with up := { s.up with reads := s.up.reads.tail } }) h hroom
  write s w _ _ _ h := h.congr fun v =>
    (congrArg (fun vs : Vector View 2 => vs[v].held.length) (State.acceptWrite_views _ w)).le
  arriveRead _ _ h := h
  arriveWrite _ _ h := h
  hold _ v h := h.onView v fun e w => w.expireHold_quiet e
  idle _ v h := h.onView v fun e w => w.expireIdle_quiet e
  stall s i _ h := h.congr (by simp)
  grant s e g _ _ h := h.congr fun v => (congrArg List.length (s.grantedTo_views e g v).2.2.2).le
  respond s e o m _ _ h := h.congr fun v => (s.arrive_views e o m v).2.2.2
  mark _ h := h
  complete s sl r h := h.congr (by simp)
  partReset _ _ h := h
  setUpSource _ _ _ _ h := h
  enableSource _ _ _ h := h
  disableSource _ _ _ h := h
  setUpView _ _ _ _ h := State.heldBounded_set h rfl le_rfl
  enableView _ _ _ _ h := State.heldBounded_set h rfl le_rfl
  disableView s v _ _ h := by
    refine h.congr fun j => ?_
    obtain ⟨hother, -, -, hheld, -⟩ := s.disableView_views v j
    by_cases hj : j = v
    · subst hj
      simp only [hheld, List.length_nil, Nat.zero_le]
    · rw [hother hj]
  calLoad _ _ _ h := h
  zoomSet s sl _ h := h.congr (by simp)
  eventSetup s sl _ h := h.congr (by simp)
  eventForce s sl _ h := h.congr (by simp)

/-! ### At most 16 reads and 16 writes in the pass-through queue (R153) -/

@[simp] theorem State.grantedTo_passQueue_of_ne {s : State} {e : Fin 64} {g : Requester} (hg : g ≠ .pass) :
    (s.grantedTo e g).passQueue = s.passQueue := by
  cases g with
  | pass => exact absurd rfl hg
  | view v => simp [State.grantedTo, State.grantTo]
  | report => simp [State.grantedTo, State.grantTo]
  | cal => simp [State.grantedTo, State.grantTo]

/-- A grant takes from the pass-through queue at most. -/
theorem State.grantedTo_passQueue (s : State) (e : Fin 64) (g : Requester) :
    (s.grantedTo e g).passQueue.Sublist s.passQueue := by
  by_cases hg : g = .pass
  · subst hg
    show (s.grantPass e).passQueue.Sublist s.passQueue
    unfold State.grantPass
    split
    · next q qs hq =>
      rw [hq]
      exact List.sublist_cons_self q qs
    · exact List.Sublist.refl _
  · rw [State.grantedTo_passQueue_of_ne hg]

@[simp] theorem State.arrive_passQueue (s : State) (e : Fin 64) (o : OutEntry) (m : MemResp) :
    (s.arrive e o m).passQueue = s.passQueue := by
  unfold State.arrive
  dsimp only
  split <;> simp

@[simp] theorem State.tick_passQueue (s : State) : s.tick.passQueue = s.passQueue := by
  obtain ⟨t, ht⟩ := s.tick_eq_timeBase
  rw [ht]

@[simp] theorem actZoomSet_passQueue (s : State) (sl : Slot) :
    (actZoomSet sl s).2.passQueue = s.passQueue := by
  obtain ⟨zm, es, heq⟩ := actZoomSet_eq s sl
  simp [heq]

@[simp] theorem actEventSetup_passQueue (s : State) (sl : Slot) :
    (actEventSetup sl s).2.passQueue = s.passQueue := by
  unfold actEventSetup
  split <;> rfl

@[simp] theorem State.disableView_passQueue (s : State) (v : Fin 2) :
    (s.disableView v).passQueue = s.passQueue := by
  simp [State.disableView]

/-- An accepted read either goes to the view of its aperture or joins the pass-through queue (R140). -/
theorem State.acceptRead_passQueue (s : State) (r : ReadReq) :
    (s.acceptRead r).passQueue = s.passQueue ∨
      (s.apertureAt r.addr = none ∧ ∃ r', (s.acceptRead r).passQueue = s.passQueue ++ [.read r']) := by
  unfold State.acceptRead
  split
  · exact .inl (by simp)
  all_goals
    next hw => exact .inr ⟨by simp only [State.apertureAt, hw], _, rfl⟩

/-- An accepted write is either refused by the aperture or joins the pass-through queue (R140, R147). -/
theorem State.acceptWrite_passQueue (s : State) (w : WriteReq) :
    (s.acceptWrite w).passQueue = s.passQueue ∨
      (s.apertureAt w.addr = none ∧ ∃ w', (s.acceptWrite w).passQueue = s.passQueue ++ [.write w']) := by
  unfold State.acceptWrite
  split
  · exact .inl (by simp)
  · next hw => exact .inr ⟨by simp only [State.apertureAt, hw], _, by simp [State.cameraWrite]; rfl⟩
  · next hw => exact .inr ⟨by simp only [State.apertureAt, hw], w, by simp⟩
  · next hw => exact .inr ⟨by simp only [State.apertureAt, hw], w, rfl⟩

theorem State.PassBounded.congr {s t : State} (h : s.PassBounded)
    (hq : t.passQueue.Sublist s.passQueue) : t.PassBounded :=
  ⟨(hq.countP_le).trans h.1, (hq.countP_le).trans h.2⟩

theorem State.PassBounded.acceptRead {s : State} {r : ReadReq} (h : s.PassBounded)
    (hroom : s.canAcceptRead r = true) : (s.acceptRead r).PassBounded := by
  rcases s.acceptRead_passQueue r with heq | ⟨hnone, r', heq⟩
  · exact h.congr (by rw [heq])
  · simp only [State.canAcceptRead, hnone, decide_eq_true_eq] at hroom
    obtain ⟨-, hwrites⟩ := h
    simp only [State.queuedReads] at hroom
    simp only [State.queuedWrites] at hwrites
    simp only [State.PassBounded, State.queuedReads, State.queuedWrites, heq, List.countP_append,
      List.countP_singleton, isReadRequest, Bool.not_true, if_true, Bool.false_eq_true, if_false]
    exact ⟨hroom, hwrites⟩

theorem State.PassBounded.acceptWrite {s : State} {w : WriteReq} (h : s.PassBounded)
    (hroom : s.canAcceptWrite w = true) : (s.acceptWrite w).PassBounded := by
  rcases s.acceptWrite_passQueue w with heq | ⟨hnone, w', heq⟩
  · exact h.congr (by rw [heq])
  · simp only [State.canAcceptWrite, hnone, decide_eq_true_eq] at hroom
    obtain ⟨hreads, -⟩ := h
    simp only [State.queuedWrites] at hroom
    simp only [State.queuedReads] at hreads
    simp only [State.PassBounded, State.queuedReads, State.queuedWrites, heq, List.countP_append,
      List.countP_singleton, isReadRequest, Bool.not_false, if_true, Bool.false_eq_true, if_false]
    exact ⟨hreads, hroom⟩

theorem keeps_passBounded : Keeps State.PassBounded where
  queue _ _ h := h
  tick s h := h.congr (by simp)
  draw _ h := h
  powerOn s _ := ⟨Nat.zero_le _, Nat.zero_le _⟩
  pin _ _ h := h
  sample _ _ _ _ h := h
  beginInit _ _ h := h
  reset _ _ _ _ h := h
  endInit s _ h := h.congr (by simp [State.initEnded])
  read s r _ _ hroom h :=
    State.PassBounded.acceptRead (s := { s with up := { s.up with reads := s.up.reads.tail } }) h hroom
  write s w _ _ hroom h :=
    State.PassBounded.acceptWrite (s := { s with up := { s.up with writes := s.up.writes.tail } }) h hroom
  arriveRead _ _ h := h
  arriveWrite _ _ h := h
  hold s v h := h.congr (by simp)
  idle s v h := h.congr (by simp)
  stall s i _ h := h.congr (by simp)
  grant s e g _ _ h := h.congr (s.grantedTo_passQueue e g)
  respond s e o m _ _ h := h.congr (by simp)
  mark _ h := h
  complete s sl r h := h.congr (by simp)
  partReset _ _ h := h
  setUpSource _ _ _ _ h := h
  enableSource _ _ _ h := h
  disableSource _ _ _ h := h
  setUpView _ _ _ _ h := h
  enableView _ _ _ _ h := h
  disableView s v _ _ h := h.congr (by simp)
  calLoad _ _ _ h := h
  zoomSet s sl _ h := h.congr (by simp)
  eventSetup s sl _ h := h.congr (by simp)
  eventForce s sl _ h := h.congr (by simp)

/-! ### The consumed count and the next-slot pointer (R166) -/

theorem CommandUnit.InStep.congr {c d : CommandUnit} (h : c.InStep) (hnext : d.next = c.next)
    (hconsumed : d.consumed = c.consumed) : d.InStep := by
  unfold CommandUnit.InStep
  rw [hnext, hconsumed]
  exact h

/-- The copy of a write moves neither the pointer nor the count. -/
theorem CommandUnit.copySlot_same (bs : List (Nat × Byte)) (x : CommandUnit × List Event) (n : Fin 32) :
    (CommandUnit.copySlot bs x n).1.next = x.1.next ∧
    (CommandUnit.copySlot bs x n).1.consumed = x.1.consumed := by
  unfold CommandUnit.copySlot
  dsimp only
  split
  · exact ⟨rfl, rfl⟩
  · split
    · exact ⟨rfl, rfl⟩
    all_goals split <;> exact ⟨rfl, rfl⟩

theorem CommandUnit.copy_same (c : CommandUnit) (bs : List (Nat × Byte)) :
    (c.copy bs).1.next = c.next ∧ (c.copy bs).1.consumed = c.consumed := by
  have hfold : ∀ (l : List (Fin 32)) (x : CommandUnit × List Event),
      (l.foldl (CommandUnit.copySlot bs) x).1.next = x.1.next ∧
      (l.foldl (CommandUnit.copySlot bs) x).1.consumed = x.1.consumed := by
    intro l
    induction l with
    | nil => exact fun _ => ⟨rfl, rfl⟩
    | cons n l ih =>
      intro x
      obtain ⟨hnext, hconsumed⟩ := ih (CommandUnit.copySlot bs x n)
      obtain ⟨hn, hc⟩ := CommandUnit.copySlot_same bs x n
      exact ⟨hnext.trans hn, hconsumed.trans hc⟩
  exact hfold _ (c, [])

theorem CommandUnit.InStep.complete {c : CommandUnit} (h : c.InStep) (sl : Slot) (r : CmdResult) :
    (c.complete sl r).InStep := by
  unfold CommandUnit.InStep at h ⊢
  have hcount := c.consumed.isLt
  have hnext := c.next.isLt
  have hone : (1 : Word).toNat = 1 := rfl
  simp only [CommandUnit.complete, BitVec.toNat_add, Fin.val_add, hone, Fin.val_one] at h ⊢
  omega

theorem State.acceptWrite_cmd_same (s : State) (w : WriteReq) :
    (s.acceptWrite w).cmd.next = s.cmd.next ∧ (s.acceptWrite w).cmd.consumed = s.cmd.consumed := by
  unfold State.acceptWrite
  split
  · exact ⟨by simp, by simp⟩
  · exact ⟨by simp, by simp⟩
  · next b _ _ _ =>
    have hcopy : ∀ off, (s.copyControl off w).cmd = (s.cmd.copy (copiedBytes off w)).1 := by
      intro off
      simp [State.copyControl]
    rw [State.forward_cmd, hcopy]
    exact s.cmd.copy_same _
  · exact ⟨rfl, rfl⟩

@[simp] theorem State.grantedTo_cmd (s : State) (e : Fin 64) (g : Requester) :
    (s.grantedTo e g).cmd = s.cmd := by
  cases g <;> simp [State.grantedTo, State.grantTo]

@[simp] theorem State.arrive_cmd (s : State) (e : Fin 64) (o : OutEntry) (m : MemResp) :
    (s.arrive e o m).cmd = s.cmd := by
  unfold State.arrive
  dsimp only
  split <;> simp

@[simp] theorem State.tick_cmd (s : State) : s.tick.cmd = s.cmd := by
  obtain ⟨t, ht⟩ := s.tick_eq_timeBase
  rw [ht]

@[simp] theorem actZoomSet_cmd (s : State) (sl : Slot) : (actZoomSet sl s).2.cmd = s.cmd := by
  obtain ⟨zm, es, heq⟩ := actZoomSet_eq s sl
  simp [heq]

@[simp] theorem State.disableView_cmd (s : State) (v : Fin 2) : (s.disableView v).cmd = s.cmd := by
  simp [State.disableView]

@[simp] theorem State.completeTake_cmd (s : State) (sl : Slot) (r : CmdResult) :
    (s.completeTake sl r).cmd = s.cmd.complete sl r := by
  unfold State.completeTake
  dsimp only
  split <;> simp

theorem CommandUnit.reset_inStep : CommandUnit.reset.InStep := rfl

theorem keeps_inStep : Keeps fun s => s.cmd.InStep where
  queue _ _ h := h
  tick s h := h.congr (by simp) (by simp)
  draw _ h := h
  powerOn _ _ := CommandUnit.reset_inStep
  pin _ _ h := h
  sample _ _ _ _ h := h
  beginInit _ _ h := h
  reset _ _ _ _ _ := CommandUnit.reset_inStep
  endInit s _ h := h.congr (by simp [State.initEnded]) (by simp [State.initEnded])
  read s r _ _ _ h := h.congr (congrArg CommandUnit.next (State.acceptRead_cmd _ r))
    (congrArg CommandUnit.consumed (State.acceptRead_cmd _ r))
  write s w _ _ _ h := h.congr (State.acceptWrite_cmd_same _ w).1 (State.acceptWrite_cmd_same _ w).2
  arriveRead _ _ h := h
  arriveWrite _ _ h := h
  hold s v h := h.congr (by simp) (by simp)
  idle s v h := h.congr (by simp) (by simp)
  stall s i _ h := h.congr (by simp) (by simp)
  grant s e g _ _ h := h.congr (by simp) (by simp)
  respond s e o m _ _ h := h.congr (by simp) (by simp)
  mark _ h := h
  complete s sl r h := by
    rw [State.completeTake_cmd]
    exact h.complete sl r
  partReset _ sl h := h.complete sl .ok
  setUpSource _ _ _ _ h := h
  enableSource _ _ _ h := h
  disableSource _ _ _ h := h
  setUpView _ _ _ _ h := h
  enableView _ _ _ _ h := h
  disableView s v _ _ h := h.congr (by simp) (by simp)
  calLoad _ _ _ h := h
  zoomSet s sl _ h := h.congr (by simp) (by simp)
  eventSetup s sl hl h := by
    simp only [actEventSetup, if_pos hl]
    exact h
  eventForce s sl _ h := h.congr (by simp) (by simp)

/-! ### Ages of at most 64 (R156) -/

theorem nextAge_le (granted offering : Bool) (age : Nat) : nextAge granted offering age ≤ agedAt := by
  unfold nextAge
  split_ifs
  · exact Nat.zero_le _
  · exact Nat.min_le_left _ _
  · exact Nat.zero_le _

theorem State.arbAfter_agesOk (s : State) (g : Requester) : (s.arbAfter g).AgesOk := by
  refine ⟨fun v => ?_, nextAge_le _ _ _, nextAge_le _ _ _⟩
  simp only [State.arbAfter, Fin.getElem_fin, Vector.getElem_ofFn]
  exact nextAge_le _ _ _

theorem State.settleAges_agesOk {s : State} (h : s.arb.AgesOk) : s.settleAges.arb.AgesOk := by
  obtain ⟨hview, hreport, hcal⟩ := h
  refine ⟨fun v => ?_, ?_, ?_⟩
  · simp only [State.settleAges, Fin.getElem_fin, Vector.getElem_ofFn]
    split
    · exact hview v
    · exact Nat.zero_le _
  · simp only [State.settleAges]
    split
    · exact hreport
    · exact Nat.zero_le _
  · simp only [State.settleAges]
    split
    · exact hcal
    · exact Nat.zero_le _

theorem Arbiter.AgesOk.congr {a b : Arbiter} (h : a.AgesOk) (heq : b = a) : b.AgesOk := heq ▸ h

theorem State.acceptRead_agesOk {s : State} (r : ReadReq) (h : s.arb.AgesOk) :
    (s.acceptRead r).arb.AgesOk := by
  unfold State.acceptRead
  split
  · exact State.settleAges_agesOk (h.congr (by simp))
  · exact h
  · exact h
  · exact h

theorem State.hand_agesOk {s : State} (o : Owner) (m : MemResp) (h : s.arb.AgesOk) :
    (s.hand o m).arb.AgesOk := by
  cases o with
  | forwarded tag num isRead beats => exact h
  | fetch v n sp => exact State.settleAges_agesOk (h.congr (by simp))
  | load sp => exact h.congr (State.loadResponse_arb _ _ _)
  | recordWrite => exact h
  | mirrorWrite => exact h

theorem Arbiter.reset_agesOk : Arbiter.reset.AgesOk := by
  refine ⟨fun v => ?_, Nat.zero_le _, Nat.zero_le _⟩
  simp [Arbiter.reset]

theorem keeps_agesOk : Keeps fun s => s.arb.AgesOk where
  queue _ _ h := h
  tick s h := by
    obtain ⟨t, ht⟩ := s.tick_eq_timeBase
    rw [ht]
    exact h
  draw _ h := h
  powerOn _ _ := Arbiter.reset_agesOk
  pin _ _ h := h
  sample _ _ _ _ h := h
  beginInit _ _ h := h
  reset _ _ _ _ _ := Arbiter.reset_agesOk
  endInit s _ h := h.congr (by simp [State.initEnded])
  read _ r _ _ _ h := State.acceptRead_agesOk r h
  write _ w _ _ _ h := h.congr (State.acceptWrite_arb _ w)
  arriveRead _ _ h := h
  arriveWrite _ _ h := h
  hold s v h := h.congr (by simp)
  idle s v h := h.congr (by simp)
  stall s i _ h := h.congr (by simp)
  grant s e g _ _ _ := s.arbAfter_agesOk g
  respond s e o m _ _ h :=
    State.arrive_keeps (fun s => s.arb.AgesOk) s e o m h (State.hand_agesOk o.owner m h)
  mark _ h := h
  complete s sl r h := h.congr (by simp)
  partReset _ _ h := h
  setUpSource _ _ _ _ h := h
  enableSource _ _ _ h := h
  disableSource _ _ _ h := h
  setUpView _ _ _ _ h := h
  enableView _ _ _ _ h := h
  disableView s v _ _ h := State.settleAges_agesOk (h.congr (by simp))
  calLoad _ _ _ h := h
  zoomSet s sl _ h := by
    obtain ⟨zm, es, heq⟩ := actZoomSet_eq s sl
    rw [heq]
    exact h.congr (by simp)
  eventSetup s sl hl h := by
    simp only [actEventSetup, if_pos hl]
    exact h
  eventForce s sl _ h := h.congr (by simp)

/-! ### The statement -/

/-- Settles O55: the four bounds, each kept by every step on its own. -/
theorem boundsKept : Obligations.BoundsKept := fun _ _ ht =>
  ⟨fun h => keeps_heldBounded.step h ht, fun h => keeps_passBounded.step h ht,
    fun h => keeps_inStep.step h ht, fun h => keeps_agesOk.step h ht⟩

end Sys2Proof.Machine
end

section
/-! PROOFS. The ranges of calibration sets, zoom and corrections (chapters 2 to 5). Only a lead opening moves
the Zoom and Hand-off Controllers, ZOOM_SET the zoom target, and a load's end the staged set; each leaves
what it writes in range (R37, R42, R49, R57). -/

namespace Sys2Proof.Machine

/-! ### The three controllers through a step -/

/-- The Calibration Store, the Zoom Controller and the Hand-off Controller are as they were. -/
structure State.SameControl (s t : State) : Prop where
  cal : t.cal = s.cal
  zoom : t.zoom = s.zoom
  handoff : t.handoff = s.handoff

theorem State.SameControl.refl (s : State) : s.SameControl s := ⟨rfl, rfl, rfl⟩

theorem State.SameControl.trans {s t u : State} (h : s.SameControl t) (k : t.SameControl u) :
    s.SameControl u := ⟨k.cal.trans h.cal, k.zoom.trans h.zoom, k.handoff.trans h.handoff⟩

theorem State.tick_sameControl (s : State) : s.SameControl s.tick := by
  obtain ⟨t, ht⟩ := s.tick_eq_timeBase
  rw [ht]
  exact ⟨rfl, rfl, rfl⟩

theorem State.onView_sameControl (s : State) (i : Fin 2) (f : ViewEnv → ViewWork → ViewWork) :
    s.SameControl (s.onView i f) := ⟨by simp, by simp, by simp⟩

theorem State.onSource_sameControl (s : State) (i : Fin 4) (f : Source → Source × List Event) :
    s.SameControl (s.onSource i f) := ⟨by simp, by simp, by simp⟩

theorem State.raise_sameControl (s : State) (e : Event) : s.SameControl (s.raise e) :=
  ⟨by simp, by simp, by simp⟩

theorem State.initEnded_sameControl (s : State) : s.SameControl s.initEnded :=
  ⟨by simp [State.initEnded], by simp [State.initEnded], by simp [State.initEnded]⟩

theorem State.completeTake_sameControl (s : State) (sl : Slot) (r : CmdResult) :
    s.SameControl (s.completeTake sl r) := ⟨by simp, by simp, by simp⟩

theorem State.disableView_sameControl (s : State) (v : Fin 2) : s.SameControl (s.disableView v) :=
  ⟨by simp [State.disableView], by simp [State.disableView], by simp [State.disableView]⟩

theorem actEventSetup_sameControl (s : State) (sl : Slot) : s.SameControl (actEventSetup sl s).2 := by
  unfold actEventSetup
  split <;> exact ⟨rfl, rfl, rfl⟩

theorem State.acceptWrite_sameControl (s : State) (w : WriteReq) : s.SameControl (s.acceptWrite w) :=
  ⟨by simp, by simp, by simp⟩

/-- A grant moves at most the load in flight. -/
theorem State.grantedTo_control (s : State) (e : Fin 64) (g : Requester) :
    (s.grantedTo e g).cal.active = s.cal.active ∧ (s.grantedTo e g).cal.staged = s.cal.staged ∧
    (s.grantedTo e g).zoom = s.zoom ∧ (s.grantedTo e g).handoff = s.handoff := by
  cases g with
  | pass => simp [State.grantedTo, State.grantTo]
  | view v => simp [State.grantedTo, State.grantTo]
  | report => simp [State.grantedTo, State.grantTo]
  | cal =>
    refine ⟨?_, ?_, by simp [State.grantedTo, State.grantTo], by simp [State.grantedTo, State.grantTo]⟩
    all_goals
      simp only [State.grantedTo, State.grantTo, State.grantCal]
      split <;> rfl

/-- A response moves the Calibration Store alone of the three. -/
theorem State.arrive_zoom_handoff (s : State) (e : Fin 64) (o : OutEntry) (m : MemResp) :
    (s.arrive e o m).zoom = s.zoom ∧ (s.arrive e o m).handoff = s.handoff := by
  unfold State.arrive
  dsimp only
  split <;> simp

/-- What stands at the latch of an opening stands after it. -/
theorem State.openFrame_sameControl (s : State) (i : Fin 2) (rows : List Nat) :
    (s.beforeLatch i rows).SameControl (s.openFrame i rows) := by
  rw [State.openFrame_eq]
  split <;> exact ⟨by simp, by simp, by simp⟩

/-- An opening leaves the three controllers, or takes them through the lead stages (R93). -/
theorem State.beforeLatch_control (s : State) (i : Fin 2) (rows : List Nat) :
    s.SameControl (s.beforeLatch i rows) ∨
      ∃ u : State, s.SameControl u ∧ s.beforeLatch i rows = u.leadStages i := by
  unfold State.beforeLatch
  dsimp only
  split
  · exact .inr ⟨_, s.onView_sameControl i _, rfl⟩
  · exact .inl (s.onView_sameControl i _)

/-- What a property of the three controllers must survive to survive an accepted read. -/
theorem State.acceptRead_control {P : State → Prop}
    (hcongr : ∀ {s t : State}, s.SameControl t → P s → P t)
    (hlead : ∀ (s : State) (i : Fin 2), P s → P (s.leadStages i)) (s : State) (r : ReadReq) (h : P s) :
    P (s.acceptRead r) := by
  have hopen : ∀ (i : Fin 2) (rows : List Nat), P (s.openFrame i rows) := by
    intro i rows
    refine hcongr (s.openFrame_sameControl i rows) ?_
    rcases s.beforeLatch_control i rows with hsame | ⟨u, hsame, heq⟩
    · exact hcongr hsame h
    · rw [heq]
      exact hlead u i (hcongr hsame h)
  have haperture : ∀ v : Fin 2, P (s.acceptAperture v r) := by
    intro v
    unfold State.acceptAperture
    split
    · exact h
    · refine hcongr (State.onView_sameControl _ v _) ?_
      split
      · exact hopen v _
      · exact h
  unfold State.acceptRead
  split
  · next v _ _ => exact hcongr (s := s.acceptAperture v r) ⟨rfl, rfl, rfl⟩ (haperture v)
  all_goals exact hcongr (s := s) ⟨rfl, rfl, rfl⟩ h

/-! ### The calibration sets (R37, R38) -/

theorem CalStore.InRange.congr {a b : CalStore} (h : a.InRange) (hactive : b.active = a.active)
    (hstaged : b.staged = a.staged) : b.InRange := by
  unfold CalStore.InRange
  rw [hactive, hstaged]
  exact h

theorem CalStore.reset_inRange : CalStore.reset.InRange :=
  ⟨fun _ hx => (by cases hx), fun _ hx => (by cases hx)⟩

/-- The stages of a lead opening leave the store, or make the staged set the active one (R39). -/
theorem State.activationStage_cal (s : State) :
    (s.activationStage.cal = s.cal ∧ s.activationStage.handoff = s.handoff) ∨
    ∃ c, s.cal.staged = some c ∧ s.activationStage.cal = { s.cal with active := some c, staged := none } ∧
      s.activationStage.handoff = s.handoff.rearmAll := by
  unfold State.activationStage
  split
  · next c hc =>
    split
    · exact .inr ⟨c, hc, by simp, by simp⟩
    · exact .inl ⟨rfl, rfl⟩
  · exact .inl ⟨rfl, rfl⟩

theorem State.activationStage_calInRange {s : State} (h : s.cal.InRange) :
    s.activationStage.cal.InRange := by
  rcases s.activationStage_cal with ⟨heq, -⟩ | ⟨c, hc, heq, -⟩
  · rwa [heq]
  · rw [heq]
    refine ⟨fun x hx => ?_, fun x hx => by cases hx⟩
    obtain rfl := Option.some.inj hx
    exact h.2 c hc

theorem State.leadStages_cal (s : State) (i : Fin 2) :
    (s.leadStages i).cal = s.activationStage.cal := by
  simp [State.leadStages]

theorem CalStore.endLoad_active (c : CalStore) (ss : Vector Source 4) :
    (c.endLoad ss).1.active = c.active := by
  unfold CalStore.endLoad
  split
  · rfl
  · split <;> rfl

/-- A response to the load keeps the active set, and stages only a set that passed the range checks. -/
theorem State.loadResponse_cal (s : State) (sp : Span) (m : MemResp) :
    (s.loadResponse sp m).cal.active = s.cal.active ∧
    (s.cal.InRange → (s.loadResponse sp m).cal.InRange) := by
  unfold State.loadResponse
  split
  · exact ⟨rfl, id⟩
  · dsimp only
    split
    · rw [State.raiseAll_cal]
      exact ⟨CalStore.endLoad_active _ _, fun h => CalStore.endLoad_inRange _ _ (h.congr rfl rfl)⟩
    · exact ⟨rfl, fun h => h.congr rfl rfl⟩

theorem State.arrive_cal (s : State) (e : Fin 64) (o : OutEntry) (m : MemResp) :
    (s.arrive e o m).cal.active = s.cal.active ∧ (s.cal.InRange → (s.arrive e o m).cal.InRange) := by
  have hhand : ∀ u : State, (u.hand o.owner m).cal.active = u.cal.active ∧
      (u.cal.InRange → (u.hand o.owner m).cal.InRange) := by
    intro u
    cases o.owner with
    | forwarded tag num isRead beats => exact ⟨rfl, id⟩
    | fetch v n sp =>
      have hcal : (u.hand (.fetch v n sp) m).cal = u.cal := State.onView_cal u v _
      rw [hcal]
      exact ⟨rfl, id⟩
    | load sp => exact u.loadResponse_cal sp m
    | recordWrite => exact ⟨rfl, id⟩
    | mirrorWrite => exact ⟨rfl, id⟩
  unfold State.arrive
  dsimp only
  split
  · exact ⟨rfl, id⟩
  · exact hhand (s.freeOutstanding e)

theorem keeps_calInRange : Keeps fun s => s.cal.InRange where
  queue _ _ h := h
  tick s h := s.tick_sameControl.cal ▸ h
  draw _ h := h
  powerOn _ _ := CalStore.reset_inRange
  pin _ _ h := h
  sample _ _ _ _ h := h
  beginInit _ _ h := h
  reset _ _ _ _ _ := CalStore.reset_inRange
  endInit s _ h := s.initEnded_sameControl.cal ▸ h
  read s r _ _ _ h :=
    State.acceptRead_control (P := fun s => s.cal.InRange) (fun hsame h => hsame.cal ▸ h)
      (fun s i h => s.leadStages_cal i ▸ State.activationStage_calInRange h) _ r h
  write s w _ _ _ h := by
    have hsame := State.acceptWrite_sameControl { s with up := { s.up with writes := s.up.writes.tail } } w
    rw [State.takeWrite, hsame.cal]
    exact h
  arriveRead _ _ h := h
  arriveWrite _ _ h := h
  hold s v h := (s.onView_sameControl v _).cal ▸ h
  idle s v h := (s.onView_sameControl v _).cal ▸ h
  stall s i _ h := (s.onSource_sameControl i _).cal ▸ h
  grant s e g _ _ h := by
    obtain ⟨hactive, hstaged, -, -⟩ := s.grantedTo_control e g
    exact h.congr hactive hstaged
  respond s e o m _ _ h := (s.arrive_cal e o m).2 h
  mark _ h := h
  complete s sl r h := (s.completeTake_sameControl sl r).cal ▸ h
  partReset _ _ h := h
  setUpSource _ _ _ _ h := h
  enableSource _ _ _ h := h
  disableSource _ _ _ h := h
  setUpView _ _ _ _ h := h
  enableView _ _ _ _ h := h
  disableView s v _ _ h := (s.disableView_sameControl v).cal ▸ h
  calLoad _ _ _ h := h.congr rfl rfl
  zoomSet s sl _ h := by
    obtain ⟨zm, es, heq⟩ := actZoomSet_eq s sl
    rw [heq, State.raiseAll_cal]
    exact h
  eventSetup s sl _ h := (actEventSetup_sameControl s sl).cal ▸ h
  eventForce s sl _ h := (s.raise_sameControl _).cal ▸ h

/-! ### Zoom target, zoom current and the floors (R42, R49) -/

/-- Zoom current is judged by the active set and the sources that the hand-off state names. -/
theorem State.ZoomOk.congr {s t : State} (h : s.ZoomOk) (hactive : t.cal.active = s.cal.active)
    (hzoom : t.zoom = s.zoom) (hhandoff : t.handoff = s.handoff) : t.ZoomOk := by
  unfold State.ZoomOk
  rw [hactive, hzoom, hhandoff]
  exact h

theorem State.ZoomOk.of_sameControl {s t : State} (h : s.ZoomOk) (hsame : s.SameControl t) : t.ZoomOk :=
  h.congr (congrArg CalStore.active hsame.cal) hsame.zoom hsame.handoff

theorem servedFloor_le (a : Option CalSet) (h : ∀ x, a = some x → x.InRange) (hd : Handoff) :
    servedFloor a hd ≤ 24576 := floorOf_le a h _

/-- Stage 6 raises zoom current to the floor of every source named, whatever stages 4 and 5 left (R49). -/
theorem State.zoomAndHandoff_zoomOk {s : State} (i : Fin 2) (hcal : s.cal.InRange)
    (htarget : 1024 ≤ s.zoom.target ∧ s.zoom.target ≤ 24576)
    (hcurrent : 1024 ≤ s.zoom.current ∧ s.zoom.current ≤ 24576) (hslew : s.zoom.slew ≤ slewLimit) :
    (s.zoomAndHandoff i).ZoomOk := by
  obtain ⟨hlow, hhigh⟩ :=
    s.zoom.proposed_range htarget.1 htarget.2 hcurrent.1 hcurrent.2
  have hfloor := servedFloor_le s.cal.active hcal.1 (s.handoff.stage (s.stageInput i s.zoom.proposed)).1
  simp only [State.ZoomOk, State.zoomAndHandoff, State.raiseAll_zoom, State.raiseAll_handoff,
    State.raiseAll_cal, Zoom.clampStage]
  refine ⟨htarget.1, htarget.2, by omega, by omega, hslew, fun j hj => ?_⟩
  have := floorOf_le_servedFloor s.cal.active _ j hj
  omega

theorem State.ZoomOk.leadStages {s : State} (h : s.ZoomOk) (hcal : s.cal.InRange) (i : Fin 2) :
    (s.leadStages i).ZoomOk := by
  obtain ⟨ht1, ht2, hc1, hc2, hslew, -⟩ := h
  have hzoom := s.activationStage_zoom
  refine State.zoomAndHandoff_zoomOk i (State.activationStage_calInRange hcal) ?_ ?_ ?_ <;> rw [hzoom]
  · exact ⟨ht1, ht2⟩
  · exact ⟨hc1, hc2⟩
  · exact hslew

theorem State.zoomOk_reset {s : State} (hzoom : s.zoom = Zoom.reset) (hcal : s.cal = CalStore.reset) :
    s.ZoomOk := by
  have hfloor : ∀ i, floorOf none i = 2048 := fun _ => rfl
  simp [State.ZoomOk, hzoom, hcal, Zoom.reset, CalStore.reset, hfloor]

/-- ZOOM_SET brings the target into range and leaves zoom current (R44). -/
theorem actZoomSet_zoomOk {s : State} {sl : Slot} (hslew : sl.zoomSlew ≤ slewLimit) (h : s.ZoomOk) :
    (actZoomSet sl s).2.ZoomOk := by
  obtain ⟨-, -, hc1, hc2, -, hfloor⟩ := h
  simp only [actZoomSet, if_neg (Nat.not_lt.mpr hslew), State.ZoomOk, State.raiseAll_zoom,
    State.raiseAll_handoff, State.raiseAll_cal, Zoom.set]
  refine ⟨?_, ?_, hc1, hc2, hslew, hfloor⟩ <;> unfold clampNat <;> omega

theorem keeps_zoomOk : Keeps fun s => s.cal.InRange ∧ s.ZoomOk where
  queue s cs h := ⟨keeps_calInRange.queue s cs h.1, h.2⟩
  tick s h := ⟨keeps_calInRange.tick s h.1, h.2.of_sameControl s.tick_sameControl⟩
  draw s h := ⟨keeps_calInRange.draw s h.1, h.2⟩
  powerOn s h := ⟨keeps_calInRange.powerOn s h.1, State.zoomOk_reset rfl rfl⟩
  pin s b h := ⟨keeps_calInRange.pin s b h.1, h.2⟩
  sample s cp clk hph h := ⟨keeps_calInRange.sample s cp clk hph h.1, h.2⟩
  beginInit s hph h := ⟨keeps_calInRange.beginInit s hph h.1, h.2⟩
  reset s c ph hph h := ⟨keeps_calInRange.reset s c ph hph h.1, State.zoomOk_reset rfl rfl⟩
  endInit s hph h := ⟨keeps_calInRange.endInit s hph h.1, h.2.of_sameControl s.initEnded_sameControl⟩
  read s r _ _ _ h :=
    State.acceptRead_control (P := fun s => s.cal.InRange ∧ s.ZoomOk)
      (fun hsame h => ⟨hsame.cal ▸ h.1, h.2.of_sameControl hsame⟩)
      (fun s i h => ⟨s.leadStages_cal i ▸ State.activationStage_calInRange h.1, h.2.leadStages h.1 i⟩) _ r h
  write s w ws hw hc h := ⟨keeps_calInRange.write s w ws hw hc h.1,
    State.ZoomOk.of_sameControl (s := { s with up := { s.up with writes := s.up.writes.tail } }) h.2
      (State.acceptWrite_sameControl _ w)⟩
  arriveRead s r h := ⟨keeps_calInRange.arriveRead s r h.1, h.2⟩
  arriveWrite s w h := ⟨keeps_calInRange.arriveWrite s w h.1, h.2⟩
  hold s v h := ⟨keeps_calInRange.hold s v h.1, h.2.of_sameControl (s.onView_sameControl v _)⟩
  idle s v h := ⟨keeps_calInRange.idle s v h.1, h.2.of_sameControl (s.onView_sameControl v _)⟩
  stall s i hdue h :=
    ⟨keeps_calInRange.stall s i hdue h.1, h.2.of_sameControl (s.onSource_sameControl i _)⟩
  grant s e g he hg h := by
    obtain ⟨hactive, -, hzoom, hhandoff⟩ := s.grantedTo_control e g
    exact ⟨keeps_calInRange.grant s e g he hg h.1, h.2.congr hactive hzoom hhandoff⟩
  respond s e o m ho hm h := by
    obtain ⟨hzoom, hhandoff⟩ := s.arrive_zoom_handoff e o m
    exact ⟨keeps_calInRange.respond s e o m ho hm h.1, h.2.congr (s.arrive_cal e o m).1 hzoom hhandoff⟩
  mark s h := ⟨keeps_calInRange.mark s h.1, h.2⟩
  complete s sl r h :=
    ⟨keeps_calInRange.complete s sl r h.1, h.2.of_sameControl (s.completeTake_sameControl sl r)⟩
  partReset s sl h := ⟨keeps_calInRange.partReset s sl h.1, h.2⟩
  setUpSource s i r hok h := ⟨keeps_calInRange.setUpSource s i r hok h.1, h.2⟩
  enableSource s i hoff h := ⟨keeps_calInRange.enableSource s i hoff h.1, h.2⟩
  disableSource s i hact h := ⟨keeps_calInRange.disableSource s i hact h.1, h.2⟩
  setUpView s v r hok h := ⟨keeps_calInRange.setUpView s v r hok h.1, h.2⟩
  enableView s v hr hoff h := ⟨keeps_calInRange.enableView s v hr hoff h.1, h.2⟩
  disableView s v hr hon h :=
    ⟨keeps_calInRange.disableView s v hr hon h.1, h.2.of_sameControl (s.disableView_sameControl v)⟩
  calLoad s sl hok h := ⟨keeps_calInRange.calLoad s sl hok h.1, h.2⟩
  zoomSet s sl hz h := ⟨keeps_calInRange.zoomSet s sl hz h.1, actZoomSet_zoomOk hz h.2⟩
  eventSetup s sl hl h :=
    ⟨keeps_calInRange.eventSetup s sl hl h.1, h.2.of_sameControl (actEventSetup_sameControl s sl)⟩
  eventForce s sl hl h :=
    ⟨keeps_calInRange.eventForce s sl hl h.1, h.2.of_sameControl (s.raise_sameControl _)⟩

/-- Settles O56: only a lead opening and ZOOM_SET move the Zoom Controller, and the opening ends in the
floor clamp under the set and the hand-off state that it leaves. -/
theorem zoomLawKept : Obligations.ZoomLawKept := fun _ _ hc hz ht =>
  keeps_zoomOk.step (P := fun s => s.cal.InRange ∧ s.ZoomOk) ⟨hc, hz⟩ ht

/-! ### Weights and corrections (R57, R95) -/

theorem State.CorrectionsOk.congr {s t : State} (h : s.CorrectionsOk) (hhandoff : t.handoff = s.handoff)
    (hplan : ∀ (v : Fin 2) (p : Plan), t.views[v].plan = some p → s.views[v].plan = some p) : t.CorrectionsOk :=
  ⟨hhandoff ▸ h.1, fun v p hp => h.2 v p (hplan v p hp)⟩

theorem State.CorrectionsOk.of_plan_eq {s t : State} (h : s.CorrectionsOk)
    (hhandoff : t.handoff = s.handoff) (hplan : ∀ v : Fin 2, t.views[v].plan = s.views[v].plan) :
    t.CorrectionsOk := h.congr hhandoff fun v _ hp => hplan v ▸ hp

theorem State.leadStages_handoffInRange {s : State} (hcal : s.cal.InRange) (h : s.handoff.InRange)
    (i : Fin 2) : (s.leadStages i).handoff.InRange := by
  have hact : s.activationStage.handoff.InRange := by
    rcases s.activationStage_cal with ⟨-, heq⟩ | ⟨c, -, -, heq⟩
    · rwa [heq]
    · rw [heq]
      exact h
  simp only [State.leadStages, State.zoomAndHandoff, State.raiseAll_handoff]
  exact Handoff.stage_inRange _ (State.activationStage_calInRange hcal).1 _ hact

theorem State.beforeLatch_handoffInRange {s : State} (hcal : s.cal.InRange) (h : s.handoff.InRange)
    (i : Fin 2) (rows : List Nat) : (s.beforeLatch i rows).handoff.InRange := by
  rcases s.beforeLatch_control i rows with hsame | ⟨u, hsame, heq⟩
  · rwa [hsame.handoff]
  · rw [heq]
    exact State.leadStages_handoffInRange (hsame.cal ▸ hcal) (hsame.handoff ▸ h) i

theorem State.CorrectionsOk.openFrame {s : State} (h : s.CorrectionsOk) (hcal : s.cal.InRange)
    (i : Fin 2) (rows : List Nat) (r : ViewRecord) (hr : s.views[i].record = some r) :
    (s.openFrame i rows).CorrectionsOk := by
  obtain ⟨hplan, -, -, -, hother, -⟩ := s.openFrame_spec i rows r hr
  have hhandoff := State.beforeLatch_handoffInRange hcal h.1 i rows
  refine ⟨(s.openFrame_sameControl i rows).handoff ▸ hhandoff, fun v p hp => ?_⟩
  by_cases hv : v = i
  · subst hv
    rw [hplan] at hp
    obtain rfl := Option.some.inj hp
    exact latchPlan_inRange _ _ _ _ _ _ _ _ hhandoff
  · rw [hother v hv] at hp
    exact h.2 v p hp

theorem State.CorrectionsOk.onView {s : State} (h : s.CorrectionsOk) (i : Fin 2)
    {f : ViewEnv → ViewWork → ViewWork} (hf : ∀ e w, (f e w).view.plan = w.view.plan) :
    (s.onView i f).CorrectionsOk := by
  refine h.of_plan_eq (s.onView_handoff i f) fun v => ?_
  by_cases hv : v = i
  · subst hv
    cases hr : s.views[v].record with
    | none =>
      have hsame : s.onView v f = s := by simp only [State.onView, hr]
      rw [hsame]
    | some r =>
      rw [State.onView_same s v f r hr]
      exact hf _ _
  · rw [State.onView_other _ _ _ _ hv]

theorem State.CorrectionsOk.acceptRead {s : State} (h : s.CorrectionsOk) (hcal : s.cal.InRange)
    (r : ReadReq) : (s.acceptRead r).CorrectionsOk := by
  have haperture : ∀ v : Fin 2, (s.acceptAperture v r).CorrectionsOk := by
    intro v
    unfold State.acceptAperture
    split
    · exact h
    · next rec hrec =>
      refine State.CorrectionsOk.onView ?_ v fun e w => (w.acceptRead_spec e r _).1
      split
      · exact h.openFrame hcal v _ rec hrec
      · exact h
  unfold State.acceptRead
  split
  · exact haperture _
  all_goals exact h

theorem State.correctionsOk_reset {s : State} (hhandoff : s.handoff = Handoff.reset)
    (hviews : s.views = Vector.replicate 2 View.reset) : s.CorrectionsOk := by
  refine ⟨?_, fun v p hp => ?_⟩
  · rw [hhandoff]
    exact ⟨Nat.zero_le _, Correction.neutral_inRange, Correction.neutral_inRange, fun _ => ⟨rfl, rfl⟩,
      fun _ _ _ hs => by cases hs⟩
  · simp [hviews, View.reset] at hp

theorem keeps_correctionsOk : Keeps fun s => s.cal.InRange ∧ s.CorrectionsOk where
  queue s cs h := ⟨keeps_calInRange.queue s cs h.1, h.2⟩
  tick s h := ⟨keeps_calInRange.tick s h.1, h.2.of_plan_eq s.tick_sameControl.handoff (by simp)⟩
  draw s h := ⟨keeps_calInRange.draw s h.1, h.2⟩
  powerOn s h := ⟨keeps_calInRange.powerOn s h.1, State.correctionsOk_reset rfl rfl⟩
  pin s b h := ⟨keeps_calInRange.pin s b h.1, h.2⟩
  sample s cp clk hph h := ⟨keeps_calInRange.sample s cp clk hph h.1, h.2⟩
  beginInit s hph h := ⟨keeps_calInRange.beginInit s hph h.1, h.2⟩
  reset s c ph hph h := ⟨keeps_calInRange.reset s c ph hph h.1, State.correctionsOk_reset rfl rfl⟩
  endInit s hph h := ⟨keeps_calInRange.endInit s hph h.1,
    h.2.of_plan_eq s.initEnded_sameControl.handoff (by simp)⟩
  read s r rs hr hc h := ⟨keeps_calInRange.read s r rs hr hc h.1,
    State.CorrectionsOk.acceptRead (s := { s with up := { s.up with reads := s.up.reads.tail } }) h.2 h.1 r⟩
  write s w ws hw hc h := ⟨keeps_calInRange.write s w ws hw hc h.1,
    State.CorrectionsOk.of_plan_eq (s := { s with up := { s.up with writes := s.up.writes.tail } }) h.2
      (State.acceptWrite_sameControl _ w).handoff
      fun v => congrArg (fun vs : Vector View 2 => vs[v].plan) (State.acceptWrite_views _ w)⟩
  arriveRead s r h := ⟨keeps_calInRange.arriveRead s r h.1, h.2⟩
  arriveWrite s w h := ⟨keeps_calInRange.arriveWrite s w h.1, h.2⟩
  hold s v h := ⟨keeps_calInRange.hold s v h.1, h.2.onView v fun e w => (w.expireHold_quiet e).plan⟩
  idle s v h := ⟨keeps_calInRange.idle s v h.1, h.2.onView v fun e w => (w.expireIdle_quiet e).plan⟩
  stall s i hdue h :=
    ⟨keeps_calInRange.stall s i hdue h.1, h.2.of_plan_eq (s.onSource_handoff i _) (by simp)⟩
  grant s e g he hg h := by
    obtain ⟨-, -, -, hhandoff⟩ := s.grantedTo_control e g
    exact ⟨keeps_calInRange.grant s e g he hg h.1,
      h.2.of_plan_eq hhandoff fun v => (s.grantedTo_views e g v).1⟩
  respond s e o m ho hm h := by
    obtain ⟨-, hhandoff⟩ := s.arrive_zoom_handoff e o m
    exact ⟨keeps_calInRange.respond s e o m ho hm h.1,
      h.2.of_plan_eq hhandoff fun v => (s.arrive_views e o m v).1⟩
  mark s h := ⟨keeps_calInRange.mark s h.1, h.2⟩
  complete s sl r h := ⟨keeps_calInRange.complete s sl r h.1,
    h.2.of_plan_eq (s.completeTake_handoff sl r) (by simp)⟩
  partReset s sl h := ⟨keeps_calInRange.partReset s sl h.1, h.2⟩
  setUpSource s i r hok h := ⟨keeps_calInRange.setUpSource s i r hok h.1, h.2⟩
  enableSource s i hoff h := ⟨keeps_calInRange.enableSource s i hoff h.1, h.2⟩
  disableSource s i hact h := ⟨keeps_calInRange.disableSource s i hact h.1, h.2⟩
  setUpView s v r hok h := by
    refine ⟨keeps_calInRange.setUpView s v r hok h.1, h.2.of_plan_eq rfl fun j => ?_⟩
    simp only [State.setUpView, vector_get_set]
    split
    · next hj => subst hj; rfl
    · rfl
  enableView s v hr hoff h := by
    refine ⟨keeps_calInRange.enableView s v hr hoff h.1, h.2.congr rfl fun j p hp => ?_⟩
    simp only [State.enableView, vector_get_set] at hp
    split at hp
    · cases hp
    · exact hp
  disableView s v hr hon h := by
    refine ⟨keeps_calInRange.disableView s v hr hon h.1,
      h.2.congr (s.disableView_sameControl v).handoff fun j p hp => ?_⟩
    obtain ⟨hother, hplan, -, -⟩ := s.disableView_views v j
    by_cases hj : j = v
    · subst hj
      rw [hplan] at hp
      cases hp
    · rwa [hother hj] at hp
  calLoad s sl hok h := ⟨keeps_calInRange.calLoad s sl hok h.1, h.2⟩
  zoomSet s sl hz h := by
    refine ⟨keeps_calInRange.zoomSet s sl hz h.1, h.2.of_plan_eq ?_ (by simp)⟩
    obtain ⟨zm, es, heq⟩ := actZoomSet_eq s sl
    rw [heq, State.raiseAll_handoff]
  eventSetup s sl hl h := ⟨keeps_calInRange.eventSetup s sl hl h.1,
    h.2.of_plan_eq (actEventSetup_sameControl s sl).handoff (by simp)⟩
  eventForce s sl hl h := ⟨keeps_calInRange.eventForce s sl hl h.1,
    h.2.of_plan_eq (s.raise_sameControl _).handoff (by simp)⟩

/-- Settles O57: the controller's stage keeps its ranges under a set in range, and a latched plan takes its
weight and corrections from the controller. -/
theorem correctionsKept : Obligations.CorrectionsKept := by
  intro s t hc hk ht
  obtain ⟨-, hcorr⟩ := keeps_correctionsOk.step (P := fun s => s.cal.InRange ∧ s.CorrectionsOk) ⟨hc, hk⟩ ht
  exact hcorr

end Sys2Proof.Machine
end

section
/-! PROOFS. Output frames (sections 5.4 and 5.6). No operation but an opening puts a view in a frame it was
not in, and an opening gives its frame the next number; so an open frame keeps its number and its plan
(R87, R95). -/

namespace Sys2Proof.Machine

/-! ### A view that stays in its frame -/

/-- A step of a view that keeps the frames-opened count and leaves the view OPEN only in the frame in which
it was OPEN before. -/
structure ViewWork.SameFrame (w u : ViewWork) : Prop where
  count : u.view.framesOpened = w.view.framesOpened
  frame : ∀ g, u.view.state = .opened g → ∃ f, w.view.state = .opened f ∧ f.number = g.number

theorem ViewWork.SameFrame.refl (w : ViewWork) : w.SameFrame w := ⟨rfl, fun g hg => ⟨g, hg, rfl⟩⟩

theorem ViewWork.SameFrame.trans {w u x : ViewWork} (h : w.SameFrame u) (k : u.SameFrame x) :
    w.SameFrame x := by
  refine ⟨k.count.trans h.count, fun g hg => ?_⟩
  obtain ⟨f, hf, hfg⟩ := k.frame g hg
  obtain ⟨f', hf', hff⟩ := h.frame f hf
  exact ⟨f', hf', hff.trans hfg⟩

theorem ViewWork.SameFrame.of_state {w u : ViewWork} (hcount : u.view.framesOpened = w.view.framesOpened)
    (hstate : u.view.state = w.view.state) : w.SameFrame u :=
  ⟨hcount, fun g hg => ⟨g, hstate ▸ hg, rfl⟩⟩

/-- The frame's record may change under its number. -/
theorem ViewWork.SameFrame.of_record {w u : ViewWork} {f g : FrameRecord}
    (hcount : u.view.framesOpened = w.view.framesOpened) (hw : w.view.state = .opened f)
    (hu : u.view.state = .opened g) (hnumber : f.number = g.number) : w.SameFrame u := by
  refine ⟨hcount, fun g' hg => ⟨f, hw, ?_⟩⟩
  rw [hu] at hg
  cases hg
  exact hnumber

/-- The view may leave its frame. -/
theorem ViewWork.SameFrame.of_idle {w u : ViewWork} (hcount : u.view.framesOpened = w.view.framesOpened)
    (hu : u.view.state = .idle) : w.SameFrame u :=
  ⟨hcount, fun g hg => by rw [hu] at hg; cases hg⟩

theorem View.sameOutside.sameFrame {w u : ViewWork} (h : w.view.sameOutside u.view) : w.SameFrame u :=
  .of_state (by rw [h]) h.state

theorem ViewWork.demandPass_sameFrame (e : ViewEnv) (w : ViewWork) : w.SameFrame (w.demandPass e) :=
  (w.demandPass_sameOutside e).sameFrame

theorem ViewWork.latencyTest_sameFrame (e : ViewEnv) (p : Plan) (h : HeldRead) (y : Nat) (w : ViewWork) :
    w.SameFrame (w.latencyTest e p h y) := by
  unfold ViewWork.latencyTest
  split
  · exact .refl w
  · next f hf =>
    have hs := View.openFrameOf_state hf
    dsimp only
    split
    · split
      · exact .of_record rfl hs rfl rfl
      · exact .of_record rfl hs rfl rfl
    · exact .refl w

theorem ViewWork.fetchError_sameFrame (e : ViewEnv) (h : HeldRead) (w : ViewWork) :
    w.SameFrame (w.fetchError e h) := by
  unfold ViewWork.fetchError
  split
  · exact .refl w
  · dsimp only
    split <;> exact .of_state rfl rfl

theorem ViewWork.serve_sameFrame (e : ViewEnv) (p : Plan) (h : HeldRead) (w : ViewWork) :
    w.SameFrame (w.serve e p h) := by
  unfold ViewWork.serve
  dsimp only
  refine ViewWork.SameFrame.trans ?_
    ((ViewWork.prefetch_sameOutside _ _ _).sameFrame.trans (ViewWork.latencyTest_sameFrame _ _ _ _ _))
  exact .of_state rfl rfl

theorem ViewWork.answerHead_sameFrame (e : ViewEnv) (h : HeldRead) (kind : AnswerKind) (w : ViewWork) :
    w.SameFrame (w.answerHead e h kind) := by
  unfold ViewWork.answerHead
  dsimp only
  refine ViewWork.SameFrame.trans ?_ (ViewWork.demandPass_sameFrame _ _)
  split
  · exact ViewWork.serve_sameFrame _ _ _ _
  · exact (ViewWork.fetchError_sameFrame _ _ _).trans (.of_state rfl rfl)
  · exact .of_state rfl rfl

theorem ViewWork.answerReads_sameFrame (e : ViewEnv) (n : Nat) (w : ViewWork) :
    w.SameFrame (w.answerReads e n) := by
  induction n generalizing w with
  | zero => exact .refl w
  | succ n ih =>
    unfold ViewWork.answerReads
    split
    · exact .refl w
    · split
      · exact (ViewWork.answerHead_sameFrame _ _ _ _).trans (ih _)
      · exact .refl w

theorem ViewWork.answerAll_sameFrame (e : ViewEnv) (w : ViewWork) : w.SameFrame (w.answerAll e) :=
  ViewWork.answerReads_sameFrame _ _ _

theorem ViewWork.countOwn_sameFrame (e : ViewEnv) (h : HeldRead) (w : ViewWork) :
    w.SameFrame (w.countOwn e h) := by
  unfold ViewWork.countOwn
  split
  · next f hf =>
    have hs := View.openFrameOf_state hf
    unfold ViewWork.countInFrame
    dsimp only
    split
    · exact .of_record rfl hs rfl rfl
    · exact .of_record rfl hs rfl rfl
  · exact .refl w

theorem ViewWork.raiseUnderrun_sameFrame (e : ViewEnv) (h : HeldRead) (w : ViewWork) :
    w.SameFrame (w.raiseUnderrun e h) := by
  unfold ViewWork.raiseUnderrun
  split
  · exact .refl w
  · dsimp only
    split <;> exact .of_state rfl rfl

theorem ViewWork.underrun_sameFrame (e : ViewEnv) (h : HeldRead) (w : ViewWork) :
    w.SameFrame (w.underrun e h) :=
  (w.countOwn_sameFrame e h).trans
    ((ViewWork.SameFrame.of_state (w := w.countOwn e h) (u := (w.countOwn e h).countTotal) rfl rfl).trans
      (ViewWork.raiseUnderrun_sameFrame e h (w.countOwn e h).countTotal))

theorem View.examineWarned_framesOpened (v : View) (b : Bool) :
    (v.examineWarned b).framesOpened = v.framesOpened := by
  unfold View.examineWarned
  split <;> rfl

theorem ViewWork.closeFrame_state (e : ViewEnv) (f : FrameRecord) (w : ViewWork) :
    (w.closeFrame e f).view.state = .idle := by
  unfold ViewWork.closeFrame
  dsimp only
  split
  · rfl
  · split_ifs <;> rfl

theorem ViewWork.closeFrame_sameFrame (e : ViewEnv) (f : FrameRecord) (w : ViewWork) :
    w.SameFrame (w.closeFrame e f) := by
  refine .of_idle ?_ (w.closeFrame_state e f)
  have hcount := w.view.examineWarned_framesOpened f.warned
  unfold ViewWork.closeFrame
  dsimp only
  split
  · exact hcount
  · split_ifs <;> exact hcount

theorem ViewWork.flushReads_sameFrame (e : ViewEnv) (hs : List HeldRead) (w : ViewWork) :
    w.SameFrame (hs.foldl (ViewWork.flushRead e) w) := by
  induction hs generalizing w with
  | nil => exact .refl w
  | cons h hs ih =>
    refine ViewWork.SameFrame.trans ?_ (ih (w.flushRead e h))
    exact (ViewWork.SameFrame.of_state (w := w) (u := w.respond (e.conf.fillAnswer h.req)) rfl rfl).trans
      (ViewWork.underrun_sameFrame e h (w.respond (e.conf.fillAnswer h.req)))

theorem ViewWork.cutShort_sameFrame (e : ViewEnv) (w : ViewWork) : w.SameFrame (w.cutShort e) := by
  unfold ViewWork.cutShort
  split
  · exact w.closeFrame_sameFrame e _
  · exact .refl w
  · exact .refl w

theorem ViewWork.openingStage1_sameFrame (e : ViewEnv) (w : ViewWork) :
    w.SameFrame (w.openingStage1 e) :=
  ((w.flushReads_sameFrame e w.view.held).trans (ViewWork.cutShort_sameFrame e _)).trans
    (.of_state rfl rfl)

theorem ViewWork.expireHold_sameFrame (e : ViewEnv) (w : ViewWork) : w.SameFrame (w.expireHold e) := by
  unfold ViewWork.expireHold
  split
  · refine ViewWork.SameFrame.trans ?_ (ViewWork.answerAll_sameFrame e _)
    unfold ViewWork.expireAt
    split
    · refine ViewWork.SameFrame.trans ?_ (ViewWork.underrun_sameFrame e _ _)
      exact .of_state rfl rfl
    · exact .refl w
  · exact .refl w

theorem ViewWork.expireIdle_sameFrame (e : ViewEnv) (w : ViewWork) : w.SameFrame (w.expireIdle e) := by
  unfold ViewWork.expireIdle
  split
  · split
    · exact w.closeFrame_sameFrame e _
    · exact .refl w
  · exact .refl w
  · exact .refl w

theorem ViewWork.join_sameFrame (e : ViewEnv) (q : ReadReq) (rows : List Nat) (w : ViewWork) :
    w.SameFrame (w.join e q rows) := by
  cases hs : w.view.state with
  | opened f =>
    exact .of_record (f := f) (g := f.take rows e.now) rfl hs (by simp only [ViewWork.join, hs]) rfl
  | idle => exact .of_idle rfl (by simp only [ViewWork.join, hs])
  | disabled => exact .of_state rfl (by simp only [ViewWork.join, hs])

theorem ViewWork.closeNormal_sameFrame (e : ViewEnv) (q : ReadReq) (w : ViewWork) :
    w.SameFrame (w.closeNormal e q) := by
  unfold ViewWork.closeNormal
  split
  · split
    · exact w.closeFrame_sameFrame e _
    · exact .refl w
  · exact .refl w
  · exact .refl w

theorem ViewWork.acceptRead_sameFrame (e : ViewEnv) (q : ReadReq) (rows : List Nat) (w : ViewWork) :
    w.SameFrame (w.acceptRead e q rows) :=
  (((w.join_sameFrame e q rows).trans (ViewWork.closeNormal_sameFrame e q _)).trans
    (ViewWork.answerAll_sameFrame e _)).trans (ViewWork.demandPass_sameFrame e _)

theorem View.completeEntry_framesOpened (v : View) (n : Fin 16) (b : Bool) :
    (v.completeEntry n b).framesOpened = v.framesOpened := by
  unfold View.completeEntry
  dsimp only
  split <;> rfl

theorem ViewWork.completeFetch_sameFrame (e : ViewEnv) (n : Fin 16) (b : Bool) (w : ViewWork) :
    w.SameFrame (w.completeFetch e n b) := by
  unfold ViewWork.completeFetch
  refine ViewWork.SameFrame.trans ?_
    ((ViewWork.demandPass_sameFrame e _).trans (ViewWork.answerAll_sameFrame e _))
  obtain ⟨-, -, hstate, -⟩ := w.view.completeEntry_quiet n b
  exact .of_state (w.view.completeEntry_framesOpened n b) hstate

theorem ViewWork.fetchResponse_sameFrame (e : ViewEnv) (n : Fin 16) (sp : Span) (m : MemResp)
    (w : ViewWork) : w.SameFrame (w.fetchResponse e n sp m) := by
  unfold ViewWork.fetchResponse
  split
  · exact .refl w
  · next f _ =>
    dsimp only
    split
    · refine ViewWork.SameFrame.trans
        (u := { w with view := w.view.setEntry n (placeInEntry f.segBase sp m w.view.cache[n]) }) ?_
        (ViewWork.completeFetch_sameFrame e n _ _)
      exact ⟨rfl, fun g hg => ⟨g, hg, rfl⟩⟩
    · exact ⟨rfl, fun g hg => ⟨g, hg, rfl⟩⟩

/-! ### A step of the part that opens no frame -/

/-- A view that is OPEN afterwards was OPEN before in the same frame, with the same plan and count. -/
def State.SameFrames (s t : State) : Prop :=
  ∀ (v : Fin 2) (g : FrameRecord), t.views[v].state = .opened g →
    (∃ f, s.views[v].state = .opened f ∧ f.number = g.number) ∧
    t.views[v].framesOpened = s.views[v].framesOpened ∧ t.views[v].plan = s.views[v].plan

theorem State.SameFrames.trans {s t u : State} (h : s.SameFrames t) (k : t.SameFrames u) :
    s.SameFrames u := by
  intro v g hg
  obtain ⟨⟨f, hf, hfg⟩, hcount, hplan⟩ := k v g hg
  obtain ⟨⟨f', hf', hff⟩, hcount', hplan'⟩ := h v f hf
  exact ⟨⟨f', hf', hff.trans hfg⟩, hcount.trans hcount', hplan.trans hplan'⟩

theorem State.SameFrames.of_views {s t : State} (h : t.views = s.views) : s.SameFrames t := by
  intro v g hg
  rw [h] at hg ⊢
  exact ⟨⟨g, hg, rfl⟩, rfl, rfl⟩

theorem State.SameFrames.refl (s : State) : s.SameFrames s := .of_views rfl

theorem State.SameFrames.of_reset {s t : State} (h : t.views = Vector.replicate 2 View.reset) :
    s.SameFrames t := by
  intro v g hg
  simp [h, View.reset] at hg

/-- One view may be changed to one that is not OPEN. -/
theorem State.SameFrames.of_set {s t : State} {v : Fin 2} {x : View}
    (hviews : t.views = s.views.set v.val x v.isLt) (hx : ∀ g, x.state ≠ .opened g) : s.SameFrames t := by
  intro j g hg
  rw [hviews, vector_get_set] at hg ⊢
  split at hg
  · exact absurd hg (hx g)
  · next hj =>
    rw [if_neg hj]
    exact ⟨⟨g, hg, rfl⟩, rfl, rfl⟩

theorem State.onView_sameFrames (s : State) (i : Fin 2) {f : ViewEnv → ViewWork → ViewWork}
    (hf : ∀ e w, ViewWork.SameFrame w (f e w)) (hplan : ∀ e w, (f e w).view.plan = w.view.plan) :
    s.SameFrames (s.onView i f) := by
  intro v g hg
  by_cases hv : v = i
  · subst hv
    cases hr : s.views[v].record with
    | none =>
      have hsame : s.onView v f = s := by simp only [State.onView, hr]
      rw [hsame] at hg ⊢
      exact ⟨⟨g, hg, rfl⟩, rfl, rfl⟩
    | some r =>
      rw [State.onView_same s v f r hr] at hg ⊢
      exact ⟨(hf _ _).frame g hg, (hf _ _).count, hplan _ _⟩
  · rw [State.onView_other _ _ _ _ hv] at hg ⊢
    exact ⟨⟨g, hg, rfl⟩, rfl, rfl⟩

theorem State.expireHold_sameFrames (s : State) (v : Fin 2) :
    s.SameFrames (s.onView v fun e w => w.expireHold e) :=
  s.onView_sameFrames v (fun e w => w.expireHold_sameFrame e) fun e w => (w.expireHold_quiet e).plan

theorem State.expireIdle_sameFrames (s : State) (v : Fin 2) :
    s.SameFrames (s.onView v fun e w => w.expireIdle e) :=
  s.onView_sameFrames v (fun e w => w.expireIdle_sameFrame e) fun e w => (w.expireIdle_quiet e).plan

theorem State.arrive_sameFrames (s : State) (e : Fin 64) (o : OutEntry) (m : MemResp) :
    s.SameFrames (s.arrive e o m) := by
  refine State.arrive_keeps s.SameFrames s e o m (.of_views rfl) ?_
  cases o.owner with
  | forwarded tag num isRead beats => exact .of_views rfl
  | fetch v n sp =>
    exact State.onView_sameFrames (s.freeOutstanding e) v
      (fun env w => w.fetchResponse_sameFrame env n sp m) fun env w => (w.fetchResponse_quiet env n sp m).plan
  | load sp => exact .of_views (by simp [State.hand])
  | recordWrite => exact .of_views rfl
  | mirrorWrite => exact .of_views rfl

/-- A grant changes at most a view's cache and fetch queue. -/
theorem State.grantedTo_sameFrames (s : State) (e : Fin 64) (g : Requester) :
    s.SameFrames (s.grantedTo e g) := by
  cases g with
  | pass => exact .of_views (by simp [State.grantedTo, State.grantTo])
  | report => exact .of_views (by simp [State.grantedTo, State.grantTo])
  | cal => exact .of_views (by simp [State.grantedTo, State.grantTo])
  | view v =>
    show s.SameFrames { s.grantView e v with arb := _ }
    unfold State.grantView
    split
    · next f _ =>
      split
      · split
        · intro j g hg
          simp only [State.issue, State.issueFetch, vector_get_set] at hg ⊢
          split at hg
          · next hj =>
            subst hj
            exact ⟨⟨g, hg, rfl⟩, by simp, by simp⟩
          · next hj =>
            rw [if_neg hj]
            exact ⟨⟨g, hg, rfl⟩, rfl, rfl⟩
        · exact .of_views rfl
      · exact .of_views rfl
    · exact .of_views rfl

theorem State.setUpView_sameFrames {s : State} {v : Fin 2} {r : ViewRecord}
    (hok : s.viewSetupResult v r = .ok) : s.SameFrames (s.setUpView v r) := by
  obtain ⟨hoff, -, -⟩ := State.viewSetupResult_ok hok
  rw [View.enabled_eq_false_iff] at hoff
  refine .of_set (x := s.views[v].setUp r) rfl fun g hg => ?_
  have hstate : s.views[v].state = .opened g := hg
  rw [hoff] at hstate
  cases hstate

theorem State.enableView_sameFrames (s : State) (v : Fin 2) : s.SameFrames (s.enableView v) :=
  .of_set (x := s.views[v].enable) rfl fun _ hg => by cases hg

theorem State.disableView_sameFrames (s : State) (v : Fin 2) : s.SameFrames (s.disableView v) := by
  intro j g hg
  obtain ⟨hother, -, hstate, -, -⟩ := s.disableView_views v j
  by_cases hj : j = v
  · subst hj
    rw [hstate] at hg
    cases hg
  · rw [hother hj] at hg ⊢
    exact ⟨⟨g, hg, rfl⟩, rfl, rfl⟩

theorem State.acceptWrite_sameFrames (s : State) (w : WriteReq) : s.SameFrames (s.acceptWrite w) :=
  .of_views (by simp)

/-! ### An opening -/

theorem State.latchStages_frame (s : State) (i : Fin 2) :
    (s.latchStages i).views[i].state = s.views[i].state ∧
    (s.latchStages i).views[i].framesOpened = s.views[i].framesOpened := by
  unfold State.latchStages
  split
  · exact ⟨rfl, rfl⟩
  · next r hr =>
    dsimp only
    rw [State.onView_same _ i _ r (by simp only [vector_get_set, if_true]; exact hr)]
    have hsame := ViewWork.prefetch_sameOutside
    have hframe : ∀ (e : ViewEnv) (w : ViewWork),
        ((w.clear i).prefetch e 0).view.state = w.view.state ∧
        ((w.clear i).prefetch e 0).view.framesOpened = w.view.framesOpened :=
      fun e w => ⟨(hsame e 0 (w.clear i)).state, by rw [hsame e 0 (w.clear i)]; rfl⟩
    obtain ⟨hstate, hcount⟩ := hframe ⟨i, r, s.timeBase, _⟩ ⟨_, s.inflight, [], [], s.draws⟩
    rw [hstate, hcount]
    simp

/-- An opening leaves its view OPEN in the next frame. -/
theorem State.openFrame_frame (s : State) (i : Fin 2) (rows : List Nat) (r : ViewRecord)
    (hr : s.views[i].record = some r) :
    (s.openFrame i rows).views[i].framesOpened = s.views[i].framesOpened + 1 ∧
    ∃ f, (s.openFrame i rows).views[i].state = .opened f ∧ f.number = s.views[i].framesOpened + 1 := by
  have hviews : (s.openFrame i rows).views = ((s.beforeLatch i rows).latchStages i).views := by
    rw [State.openFrame_eq]
    split <;> simp
  have hbefore : (s.beforeLatch i rows).views =
      (s.onView i fun e w => (w.openingStage1 e).openingStage2 e rows).views := by
    unfold State.beforeLatch
    dsimp only
    split <;> simp
  obtain ⟨hstate, hcount⟩ := (s.beforeLatch i rows).latchStages_frame i
  have hone := ViewWork.openingStage1_sameFrame ⟨i, r, s.timeBase, s.sources⟩
    ⟨s.views[i], s.inflight, [], [], s.draws⟩
  rw [hviews, hstate, hcount, hbefore, State.onView_same s i _ r hr]
  refine ⟨congrArg (· + 1) hone.count, _, rfl, congrArg (· + 1) hone.count⟩

theorem State.acceptRead_onView_sameFrames (s : State) (i : Fin 2) (q : ReadReq) (rows : List Nat) :
    s.SameFrames (s.onView i fun e w => w.acceptRead e q rows) :=
  s.onView_sameFrames i (fun e w => w.acceptRead_sameFrame e q rows)
    fun e w => (w.acceptRead_spec e q rows).1

/-- An accepted read opens no frame, or opens the next frame of its view and leaves the other view. -/
theorem State.acceptRead_frames (s : State) (q : ReadReq) :
    s.SameFrames (s.acceptRead q) ∨ ∃ (i : Fin 2) (u : State), u.SameFrames (s.acceptRead q) ∧
      (∀ j, j ≠ i → u.views[j] = s.views[j]) ∧
      u.views[i].framesOpened = s.views[i].framesOpened + 1 ∧
      ∃ f, u.views[i].state = .opened f ∧ f.number = s.views[i].framesOpened + 1 := by
  unfold State.acceptRead
  split
  · next i _ _ =>
    unfold State.acceptAperture
    split
    · exact .inl (.of_views rfl)
    · next r hr =>
      dsimp only
      split
      · obtain ⟨-, -, -, -, hother, -⟩ := s.openFrame_spec i (r.touched q) r hr
        obtain ⟨hcount, hframe⟩ := s.openFrame_frame i (r.touched q) r hr
        exact .inr ⟨i, s.openFrame i (r.touched q),
          (State.acceptRead_onView_sameFrames _ i q _).trans (.of_views rfl), hother, hcount, hframe⟩
      · exact .inl ((s.acceptRead_onView_sameFrames i q _).trans (.of_views rfl))
  all_goals exact .inl (.of_views rfl)

/-! ### The number of an open frame (R87) -/

theorem State.NumbersOk.of_sameFrames {s t : State} (h : s.NumbersOk) (hsame : s.SameFrames t) :
    t.NumbersOk := by
  intro v g hg
  obtain ⟨⟨f, hf, hfg⟩, hcount, -⟩ := hsame v g hg
  rw [hcount, ← h v f hf, hfg]

theorem State.NumbersOk.acceptRead {s : State} (h : s.NumbersOk) (q : ReadReq) :
    (s.acceptRead q).NumbersOk := by
  rcases s.acceptRead_frames q with hsame | ⟨i, u, hsame, hother, hcount, f, hf, hnumber⟩
  · exact h.of_sameFrames hsame
  · refine State.NumbersOk.of_sameFrames (fun v g hg => ?_) hsame
    by_cases hv : v = i
    · subst hv
      rw [hf] at hg
      cases hg
      rw [hnumber, hcount]
    · rw [hother v hv] at hg ⊢
      exact h v g hg

theorem keeps_numbersOk : Keeps State.NumbersOk where
  queue _ _ h := h
  tick s h := h.of_sameFrames (.of_views s.tick_views)
  draw _ h := h
  powerOn _ h := State.NumbersOk.of_sameFrames h (.of_reset rfl)
  pin _ _ h := h
  sample _ _ _ _ h := h
  beginInit _ _ h := h
  reset _ _ _ _ h := State.NumbersOk.of_sameFrames h (.of_reset rfl)
  endInit s _ h := h.of_sameFrames (.of_views s.initEnded_views)
  read s r _ _ _ h :=
    State.NumbersOk.acceptRead (s := { s with up := { s.up with reads := s.up.reads.tail } }) h r
  write s w _ _ _ h :=
    State.NumbersOk.of_sameFrames (s := { s with up := { s.up with writes := s.up.writes.tail } }) h
      (State.acceptWrite_sameFrames _ w)
  arriveRead _ _ h := h
  arriveWrite _ _ h := h
  hold s v h := h.of_sameFrames (s.expireHold_sameFrames v)
  idle s v h := h.of_sameFrames (s.expireIdle_sameFrames v)
  stall s i _ h := h.of_sameFrames (.of_views (s.onSource_views i _))
  grant s e g _ _ h := h.of_sameFrames (s.grantedTo_sameFrames e g)
  respond s e o m _ _ h := h.of_sameFrames (s.arrive_sameFrames e o m)
  mark _ h := h
  complete s sl r h := h.of_sameFrames (.of_views (s.completeTake_views sl r))
  partReset _ _ h := h
  setUpSource _ _ _ _ h := h
  enableSource _ _ _ h := h
  disableSource _ _ _ h := h
  setUpView _ _ _ hok h := State.NumbersOk.of_sameFrames h (State.setUpView_sameFrames hok)
  enableView s v _ _ h := State.NumbersOk.of_sameFrames h (s.enableView_sameFrames v)
  disableView s v _ _ h := h.of_sameFrames (s.disableView_sameFrames v)
  calLoad _ _ _ h := h
  zoomSet s sl _ h := h.of_sameFrames (.of_views (actZoomSet_views s sl))
  eventSetup s sl _ h := h.of_sameFrames (.of_views (actEventSetup_views s sl))
  eventForce s _ _ h := h.of_sameFrames (.of_views (s.raise_views _))

/-! ### The channels of a step that presents no request -/

theorem State.onView_channels (s : State) (i : Fin 2) (f : ViewEnv → ViewWork → ViewWork) :
    (s.onView i f).up.reads = s.up.reads ∧ (s.onView i f).up.writes = s.up.writes := by
  unfold State.onView
  split <;> simp

theorem State.quiet.congr {s t : State} (h : s.quiet) (hreads : t.up.reads = s.up.reads)
    (hwrites : t.up.writes = s.up.writes) : t.quiet := ⟨hreads.trans h.1, hwrites.trans h.2⟩

theorem State.quiet.acceptWaiting {s : State} (h : s.quiet) : s.acceptWaiting = s :=
  s.acceptWaiting_quiet h.1 h.2

theorem State.quiet.onView {s : State} (h : s.quiet) (i : Fin 2) (f : ViewEnv → ViewWork → ViewWork) :
    (s.onView i f).quiet := h.congr (s.onView_channels i f).1 (s.onView_channels i f).2

theorem State.quiet.grantedTo {s : State} (h : s.quiet) (e : Fin 64) (g : Requester) :
    (s.grantedTo e g).quiet := by
  have hup : (s.grantedTo e g).up = s.up := by cases g <;> simp [State.grantedTo, State.grantTo]
  exact h.congr (by rw [hup]) (by rw [hup])

theorem State.quiet.arrive {s : State} (h : s.quiet) (e : Fin 64) (o : OutEntry) (m : MemResp) :
    (s.arrive e o m).quiet := by
  refine State.arrive_keeps State.quiet s e o m h ?_
  cases o.owner with
  | forwarded tag num isRead beats => exact h
  | fetch v n sp => exact State.quiet.onView (s := s.freeOutstanding e) h v _
  | load sp => exact State.quiet.congr (s := s.freeOutstanding e) h (by simp [State.hand]) (by simp [State.hand])
  | recordWrite => exact h
  | mirrorWrite => exact h

theorem State.quiet.disableView {s : State} (h : s.quiet) (v : Fin 2) : (s.disableView v).quiet := by
  have hup : (s.disableView v).up.reads = s.up.reads ∧ (s.disableView v).up.writes = s.up.writes := by
    unfold State.disableView
    simp [State.onView_channels]
  exact h.congr hup.1 hup.2

/-- What a take of a slot keeps, when its owner's effect keeps it. -/
theorem State.take_keeps {P : State → Prop} (hviews : ∀ s t, t.views = s.views → t.up = s.up → P s → P t)
    (s : State) (mine : Slot → Bool) (act : OwnerAct)
    (hact : ∀ s sl, P s → (act sl s).1 = .ok → P (act sl s).2) (h : P s) : P (s.take mine act) := by
  have hmark : P s.markTaken := hviews s _ rfl rfl h
  unfold State.take
  split
  · next sl _ =>
    split
    · unfold State.runTake
      dsimp only
      split
      · exact hviews _ _ (by simp) (by simp) hmark
      · have heffect : P (if (act sl s.markTaken).1 = .ok then
            (act sl s.markTaken).2 else s.markTaken) := by
          split
          · next hok => exact hact _ _ hmark hok
          · exact hmark
        exact hviews _ _ (by simp) (by simp) heffect
    · exact h
  · exact h

/-- Nothing waits, and no frame has been opened since `s`. -/
def State.QuietSince (s t : State) : Prop := t.quiet ∧ s.SameFrames t

theorem State.QuietSince.of_views {s t u : State} (hviews : u.views = t.views) (hup : u.up = t.up)
    (h : s.QuietSince t) : s.QuietSince u :=
  ⟨h.1.congr (by rw [hup]) (by rw [hup]), h.2.trans (.of_views hviews)⟩

section
variable {s : State}

theorem State.QuietSince.actViewSetup (t : State) (sl : Slot) (h : s.QuietSince t)
    (hok : (actViewSetup sl t).1 = .ok) : s.QuietSince (actViewSetup sl t).2 := by
  unfold Machine.actViewSetup at hok ⊢
  split at hok
  · exact h
  · exact ⟨h.1, h.2.trans (State.setUpView_sameFrames hok)⟩

theorem State.QuietSince.actViewEnable (t : State) (sl : Slot) (h : s.QuietSince t) :
    s.QuietSince (actViewEnable sl t).2 := by
  unfold Machine.actViewEnable
  split
  · exact h
  · split_ifs
    · exact h
    · exact ⟨h.1, h.2.trans (t.enableView_sameFrames _)⟩
    · exact h

theorem State.QuietSince.actViewDisable (t : State) (sl : Slot) (h : s.QuietSince t) :
    s.QuietSince (actViewDisable sl t).2 := by
  unfold Machine.actViewDisable
  split
  · exact h
  · split_ifs
    · exact h
    · exact h
    · exact ⟨h.1.disableView _, h.2.trans (t.disableView_sameFrames _)⟩
    · exact h

theorem actSourceSetup_views (t : State) (sl : Slot) :
    (actSourceSetup sl t).2.views = t.views ∧ (actSourceSetup sl t).2.up = t.up := by
  unfold actSourceSetup
  split <;> exact ⟨rfl, rfl⟩

theorem actSourceEnable_views (t : State) (sl : Slot) :
    (actSourceEnable sl t).2.views = t.views ∧ (actSourceEnable sl t).2.up = t.up := by
  unfold actSourceEnable
  split
  · exact ⟨rfl, rfl⟩
  · split_ifs <;> exact ⟨rfl, rfl⟩

theorem actSourceDisable_views (t : State) (sl : Slot) :
    (actSourceDisable sl t).2.views = t.views ∧ (actSourceDisable sl t).2.up = t.up := by
  unfold actSourceDisable
  split
  · exact ⟨rfl, rfl⟩
  · split_ifs
    · exact ⟨rfl, rfl⟩
    · split <;> exact ⟨rfl, rfl⟩

theorem actZoomSet_up (t : State) (sl : Slot) : (actZoomSet sl t).2.up = t.up := by
  obtain ⟨zm, es, heq⟩ := actZoomSet_eq t sl
  rw [heq, State.raiseAll_up]

theorem actEventSetup_up (t : State) (sl : Slot) : (actEventSetup sl t).2.up = t.up := by
  unfold actEventSetup
  split <;> rfl

theorem actEventForce_views (t : State) (sl : Slot) :
    (actEventForce sl t).2.views = t.views ∧ (actEventForce sl t).2.up = t.up := by
  unfold actEventForce
  split
  · exact ⟨by simp, by simp⟩
  · exact ⟨rfl, rfl⟩

theorem State.QuietSince.take (t : State) (mine : Slot → Bool) (act : OwnerAct)
    (hact : ∀ u sl, s.QuietSince u → (act sl u).1 = .ok → s.QuietSince (act sl u).2)
    (h : s.QuietSince t) : s.QuietSince (t.take mine act) :=
  State.take_keeps (fun _ _ hviews hup h => h.of_views hviews hup) t mine act hact h

/-- An owner that touches neither views nor channels. -/
theorem State.QuietSince.take_of_views (t : State) (mine : Slot → Bool) (act : OwnerAct)
    (hact : ∀ u sl, (act sl u).2.views = u.views ∧ (act sl u).2.up = u.up)
    (h : s.QuietSince t) : s.QuietSince (t.take mine act) :=
  h.take t mine act fun u sl hu _ => hu.of_views (hact u sl).1 (hact u sl).2

theorem State.QuietSince.acceptWaiting {t : State} (h : s.QuietSince t) : s.QuietSince t.acceptWaiting := by
  rwa [h.1.acceptWaiting]

theorem State.QuietSince.takeReset {t : State} (h : t.quiet) (c : ResetCause) (ph : Phase) :
    s.QuietSince (t.takeReset c ph) := by
  rw [State.takeReset_eq]
  exact State.QuietSince.acceptWaiting ⟨h, .of_reset rfl⟩

theorem State.QuietSince.takePartReset {t : State} (h : s.QuietSince t) : s.QuietSince t.takePartReset := by
  unfold State.takePartReset
  split
  · split
    · dsimp only
      split
      · exact h.of_views (by simp) (by simp)
      · exact .takeReset h.1 _ _
    · exact h
  · exact h

theorem State.QuietSince.respond {t u : State} (h : s.QuietSince t) (e : Fin 64) (m : MemResp)
    (ht : t.respond e m = .next u) : s.QuietSince u := by
  unfold State.respond at ht
  split at ht
  · cases ht
  · split at ht
    · cases ht
      exact State.QuietSince.acceptWaiting ⟨h.1.arrive e _ m, h.2.trans (t.arrive_sameFrames e _ m)⟩
    · cases ht

end

/-- The rows that present a request on a channel. -/
def requestOf : Instr → Option Request
  | .passThroughRequest q => some q
  | .cameraRead r | .apertureRead r => some (.read r)
  | .cameraWrite w | .controlPageWrite w | .apertureWriteRefused w => some (.write w)
  | _ => none

theorem exec_of_requestOf {i : Instr} {q : Request} (s : State) (h : requestOf i = some q) :
    exec i s = s.request q := by
  cases i <;> simp only [requestOf, Option.some.injEq, reduceCtorEq] at h <;> subst h <;> rfl

/-- A row that presents no request opens no frame, when nothing waits. -/
theorem exec_quietSince {i : Instr} {s t : State} (hi : requestOf i = none) (hq : s.quiet)
    (ht : exec i s = .next t) : s.QuietSince t := by
  have h : s.QuietSince s := ⟨hq, .refl s⟩
  cases i with
  | powerOnReset => cases ht; exact ⟨⟨rfl, rfl⟩, .of_reset rfl⟩
  | powerOnHoldEnd cp clk =>
    cases ht
    unfold State.endHold
    split
    · exact h
    · exact h
  | pinReset =>
    cases ht
    unfold State.lowerRstN
    split
    · exact h
    · exact h
    · exact State.QuietSince.takeReset (t := { s with rstN := false }) hq _ _
    · exact State.QuietSince.takeReset (t := { s with rstN := false }) hq _ _
  | rstNRelease cp clk =>
    cases ht
    unfold State.raiseRstN
    split
    · exact h
    · split
      · exact h
      · exact h
    · exact h
    · exact h
  | endOfInitialization =>
    cases ht
    unfold State.endInit
    split
    · exact h.of_views s.initEnded_views (by simp)
    · exact h
  | holdLimitExpiry v =>
    cases ht
    exact State.QuietSince.acceptWaiting ⟨hq.onView v _, s.expireHold_sameFrames v⟩
  | idleTimerExpiry v => cases ht; exact ⟨hq.onView v _, s.expireIdle_sameFrames v⟩
  | watchdogExpiry i =>
    cases ht
    split
    · exact h.of_views (by simp) (by simp)
    · exact h
  | arbiterGrant =>
    cases ht
    refine State.QuietSince.acceptWaiting ?_
    unfold State.grant
    split
    · exact ⟨hq.grantedTo _ _, s.grantedTo_sameFrames _ _⟩
    · exact h
  | responseRelay e m => exact h.respond e m ht
  | discardedResponse e m => exact h.respond e m ht
  | fetchCompletion e m => exact h.respond e m ht
  | calibrationLoadEnd e m => exact h.respond e m ht
  | ownRequestResponse e m => exact h.respond e m ht
  | nop => cases ht; exact h.take_of_views s _ actNop fun _ _ => ⟨rfl, rfl⟩
  | sourceSetup => cases ht; exact h.take_of_views s _ _ actSourceSetup_views
  | sourceControlEnable => cases ht; exact h.take_of_views s _ _ actSourceEnable_views
  | sourceControlDisable => cases ht; exact h.take_of_views s _ _ actSourceDisable_views
  | viewSetup => cases ht; exact h.take s _ _ State.QuietSince.actViewSetup
  | viewControlEnable =>
    cases ht
    exact (h.take s _ _ fun t sl ht _ => ht.actViewEnable t sl).acceptWaiting
  | viewControlDisable =>
    cases ht
    exact (h.take s _ _ fun t sl ht _ => ht.actViewDisable t sl).acceptWaiting
  | calLoad => cases ht; exact h.take_of_views s _ actCalLoad fun _ _ => ⟨rfl, rfl⟩
  | zoomSet =>
    cases ht
    exact h.take_of_views s _ _ fun t sl => ⟨actZoomSet_views t sl, actZoomSet_up t sl⟩
  | eventSetup =>
    cases ht
    exact h.take_of_views s _ _ fun t sl => ⟨actEventSetup_views t sl, actEventSetup_up t sl⟩
  | eventForce => cases ht; exact h.take_of_views s _ _ actEventForce_views
  | partReset => cases ht; exact h.takePartReset
  | unknownCommandTake => cases ht; exact h.take_of_views s _ actUnknown fun _ _ => ⟨rfl, rfl⟩
  | passThroughRequest q => cases hi
  | cameraRead r => cases hi
  | cameraWrite w => cases hi
  | controlPageWrite w => cases hi
  | apertureRead r => cases hi
  | apertureWriteRefused w => cases hi

/-! ### The plan of an open frame (R95) -/

/-- A view that is OPEN in the same frame in two states has the same plan in both. -/
def State.PlansStay (s t : State) : Prop :=
  ∀ (v : Fin 2) (f g : FrameRecord), s.views[v].state = .opened f → t.views[v].state = .opened g →
    g.number = f.number → t.views[v].plan = s.views[v].plan

theorem State.SameFrames.plansStay {s t : State} (h : s.SameFrames t) : s.PlansStay t :=
  fun v _ g _ hg _ => (h v g hg).2.2

/-- The frame that a read opens has another number than the frame open before, so a plan is exchanged with
its frame. -/
theorem State.acceptRead_plansStay {s : State} (hn : s.NumbersOk) (q : ReadReq) :
    s.PlansStay (s.acceptRead q) := by
  rcases s.acceptRead_frames q with hsame | ⟨i, u, hsame, hother, -, f', hf', hnumber⟩
  · exact hsame.plansStay
  · intro v f g hf hg hfg
    obtain ⟨⟨f'', hf'', hnum⟩, -, hplan⟩ := hsame v g hg
    by_cases hv : v = i
    · subst hv
      rw [hf'] at hf''
      cases hf''
      rw [← hnum, hnumber, hn v f hf] at hfg
      exact absurd hfg (by bv_omega)
    · rw [hplan, hother v hv]

theorem State.request_plansStay {s t : State} {q : Request} (hq : s.quiet) (hn : s.NumbersOk)
    (ht : s.request q = .next t) : s.PlansStay t := by
  obtain ⟨hreads, hwrites⟩ := hq
  unfold State.request at ht
  split at ht
  · cases ht
    cases q with
    | read r =>
      show s.PlansStay (s.presentRead r)
      cases hc : s.canAcceptRead r with
      | true =>
        rw [State.presentRead_accepts s r hreads hwrites hc]
        exact State.acceptRead_plansStay hn r
      | false =>
        rw [State.presentRead_waits s r hreads hwrites hc]
        exact State.SameFrames.plansStay (.of_views rfl)
    | write w =>
      show s.PlansStay (s.presentWrite w)
      cases hc : s.canAcceptWrite w with
      | true =>
        rw [State.presentWrite_accepts s w hreads hwrites hc]
        exact (s.acceptWrite_sameFrames w).plansStay
      | false =>
        rw [State.presentWrite_waits s w hreads hwrites hc]
        exact State.SameFrames.plansStay (.of_views rfl)
  · cases ht

theorem step_plansStay {s t : State} (hq : s.quiet) (hn : s.NumbersOk) (ht : step s = .next t) :
    s.PlansStay t := by
  unfold step at ht
  split at ht
  · next c cs _ =>
    cases hc : requestOf c with
    | none =>
      obtain ⟨-, hsame⟩ := exec_quietSince (s := { s with pending := cs }) hc hq ht
      exact State.SameFrames.plansStay (s := s) hsame
    | some q =>
      rw [exec_of_requestOf _ hc] at ht
      exact State.request_plansStay (s := { s with pending := cs }) hq hn ht
  · cases ht
    exact State.SameFrames.plansStay (.of_views s.tick_views)

/-- Settles O58: only an opening exchanges a plan, and it takes the next number. -/
theorem planStaysInFrame : Obligations.PlanStaysInFrame := fun _ _ hn ht =>
  ⟨keeps_numbersOk.step hn ht, fun hq => step_plansStay hq hn ht⟩

end Sys2Proof.Machine
end

section
/-! PROOFS. The row caches (sections 7.1 to 7.4): a row is requested only while no live entry holds it
(R116), and a request only while the fetch queue has room (R120). And the state after a reset meets every
law. -/

namespace Sys2Proof.Machine

/-! ### Entries and keys (R116) -/

/-- An entry set keeps the rows of live entries distinct when no other live entry holds its row. -/
theorem View.cacheOk_setEntry {v w : View} {n : Fin 16} {c : CacheEntry} (h : v.CacheOk)
    (hcache : w.cache = v.cache.set n.val c n.isLt) (hroom : w.fetchQ.length ≤ 8)
    (hc : ∀ k, c.liveKey = some k → ∀ m, v.cache[m].liveKey = some k → m = n) : w.CacheOk := by
  refine ⟨fun m m' k hm hm' => ?_, hroom⟩
  rw [hcache, vector_get_set] at hm hm'
  split at hm
  · next hmn =>
    split at hm'
    · next hmn' => rw [hmn, hmn']
    · exact hmn.trans (hc k hm m' hm').symm
  · split at hm'
    · next hmn' => exact (hc k hm' m hm).trans hmn'.symm
    · exact h.1 m m' k hm hm'

/-- An entry without a row disturbs nothing. -/
theorem View.cacheOk_setEntry_dead {v w : View} {n : Fin 16} {c : CacheEntry} (h : v.CacheOk)
    (hcache : w.cache = v.cache.set n.val c n.isLt) (hroom : w.fetchQ.length ≤ 8)
    (hc : c.liveKey = none) : w.CacheOk :=
  View.cacheOk_setEntry h hcache hroom fun k hk => by rw [hc] at hk; cases hk

/-- An entry may change under its row. -/
theorem View.cacheOk_setEntry_sameKey {v w : View} {n : Fin 16} {c : CacheEntry} (h : v.CacheOk)
    (hcache : w.cache = v.cache.set n.val c n.isLt) (hroom : w.fetchQ.length ≤ 8)
    (hc : c.liveKey = v.cache[n].liveKey) : w.CacheOk :=
  View.cacheOk_setEntry h hcache hroom fun k hk m hm => h.1 m n k hm (hc ▸ hk)

theorem View.entryOf_none {v : View} {k : RowKey} (h : v.entryOf k = none) (m : Fin 16) :
    v.cache[m].liveKey ≠ some k := by
  have hm := List.find?_eq_none.mp h m (List.mem_finRange m)
  simpa using hm

/-- An entry may take a row that no live entry holds. -/
theorem View.cacheOk_setEntry_newKey {v w : View} {n : Fin 16} {c : CacheEntry} {k : RowKey}
    (h : v.CacheOk) (hcache : w.cache = v.cache.set n.val c n.isLt) (hroom : w.fetchQ.length ≤ 8)
    (hc : c.liveKey = some k) (hk : v.entryOf k = none) : w.CacheOk := by
  refine View.cacheOk_setEntry h hcache hroom fun k' hk' m hm => ?_
  obtain rfl := Option.some.inj (hc.symm.trans hk')
  exact absurd hm (View.entryOf_none hk m)

theorem View.entryOf_setEntry_empty {v w : View} {n : Fin 16} {k : RowKey}
    (hcache : w.cache = v.cache.set n.val .empty n.isLt) (hk : v.entryOf k = none) :
    w.entryOf k = none := by
  refine List.find?_eq_none.mpr fun m _ => ?_
  rw [hcache, vector_get_set]
  split
  · simp [CacheEntry.liveKey]
  · simpa using View.entryOf_none hk m

theorem placeInEntry_liveKey (segBase : Nat) (sp : Span) (m : MemResp) (c : CacheEntry) :
    (placeInEntry segBase sp m c).liveKey = c.liveKey := by
  cases c with
  | fetching k u d => cases hm : m.code <;> simp [placeInEntry, hm, CacheEntry.liveKey]
  | empty => rfl
  | valid k o px => rfl
  | failed k o => rfl
  | discarding => rfl

theorem issuedEntry_liveKey (segment : Nat) (c : CacheEntry) :
    (issuedEntry segment c).liveKey = c.liveKey := by
  cases c <;> rfl

theorem clearedEntry_liveKey (v : Fin 2) (fs : List Fetch) (n : Fin 16) (c : CacheEntry) :
    (clearedEntry v fs n c).liveKey = none := by
  cases c with
  | fetching k u d =>
    unfold clearedEntry
    dsimp only
    split <;> rfl
  | empty => rfl
  | valid k o px => rfl
  | failed k o => rfl
  | discarding => rfl

/-! ### Requests (R120 to R122) -/

theorem FetchQueue.length_lt_of_not_full {q : FetchQueue} (h : ¬ q.full = true) : q.length < 8 := by
  simpa [FetchQueue.full] using h

theorem View.CacheOk.requestNormal {e : ViewEnv} {v w : View} {k : RowKey} (h : v.CacheOk)
    (hk : v.entryOf k = none) (hw : requestNormal e v k = some w) : w.CacheOk := by
  unfold Machine.requestNormal at hw
  split at hw
  · cases hw
  · next hfull =>
    have hroom := FetchQueue.length_lt_of_not_full hfull
    obtain ⟨n, -, rfl⟩ := Option.map_eq_some_iff.mp hw
    refine View.cacheOk_setEntry_newKey h rfl ?_ rfl hk
    simp only [FetchQueue.length, List.length_append, List.length_singleton] at hroom ⊢
    omega

theorem View.CacheOk.placeUrgent {e : ViewEnv} {v w : View} {k : RowKey} (h : v.CacheOk)
    (hk : v.entryOf k = none) (hw : placeUrgent e v k = some w) : w.CacheOk := by
  unfold Machine.placeUrgent at hw
  split at hw
  · cases hw
  · next hfull =>
    have hroom := FetchQueue.length_lt_of_not_full hfull
    obtain ⟨n, -, rfl⟩ := Option.map_eq_some_iff.mp hw
    refine View.cacheOk_setEntry_newKey h rfl ?_ rfl hk
    simp only [FetchQueue.length, List.length_append, List.length_singleton] at hroom ⊢
    omega

/-- A displaced request gives up its entry; a row without a live entry still has none. -/
theorem View.CacheOk.displace {v w : View} {k : RowKey} (h : v.CacheOk) (hk : v.entryOf k = none)
    (hw : displace v = some w) : w.CacheOk ∧ w.entryOf k = none := by
  unfold Machine.displace at hw
  obtain ⟨n, -, rfl⟩ := Option.map_eq_some_iff.mp hw
  refine ⟨View.cacheOk_setEntry_dead h rfl ?_ rfl, View.entryOf_setEntry_empty rfl hk⟩
  have hroom := h.2
  simp only [FetchQueue.length, List.length_dropLast] at hroom ⊢
  omega

theorem View.CacheOk.requestUrgent {e : ViewEnv} {v w : View} {k : RowKey} (h : v.CacheOk)
    (hk : v.entryOf k = none) (hw : requestUrgent e v k = some w) : w.CacheOk := by
  unfold Machine.requestUrgent at hw
  split at hw
  · next hp => cases hw; exact h.placeUrgent hk hp
  · obtain ⟨u, hu, hp⟩ := Option.bind_eq_some_iff.mp hw
    obtain ⟨hok, hnone⟩ := h.displace hk hu
    exact hok.placeUrgent hnone hp

theorem View.CacheOk.prefetchKeys {v : View} (h : v.CacheOk) (e : ViewEnv) (ks : List RowKey) :
    (prefetchKeys e ks v).CacheOk := by
  induction ks generalizing v with
  | nil => exact h
  | cons k ks ih =>
    unfold Machine.prefetchKeys
    split
    · exact ih h
    · next hlive =>
      split
      · next hr => exact ih (h.requestNormal (by simpa using hlive) hr)
      · exact h

theorem ViewWork.promote_cacheOk {e : ViewEnv} {w : ViewWork} {n : Fin 16} {k : RowKey}
    {data : List Byte} (h : w.view.CacheOk) (hn : w.view.cache[n] = .fetching k false data) :
    (w.promote e n k data).view.CacheOk := by
  have hkey : (CacheEntry.fetching k true data).liveKey = w.view.cache[n].liveKey := by rw [hn]; rfl
  unfold ViewWork.promote
  dsimp only
  split
  · next hq =>
    refine View.cacheOk_setEntry_sameKey h rfl ?_ hkey
    have hmem : n ∈ w.view.fetchQ.normal := by simpa using hq
    have hpos := List.length_pos_of_mem hmem
    have hroom := h.2
    simp only [FetchQueue.length, View.setEntry, List.length_append, List.length_singleton,
      List.length_erase_of_mem hmem] at hroom ⊢
    omega
  · exact View.cacheOk_setEntry_sameKey h rfl h.2 hkey

theorem ViewWork.demandRow_cacheOk {e : ViewEnv} {w u : ViewWork} {k : RowKey} (h : w.view.CacheOk)
    (hu : w.demandRow e k = some u) : u.view.CacheOk := by
  unfold ViewWork.demandRow at hu
  split at hu
  · next hk =>
    obtain ⟨v, hv, rfl⟩ := Option.map_eq_some_iff.mp hu
    exact h.requestUrgent hk hv
  · split at hu
    · next hn => cases hu; exact ViewWork.promote_cacheOk h hn
    · cases hu; exact h

theorem ViewWork.demandRows_cacheOk (e : ViewEnv) (ks : List RowKey) {w : ViewWork}
    (h : w.view.CacheOk) : (w.demandRows e ks).view.CacheOk := by
  induction ks generalizing w with
  | nil => exact h
  | cons k ks ih =>
    unfold ViewWork.demandRows
    split
    · next hr => exact ih (ViewWork.demandRow_cacheOk h hr)
    · exact h

theorem ViewWork.demandPass_cacheOk (e : ViewEnv) {w : ViewWork} (h : w.view.CacheOk) :
    (w.demandPass e).view.CacheOk := ViewWork.demandRows_cacheOk e _ h

theorem ViewWork.prefetch_cacheOk (e : ViewEnv) (y : Nat) {w : ViewWork} (h : w.view.CacheOk) :
    (w.prefetch e y).view.CacheOk := h.prefetchKeys e _

theorem ViewWork.clear_cacheOk (i : Fin 2) (w : ViewWork) : (w.clear i).view.CacheOk := by
  refine ⟨fun m n k hm _ => ?_, Nat.zero_le _⟩
  simp [ViewWork.clear, clearedEntry_liveKey] at hm

/-! ### What a view's bookkeeping leaves of its cache -/

/-- The row cache and the fetch queue are as they were. -/
def ViewWork.SameCache (w u : ViewWork) : Prop :=
  u.view.cache = w.view.cache ∧ u.view.fetchQ = w.view.fetchQ

theorem ViewWork.SameCache.refl (w : ViewWork) : w.SameCache w := ⟨rfl, rfl⟩

theorem ViewWork.SameCache.trans {w u x : ViewWork} (h : w.SameCache u) (k : u.SameCache x) :
    w.SameCache x := ⟨k.1.trans h.1, k.2.trans h.2⟩

theorem View.CacheOk.congr {v w : View} (h : v.CacheOk) (hcache : w.cache = v.cache)
    (hqueue : w.fetchQ = v.fetchQ) : w.CacheOk := by
  unfold View.CacheOk
  rw [hcache, hqueue]
  exact h

theorem ViewWork.SameCache.cacheOk {w u : ViewWork} (h : w.SameCache u) (hw : w.view.CacheOk) :
    u.view.CacheOk := hw.congr h.1 h.2

theorem ViewWork.respond_sameCache (w : ViewWork) (a : UpResponse) : w.SameCache (w.respond a) := ⟨rfl, rfl⟩

theorem ViewWork.latencyTest_sameCache (e : ViewEnv) (p : Plan) (h : HeldRead) (y : Nat) (w : ViewWork) :
    w.SameCache (w.latencyTest e p h y) := by
  unfold ViewWork.latencyTest
  split
  · exact .refl w
  · dsimp only
    split_ifs
    · exact ⟨rfl, rfl⟩
    · exact ⟨rfl, rfl⟩
    · exact .refl w

theorem ViewWork.fetchError_sameCache (e : ViewEnv) (h : HeldRead) (w : ViewWork) :
    w.SameCache (w.fetchError e h) := by
  unfold ViewWork.fetchError
  split
  · exact .refl w
  · dsimp only
    split <;> exact ⟨rfl, rfl⟩

theorem ViewWork.countOwn_sameCache (e : ViewEnv) (h : HeldRead) (w : ViewWork) :
    w.SameCache (w.countOwn e h) := by
  unfold ViewWork.countOwn
  split
  · unfold ViewWork.countInFrame
    dsimp only
    split <;> exact ⟨rfl, rfl⟩
  · exact .refl w

theorem ViewWork.raiseUnderrun_sameCache (e : ViewEnv) (h : HeldRead) (w : ViewWork) :
    w.SameCache (w.raiseUnderrun e h) := by
  unfold ViewWork.raiseUnderrun
  split
  · exact .refl w
  · dsimp only
    split <;> exact ⟨rfl, rfl⟩

theorem ViewWork.underrun_sameCache (e : ViewEnv) (h : HeldRead) (w : ViewWork) :
    w.SameCache (w.underrun e h) :=
  (w.countOwn_sameCache e h).trans ((w.countOwn e h).countTotal.raiseUnderrun_sameCache e h)

theorem View.examineWarned_cache (v : View) (b : Bool) :
    (v.examineWarned b).cache = v.cache ∧ (v.examineWarned b).fetchQ = v.fetchQ := by
  unfold View.examineWarned
  split <;> exact ⟨rfl, rfl⟩

theorem ViewWork.closeFrame_sameCache (e : ViewEnv) (f : FrameRecord) (w : ViewWork) :
    w.SameCache (w.closeFrame e f) := by
  have hexamined := w.view.examineWarned_cache f.warned
  unfold ViewWork.closeFrame
  dsimp only
  split
  · exact hexamined
  · split_ifs <;> exact hexamined

theorem ViewWork.flushReads_sameCache (e : ViewEnv) (hs : List HeldRead) (w : ViewWork) :
    w.SameCache (hs.foldl (ViewWork.flushRead e) w) := by
  induction hs generalizing w with
  | nil => exact .refl w
  | cons h hs ih =>
    exact ((w.respond_sameCache _).trans (ViewWork.underrun_sameCache e h _)).trans (ih (w.flushRead e h))

theorem ViewWork.cutShort_sameCache (e : ViewEnv) (w : ViewWork) : w.SameCache (w.cutShort e) := by
  unfold ViewWork.cutShort
  split
  · exact w.closeFrame_sameCache e _
  · exact .refl w
  · exact .refl w

theorem ViewWork.openingStage1_sameCache (e : ViewEnv) (w : ViewWork) :
    w.SameCache (w.openingStage1 e) :=
  (w.flushReads_sameCache e w.view.held).trans (ViewWork.cutShort_sameCache e _)

theorem ViewWork.expireAt_sameCache (e : ViewEnv) (n : Nat) (w : ViewWork) :
    w.SameCache (w.expireAt e n) := by
  unfold ViewWork.expireAt
  split
  · exact ViewWork.underrun_sameCache e _ _
  · exact .refl w

theorem ViewWork.expireIdle_sameCache (e : ViewEnv) (w : ViewWork) : w.SameCache (w.expireIdle e) := by
  unfold ViewWork.expireIdle
  split
  · split
    · exact w.closeFrame_sameCache e _
    · exact .refl w
  · exact .refl w
  · exact .refl w

theorem ViewWork.closeNormal_sameCache (e : ViewEnv) (q : ReadReq) (w : ViewWork) :
    w.SameCache (w.closeNormal e q) := by
  unfold ViewWork.closeNormal
  split
  · split
    · exact w.closeFrame_sameCache e _
    · exact .refl w
  · exact .refl w
  · exact .refl w

/-! ### A view's step keeps its cache sound -/

theorem ViewWork.serve_cacheOk (e : ViewEnv) (p : Plan) (h : HeldRead) {w : ViewWork}
    (hw : w.view.CacheOk) : (w.serve e p h).view.CacheOk := by
  unfold ViewWork.serve
  dsimp only
  exact (ViewWork.latencyTest_sameCache e p h _ _).cacheOk
    (ViewWork.prefetch_cacheOk e _ (hw.congr rfl rfl))

theorem ViewWork.answerHead_cacheOk (e : ViewEnv) (h : HeldRead) (kind : AnswerKind) {w : ViewWork}
    (hw : w.view.CacheOk) : (w.answerHead e h kind).view.CacheOk := by
  unfold ViewWork.answerHead
  dsimp only
  refine ViewWork.demandPass_cacheOk e ?_
  split
  · exact ViewWork.serve_cacheOk e _ h hw
  · exact ((w.fetchError_sameCache e h).trans (ViewWork.respond_sameCache _ _)).cacheOk hw
  · exact (w.respond_sameCache _).cacheOk hw

theorem ViewWork.answerReads_cacheOk (e : ViewEnv) (n : Nat) {w : ViewWork} (hw : w.view.CacheOk) :
    (w.answerReads e n).view.CacheOk := by
  induction n generalizing w with
  | zero => exact hw
  | succ n ih =>
    unfold ViewWork.answerReads
    split
    · exact hw
    · split
      · exact ih (ViewWork.answerHead_cacheOk e _ _ hw)
      · exact hw

theorem ViewWork.answerAll_cacheOk (e : ViewEnv) {w : ViewWork} (hw : w.view.CacheOk) :
    (w.answerAll e).view.CacheOk := ViewWork.answerReads_cacheOk e _ hw

theorem ViewWork.expireHold_cacheOk (e : ViewEnv) {w : ViewWork} (hw : w.view.CacheOk) :
    (w.expireHold e).view.CacheOk := by
  unfold ViewWork.expireHold
  split
  · exact ViewWork.answerAll_cacheOk e ((w.expireAt_sameCache e _).cacheOk hw)
  · exact hw

theorem ViewWork.acceptRead_cacheOk (e : ViewEnv) (q : ReadReq) (rows : List Nat) {w : ViewWork}
    (hw : w.view.CacheOk) : (w.acceptRead e q rows).view.CacheOk := by
  have hjoin : w.SameCache (w.join e q rows) := ⟨rfl, rfl⟩
  exact ViewWork.demandPass_cacheOk e
    (ViewWork.answerAll_cacheOk e ((hjoin.trans (ViewWork.closeNormal_sameCache e q _)).cacheOk hw))

theorem View.CacheOk.completeEntry {v : View} (h : v.CacheOk) (n : Fin 16) (b : Bool) :
    (v.completeEntry n b).CacheOk := by
  unfold View.completeEntry
  dsimp only
  split
  · next k _ data hn =>
    refine View.cacheOk_setEntry_sameKey h rfl h.2 ?_
    rw [hn]
    split <;> rfl
  · exact View.cacheOk_setEntry_dead h rfl h.2 rfl
  all_goals exact h

theorem ViewWork.completeFetch_cacheOk (e : ViewEnv) (n : Fin 16) (b : Bool) {w : ViewWork}
    (hw : w.view.CacheOk) : (w.completeFetch e n b).view.CacheOk :=
  ViewWork.answerAll_cacheOk e (ViewWork.demandPass_cacheOk e (hw.completeEntry n b))

theorem ViewWork.fetchResponse_cacheOk (e : ViewEnv) (n : Fin 16) (sp : Span) (m : MemResp)
    {w : ViewWork} (hw : w.view.CacheOk) : (w.fetchResponse e n sp m).view.CacheOk := by
  unfold ViewWork.fetchResponse
  split
  · exact hw
  · next f _ =>
    have hplaced : (w.view.setEntry n (placeInEntry f.segBase sp m w.view.cache[n])).CacheOk :=
      View.cacheOk_setEntry_sameKey hw rfl hw.2 (placeInEntry_liveKey _ _ _ _)
    dsimp only
    split
    · exact ViewWork.completeFetch_cacheOk (w := { w with view := _ }) e n _ hplaced
    · exact hplaced

/-! ### The part -/

theorem State.CachesOk.congr {s t : State} (h : s.CachesOk) (hviews : t.views = s.views) : t.CachesOk := by
  intro v
  rw [hviews]
  exact h v

theorem State.cachesOk_reset {t : State} (h : t.views = Vector.replicate 2 View.reset) : t.CachesOk := by
  intro v
  rw [h]
  refine ⟨fun m n k hm _ => ?_, ?_⟩
  · simp [View.reset, CacheEntry.liveKey] at hm
  · simp [View.reset, FetchQueue.length]

theorem State.CachesOk.set {s t : State} {v : Fin 2} {x : View} (h : s.CachesOk)
    (hviews : t.views = s.views.set v.val x v.isLt) (hx : x.CacheOk) : t.CachesOk := by
  intro j
  rw [hviews, vector_get_set]
  split
  · exact hx
  · exact h j

theorem State.CachesOk.onView {s : State} (h : s.CachesOk) (i : Fin 2)
    {f : ViewEnv → ViewWork → ViewWork}
    (hf : ∀ e w, w.view.CacheOk → (f e w).view.CacheOk) : (s.onView i f).CachesOk := by
  intro j
  by_cases hj : j = i
  · subst hj
    cases hr : s.views[j].record with
    | none =>
      have hsame : s.onView j f = s := by simp only [State.onView, hr]
      rw [hsame]
      exact h j
    | some r =>
      rw [State.onView_same s j f r hr]
      exact hf _ _ (h j)
  · rw [State.onView_other _ _ _ _ hj]
    exact h j

theorem State.CachesOk.openFrame {s : State} (h : s.CachesOk) (i : Fin 2) (rows : List Nat) :
    (s.openFrame i rows).CachesOk := by
  have hopened : (s.onView i fun e w => (w.openingStage1 e).openingStage2 e rows).CachesOk :=
    h.onView i fun e w hw => (w.openingStage1_sameCache e).cacheOk hw
  have hbefore : (s.beforeLatch i rows).CachesOk := by
    unfold State.beforeLatch
    dsimp only
    split
    · exact hopened.congr (by simp)
    · exact hopened
  have hlatched : ((s.beforeLatch i rows).latchStages i).CachesOk := by
    unfold State.latchStages
    split
    · exact hbefore
    · refine State.CachesOk.onView (hbefore.set (v := i) rfl ?_) i
        fun e w _ => ViewWork.prefetch_cacheOk e 0 (w.clear_cacheOk i)
      exact View.CacheOk.congr (hbefore i) rfl rfl
  rw [State.openFrame_eq]
  split
  · exact hlatched.congr (by simp)
  · exact hlatched

theorem State.CachesOk.acceptRead {s : State} (h : s.CachesOk) (q : ReadReq) :
    (s.acceptRead q).CachesOk := by
  unfold State.acceptRead
  split
  · next i _ _ =>
    refine State.CachesOk.congr (s := s.acceptAperture i q) ?_ (by simp)
    unfold State.acceptAperture
    split
    · exact h
    · dsimp only
      refine State.CachesOk.onView ?_ i fun e w hw => w.acceptRead_cacheOk e q _ hw
      split
      · exact h.openFrame i _
      · exact h
  all_goals exact h

theorem State.CachesOk.grantedTo {s : State} (h : s.CachesOk) (e : Fin 64) (g : Requester) :
    (s.grantedTo e g).CachesOk := by
  cases g with
  | pass => exact h.congr (by simp [State.grantedTo, State.grantTo])
  | report => exact h.congr (by simp [State.grantedTo, State.grantTo])
  | cal => exact h.congr (by simp [State.grantedTo, State.grantTo])
  | view v =>
    show State.CachesOk { s.grantView e v with arb := _ }
    unfold State.grantView
    split
    · next f _ =>
      split
      · split
        · refine h.set (v := f.view) rfl
            (View.cacheOk_setEntry_sameKey (h f.view) rfl ?_ (issuedEntry_liveKey _ _))
          have hroom := (h f.view).2
          have hurgent := List.length_erase_le (a := f.entry) (l := s.views[f.view].fetchQ.urgent)
          have hnormal := List.length_erase_le (a := f.entry) (l := s.views[f.view].fetchQ.normal)
          exact le_trans (Nat.add_le_add hurgent hnormal) hroom
        · exact h
      · exact h
    · exact h

theorem State.CachesOk.arrive {s : State} (h : s.CachesOk) (e : Fin 64) (o : OutEntry) (m : MemResp) :
    (s.arrive e o m).CachesOk := by
  refine State.arrive_keeps State.CachesOk s e o m h ?_
  cases o.owner with
  | forwarded tag num isRead beats => exact h
  | fetch v n sp =>
    exact State.CachesOk.onView (s := s.freeOutstanding e) h v
      fun env w hw => w.fetchResponse_cacheOk env n sp m hw
  | load sp => exact State.CachesOk.congr (s := s) h (by simp [State.hand])
  | recordWrite => exact h
  | mirrorWrite => exact h

theorem State.CachesOk.disableView {s : State} (h : s.CachesOk) (v : Fin 2) :
    (s.disableView v).CachesOk := by
  have hcleared := State.CachesOk.onView
    (s := { s with
      up := { s.up with responses := s.up.responses ++ fillHeld s.views[v] }
      sources := releasePlan s.sources s.views[v].plan })
    h v (f := fun _ w => w.clear v) fun _ w _ => w.clear_cacheOk v
  unfold State.disableView
  dsimp only
  refine State.CachesOk.congr ?_ (State.settleAges_views _)
  exact hcleared.set (v := v) rfl (View.CacheOk.congr (hcleared v) rfl rfl)

theorem keeps_cachesOk : Keeps State.CachesOk where
  queue _ _ h := h
  tick s h := h.congr s.tick_views
  draw _ h := h
  powerOn _ _ := State.cachesOk_reset rfl
  pin _ _ h := h
  sample _ _ _ _ h := h
  beginInit _ _ h := h
  reset _ _ _ _ _ := State.cachesOk_reset rfl
  endInit s _ h := h.congr s.initEnded_views
  read s r _ _ _ h :=
    State.CachesOk.acceptRead (s := { s with up := { s.up with reads := s.up.reads.tail } }) h r
  write _ w _ _ _ h := h.congr (State.acceptWrite_views _ w)
  arriveRead _ _ h := h
  arriveWrite _ _ h := h
  hold _ v h := h.onView v fun e w hw => w.expireHold_cacheOk e hw
  idle _ v h := h.onView v fun e w hw => (w.expireIdle_sameCache e).cacheOk hw
  stall s i _ h := h.congr (s.onSource_views i _)
  grant _ e g _ _ h := h.grantedTo e g
  respond _ e o m _ _ h := h.arrive e o m
  mark _ h := h
  complete s sl r h := h.congr (s.completeTake_views sl r)
  partReset _ _ h := h
  setUpSource _ _ _ _ h := h
  enableSource _ _ _ h := h
  disableSource _ _ _ h := h
  setUpView _ v _ _ h := h.set (v := v) rfl (View.CacheOk.congr (h v) rfl rfl)
  enableView _ v _ _ h := h.set (v := v) rfl (View.CacheOk.congr (h v) rfl rfl)
  disableView _ v _ _ h := h.disableView v
  calLoad _ _ _ h := h
  zoomSet s sl _ h := h.congr (actZoomSet_views s sl)
  eventSetup s sl _ h := h.congr (actEventSetup_views s sl)
  eventForce s _ _ h := h.congr (s.raise_views _)

/-- Settles O59: rows are requested only where no live entry holds them, and only into a queue with room. -/
theorem cachesKept : Obligations.CachesKept := fun _ _ h ht => keeps_cachesOk.step h ht

/-! ### The state after a reset -/

theorem State.reset_passBounded : State.reset.PassBounded := by
  simp [State.PassBounded, State.queuedReads, State.queuedWrites, State.reset]

theorem State.reset_numbersOk : State.reset.NumbersOk := by
  intro v f hf
  simp [State.reset, View.reset] at hf

/-- Settles O60: after a reset every block holds its reset values, and those meet each law. -/
theorem resetMeetsLaws : Obligations.ResetMeetsLaws :=
  ⟨Report.reset_bounded .power, State.mapsOk_reset rfl, State.pinsOk_reset rfl rfl,
    State.tornOk_reset rfl, State.tableOk_control State.reset_windows,
    State.flagsOk_control State.reset_windows (by decide), State.heldBounded_reset rfl,
    State.reset_passBounded, CommandUnit.reset_inStep, Arbiter.reset_agesOk, CalStore.reset_inRange,
    State.zoomOk_reset rfl rfl, State.correctionsOk_reset rfl rfl, State.reset_numbersOk,
    State.cachesOk_reset rfl⟩

end Sys2Proof.Machine
end

section
/-! PROOFS. The request rows (chapter 8). A request that meets empty channels is accepted when its place has
room and waits otherwise; where it goes is its window's kind. And the steps that change nothing, or stop the
part. -/

namespace Sys2Proof.Machine

/-! ### Rows that are not due -/

theorem step_empty {s : State} (h : s.pending = []) : step s = .next s.tick := by
  unfold step
  rw [h]

theorem State.tick_of_time {s : State} (h : s.phase = .initializing ∨ s.phase = .running) :
    s.tick = { s with timeBase := s.timeBase + 1 } := by
  rw [State.tick_eq]
  rcases h with h | h <;> simp only [h]

theorem State.tick_of_hold {s : State} (h : s.phase = .powerOnHold ∨ s.phase = .pinHold) : s.tick = s := by
  rw [State.tick_eq]
  rcases h with h | h <;> simp only [h]

theorem State.endInit_of_not_due {s : State}
    (h : ¬ (s.phase = .initializing ∧ initTime ≤ s.timeBase.toNat)) : s.endInit = s := if_neg h

theorem State.take_of_not_ready {s : State} (mine : Slot → Bool) (act : OwnerAct)
    (h : s.readySlot = none) : s.take mine act = s := by
  simp only [State.take, h]

theorem State.readySlot_eq_none_iff (s : State) :
    s.readySlot = none ↔ s.cmd.slots[s.cmd.next].state ≠ .ready := by
  unfold State.readySlot
  dsimp only
  split <;> simp_all

/-- A row that takes a slot leaves the state while the slot at the pointer is not READY. -/
theorem exec_commandRow_not_ready {s : State} {i : Instr} (hq : s.quiet) (hi : (commandRow i).isSome = true)
    (h : s.readySlot = none) : exec i s = .next s := by
  obtain ⟨⟨mine, act⟩, hrow⟩ := Option.isSome_iff_exists.mp hi
  by_cases hpr : i = .partReset
  · subst hpr
    have htake : s.takePartReset = s := by simp only [State.takePartReset, h]
    exact congrArg Host.Outcome.next htake
  · have htake := State.take_of_not_ready mine act h
    rcases exec_of_commandRow s hrow hpr with he | he
    · rw [he, htake]
    · rw [he, htake, hq.acceptWaiting]

theorem State.onView_of_none {s : State} {v : Fin 2} (f : ViewEnv → ViewWork → ViewWork)
    (h : s.views[v].record = none) : s.onView v f = s := by
  simp only [State.onView, h]

/-- What view `i` reads in a step of its own. -/
def State.envOf (s : State) (i : Fin 2) (r : ViewRecord) : ViewEnv := ⟨i, r, s.timeBase, s.sources⟩

/-- The work of view `i` at the start of a step of its own. -/
def State.workOf (s : State) (i : Fin 2) : ViewWork := ⟨s.views[i], s.inflight, [], [], s.draws⟩

/-- The part with the work of a step of view `i` put back, but for its events. -/
def State.putWork (s : State) (i : Fin 2) (w : ViewWork) : State :=
  { s with
    views := s.views.set i.val w.view i.isLt
    inflight := w.inflight
    up := { s.up with responses := s.up.responses ++ w.answers }
    draws := w.draws }

theorem State.onView_of_record {s : State} {i : Fin 2} {r : ViewRecord}
    (f : ViewEnv → ViewWork → ViewWork) (h : s.views[i].record = some r) :
    s.onView i f = (s.putWork i (f (s.envOf i r) (s.workOf i))).raiseAll
      (f (s.envOf i r) (s.workOf i)).events := by
  simp only [State.onView, h]
  rfl

/-- A view's step that leaves its work as it is leaves the part. -/
theorem State.onView_of_same {s : State} {v : Fin 2} (f : ViewEnv → ViewWork → ViewWork)
    (h : ∀ r, s.views[v].record = some r →
      f ⟨v, r, s.timeBase, s.sources⟩ ⟨s.views[v], s.inflight, [], [], s.draws⟩ =
        ⟨s.views[v], s.inflight, [], [], s.draws⟩) : s.onView v f = s := by
  unfold State.onView
  split
  · rfl
  · next r hr =>
    have hviews : s.views.set v.val s.views[v] v.isLt = s.views := by simp
    simp only [h r hr, hviews, List.append_nil]
    rfl

theorem ViewWork.expireHold_of_none_due {e : ViewEnv} {w : ViewWork}
    (h : ∀ x ∈ w.view.held, w.view.holdDue e.conf.holdLimit e.now x = false) : w.expireHold e = w := by
  have hnone : w.view.held.findIdx? (w.view.holdDue e.conf.holdLimit e.now) = none := by
    simpa [List.findIdx?_eq_none_iff] using h
  simp only [ViewWork.expireHold, hnone]

theorem ViewWork.expireIdle_of_idle {e : ViewEnv} {w : ViewWork} (h : w.view.state = .idle) :
    w.expireIdle e = w := by
  simp only [ViewWork.expireIdle, h]

theorem exec_watchdogExpiry_not_due {s : State} {i : Fin 4}
    (h : s.sources[i].watchdogDue s.timeBase = false) : exec (.watchdogExpiry i) s = .next s := by
  have hrow : exec (.watchdogExpiry i) s = .next (if s.sources[i].watchdogDue s.timeBase then
      s.onSource i fun src => src.stall i else s) := rfl
  rw [hrow, h]
  rfl

theorem exec_idleTimerExpiry_not_due {s : State} {v : Fin 2}
    (h : ∀ r, s.views[v].record = some r →
      ViewWork.expireIdle ⟨v, r, s.timeBase, s.sources⟩ ⟨s.views[v], s.inflight, [], [], s.draws⟩ =
        ⟨s.views[v], s.inflight, [], [], s.draws⟩) : exec (.idleTimerExpiry v) s = .next s :=
  congrArg Host.Outcome.next (s.onView_of_same (fun e w => w.expireIdle e) h)

theorem exec_holdLimitExpiry_not_due {s : State} {v : Fin 2} (hq : s.quiet)
    (h : ∀ r, s.views[v].record = some r →
      ∀ x ∈ s.views[v].held, s.views[v].holdDue r.holdLimit s.timeBase x = false) :
    exec (.holdLimitExpiry v) s = .next s := by
  have hrow : exec (.holdLimitExpiry v) s =
      .next (s.onView v fun e w => w.expireHold e).acceptWaiting := rfl
  rw [hrow, s.onView_of_same _ fun r hr => ViewWork.expireHold_of_none_due (h r hr), hq.acceptWaiting]

/-! ### Traffic that no port gives (R137, R138) -/

theorem exec_malformed {i : Instr} {q : Request} (s : State) (hi : requestOf i = some q)
    (h : q.wf = false) : exec i s = .fault .malformedRequest := by
  rw [exec_of_requestOf s hi, State.request, h]
  rfl

/-- The rows of a response. -/
def responseRows (e : Fin 64) (m : MemResp) : List Instr :=
  [.responseRelay e m, .discardedResponse e m, .fetchCompletion e m, .calibrationLoadEnd e m,
    .ownRequestResponse e m]

theorem exec_of_responseRow {i : Instr} {e : Fin 64} {m : MemResp} (s : State)
    (h : i ∈ responseRows e m) : exec i s = s.respond e m := by
  simp only [responseRows, List.mem_cons, List.not_mem_nil, or_false] at h
  rcases h with rfl | rfl | rfl | rfl | rfl <;> rfl

theorem State.respond_unmatched {s : State} {e : Fin 64} (m : MemResp) (h : s.outstanding[e] = none) :
    s.respond e m = .fault .unmatchedResponse := by
  simp only [State.respond, h]

theorem State.respond_malformed {s : State} {e : Fin 64} {m : MemResp} {o : OutEntry}
    (h : s.outstanding[e] = some o) (hlen : m.data.length ≠ o.owner.dataLength) :
    s.respond e m = .fault .malformedResponse := by
  simp only [State.respond, h, if_neg hlen]

theorem State.respond_matched {s : State} {e : Fin 64} {m : MemResp} {o : OutEntry}
    (h : s.outstanding[e] = some o) (hlen : m.data.length = o.owner.dataLength) :
    s.respond e m = .next (s.arrive e o m).acceptWaiting := by
  simp only [State.respond, h, if_pos hlen]

/-- Settles O1: `exec` is what a step runs. -/
theorem frontCommandRuns : Obligations.FrontCommandRuns := fun _ _ _ => rfl

/-- Settles O2: each row by the test that it fails, or by the shape that its request or response lacks. -/
theorem idleStepsUndueRowsAndBadTraffic : Obligations.IdleStepsUndueRowsAndBadTraffic := by
  refine ⟨fun s hp => ⟨fun h => ?_, fun h => ?_⟩, fun s h => ?_, fun s i h => ?_, fun s v h => ?_,
    fun s v hq h => ?_, fun s i hq hi h => ?_, fun s q h => exec_malformed s rfl h,
    fun s r h => ⟨exec_malformed s rfl h, exec_malformed s rfl h⟩,
    fun s w h => ⟨exec_malformed s rfl h, exec_malformed s rfl h, exec_malformed s rfl h⟩,
    fun s e m i hi => ⟨fun h => ?_, fun o ho hlen => ?_⟩⟩
  · rw [step_empty hp, State.tick_of_time h]
  · rw [step_empty hp, State.tick_of_hold h]
  · exact congrArg Host.Outcome.next (State.endInit_of_not_due fun hd => h hd.1)
  · exact exec_watchdogExpiry_not_due (by simp only [Source.watchdogDue, h])
  · exact exec_idleTimerExpiry_not_due fun r _ => ViewWork.expireIdle_of_idle h
  · refine exec_holdLimitExpiry_not_due hq fun r _ x hx => ?_
    rw [h] at hx
    cases hx
  · exact exec_commandRow_not_ready hq hi ((s.readySlot_eq_none_iff).mpr h)
  · rw [exec_of_responseRow s hi, State.respond_unmatched m h]
  · rw [exec_of_responseRow s hi, State.respond_malformed ho hlen]

/-! ### The window of an address (R140) -/

theorem State.apertureAt_of_aperture {s : State} {a : Addr} {b l : Nat} {v : Fin 2} {act : Bool}
    (h : s.windowAt a = some ⟨b, l, .aperture v, act⟩) : s.apertureAt a = some v := by
  simp only [State.apertureAt, h]

theorem State.apertureAt_of_camera {s : State} {a : Addr} {b l : Nat} {i : Fin 4} {k : Nat} {act : Bool}
    (h : s.windowAt a = some ⟨b, l, .camera i k, act⟩) : s.apertureAt a = none := by
  simp only [State.apertureAt, h]

theorem State.apertureAt_of_control {s : State} {a : Addr} {b l : Nat} {act : Bool}
    (h : s.windowAt a = some ⟨b, l, .control, act⟩) : s.apertureAt a = none := by
  simp only [State.apertureAt, h]

theorem State.apertureAt_of_none {s : State} {a : Addr} (h : s.windowAt a = none) :
    s.apertureAt a = none := by
  simp only [State.apertureAt, h]

theorem State.windowAt_of_not_running {s : State} (a : Addr) (h : s.phase ≠ .running) :
    s.windowAt a = none := if_neg h

/-! ### Room (R128, R147, R153) -/

/-- A read has room in its view, or in the pass-through queue. -/
theorem State.canAcceptRead_iff (s : State) (r : ReadReq) : s.canAcceptRead r = true ↔
    (∀ v, s.apertureAt r.addr = some v → s.views[v].held.length < 8) ∧
    (s.apertureAt r.addr = none → s.queuedReads < 16) := by
  unfold State.canAcceptRead
  cases s.apertureAt r.addr with
  | none =>
    simp only [reduceCtorEq, false_implies, implies_true, true_and, forall_const]
    exact decide_eq_true_iff
  | some v =>
    simp only [Option.some.injEq, forall_eq', reduceCtorEq, false_implies, and_true]
    exact decide_eq_true_iff

/-- A write in an aperture always has room. -/
theorem State.canAcceptWrite_iff (s : State) (w : WriteReq) :
    s.canAcceptWrite w = true ↔ (s.apertureAt w.addr = none → s.queuedWrites < 16) := by
  unfold State.canAcceptWrite
  cases s.apertureAt w.addr with
  | none =>
    simp only [forall_const]
    exact decide_eq_true_iff
  | some v => simp

theorem State.canAcceptRead_of_view {s : State} {r : ReadReq} {v : Fin 2}
    (ha : s.apertureAt r.addr = some v) (h : s.views[v].held.length < 8) : s.canAcceptRead r = true := by
  rw [State.canAcceptRead_iff, ha]
  exact ⟨fun u hu => Option.some.inj hu ▸ h, fun hn => by cases hn⟩

theorem State.canAcceptRead_of_queue {s : State} {r : ReadReq} (ha : s.apertureAt r.addr = none)
    (h : s.queuedReads < 16) : s.canAcceptRead r = true := by
  rw [State.canAcceptRead_iff, ha]
  exact ⟨fun u hu => (Option.some_ne_none u hu.symm).elim, fun _ => h⟩

theorem State.canAcceptWrite_of_queue {s : State} {w : WriteReq}
    (h : s.queuedWrites < 16) : s.canAcceptWrite w = true :=
  (s.canAcceptWrite_iff w).mpr fun _ => h

theorem exec_read_accepted {i : Instr} {s : State} {r : ReadReq} (hi : requestOf i = some (.read r))
    (hwf : r.wf = true) (hq : s.quiet) (hc : s.canAcceptRead r = true) :
    exec i s = .next (s.acceptRead r) := by
  have hwf' : (Request.read r).wf = true := hwf
  rw [exec_of_requestOf s hi, State.request, if_pos hwf']
  exact congrArg Host.Outcome.next (s.presentRead_accepts r hq.1 hq.2 hc)

theorem exec_read_waits {i : Instr} {s : State} {r : ReadReq} (hi : requestOf i = some (.read r))
    (hwf : r.wf = true) (hq : s.quiet) (hc : s.canAcceptRead r = false) :
    exec i s = .next { s with up := { s.up with reads := [r] } } := by
  have hwf' : (Request.read r).wf = true := hwf
  rw [exec_of_requestOf s hi, State.request, if_pos hwf']
  exact congrArg Host.Outcome.next (s.presentRead_waits r hq.1 hq.2 hc)

theorem exec_write_accepted {i : Instr} {s : State} {w : WriteReq} (hi : requestOf i = some (.write w))
    (hwf : w.wf = true) (hq : s.quiet) (hc : s.canAcceptWrite w = true) :
    exec i s = .next (s.acceptWrite w) := by
  have hwf' : (Request.write w).wf = true := hwf
  rw [exec_of_requestOf s hi, State.request, if_pos hwf']
  exact congrArg Host.Outcome.next (s.presentWrite_accepts w hq.1 hq.2 hc)

theorem exec_write_waits {i : Instr} {s : State} {w : WriteReq} (hi : requestOf i = some (.write w))
    (hwf : w.wf = true) (hq : s.quiet) (hc : s.canAcceptWrite w = false) :
    exec i s = .next { s with up := { s.up with writes := [w] } } := by
  have hwf' : (Request.write w).wf = true := hwf
  rw [exec_of_requestOf s hi, State.request, if_pos hwf']
  exact congrArg Host.Outcome.next (s.presentWrite_waits w hq.1 hq.2 hc)

/-! ### Where an accepted request goes (R140 to R147) -/

theorem State.acceptRead_of_none {s : State} {r : ReadReq} (h : s.windowAt r.addr = none) :
    s.acceptRead r = s.forward (.read r) := by
  simp only [State.acceptRead, h]

theorem State.acceptRead_of_control {s : State} {r : ReadReq} {b l : Nat} {a : Bool}
    (h : s.windowAt r.addr = some ⟨b, l, .control, a⟩) : s.acceptRead r = s.forward (.read r) := by
  simp only [State.acceptRead, h]

theorem State.acceptRead_of_aperture {s : State} {r : ReadReq} {b l : Nat} {v : Fin 2} {a : Bool}
    (h : s.windowAt r.addr = some ⟨b, l, .aperture v, a⟩) :
    s.acceptRead r = (s.acceptAperture v r).settleAges := by
  simp only [State.acceptRead, h]

theorem State.acceptRead_of_camera {s : State} {r : ReadReq} {b l : Nat} {i : Fin 4} {k : Nat} {a : Bool}
    (h : s.windowAt r.addr = some ⟨b, l, .camera i k, a⟩) : s.acceptRead r =
      s.forward (.read { r with addr := s.translated i k ⟨b, l, .camera i k, a⟩ r.addr }) := by
  simp only [State.acceptRead, h]

theorem State.acceptWrite_of_none {s : State} {w : WriteReq} (h : s.windowAt w.addr = none) :
    s.acceptWrite w = s.forward (.write w) := by
  simp only [State.acceptWrite, h]

theorem State.acceptWrite_of_aperture {s : State} {w : WriteReq} {b l : Nat} {v : Fin 2} {a : Bool}
    (h : s.windowAt w.addr = some ⟨b, l, .aperture v, a⟩) :
    s.acceptWrite w = s.refuseWrite v (w.addr.toNat - b) w := by
  simp only [State.acceptWrite, h]

theorem State.acceptWrite_of_camera {s : State} {w : WriteReq} {b l : Nat} {i : Fin 4} {k : Nat} {a : Bool}
    (h : s.windowAt w.addr = some ⟨b, l, .camera i k, a⟩) :
    s.acceptWrite w = s.cameraWrite ⟨b, l, .camera i k, a⟩ i k w := by
  simp only [State.acceptWrite, h]

theorem State.acceptWrite_of_control {s : State} {w : WriteReq} {b l : Nat} {a : Bool}
    (h : s.windowAt w.addr = some ⟨b, l, .control, a⟩) :
    s.acceptWrite w = (s.copyControl (w.addr.toNat - b) w).forward (.write w) := by
  simp only [State.acceptWrite, h]

/-- A window stands only in running. -/
theorem State.running_of_windowAt {s : State} {a : Addr} {w : Window} (h : s.windowAt a = some w) :
    s.phase = .running := by
  by_contra hp
  rw [s.windowAt_of_not_running a hp] at h
  cases h

/-- Settles O6: where the window is none or CONTROL the request joins the pass-through queue, or waits while
the queue or the view is full. -/
theorem requestsForwardedOrWaiting : Obligations.RequestsForwardedOrWaiting := by
  refine ⟨fun s r hwf hq hw hroom => ?_, fun s w hwf hq hw hroom => ?_,
    fun s a h => s.windowAt_of_not_running a h, fun s r b l a hwf hq hw hroom => ?_,
    fun s r v hwf hq ha hfull => ?_, fun s r hwf hq ha hfull => ?_, fun s w hwf hq ha hfull => ?_⟩
  · rw [exec_read_accepted rfl hwf hq (State.canAcceptRead_of_queue (State.apertureAt_of_none hw) hroom),
      State.acceptRead_of_none hw]
    rfl
  · rw [exec_write_accepted rfl hwf hq (State.canAcceptWrite_of_queue hroom),
      State.acceptWrite_of_none hw]
    rfl
  · rw [exec_read_accepted rfl hwf hq (State.canAcceptRead_of_queue (State.apertureAt_of_control hw) hroom),
      State.acceptRead_of_control hw]
    rfl
  · refine exec_read_waits rfl hwf hq (Bool.eq_false_iff.mpr fun hc => ?_)
    have hroom := ((s.canAcceptRead_iff r).mp hc).1 v ha
    omega
  · refine exec_read_waits rfl hwf hq (Bool.eq_false_iff.mpr fun hc => ?_)
    have hroom := ((s.canAcceptRead_iff r).mp hc).2 ha
    omega
  · refine exec_write_waits rfl hwf hq (Bool.eq_false_iff.mpr fun hc => ?_)
    have hroom := (s.canAcceptWrite_iff w).mp hc ha
    omega

/-! ### Translation (R10) -/

theorem Source.translate_eq {src : Source} {r : SourceRecord} {k p : Nat} (off : Nat)
    (hr : src.record = some r) (hp : src.ringMap[k]? = some p) :
    src.translate k off = some (r.storeBase p + off) := by
  simp only [Source.translate, hr, hp]

theorem State.translated_eq {s : State} {i : Fin 4} {r : SourceRecord} {k p : Nat} (w : Window) (a : Addr)
    (hr : s.sources[i].record = some r) (hp : s.sources[i].ringMap[k]? = some p) :
    s.translated i k w a = BitVec.ofNat 40 (r.storeBase p + (a.toNat - w.base)) := by
  simp only [State.translated, Source.translate_eq _ hr hp, Option.map_some, Option.getD_some]

/-- A write of another master leaves its source. -/
theorem Source.onWrite_of_other {src : Source} {r : SourceRecord} {w : WriteReq} (i : Fin 4)
    (active : Option CalSet) (now : Word) (k off : Nat) (hr : src.record = some r) (ht : w.tag ≠ r.tag) :
    src.onWrite i active now k off w = (src, []) := by
  simp only [Source.onWrite, hr, if_neg ht]

theorem State.onSource_of_same {s : State} {i : Fin 4} {f : Source → Source × List Event}
    (h : f s.sources[i] = (s.sources[i], [])) : s.onSource i f = s := by
  have hsources : s.sources.set i.val s.sources[i] i.isLt = s.sources := by simp
  simp only [State.onSource, h, hsources]
  rfl

/-- Settles O7: the address of a camera request is read off the ring map, of a tracked write after the
tracker has acted. -/
theorem cameraRequestsTranslated : Obligations.CameraRequestsTranslated := by
  refine ⟨fun s r b l i k a rec p hwf hq hw hr hp hroom => ?_, fun s w b l i k a rec p hwf hq hw hr hroom => ?_⟩
  · rw [exec_read_accepted rfl hwf hq (State.canAcceptRead_of_queue (State.apertureAt_of_camera hw) hroom),
      State.acceptRead_of_camera hw, State.translated_eq _ _ hr hp]
    rfl
  · have haccept := exec_write_accepted (i := .cameraWrite w) rfl hwf hq
      (State.canAcceptWrite_of_queue hroom)
    rw [haccept, State.acceptWrite_of_camera hw]
    refine ⟨fun ht hp => ?_, fun _ hp => ?_⟩
    · rw [State.cameraWrite, State.onSource_of_same (Source.onWrite_of_other i _ _ k _ hr ht)]
      rw [State.translated_eq _ _ hr hp]
      rfl
    · have hkept := (s.sources[i].onWrite_kept i s.cal.active s.timeBase k (w.addr.toNat - b) w).record
      have hat : (s.onSource i fun src => src.onWrite i s.cal.active s.timeBase k (w.addr.toNat - b) w).sources[i]
          = (s.sources[i].onWrite i s.cal.active s.timeBase k (w.addr.toNat - b) w).1 := by
        rw [State.onSource_sources, vector_get_set, if_pos rfl]
      rw [State.cameraWrite, State.translated_eq (r := rec) (p := p) _ _ (by rw [hat, hkept, hr]) (by rw [hat, hp]),
        State.forward, State.onSource_passQueue]
      rfl

/-! ### Writes to an aperture (R147) -/

/-- Settles O17: a refused write is answered ERROR at once and raises APERTURE_WRITE. -/
theorem apertureWriteRefused : Obligations.ApertureWriteRefused := by
  intro s w b l v a hwf hq hw
  have hc : s.canAcceptWrite w = true := by
    rw [State.canAcceptWrite_iff, State.apertureAt_of_aperture hw]
    intro h
    cases h
  rw [exec_write_accepted rfl hwf hq hc, State.acceptWrite_of_aperture hw, State.refuseWrite,
    State.raise_of_running (s := s.answer (errorAnswer w)) _ (State.running_of_windowAt hw)]
  refine ⟨(apertureWriteEvent v w.tag (w.addr.toNat - b)).arg1, fun hoff => ?_, rfl⟩
  have harg : (apertureWriteEvent v w.tag (w.addr.toNat - b)).arg1 = argWord (w.addr.toNat - b) := if_pos hoff
  rw [harg, argWord, BitVec.toNat_ofNat, Nat.mod_eq_of_lt hoff]

/-! ### A slot of no command (R164) -/

/-- Settles O29: rows 5 and 1 of R164. -/
theorem unknownCommandRefused : Obligations.UnknownCommandRefused := by
  intro s sl hp hs
  have hrow : exec .unknownCommandTake s = .next (s.take holdsNone actUnknown) := rfl
  refine ⟨fun hi hseen hl hsum hcode => ?_, fun hi hseen => ?_⟩
  · have hnone : ownCheck sl s.cmd.checkEnable = some .unknown := by
      rw [ownCheck_past_sum hl hi hsum, hcode, Option.elim_none]
    have hm : holdsNone sl = true := by rw [holdsNone, Slot.command_of_seen hseen, hcode]; rfl
    rw [hrow, State.take_of_ready _ hs hm, State.runTake_refused hp (.inl hnone)]
  · have hunseen : ¬ sl.seen 0 = true := by simp [hseen]
    have hm : holdsNone sl = true := by rw [holdsNone, Slot.command_of_unseen hunseen]; rfl
    rw [hrow, State.take_of_ready _ hs hm, State.runTake_refused hp (.inl (ownCheck_unseen hi hunseen))]

end Sys2Proof.Machine
end

section
/-! PROOFS. The two upstream channels (sections 8.1 and 8.7). What the part does with a request it accepts does
not depend on what else waits, so acceptance goes head by head; the rows that make room do what they do at
empty channels and then let what waits in. -/

namespace Sys2Proof.Machine

/-! ### What waits has no part in what the part does -/

/-- An operation that neither reads nor changes the waiting requests. -/
def IgnoresChannels (f : State → State) : Prop :=
  ∀ (s : State) (rs : List ReadReq) (ws : List WriteReq),
    f (s.withChannels rs ws) = (f s).withChannels rs ws

theorem State.withChannels_self (s : State) : s.withChannels s.up.reads s.up.writes = s := rfl

theorem State.withChannels_withChannels (s : State) (rs rs' : List ReadReq) (ws ws' : List WriteReq) :
    (s.withChannels rs ws).withChannels rs' ws' = s.withChannels rs' ws' := rfl

theorem IgnoresChannels.reads {f : State → State} (h : IgnoresChannels f) (s : State) :
    (f s).up.reads = s.up.reads := by
  have hs : f s = (f s).withChannels s.up.reads s.up.writes := h s s.up.reads s.up.writes
  have hreads := congrArg (fun t : State => t.up.reads) hs
  exact hreads

theorem IgnoresChannels.writes {f : State → State} (h : IgnoresChannels f) (s : State) :
    (f s).up.writes = s.up.writes := by
  have hs : f s = (f s).withChannels s.up.reads s.up.writes := h s s.up.reads s.up.writes
  have hwrites := congrArg (fun t : State => t.up.writes) hs
  exact hwrites

theorem IgnoresChannels.comp {f g : State → State} (hf : IgnoresChannels f) (hg : IgnoresChannels g) :
    IgnoresChannels fun s => g (f s) := by
  intro s rs ws
  show g (f (s.withChannels rs ws)) = (g (f s)).withChannels rs ws
  rw [hf, hg]

theorem raise_ignoresChannels (e : Event) : IgnoresChannels fun s => s.raise e := by
  intro s rs ws
  have hp : (s.withChannels rs ws).phase = s.phase := rfl
  simp only [State.raise, hp]
  split <;> rfl

theorem raiseAll_ignoresChannels (es : List Event) : IgnoresChannels fun s => s.raiseAll es := by
  induction es with
  | nil => exact fun _ _ _ => rfl
  | cons e es ih => exact (raise_ignoresChannels e).comp ih

theorem settleAges_ignoresChannels : IgnoresChannels State.settleAges := fun _ _ _ => rfl

theorem requestMirror_ignoresChannels : IgnoresChannels State.requestMirror := fun _ _ _ => rfl

theorem forward_ignoresChannels (q : Request) : IgnoresChannels fun s => s.forward q := fun _ _ _ => rfl

theorem onSource_ignoresChannels (i : Fin 4) (f : Source → Source × List Event) :
    IgnoresChannels fun s => s.onSource i f :=
  fun s rs ws => raiseAll_ignoresChannels (f s.sources[i]).2
    { s with sources := s.sources.set i.val (f s.sources[i]).1 i.isLt } rs ws

theorem onView_ignoresChannels (i : Fin 2) (f : ViewEnv → ViewWork → ViewWork) :
    IgnoresChannels fun s => s.onView i f := by
  intro s rs ws
  show State.onView (s.withChannels rs ws) i f = (s.onView i f).withChannels rs ws
  cases hr : s.views[i].record with
  | none =>
    have hr' : (s.withChannels rs ws).views[i].record = none := hr
    rw [State.onView_of_none f hr, State.onView_of_none f hr']
  | some r =>
    have hr' : (s.withChannels rs ws).views[i].record = some r := hr
    rw [State.onView_of_record f hr, State.onView_of_record f hr']
    exact raiseAll_ignoresChannels _ (s.putWork i (f (s.envOf i r) (s.workOf i))) rs ws

theorem activationStage_ignoresChannels : IgnoresChannels State.activationStage := by
  intro s rs ws
  unfold State.activationStage
  cases hc : s.cal.staged with
  | none =>
    have hc' : (s.withChannels rs ws).cal.staged = none := hc
    simp only [hc']
  | some c =>
    have hc' : (s.withChannels rs ws).cal.staged = some c := hc
    have ha : (s.withChannels rs ws).handoff = s.handoff := rfl
    simp only [hc', ha]
    split
    · exact raise_ignoresChannels _
        { s with cal := { s.cal with active := some c, staged := none }, handoff := s.handoff.rearmAll } rs ws
    · rfl

theorem zoomAndHandoff_ignoresChannels (i : Fin 2) : IgnoresChannels fun s => s.zoomAndHandoff i :=
  fun s rs ws =>
    let x := s.handoff.stage (s.stageInput i s.zoom.proposed)
    let y := s.zoom.clampStage s.cal.active x.1 s.zoom.proposed s.timeBase
    raiseAll_ignoresChannels (x.2 ++ y.2) { s with handoff := x.1, zoom := y.1 } rs ws

theorem leadStages_ignoresChannels (i : Fin 2) : IgnoresChannels fun s => s.leadStages i :=
  activationStage_ignoresChannels.comp (zoomAndHandoff_ignoresChannels i)

/-- The plan that view `i` latches in stage 7 (R95). -/
def State.planAt (s : State) (i : Fin 2) (r : ViewRecord) : Plan :=
  latchPlan r s.views[i].framesOpened s.views[i].degrade s.views[i].plan s.sources s.cal.active s.zoom
    s.handoff

/-- The part after stages 7 and 8: the plan latched, its stores pinned, the retired plan's released. -/
def State.latched (s : State) (i : Fin 2) (p : Plan) : State :=
  { s with
    sources := releasePlan (pinPlan s.sources (some p)) s.views[i].plan
    views := s.views.set i.val { s.views[i] with plan := some p } i.isLt }

theorem State.latchStages_of_record {s : State} {i : Fin 2} {r : ViewRecord}
    (h : s.views[i].record = some r) : s.latchStages i =
      (s.latched i (s.planAt i r)).onView i fun e w => (w.clear i).prefetch e 0 := by
  unfold State.latchStages
  split
  · next hn => rw [h] at hn; cases hn
  · next r' hr' =>
    obtain rfl := Option.some.inj (h.symm.trans hr')
    rfl

theorem latchStages_ignoresChannels (i : Fin 2) : IgnoresChannels fun s => s.latchStages i := by
  intro s rs ws
  show State.latchStages (s.withChannels rs ws) i = (s.latchStages i).withChannels rs ws
  cases hr : s.views[i].record with
  | none =>
    have hr' : (s.withChannels rs ws).views[i].record = none := hr
    simp only [State.latchStages, hr, hr']
  | some r =>
    have hr' : (s.withChannels rs ws).views[i].record = some r := hr
    rw [State.latchStages_of_record hr, State.latchStages_of_record hr']
    exact onView_ignoresChannels i _ (s.latched i (s.planAt i r)) rs ws

theorem openFrame_ignoresChannels (i : Fin 2) (rows : List Nat) :
    IgnoresChannels fun s => s.openFrame i rows := by
  intro s rs ws
  have hlead : (s.withChannels rs ws).isLead i = s.isLead i := rfl
  have hopen := onView_ignoresChannels i (fun e w => (w.openingStage1 e).openingStage2 e rows)
  simp only [State.openFrame, hlead]
  split
  · exact ((hopen.comp (leadStages_ignoresChannels i)).comp (latchStages_ignoresChannels i)).comp
      requestMirror_ignoresChannels s rs ws
  · exact (hopen.comp (latchStages_ignoresChannels i)) s rs ws

theorem acceptAperture_ignoresChannels (i : Fin 2) (q : ReadReq) :
    IgnoresChannels fun s => s.acceptAperture i q := by
  intro s rs ws
  show State.acceptAperture (s.withChannels rs ws) i q = (s.acceptAperture i q).withChannels rs ws
  have hv : (s.withChannels rs ws).views = s.views := rfl
  cases hr : s.views[i].record with
  | none => simp only [State.acceptAperture, hv, hr]
  | some r =>
    simp only [State.acceptAperture, hv, hr]
    split
    · exact ((openFrame_ignoresChannels i _).comp (onView_ignoresChannels i _)) s rs ws
    · exact onView_ignoresChannels i _ s rs ws

theorem acceptRead_ignoresChannels (r : ReadReq) : IgnoresChannels fun s => s.acceptRead r := by
  intro s rs ws
  have hwin : (s.withChannels rs ws).windowAt r.addr = s.windowAt r.addr := rfl
  simp only [State.acceptRead, hwin]
  split
  · exact ((acceptAperture_ignoresChannels _ r).comp settleAges_ignoresChannels) s rs ws
  all_goals rfl

theorem copyControl_ignoresChannels (off : Nat) (w : WriteReq) :
    IgnoresChannels fun s => s.copyControl off w := by
  intro s rs ws
  have hraised := raiseAll_ignoresChannels (s.cmd.copy (copiedBytes off w)).2
    { s with cmd := (s.cmd.copy (copiedBytes off w)).1 } rs ws
  exact congrArg (fun t : State => { t with report := t.report.copyAck (ackBytes (copiedBytes off w)) }) hraised

theorem acceptWrite_ignoresChannels (w : WriteReq) : IgnoresChannels fun s => s.acceptWrite w := by
  intro s rs ws
  have hwin : (s.withChannels rs ws).windowAt w.addr = s.windowAt w.addr := rfl
  simp only [State.acceptWrite, hwin]
  split
  · exact raise_ignoresChannels _ (s.answer (errorAnswer w)) rs ws
  · next b l i k a _ =>
    have hsource := onSource_ignoresChannels i
      (fun src => src.onWrite i s.cal.active s.timeBase k (w.addr.toNat - b) w) s rs ws
    exact congrArg (fun t : State => t.forward (.write { w with addr := t.translated i k ⟨b, l, .camera i k, a⟩ w.addr }))
      hsource
  · exact ((copyControl_ignoresChannels _ w).comp (forward_ignoresChannels _)) s rs ws
  · rfl

theorem grant_ignoresChannels : IgnoresChannels State.grant := by
  intro s rs ws
  have hfree : (s.withChannels rs ws).freeEntry = s.freeEntry := rfl
  have hwinner : (s.withChannels rs ws).winner = s.winner := rfl
  simp only [State.grant, hfree, hwinner]
  split
  · next e g _ _ =>
    cases g with
    | pass =>
      simp only [State.grantedTo, State.grantTo, State.grantPass]
      have hp : (s.withChannels rs ws).passQueue = s.passQueue := rfl
      rw [hp]
      cases s.passQueue <;> rfl
    | view v =>
      simp only [State.grantedTo, State.grantTo, State.grantView]
      have ho : (s.withChannels rs ws).viewOffer v = s.viewOffer v := rfl
      rw [ho]
      cases s.viewOffer v with
      | none => rfl
      | some f =>
        cases hf : f.todo with
        | nil => simp only [hf]; rfl
        | cons sp rest =>
          simp only [hf]
          split <;> rfl
    | report =>
      simp only [State.grantedTo, State.grantTo, State.grantReport]
      have ho : (s.withChannels rs ws).reportOffer = s.reportOffer := rfl
      rw [ho]
      cases s.reportOffer with
      | none => rfl
      | some x => cases x <;> rfl
    | cal =>
      simp only [State.grantedTo, State.grantTo, State.grantCal]
      have ho : (s.withChannels rs ws).calOffer = s.calOffer := rfl
      rw [ho]
      cases s.calOffer <;> rfl
  · rfl

theorem loadResponse_ignoresChannels (sp : Span) (m : MemResp) :
    IgnoresChannels fun s => s.loadResponse sp m := by
  intro s rs ws
  have hcal : (s.withChannels rs ws).cal = s.cal := rfl
  have hsrc : (s.withChannels rs ws).sources = s.sources := rfl
  simp only [State.loadResponse, hcal, hsrc]
  split
  · rfl
  · next l _ =>
    split
    · let x := CalStore.endLoad { s.cal with load := some (l.respond sp m) } s.sources
      exact raiseAll_ignoresChannels x.2 { s with cal := x.1 } rs ws
    · rfl

theorem arrive_ignoresChannels (e : Fin 64) (o : OutEntry) (m : MemResp) :
    IgnoresChannels fun s => s.arrive e o m := by
  intro s rs ws
  simp only [State.arrive]
  split
  · rfl
  · cases o.owner with
    | fetch v n sp =>
      exact ((onView_ignoresChannels v _).comp settleAges_ignoresChannels) (s.freeOutstanding e) rs ws
    | load sp => exact loadResponse_ignoresChannels sp m (s.freeOutstanding e) rs ws
    | forwarded tag num isRead beats => rfl
    | recordWrite => rfl
    | mirrorWrite => rfl

theorem disableView_ignoresChannels (v : Fin 2) : IgnoresChannels fun s => s.disableView v := by
  intro s rs ws
  have hcleared := onView_ignoresChannels v (fun _ w => w.clear v)
    { s with
      up := { s.up with responses := s.up.responses ++ fillHeld s.views[v] }
      sources := releasePlan s.sources s.views[v].plan } rs ws
  exact congrArg (fun t : State => State.settleAges
    { t with
      views := t.views.set v.val t.views[v].disable v.isLt
      windows := setActive (fun w => w.ofView v) false t.windows }) hcleared

theorem completeTake_ignoresChannels (sl : Slot) (r : CmdResult) :
    IgnoresChannels fun s => s.completeTake sl r := by
  intro s rs ws
  simp only [State.completeTake]
  have hcmd : (s.withChannels rs ws).cmd = s.cmd := rfl
  rw [hcmd]
  split
  · rfl
  · exact ((raise_ignoresChannels _).comp requestMirror_ignoresChannels)
      { s with cmd := s.cmd.complete sl r } rs ws

/-- The take of a slot ignores the channels when its owner does. -/
theorem take_ignoresChannels {mine : Slot → Bool} {act : OwnerAct}
    (hact : ∀ sl s rs ws, act sl (s.withChannels rs ws) =
      ((act sl s).1, (act sl s).2.withChannels rs ws)) :
    IgnoresChannels fun s => s.take mine act := by
  intro s rs ws
  have hready : (s.withChannels rs ws).readySlot = s.readySlot := rfl
  have hmark : (s.withChannels rs ws).markTaken = s.markTaken.withChannels rs ws := rfl
  have hcmd : (s.markTaken.withChannels rs ws).cmd = s.markTaken.cmd := rfl
  simp only [State.take, hready]
  split
  · next sl _ =>
    split
    · simp only [State.runTake, hmark, hcmd, hact]
      split
      · exact completeTake_ignoresChannels _ _ _ rs ws
      · split
        · exact completeTake_ignoresChannels _ _ _ rs ws
        · exact completeTake_ignoresChannels _ _ _ rs ws
    · rfl
  · rfl

theorem actViewEnable_withChannels (sl : Slot) (s : State) (rs : List ReadReq) (ws : List WriteReq) :
    actViewEnable sl (s.withChannels rs ws) =
      ((actViewEnable sl s).1, (actViewEnable sl s).2.withChannels rs ws) := by
  have hviews : (s.withChannels rs ws).views = s.views := rfl
  unfold actViewEnable
  rw [hviews]
  split
  · rfl
  · split_ifs <;> rfl

theorem actViewDisable_withChannels (sl : Slot) (s : State) (rs : List ReadReq) (ws : List WriteReq) :
    actViewDisable sl (s.withChannels rs ws) =
      ((actViewDisable sl s).1, (actViewDisable sl s).2.withChannels rs ws) := by
  have hviews : (s.withChannels rs ws).views = s.views := rfl
  unfold actViewDisable
  rw [hviews]
  split
  · rfl
  · split_ifs
    · rfl
    · rfl
    · exact congrArg (Prod.mk CmdResult.ok) (disableView_ignoresChannels _ s rs ws)
    · rfl

/-! ### Acceptance, head by head (R137) -/

theorem head_filter_none {α : Type} {l : List α} {p : α → Bool}
    (h : ∀ a as, l = a :: as → p a = false) : l.head?.filter p = none := by
  cases l with
  | nil => rfl
  | cons a as => simp [Option.filter, h a as rfl]

theorem head_filter_some {α : Type} {l as : List α} {p : α → Bool} {a : α} (hl : l = a :: as)
    (h : p a = true) : l.head?.filter p = some a := by
  simp [hl, Option.filter, h]

section
variable {s t : State}

theorem State.takeRead_eq (s : State) (r : ReadReq) :
    s.takeRead r = (s.withChannels s.up.reads.tail s.up.writes).acceptRead r := rfl

theorem State.takeWrite_eq (s : State) (w : WriteReq) :
    s.takeWrite w = (s.withChannels s.up.reads s.up.writes.tail).acceptWrite w := rfl

/-- No head of a channel can be accepted. -/
theorem State.acceptOne_none (hread : ∀ r rs, s.up.reads = r :: rs → s.canAcceptRead r = false)
    (hwrite : ∀ w ws, s.up.writes = w :: ws → s.canAcceptWrite w = false) : s.acceptOne = none := by
  simp only [State.acceptOne, head_filter_none hread, head_filter_none hwrite]

theorem State.acceptOne_read {r : ReadReq} {rs : List ReadReq} (hreads : s.up.reads = r :: rs)
    (hc : s.canAcceptRead r = true)
    (hwrite : ∀ w ws, s.up.writes = w :: ws → s.canAcceptWrite w = false) :
    s.acceptOne = some (s.takeRead r) := by
  simp only [State.acceptOne, head_filter_some hreads hc, head_filter_none hwrite]

theorem State.acceptOne_write {w : WriteReq} {ws : List WriteReq} (hwrites : s.up.writes = w :: ws)
    (hc : s.canAcceptWrite w = true)
    (hread : ∀ r rs, s.up.reads = r :: rs → s.canAcceptRead r = false) :
    s.acceptOne = some (s.takeWrite w) := by
  simp only [State.acceptOne, head_filter_some hwrites hc, head_filter_none hread]

/-- With room for both heads a free value takes one. -/
theorem State.acceptOne_both {r : ReadReq} {rs : List ReadReq} {w : WriteReq} {ws : List WriteReq}
    (hreads : s.up.reads = r :: rs) (hwrites : s.up.writes = w :: ws) (hr : s.canAcceptRead r = true)
    (hw : s.canAcceptWrite w = true) :
    s.acceptOne = some (State.takeRead { s with draws := s.draws + 1 } r) ∨
    s.acceptOne = some (State.takeWrite { s with draws := s.draws + 1 } w) := by
  simp only [State.acceptOne, head_filter_some hreads hr, head_filter_some hwrites hw]
  split
  · exact .inl rfl
  · exact .inr rfl

/-- An acceptance leaves one request less waiting. -/
theorem State.acceptOne_waiting (h : s.acceptOne = some t) :
    s.up.reads.length + s.up.writes.length = t.up.reads.length + t.up.writes.length + 1 := by
  obtain ⟨u, hu, hcase⟩ := State.acceptOne_cases h
  have hup : u.up = s.up := by rcases hu with rfl | rfl <;> rfl
  rcases hcase with ⟨r, rs, hreads, -, rfl⟩ | ⟨w, ws, hwrites, -, rfl⟩
  · have hr := (acceptRead_ignoresChannels r).reads (u.withChannels u.up.reads.tail u.up.writes)
    have hw := (acceptRead_ignoresChannels r).writes (u.withChannels u.up.reads.tail u.up.writes)
    rw [State.takeRead_eq, hr, hw, ← hup]
    simp only [State.withChannels, hreads, List.tail_cons, List.length_cons]
    omega
  · have hr := (acceptWrite_ignoresChannels w).reads (u.withChannels u.up.reads u.up.writes.tail)
    have hw := (acceptWrite_ignoresChannels w).writes (u.withChannels u.up.reads u.up.writes.tail)
    rw [State.takeWrite_eq, hr, hw, ← hup]
    simp only [State.withChannels, hwrites, List.tail_cons, List.length_cons]
    omega

theorem State.acceptWaiting_of_some (h : s.acceptOne = some t) : s.acceptWaiting = t.acceptWaiting := by
  rw [State.acceptWaiting, State.acceptOne_waiting h, State.acceptUpTo, h]
  rfl

theorem State.acceptWaiting_of_none (h : s.acceptOne = none) : s.acceptWaiting = s := by
  unfold State.acceptWaiting
  cases s.up.reads.length + s.up.writes.length with
  | zero => rfl
  | succ n => rw [State.acceptUpTo, h]

end

/-- What waits is put back behind an operation that has been done at empty channels. -/
theorem IgnoresChannels.restore {f : State → State} (h : IgnoresChannels f) (s : State) :
    (State.acceptWaiting (f (s.withChannels [] []))).withChannels s.up.reads s.up.writes = f s := by
  have hempty : f (s.withChannels [] []) = (f s).withChannels [] [] := h s [] []
  have hback : f s = (f s).withChannels s.up.reads s.up.writes := h s s.up.reads s.up.writes
  rw [hempty, State.acceptWaiting_quiet _ rfl rfl, State.withChannels_withChannels, ← hback]

theorem IgnoresChannels.acceptWaiting {f : State → State} (h : IgnoresChannels f) {s t : State}
    (ht : State.acceptWaiting (f (s.withChannels [] [])) = t) :
    (f s).acceptWaiting = State.acceptWaiting (t.withChannels s.up.reads s.up.writes) := by
  rw [← ht, h.restore]

theorem State.respond_withChannels {s t : State} {e : Fin 64} {m : MemResp}
    (ht : (s.withChannels [] []).respond e m = .next t) :
    s.respond e m = .next (State.acceptWaiting (t.withChannels s.up.reads s.up.writes)) := by
  have hout : (s.withChannels [] []).outstanding = s.outstanding := rfl
  simp only [State.respond, hout] at ht
  split at ht
  · cases ht
  · next o ho =>
    split at ht
    · next hlen =>
      rw [State.respond_matched ho hlen]
      exact congrArg Host.Outcome.next
        ((arrive_ignoresChannels e o m).acceptWaiting (Host.Outcome.next.inj ht))
    · cases ht

/-- A row that makes room does what it does at empty channels, and then what can be accepted is. -/
theorem exec_makesRoom {s t : State} {i : Instr} (hi : Instr.makesRoom i = true)
    (ht : exec i (s.withChannels [] []) = .next t) :
    exec i s = .next (State.acceptWaiting (t.withChannels s.up.reads s.up.writes)) := by
  cases i with
  | arbiterGrant =>
    exact congrArg Host.Outcome.next (grant_ignoresChannels.acceptWaiting (Host.Outcome.next.inj ht))
  | holdLimitExpiry v =>
    exact congrArg Host.Outcome.next
      ((onView_ignoresChannels v fun e w => w.expireHold e).acceptWaiting (Host.Outcome.next.inj ht))
  | responseRelay e m => exact State.respond_withChannels ht
  | discardedResponse e m => exact State.respond_withChannels ht
  | fetchCompletion e m => exact State.respond_withChannels ht
  | calibrationLoadEnd e m => exact State.respond_withChannels ht
  | ownRequestResponse e m => exact State.respond_withChannels ht
  | viewControlEnable =>
    exact congrArg Host.Outcome.next
      ((take_ignoresChannels (mine := holdsEnable .viewControl) actViewEnable_withChannels).acceptWaiting
        (Host.Outcome.next.inj ht))
  | viewControlDisable =>
    exact congrArg Host.Outcome.next
      ((take_ignoresChannels (mine := holdsDisable .viewControl) actViewDisable_withChannels).acceptWaiting
        (Host.Outcome.next.inj ht))
  | _ => cases hi

/-! ### Requests that wait at a reset (R148) -/

theorem State.queuedReads_forward_read (s : State) (r : ReadReq) :
    (s.forward (.read r)).queuedReads = s.queuedReads + 1 := by
  simp [State.queuedReads, State.forward, isReadRequest]

theorem State.queuedWrites_forward_read (s : State) (r : ReadReq) :
    (s.forward (.read r)).queuedWrites = s.queuedWrites := by
  simp [State.queuedWrites, State.forward, isReadRequest]

/-- The part with the oldest waiting reads forwarded as they are, as many as there is room for. -/
def State.readsForwarded (s : State) : State :=
  { s with
    up := { s.up with reads := s.up.reads.drop (16 - s.queuedReads) }
    passQueue := s.passQueue ++ (s.up.reads.take (16 - s.queuedReads)).map Request.read }

/-- Outside running no window is active, so waiting reads are forwarded while there is room. -/
theorem State.acceptWaiting_of_not_running {s : State} (hp : s.phase ≠ .running)
    (hw : s.up.writes = [] ∨ 16 ≤ s.queuedWrites) : s.acceptWaiting = s.readsForwarded := by
  generalize hrs : s.up.reads = rs
  induction rs generalizing s with
  | nil =>
    have hnone : s.acceptOne = none := by
      refine State.acceptOne_none (fun r rs h => by rw [hrs] at h; cases h) fun w ws h => ?_
      refine Bool.eq_false_iff.mpr fun hc => ?_
      have hroom := (s.canAcceptWrite_iff w).mp hc (State.apertureAt_of_none (s.windowAt_of_not_running _ hp))
      rcases hw with hw | hw
      · rw [hw] at h; cases h
      · omega
    rw [State.acceptWaiting_of_none hnone]
    simp only [State.readsForwarded, hrs, List.drop_nil, List.take_nil, List.map_nil, List.append_nil]
    rw [← hrs]
  | cons r rs ih =>
    have hwrite : ∀ w ws, s.up.writes = w :: ws → s.canAcceptWrite w = false := by
      intro w ws h
      refine Bool.eq_false_iff.mpr fun hc => ?_
      have hroom := (s.canAcceptWrite_iff w).mp hc (State.apertureAt_of_none (s.windowAt_of_not_running _ hp))
      rcases hw with hw | hw
      · rw [hw] at h; cases h
      · omega
    have hap : s.apertureAt r.addr = none := State.apertureAt_of_none (s.windowAt_of_not_running _ hp)
    by_cases hroom : s.queuedReads < 16
    · rw [State.acceptWaiting_of_some
        (State.acceptOne_read hrs (State.canAcceptRead_of_queue hap hroom) hwrite), State.takeRead_eq,
        State.acceptRead_of_none (s := s.withChannels s.up.reads.tail s.up.writes)
          (State.windowAt_of_not_running (s := s.withChannels s.up.reads.tail s.up.writes) _ hp)]
      have hqueued := (s.withChannels s.up.reads.tail s.up.writes).queuedReads_forward_read r
      have hsame : (s.withChannels s.up.reads.tail s.up.writes).queuedReads = s.queuedReads := rfl
      rw [ih (s := (s.withChannels s.up.reads.tail s.up.writes).forward (.read r)) hp
        (by rw [State.queuedWrites_forward_read]; exact hw) (by simp [State.forward, State.withChannels, hrs])]
      obtain ⟨k, hk⟩ : ∃ k, 16 - s.queuedReads = k + 1 := ⟨15 - s.queuedReads, by omega⟩
      have hk' : 16 - (s.queuedReads + 1) = k := by omega
      simp only [State.readsForwarded, hqueued, hsame, hk, hk']
      simp [State.forward, State.withChannels, hrs]
    · have hnone : s.acceptOne = none := by
        refine State.acceptOne_none (fun r' rs' h => ?_) hwrite
        obtain ⟨rfl, -⟩ := List.cons.inj (hrs.symm.trans h)
        refine Bool.eq_false_iff.mpr fun hc => hroom (((s.canAcceptRead_iff r).mp hc).2 hap)
      have hzero : 16 - s.queuedReads = 0 := by omega
      rw [State.acceptWaiting_of_none hnone]
      simp only [State.readsForwarded, hzero, List.drop_zero, List.take_zero, List.map_nil, List.append_nil]

theorem State.takeReset_of_no_write {s : State} {c : ResetCause} {ph : Phase} (hp : ph ≠ .running)
    (hw : s.up.writes = [] ∨ 16 ≤ s.queuedWrites) :
    s.takeReset c ph = (s.resetCore c ph).readsForwarded :=
  State.acceptWaiting_of_not_running (s := s.resetCore c ph) hp hw

theorem exec_pinReset_eq {s : State} (h : s.phase = .initializing ∨ s.phase = .running) :
    exec .pinReset s = .next (State.takeReset { s with rstN := false } .pin .pinHold) := by
  have hrow : exec .pinReset s = .next s.lowerRstN := rfl
  rw [hrow]
  rcases h with h | h <;> simp only [State.lowerRstN, h]

/-- The part as a PART_RESET that passes the checks leaves it to the reset: its slot freed and counted. -/
def State.partResetTaken (s : State) (sl : Slot) : State :=
  { s.markTaken with cmd := { s.markTaken.cmd.complete sl .ok with last := s.markTaken.cmd.last } }

theorem exec_partReset_eq {s : State} {sl : Slot} (h : s.offers .partReset sl) :
    exec .partReset s = .next ((s.partResetTaken sl).takeReset .soft .initializing) := by
  obtain ⟨hs, hc, hown⟩ := h
  have hm : holds .partReset sl = true := by simp [holds, hc]
  have hown' : ownCheck sl s.markTaken.cmd.checkEnable = none := hown
  have hrow : exec .partReset s = .next s.takePartReset := rfl
  rw [hrow]
  simp only [State.takePartReset, hs, if_pos hm, hown']
  rfl

theorem OutEntry.atReset_eq (o : OutEntry) : o.atReset =
    match o.owner with
    | .forwarded .. => o
    | .fetch .. | .load _ | .recordWrite | .mirrorWrite => ⟨o.owner, true⟩ := by
  unfold OutEntry.atReset
  cases o.owner <;> rfl

/-- Settles O4: each reset is `State.takeReset` of its cause, which ends in what can be accepted of what
waits. -/
theorem resetsTaken : Obligations.ResetsTaken := by
  refine ⟨fun s => rfl, fun s => ?_, OutEntry.atReset_eq⟩
  refine ⟨fun h => ⟨exec_pinReset_eq h, fun hw => ?_⟩, fun sl h => ⟨exec_partReset_eq h, fun hw => ?_⟩,
    fun h => ?_, fun h => ?_⟩
  · exact (exec_pinReset_eq h).trans (congrArg Host.Outcome.next
      (State.takeReset_of_no_write (s := { s with rstN := false }) (by decide) hw))
  · exact (exec_partReset_eq h).trans (congrArg Host.Outcome.next
      (State.takeReset_of_no_write (s := s.partResetTaken sl) (by decide) hw))
  · have hrow : exec .pinReset s = .next s.lowerRstN := rfl
    rw [hrow]
    simp only [State.lowerRstN, h]
  · have hrow : exec .pinReset s = .next s.lowerRstN := rfl
    rw [hrow]
    simp only [State.lowerRstN, h]

end Sys2Proof.Machine
end

section
/-! PROOFS. Resets and initialization (chapter 12): what every block holds after a reset, the ends of the holds
and of initialization, and the time base under REFCLK. -/

namespace Sys2Proof.Machine

theorem Report.reset_evtLow (c : ResetCause) : (Report.reset c).evtLow = false := by
  cases c <;> rfl

/-- Settles O3: each block's reset value, field by field. -/
theorem blocksTakeResetValues : Obligations.BlocksTakeResetValues := by
  intro s c t
  have hviews : ∀ v : Fin 2, t.views[v] = View.reset := fun v => by
    simp [t, State.blocksReset]
  have hslots : ∀ n : Fin 32, t.cmd.slots[n] = Slot.freed := fun n => by
    simp [t, State.blocksReset, CommandUnit.reset]
  have hsources : ∀ i : Fin 4, t.sources[i] = Source.reset := fun i => by
    simp [t, State.blocksReset]
  refine ⟨rfl, rfl, rfl, rfl, rfl, fun i => hsources i, rfl, fun v => ?_, fun n => ?_, rfl, rfl, rfl, rfl,
    rfl, rfl, rfl, rfl, rfl, rfl, rfl, rfl, fun n => ?_, Report.reset_evtLow c, fun b => ?_, fun v => ?_,
    rfl, rfl, rfl, rfl⟩
  · rw [hviews v]
    exact ⟨rfl, rfl, rfl, rfl, rfl, rfl, rfl, rfl, rfl, rfl, rfl, rfl, rfl, rfl, rfl, rfl,
      fun n => by simp [View.reset]⟩
  · rw [hslots n]
    exact ⟨rfl, rfl, fun p => ⟨by simp [Slot.freed], by simp [Slot.freed]⟩⟩
  · simp [t, State.blocksReset, Report.reset]
  · simp [t, State.blocksReset, Report.reset]
  · simp [t, State.blocksReset, Arbiter.reset]

/-! ### The ends of the holds (R185, R187, R188) -/

/-- The part as a hold's end leaves it: straps sampled, CONTROL placed, initialization begun at time 0. -/
def State.begun (s : State) (cp : BitVec 4) (clk : BitVec 2) : State :=
  { s with
    rstN := true
    strapCp := cp
    strapClk := clk
    windows := [⟨controlBase cp, 65536, .control, false⟩]
    phase := .initializing
    timeBase := 0 }

theorem exec_powerOnHoldEnd_high {s : State} (cp : BitVec 4) (clk : BitVec 2) (hp : s.phase = .powerOnHold)
    (hr : s.rstN = true) : exec (.powerOnHoldEnd cp clk) s = .next (s.begun cp clk) := by
  have hrow : exec (.powerOnHoldEnd cp clk) s = .next (s.endHold cp clk) := rfl
  rw [hrow, State.endHold, if_pos ⟨hp, hr⟩]
  simp only [State.beginInit, State.sampleStraps, State.begun, ← hr]
  rfl

theorem exec_powerOnHoldEnd_low {s : State} (cp : BitVec 4) (clk : BitVec 2) (hr : s.rstN = false) :
    exec (.powerOnHoldEnd cp clk) s = .next s := by
  have hrow : exec (.powerOnHoldEnd cp clk) s = .next (s.endHold cp clk) := rfl
  rw [hrow, State.endHold, if_neg fun h => by rw [hr] at h; cases h.2]

theorem exec_rstNRelease_pinHold {s : State} (cp : BitVec 4) (clk : BitVec 2) (hp : s.phase = .pinHold) :
    exec (.rstNRelease cp clk) s = .next (s.begun cp clk) := by
  have hrow : exec (.rstNRelease cp clk) s = .next (s.raiseRstN cp clk) := rfl
  rw [hrow]
  simp only [State.raiseRstN, hp]
  rfl

/-! ### The end of initialization (R183, R190) -/

/-- RESET_DONE finds an empty queue with room, and the mirror writing stands behind it. -/
theorem Report.reset_raise_requestMirror (c : ResetCause) (now : Word) :
    ((Report.reset c).raise now (resetDoneEvent c)).requestMirror =
      { Report.reset c with output :=
          [.record ⟨.resetDone, 2, 0, 1, now, now, BitVec.ofNat 32 c.code, 1⟩, .mirror] } := by
  cases c <;> rfl

theorem exec_endOfInitialization_due {s : State} {c : ResetCause} (hp : s.phase = .initializing)
    (hr : s.report = Report.reset c) (ht : 256 ≤ s.timeBase.toNat) : exec .endOfInitialization s = .next
      { s with
        phase := .running
        windows := setActive Window.isControl true s.windows
        report := { s.report with output :=
          [.record ⟨.resetDone, 2, 0, 1, s.timeBase, s.timeBase, BitVec.ofNat 32 c.code, 1⟩, .mirror] } } := by
  have hrow : exec .endOfInitialization s = .next s.endInit := rfl
  have hcause : s.report.cause = c := by rw [hr]; rfl
  rw [hrow, State.endInit, if_pos ⟨hp, ht⟩, State.raise_of_running
    (s := { s with phase := .running, windows := setActive Window.isControl true s.windows }) _ rfl, hcause,
    hr, ← Report.reset_raise_requestMirror]
  simp only [State.requestMirror]

/-! ### REFCLK and the time base (R185, R186) -/

theorem State.passRefclk_of_time {s : State} (n : Nat) (h : s.phase = .initializing ∨ s.phase = .running) :
    s.passRefclk n = { s with timeBase := s.timeBase + BitVec.ofNat 32 (n / refclkKHz s.strapClk) } := by
  rcases h with h | h <;> simp only [State.passRefclk, h]

theorem State.passRefclk_of_hold {s : State} (n : Nat) (h : s.phase = .powerOnHold ∨ s.phase = .pinHold) :
    s.passRefclk n = s := by
  rcases h with h | h <;> simp only [State.passRefclk, h]

theorem controlBase_end (cp : BitVec 4) : controlBase cp + 65536 = (cp.toNat + 1) * 2 ^ 30 := by
  unfold controlBase
  omega

/-- Settles O5: the hold's end by the level of RST_N, the end of initialization by the time base. -/
theorem initializationBeginsAndEnds : Obligations.InitializationBeginsAndEnds := by
  refine ⟨fun s cp clk => ⟨exec_powerOnHoldEnd_high cp clk, fun _ hr => exec_powerOnHoldEnd_low cp clk hr,
      exec_rstNRelease_pinHold cp clk⟩,
    fun s c hp hr => ⟨exec_endOfInitialization_due hp hr, fun ht => ?_⟩,
    controlBase_end, rfl, rfl, rfl, rfl, rfl, rfl, rfl, rfl,
    fun s n => ⟨fun h => ⟨?_, fun hclk => ?_⟩, State.passRefclk_of_hold n⟩⟩
  · exact congrArg Host.Outcome.next
      (State.endInit_of_not_due fun hd => absurd hd.2 (Nat.not_le.mpr ht))
  · rw [State.passRefclk_of_time _ h, Nat.mul_div_cancel _ (refclkKHz_pos _)]
  · have hcodes : refclkKHz 2 = 2 * refclkKHz 0 := rfl
    rw [State.passRefclk_of_time _ h, hclk, hcodes, ← Nat.mul_assoc, Nat.mul_div_cancel _ (refclkKHz_pos _),
      Nat.mul_comm n 2]

end Sys2Proof.Machine
end

section
/-! PROOFS. The Report Unit (sections 11.1 to 11.6): what an event, a room test, an acknowledge value and a
mirror request leave of it, in closed form. -/

namespace Sys2Proof.Machine

/-! ### Room (R173) -/

theorem Report.hasRoom_iff (r : Report) :
    r.hasRoom = true ↔ r.queued < 4 ∧ r.unacked + r.queued < 256 := by
  simp [Report.hasRoom]

/-- The records that the output queue and the ring still have room for. -/
def Report.room (r : Report) : Nat := min (4 - r.queued) (256 - (r.unacked + r.queued))

theorem Report.hasRoom_iff_room (r : Report) : r.hasRoom = true ↔ 0 < r.room := by
  rw [Report.hasRoom_iff, Report.room]
  omega

theorem Report.moveEntries_eq (ps : List Record) (r : Report) : Report.moveEntries ps r =
    { r with
      output := r.output ++ (ps.take r.room).map .record
      pendingKinds := ps.drop r.room } := by
  induction ps generalizing r with
  | nil => simp [Report.moveEntries]
  | cons p ps ih =>
    unfold Report.moveEntries
    split
    · next hroom =>
      have hstep : (r.enqueue p).room = r.room - 1 := by
        simp only [Report.room, Report.enqueue_queued, Report.enqueue_unacked]
        omega
      obtain ⟨k, hk⟩ : ∃ k, r.room = k + 1 := ⟨r.room - 1, by
        have := (r.hasRoom_iff_room).mp hroom
        omega⟩
      rw [ih, hstep, hk]
      simp [Report.enqueue]
    · next hroom =>
      have hzero : r.room = 0 := by
        rw [Report.hasRoom_iff_room] at hroom
        omega
      simp [hzero]

theorem Report.testRoom_eq (r : Report) : r.testRoom =
    { r with
      output := r.output ++ (r.pendingKinds.take r.room).map .record
      pendingKinds := r.pendingKinds.drop r.room } := r.moveEntries_eq r.pendingKinds

/-! ### Events (R174, R175) -/

theorem Report.raise_queued {r : Report} (now : Word) {e : Event} (hf : r.floor ≤ e.level)
    (hp : r.pendingKinds = []) (hroom : r.hasRoom = true) :
    r.raise now e = { r with output := r.output ++ [.record (e.toRecord now)] } := by
  rw [Report.raise, if_neg (Nat.not_lt.mpr hf), if_pos (by simp [hp, hroom]), Report.enqueue]

theorem Report.raise_pending {r : Report} (now : Word) {e : Event} (hf : r.floor ≤ e.level)
    (h : r.pendingKinds ≠ [] ∨ ¬ r.hasRoom = true) :
    r.raise now e = { r with pendingKinds := joinPending r.pendingKinds e now } := by
  rw [Report.raise, if_neg (Nat.not_lt.mpr hf), if_neg]
  rw [Bool.and_eq_true, List.isEmpty_iff]
  rintro ⟨hp, hroom⟩
  rcases h with h | h
  · exact h hp
  · exact h hroom

theorem joinPending_new {ps : List Record} {e : Event} (now : Word) (h : ∀ p ∈ ps, p.kind ≠ e.kind) :
    joinPending ps e now = ps ++ [e.toRecord now] := by
  rw [joinPending, if_neg]
  simpa using h

theorem map_fold_other {ps : List Record} {e : Event} (now : Word) (h : ∀ p ∈ ps, p.kind ≠ e.kind) :
    (ps.map fun p => if p.kind = e.kind then p.fold e now else p) = ps := by
  refine (List.map_congr_left fun p hp => ?_).trans (List.map_id ps)
  exact if_neg (h p hp)

/-- An event of a kind that waits is folded into its entry. -/
theorem joinPending_fold {before after : List Record} {p : Record} {e : Event} (now : Word)
    (hp : p.kind = e.kind) (h : ∀ x ∈ before ++ after, x.kind ≠ e.kind) :
    joinPending (before ++ p :: after) e now = before ++ p.fold e now :: after := by
  have hbefore := map_fold_other now fun x hx => h x (List.mem_append_left after hx)
  have hafter := map_fold_other now fun x hx => h x (List.mem_append_right before hx)
  rw [joinPending, if_pos (by simp [hp]), List.map_append, List.map_cons, hbefore, hafter, if_pos hp]

/-! ### The mirror request (R181) -/

theorem OutItem.isRecord_eq (x : OutItem) : x.isRecord = (x != .mirror) := by
  cases x <;> rfl

theorem Report.mirrorWaiting_iff (r : Report) : r.mirrorWaiting = true ↔ OutItem.mirror ∈ r.output := by
  simp only [Report.mirrorWaiting, List.any_eq_true, Bool.not_eq_true']
  constructor
  · rintro ⟨x, hx, hrec⟩
    cases x with
    | record p => cases hrec
    | mirror => exact hx
  · exact fun h => ⟨.mirror, h, rfl⟩

theorem Report.requestMirror_mem (r : Report) : OutItem.mirror ∈ r.requestMirror.output := by
  unfold Report.requestMirror
  split
  · next h => exact (r.mirrorWaiting_iff).mp h
  · simp

/-- Settles O21: the way of an event by floor and room, then the room test and the mirror request. -/
theorem eventsRaised : Obligations.EventsRaised := by
  refine ⟨fun s e => ⟨State.raise_of_running e, fun h => if_neg h⟩, fun r now e => ?_, Report.testRoom_eq,
    fun r => ⟨?_, rfl, fun h => if_pos ((r.mirrorWaiting_iff).mpr h),
      fun h => if_neg fun hw => h ((r.mirrorWaiting_iff).mp hw)⟩⟩
  · refine ⟨Report.raise_below_floor now, fun hf hp hroom =>
      Report.raise_queued now hf hp ((r.hasRoom_iff).mpr hroom), fun hf h => ?_⟩
    have hpending := Report.raise_pending now hf (h.imp_right fun hn hroom => hn ((r.hasRoom_iff).mp hroom))
    rw [hpending]
    refine ⟨fun hnew => by rw [joinPending_new now hnew]; rfl, fun before p after hps hp hother => ?_⟩
    rw [hps, joinPending_fold now hp hother]
    rfl
  · rw [Report.queued, List.countP_eq_length_filter]
    exact congrArg (fun f => (r.output.filter f).length) (funext OutItem.isRecord_eq)

/-! ### The acknowledge word (R144, R177) -/

section
variable {r : Report}

theorem Report.takeAck_behind (h1 : 1 ≤ (r.ackIndex - r.offered).toNat)
    (h2 : (r.ackIndex - r.offered).toNat ≤ 256) : r.takeAck = r := by
  simp only [Report.takeAck, if_pos (And.intro h1 h2)]

theorem Report.not_behind (h : r.ackIndex = r.offered ∨ 256 < (r.ackIndex - r.offered).toNat) :
    ¬ (1 ≤ (r.ackIndex - r.offered).toNat ∧ (r.ackIndex - r.offered).toNat ≤ 256) := by
  rintro ⟨h1, h2⟩
  rcases h with h | h
  · rw [h, BitVec.sub_self] at h1
    exact absurd h1 (by decide)
  · omega

theorem Report.takeAck_taken (h : r.ackIndex = r.offered ∨ 256 < (r.ackIndex - r.offered).toNat)
    (hle : (r.offered - r.ackIndex).toNat ≤ (r.writeIndex - r.ackIndex).toNat) :
    r.takeAck = Report.testRoom { r with ackIndex := r.offered } := by
  simp only [Report.takeAck, if_neg (Report.not_behind h), if_pos hle]

theorem Report.takeAck_clamped (h : r.ackIndex = r.offered ∨ 256 < (r.ackIndex - r.offered).toNat)
    (hlt : (r.writeIndex - r.ackIndex).toNat < (r.offered - r.ackIndex).toNat) :
    r.takeAck = Report.testRoom { r with ackIndex := r.writeIndex } := by
  simp only [Report.takeAck, if_neg (Report.not_behind h), if_neg (Nat.not_le.mpr hlt)]

end

/-- What an acknowledge value leaves of the Report Unit. -/
theorem Report.takeAck_frame (r : Report) :
    r.takeAck.writeIndex = r.writeIndex ∧ r.takeAck.alertFlags = r.alertFlags ∧
    r.takeAck.floor = r.floor ∧ r.takeAck.mask = r.mask ∧ r.takeAck.ackCopy = r.ackCopy := by
  unfold Report.takeAck
  dsimp only
  split_ifs
  · exact ⟨rfl, rfl, rfl, rfl, rfl⟩
  · rw [Report.testRoom_eq]
    exact ⟨rfl, rfl, rfl, rfl, rfl⟩
  · rw [Report.testRoom_eq]
    exact ⟨rfl, rfl, rfl, rfl, rfl⟩

/-- Values set at distinct places stand at their places. -/
theorem foldl_set_getElem {α : Type} {n : Nat} (bs : List (Fin n × α)) (xs : Vector α n)
    (h : (bs.map Prod.fst).Nodup) (p : Fin n) :
    (bs.foldl (fun ys b => ys.set b.1.val b.2 b.1.isLt) xs)[p] = (bs.lookup p).getD xs[p] := by
  induction bs generalizing xs with
  | nil => rfl
  | cons b bs ih =>
    rw [List.map_cons, List.nodup_cons] at h
    obtain ⟨hb, hbs⟩ := h
    rw [List.foldl_cons, ih _ hbs, vector_get_set, List.lookup_cons]
    by_cases hp : p = b.1
    · have hnone : bs.lookup p = none := by
        rw [List.lookup_eq_none_iff]
        intro x hx
        refine (bne_iff_ne (a := p) (b := x.1)).mpr fun hpx => hb ?_
        rw [← hp, hpx]
        exact List.mem_map_of_mem hx
      rw [hnone, hp]
      simp
    · have hne : (p == b.1) = false := beq_eq_false_iff_ne.mpr hp
      simp [hp, hne]

theorem foldl_set_eq_ofFn {α : Type} {n : Nat} (bs : List (Fin n × α)) (xs : Vector α n)
    (h : (bs.map Prod.fst).Nodup) :
    bs.foldl (fun ys b => ys.set b.1.val b.2 b.1.isLt) xs = Vector.ofFn fun p => (bs.lookup p).getD xs[p] := by
  refine Vector.ext fun p hp => ?_
  rw [Vector.getElem_ofFn]
  exact foldl_set_getElem bs xs h ⟨p, hp⟩

/-- Settles O12: the table of R177 row by row, and the copy from which the index is read. -/
theorem acknowledgeTaken : Obligations.AcknowledgeTaken := by
  refine ⟨fun r n hn => ?_, fun r bs hbs => ⟨fun h => by rw [h]; rfl, fun h => ?_⟩⟩
  · have hoffered : r.offered = n := hn.symm
    subst hoffered
    obtain ⟨hwrite, hflags, hfloor, hmask, hcopy⟩ := r.takeAck_frame
    refine ⟨Report.takeAck_behind, fun h hle => ?_, fun h hlt => ?_, hwrite, hflags, hfloor, hmask, hcopy⟩
    · rw [Report.takeAck_taken h hle]
      exact ⟨by rw [Report.testRoom_eq], rfl⟩
    · rw [Report.takeAck_clamped h hlt]
      exact ⟨by rw [Report.testRoom_eq], rfl⟩
  · rw [Report.copyAck, if_neg (by simpa using h), foldl_set_eq_ofFn bs r.ackCopy hbs]

end Sys2Proof.Machine
end

section
/-! PROOFS. Layouts (chapter 13) and the division of reads (R124). A field of bytes laid end to end is a field of
one of its parts; and the reads of a byte range follow one another to its end. -/

namespace Sys2Proof.Machine

/-! ### The reads of a byte range (R124) -/

/-- The beats of the next read: as many as are left, as 16 allow and as the 4 KiB boundary allows. -/
def nextBeats (addr beats : Nat) : Nat := min (min 16 ((4096 - addr % 4096) / 16)) beats

theorem splitReads_succ {fuel addr beats : Nat} (h : beats ≠ 0) : splitReads (fuel + 1) addr beats =
    ⟨addr, nextBeats addr beats⟩ ::
      splitReads fuel (addr + 16 * nextBeats addr beats) (beats - nextBeats addr beats) := if_neg h

theorem splitReads_done (fuel addr : Nat) : splitReads fuel addr 0 = [] := by
  cases fuel <;> rfl

theorem nextBeats_bounds {addr beats : Nat} (ha : addr % 16 = 0) (hb : beats ≠ 0) :
    1 ≤ nextBeats addr beats ∧ nextBeats addr beats ≤ 16 ∧ nextBeats addr beats ≤ beats ∧
    addr % 4096 + 16 * nextBeats addr beats ≤ 4096 := by
  unfold nextBeats
  omega

/-- A read that is not the last has 16 beats or ends on a boundary. -/
theorem nextBeats_full {addr beats : Nat} (ha : addr % 16 = 0) (h : nextBeats addr beats ≠ beats) :
    nextBeats addr beats = 16 ∨ (addr + 16 * nextBeats addr beats) % 4096 = 0 := by
  unfold nextBeats at *
  omega

theorem splitReads_head {fuel addr beats : Nat} {x : Span} (h : (splitReads fuel addr beats)[0]? = some x) :
    x.addr = addr := by
  cases fuel with
  | zero => cases h
  | succ fuel =>
    by_cases hb : beats = 0
    · rw [hb, splitReads_done] at h
      cases h
    · rw [splitReads_succ hb] at h
      cases h
      rfl

theorem splitReads_mem {fuel addr beats : Nat} (ha : addr % 16 = 0) {x : Span}
    (hx : x ∈ splitReads fuel addr beats) :
    1 ≤ x.beats ∧ x.beats ≤ 16 ∧ x.addr % 16 = 0 ∧ x.addr % 4096 + 16 * x.beats ≤ 4096 := by
  induction fuel generalizing addr beats with
  | zero => cases hx
  | succ fuel ih =>
    by_cases hb : beats = 0
    · rw [hb, splitReads_done] at hx
      cases hx
    · rw [splitReads_succ hb, List.mem_cons] at hx
      rcases hx with rfl | hx
      · obtain ⟨h1, h16, -, hpage⟩ := nextBeats_bounds ha hb
        exact ⟨h1, h16, ha, hpage⟩
      · exact ih (by omega) hx

theorem splitReads_next {fuel addr beats n : Nat} (ha : addr % 16 = 0) {x y : Span}
    (hx : (splitReads fuel addr beats)[n]? = some x)
    (hy : (splitReads fuel addr beats)[n + 1]? = some y) :
    y.addr = x.addr + 16 * x.beats ∧ (x.beats = 16 ∨ y.addr % 4096 = 0) := by
  induction fuel generalizing addr beats n with
  | zero => cases hx
  | succ fuel ih =>
    by_cases hb : beats = 0
    · rw [hb, splitReads_done] at hx
      cases hx
    · rw [splitReads_succ hb] at hx hy
      rw [List.getElem?_cons_succ] at hy
      cases n with
      | zero =>
        have haddr := splitReads_head hy
        cases hx
        refine ⟨haddr, ?_⟩
        rw [haddr]
        refine nextBeats_full ha fun hall => ?_
        rw [hall, Nat.sub_self, splitReads_done] at hy
        cases hy
      | succ n => exact ih (by omega) (by rwa [List.getElem?_cons_succ] at hx) hy

theorem splitReads_sum {fuel addr beats : Nat} (ha : addr % 16 = 0) (hf : beats ≤ fuel) :
    ((splitReads fuel addr beats).map Span.beats).sum = beats := by
  induction fuel generalizing addr beats with
  | zero => simp [splitReads, Nat.le_zero.mp hf]
  | succ fuel ih =>
    by_cases hb : beats = 0
    · rw [hb, splitReads_done]
      rfl
    · obtain ⟨h1, -, hle, -⟩ := nextBeats_bounds ha hb
      rw [splitReads_succ hb, List.map_cons, List.sum_cons, ih (by omega) (by omega)]
      exact Nat.add_sub_cancel' hle

theorem readsFor_head (first last : Nat) :
    (readsFor first last).head?.map Span.addr = some (first / 16 * 16) := by
  unfold readsFor
  rw [splitReads_succ (Nat.succ_ne_zero _)]
  rfl

/-- Settles O24: the reads of a range are those of its aligned beats. -/
theorem fetchReadsDivide : Obligations.FetchReadsDivide := by
  intro first last _
  have ha : first / 16 * 16 % 16 = 0 := Nat.mul_mod_left _ _
  exact ⟨fun x hx => splitReads_mem ha hx, readsFor_head first last,
    fun n x y hx hy => splitReads_next ha hx hy, splitReads_sum ha le_rfl⟩

/-! ### Fields of bytes laid end to end (R191) -/

theorem readLE_append_left {xs : List Byte} (ys : List Byte) {off n : Nat} (h : off + n ≤ xs.length) :
    readLE (xs ++ ys) off n = readLE xs off n := by
  unfold readLE
  rw [List.drop_append_of_le_length (by omega), List.take_append_of_le_length (by simp; omega)]

theorem readLE_append_right {xs : List Byte} (ys : List Byte) {off : Nat} (n : Nat) (h : xs.length ≤ off) :
    readLE (xs ++ ys) off n = readLE ys (off - xs.length) n := by
  unfold readLE
  rw [List.drop_append, List.drop_eq_nil_of_le h, List.nil_append]

/-- A field behind some bytes. -/
theorem readLE_append_add (xs ys : List Byte) {k : Nat} (off n : Nat) (h : xs.length = k) :
    readLE (xs ++ ys) (k + off) n = readLE ys off n := by
  rw [readLE_append_right ys n (by omega)]
  congr 1
  omega

theorem readLE_singleton (n : Nat) : readLE [byteOf n] 0 1 = n % 256 := by
  simp [readLE, byteOf]

theorem readLE_le16 (n : Nat) : readLE (le16 n) 0 2 = n % 65536 := by
  simp [readLE, le16]
  omega

theorem readLE_le32 (n : Nat) : readLE (le32 n) 0 4 = n % 4294967296 := by
  simp [readLE, le32, le16]
  omega

@[simp] theorem le16_length (n : Nat) : (le16 n).length = 2 := rfl

@[simp] theorem le32_length (n : Nat) : (le32 n).length = 4 := rfl

theorem readLE_replicate_zero (m off n : Nat) : readLE (List.replicate m 0) off n = 0 := by
  induction n generalizing off with
  | zero => exact readLE_zero _ _
  | succ n ih =>
    rw [readLE_succ, ih]
    by_cases h : off < m <;> simp [h]

/-- Records of one size laid end to end. -/
theorem readLE_flatMap {α : Type} {k : Nat} (f : α → List Byte) (hf : ∀ x, (f x).length = k) (l : List α)
    {i off n : Nat} {x : α} (hx : l[i]? = some x) (h : off + n ≤ k) :
    readLE (l.flatMap f) (k * i + off) n = readLE (f x) off n := by
  induction l generalizing i with
  | nil => cases hx
  | cons y ys ih =>
    rw [List.flatMap_cons]
    cases i with
    | zero =>
      cases hx
      rw [Nat.mul_zero, Nat.zero_add, readLE_append_left _ (by rw [hf]; exact h)]
    | succ i =>
      rw [Nat.mul_succ, Nat.add_comm (k * i) k, Nat.add_assoc, readLE_append_add _ _ _ _ (hf y)]
      exact ih hx

end Sys2Proof.Machine
end

section
/-! PROOFS. The bytes of a report record and of a status mirror writing, and the code lists (O23). -/

namespace Sys2Proof.Machine

/-! ### The report record -/

theorem EventKind.code_lt (k : EventKind) : k.code < 256 := by
  cases k <;> decide

theorem Record.bytes_fields (r : Record) (seq : Half) :
    let field := readLE (r.bytes seq)
    (r.bytes seq).length = 32 ∧ field 0 2 = seq.toNat ∧ field 2 1 = r.kind.code ∧
    field 3 1 = r.level % 256 ∧ field 4 1 = r.subject % 256 ∧ field 5 1 = 0 ∧
    field 6 2 = r.count % 65536 ∧ field 8 4 = r.first.toNat ∧ field 12 4 = r.last.toNat ∧
    field 16 4 = r.arg0.toNat ∧ field 20 4 = r.arg1.toNat ∧ field 24 8 = 0 := by
  have hkind := r.kind.code_lt
  have hseq := seq.isLt
  have hfirst := r.first.isLt
  have hlast := r.last.isLt
  have harg0 := r.arg0.isLt
  have harg1 := r.arg1.isLt
  simp only [Record.bytes, readLE, le16, le32, byteOf, List.replicate, List.cons_append, List.nil_append,
    List.drop, List.take, List.foldr, List.length]
  simp
  omega

/-! ### The groups of a mirror writing -/

theorem SourceState.code_lt (st : SourceState) : st.code < 256 := by
  cases st <;> decide

theorem ViewState.code_lt (st : ViewState) : st.code < 256 := by
  cases st <;> simp [ViewState.code]

theorem DegradeLevel.code_lt (d : DegradeLevel) : d.code < 256 := by
  cases d <;> decide

theorem HandoffState.code_lt (st : HandoffState) : st.code < 256 := by
  cases st <;> simp [HandoffState.code]

theorem HandoffState.directionCode_lt (st : HandoffState) : st.directionCode < 256 := by
  cases st with
  | blend p d m => cases m <;> simp [HandoffState.directionCode, BlendDir.code]
  | settled => decide
  | prepare p d n => exact Nat.zero_lt_succ _
  | frozen => decide

theorem ResetCause.code_lt (c : ResetCause) : c.code < 256 := by
  cases c <;> decide

theorem CalStore.stateCode_lt (c : CalStore) : c.stateCode < 256 := by
  unfold CalStore.stateCode
  grind

theorem Source.mirrorBytes_fields (src : Source) :
    let field := readLE src.mirrorBytes
    src.mirrorBytes.length = 8 ∧ field 0 1 = src.state.code ∧ field 1 1 = src.newestReady.getD 255 % 256 ∧
    field 2 2 = 0 ∧ field 4 4 = src.readyCount.toNat := by
  have hstate := src.state.code_lt
  have hready := src.readyCount.isLt
  simp only [Source.mirrorBytes, readLE, le16, le32, byteOf, byteOrNone, List.cons_append, List.nil_append,
    List.drop, List.take, List.foldr, List.length]
  simp
  omega

theorem View.mirrorBytes_fields (v : View) :
    let field := readLE v.mirrorBytes
    v.mirrorBytes.length = 16 ∧ field 0 1 = v.state.code ∧ field 1 1 = v.degrade.code ∧
    field 2 1 = v.saturated.toNat ∧ field 3 1 = 0 ∧ field 4 4 = v.framesOpened.toNat ∧
    field 8 2 = v.totalUnderruns % 65536 ∧ field 10 6 = 0 := by
  have hstate := v.state.code_lt
  have hdegrade := v.degrade.code_lt
  have hsat := v.saturated.toNat_le
  have hopened := v.framesOpened.isLt
  simp only [View.mirrorBytes, readLE, le16, le32, byteOf, List.replicate, List.cons_append, List.nil_append,
    List.drop, List.take, List.foldr, List.length]
  simp
  omega

theorem CommandUnit.mirrorBytes_fields (c : CommandUnit) :
    let field := readLE c.mirrorBytes
    c.mirrorBytes.length = 8 ∧ field 0 4 = c.consumed.toNat ∧
    field 4 1 = (c.last.map fun l => l.slot.val).getD 255 % 256 ∧
    field 5 1 = (c.last.map fun l => l.result.code).getD 255 % 256 ∧
    field 6 2 = (c.last.map fun l => l.tag.toNat).getD 0 := by
  have hconsumed := c.consumed.isLt
  have htag : (c.last.map fun l => l.tag.toNat).getD 0 < 65536 := by
    cases c.last with
    | none => decide
    | some l => exact l.tag.isLt
  simp only [CommandUnit.mirrorBytes, readLE, le16, le32, byteOf, byteOrNone, List.cons_append,
    List.nil_append, List.drop, List.take, List.foldr, List.length]
  simp
  omega

theorem Zoom.mirrorBytes_fields (z : Zoom) :
    let field := readLE z.mirrorBytes
    z.mirrorBytes.length = 12 ∧ field 0 2 = z.target % 65536 ∧ field 2 2 = z.current % 65536 ∧
    field 4 4 = (BitVec.ofInt 32 z.panX).toNat ∧ field 8 4 = (BitVec.ofInt 32 z.panY).toNat := by
  have hx := (fixedWord z.panX).isLt
  have hy := (fixedWord z.panY).isLt
  change _ ∧ _ ∧ _ ∧ _ = (fixedWord z.panX).toNat ∧ _ = (fixedWord z.panY).toNat
  generalize hwx : (fixedWord z.panX).toNat = px at *
  generalize hwy : (fixedWord z.panY).toNat = py at *
  simp only [Zoom.mirrorBytes, hwx, hwy, readLE, le16, le32, List.cons_append, List.nil_append,
    List.drop, List.take, List.foldr, List.length]
  simp
  omega

theorem Handoff.mirrorBytes_fields (h : Handoff) :
    let field := readLE h.mirrorBytes
    h.mirrorBytes.length = 6 ∧ field 0 1 = h.state.code ∧ field 1 1 = h.fromSrc.val ∧
    field 2 1 = (h.toSrc.map Fin.val).getD 255 % 256 ∧ field 3 1 = h.state.directionCode ∧
    field 4 2 = h.weight % 65536 := by
  have hstate := h.state.code_lt
  have hdir := h.state.directionCode_lt
  have hsrc := h.fromSrc.isLt
  simp only [Handoff.mirrorBytes, readLE, le16, byteOf, byteOrNone, List.cons_append,
    List.nil_append, List.drop, List.take, List.foldr, List.length]
  simp
  omega

/-- The first 8 bytes of a mirror writing. -/
def State.mirrorHead (s : State) : List Byte :=
  le16 s.report.mirrorCount.toNat ++ le16 partCode ++ [byteOf revision, byteOf s.report.cause.code, 0, 0]

theorem State.mirrorHead_fields (s : State) :
    let field := readLE s.mirrorHead
    s.mirrorHead.length = 8 ∧ field 0 2 = s.report.mirrorCount.toNat ∧ field 2 2 = 0x0740 ∧ field 4 1 = 1 ∧
    field 5 1 = s.report.cause.code ∧ field 6 2 = 0 := by
  have hcount := s.report.mirrorCount.isLt
  have hcause := s.report.cause.code_lt
  simp only [State.mirrorHead, readLE, le16, byteOf, partCode, revision, List.cons_append,
    List.nil_append, List.drop, List.take, List.foldr, List.length]
  simp
  omega

/-! ### A mirror writing -/

/-- A field inside the block that stands at `k` among blocks laid end to end. -/
theorem readLE_flatten {blocks : List (List Byte)} {xs : List Byte} {i k off n : Nat}
    (hx : blocks[i]? = some xs) (hk : ((blocks.take i).map List.length).sum = k)
    (hle : off + n ≤ xs.length) : readLE blocks.flatten (k + off) n = readLE xs off n := by
  induction blocks generalizing i k with
  | nil => cases hx
  | cons ys blocks ih =>
    rw [List.flatten_cons]
    cases i with
    | zero =>
      cases hx
      subst hk
      rw [List.take_zero, List.map_nil, List.sum_nil, Nat.zero_add]
      exact readLE_append_left _ hle
    | succ i =>
      subst hk
      rw [List.take_succ_cons, List.map_cons, List.sum_cons, Nat.add_assoc, readLE_append_add _ _ _ _ rfl]
      exact ih hx rfl

theorem flatMap_length_of_const {α : Type} {k : Nat} {f : α → List Byte} (hf : ∀ x, (f x).length = k)
    (l : List α) : (l.flatMap f).length = k * l.length := by
  induction l with
  | nil => rfl
  | cons x xs ih => rw [List.flatMap_cons, List.length_append, hf, ih, List.length_cons]; ring

/-- The groups of a mirror writing. -/
def State.mirrorGroups (s : State) : List (List Byte) :=
  [s.mirrorHead, s.cmd.mirrorBytes, le16 s.report.writeIndex.toNat, le16 s.report.ackIndex.toNat,
    s.zoom.mirrorBytes, s.handoff.mirrorBytes, [byteOf s.cal.stateCode], [0],
    s.sources.toList.flatMap Source.mirrorBytes, s.views.toList.flatMap View.mirrorBytes,
    List.replicate 150 0, le16 s.report.mirrorCount.toNat]

theorem State.mirrorBytes_eq_flatten (s : State) : s.mirrorBytes = s.mirrorGroups.flatten := by
  simp [State.mirrorBytes, State.mirrorHead, State.mirrorGroups]

theorem State.mirrorGroups_lengths (s : State) :
    s.mirrorGroups.map List.length = [8, 8, 2, 2, 12, 6, 1, 1, 32, 32, 150, 2] := by
  have hsources := flatMap_length_of_const (fun src => src.mirrorBytes_fields.1) s.sources.toList
  have hviews := flatMap_length_of_const (fun v => v.mirrorBytes_fields.1) s.views.toList
  rw [Vector.length_toList] at hsources hviews
  simp [State.mirrorGroups, s.mirrorHead_fields.1, s.cmd.mirrorBytes_fields.1, s.zoom.mirrorBytes_fields.1,
    s.handoff.mirrorBytes_fields.1, hsources, hviews]

/-- A field inside a group of a mirror writing. -/
theorem State.readLE_mirrorBytes (s : State) {xs : List Byte} {i k off n : Nat}
    (hx : s.mirrorGroups[i]? = some xs) (hle : off + n ≤ xs.length)
    (hk : (([8, 8, 2, 2, 12, 6, 1, 1, 32, 32, 150, 2] : List Nat).take i).sum = k) :
    readLE s.mirrorBytes (k + off) n = readLE xs off n := by
  rw [s.mirrorBytes_eq_flatten]
  refine readLE_flatten hx ?_ hle
  rw [List.map_take, s.mirrorGroups_lengths, hk]

theorem State.mirrorBytes_length (s : State) : s.mirrorBytes.length = 256 := by
  rw [s.mirrorBytes_eq_flatten, List.length_flatten, s.mirrorGroups_lengths]
  rfl

/-- The fields of the source with a number. -/
theorem State.mirrorBytes_source (s : State) (i : Fin 4) :
    let field := readLE s.mirrorBytes
    field (40 + 8 * i.val) 1 = s.sources[i].state.code ∧
    field (41 + 8 * i.val) 1 = s.sources[i].newestReady.getD 255 % 256 ∧
    field (42 + 8 * i.val) 2 = 0 ∧ field (44 + 8 * i.val) 4 = s.sources[i].readyCount.toNat := by
  have hlen := flatMap_length_of_const (fun src => src.mirrorBytes_fields.1) s.sources.toList
  rw [Vector.length_toList] at hlen
  have read (j n : Nat) (h : j + n ≤ 8) :
      readLE s.mirrorBytes (40 + j + 8 * i.val) n = readLE s.sources[i].mirrorBytes j n := by
    have hx : s.sources.toList[i.val]? = some s.sources[i] := by simp
    rw [← readLE_flatMap Source.mirrorBytes (fun src => src.mirrorBytes_fields.1) s.sources.toList hx h,
      ← s.readLE_mirrorBytes (i := 8) rfl (by omega) rfl]
    congr 1
    simp
    omega
  obtain ⟨-, hstate, hnewest, hzero, hcount⟩ := s.sources[i].mirrorBytes_fields
  exact ⟨(read 0 1 (by decide)).trans hstate, (read 1 1 (by decide)).trans hnewest,
    (read 2 2 (by decide)).trans hzero, (read 4 4 (by decide)).trans hcount⟩

/-- The fields of the view with a number. -/
theorem State.mirrorBytes_view (s : State) (v : Fin 2) :
    let field := readLE s.mirrorBytes
    field (72 + 16 * v.val) 1 = s.views[v].state.code ∧
    field (73 + 16 * v.val) 1 = s.views[v].degrade.code ∧
    field (74 + 16 * v.val) 1 = s.views[v].saturated.toNat ∧ field (75 + 16 * v.val) 1 = 0 ∧
    field (76 + 16 * v.val) 4 = s.views[v].framesOpened.toNat ∧
    field (80 + 16 * v.val) 2 = s.views[v].totalUnderruns % 65536 ∧ field (82 + 16 * v.val) 6 = 0 := by
  have hlen := flatMap_length_of_const (fun v => v.mirrorBytes_fields.1) s.views.toList
  rw [Vector.length_toList] at hlen
  have read (j n : Nat) (h : j + n ≤ 16) :
      readLE s.mirrorBytes (72 + j + 16 * v.val) n = readLE s.views[v].mirrorBytes j n := by
    have hx : s.views.toList[v.val]? = some s.views[v] := by simp
    rw [← readLE_flatMap View.mirrorBytes (fun v => v.mirrorBytes_fields.1) s.views.toList hx h,
      ← s.readLE_mirrorBytes (i := 9) rfl (by omega) rfl]
    congr 1
    simp
    omega
  obtain ⟨-, hstate, hdegrade, hsat, hzero, hopened, htotal, hpad⟩ := s.views[v].mirrorBytes_fields
  exact ⟨(read 0 1 (by decide)).trans hstate, (read 1 1 (by decide)).trans hdegrade,
    (read 2 1 (by decide)).trans hsat, (read 3 1 (by decide)).trans hzero,
    (read 4 4 (by decide)).trans hopened, (read 8 2 (by decide)).trans htotal,
    (read 10 6 (by decide)).trans hpad⟩

theorem CmdCode.ofByte_other {n : Nat} (h : n = 0 ∨ 10 < n) : CmdCode.ofByte n = none := by
  unfold CmdCode.ofByte
  split
  case h_11 => rfl
  all_goals omega

/-- Settles O23: each field is read in its group, and each group in the writing. -/
theorem recordAndMirrorLayout : Obligations.RecordAndMirrorLayout := by
  unfold Obligations.RecordAndMirrorLayout
  refine ⟨Record.bytes_fields, rfl, rfl, ⟨rfl, fun n => CmdCode.ofByte_other⟩, rfl, rfl, fun f => rfl, rfl,
    rfl, fun p d n => ⟨rfl, rfl⟩, ?_, ?_⟩
  · intro l x y staged active
    rfl
  intro s
  obtain ⟨hlenHead, h0, h2, h4, h5, h6⟩ := s.mirrorHead_fields
  obtain ⟨hlenCmd, h8, h12, h13, h14⟩ := s.cmd.mirrorBytes_fields
  obtain ⟨hlenZoom, h20, h22, h24, h28⟩ := s.zoom.mirrorBytes_fields
  obtain ⟨hlenHand, h32, h33, h34, h35, h36⟩ := s.handoff.mirrorBytes_fields
  have head (off n : Nat) (h : off + n ≤ 8) := s.readLE_mirrorBytes (i := 0) rfl (hlenHead ▸ h) rfl
  have cmd (off n : Nat) (h : off + n ≤ 8) := s.readLE_mirrorBytes (i := 1) rfl (hlenCmd ▸ h) rfl
  have zoom (off n : Nat) (h : off + n ≤ 12) := s.readLE_mirrorBytes (i := 4) rfl (hlenZoom ▸ h) rfl
  have hand (off n : Nat) (h : off + n ≤ 6) := s.readLE_mirrorBytes (i := 5) rfl (hlenHand ▸ h) rfl
  have half (x : Half) : readLE (le16 x.toNat) 0 2 = x.toNat := by
    rw [readLE_le16]
    exact Nat.mod_eq_of_lt x.isLt
  have hcal : readLE [byteOf s.cal.stateCode] 0 1 = s.cal.stateCode := by
    rw [readLE_singleton]
    exact Nat.mod_eq_of_lt s.cal.stateCode_lt
  exact ⟨s.mirrorBytes_length, (head 0 2 (by decide)).trans h0, (head 2 2 (by decide)).trans h2,
    (head 4 1 (by decide)).trans h4, (head 5 1 (by decide)).trans h5, (head 6 2 (by decide)).trans h6,
    (cmd 0 4 (by decide)).trans h8, (cmd 4 1 (by decide)).trans h12, (cmd 5 1 (by decide)).trans h13,
    (cmd 6 2 (by decide)).trans h14,
    (s.readLE_mirrorBytes (i := 2) rfl (Nat.le_refl 2) rfl).trans (half _),
    (s.readLE_mirrorBytes (i := 3) rfl (Nat.le_refl 2) rfl).trans (half _),
    (zoom 0 2 (by decide)).trans h20, (zoom 2 2 (by decide)).trans h22, (zoom 4 4 (by decide)).trans h24,
    (zoom 8 4 (by decide)).trans h28, (hand 0 1 (by decide)).trans h32, (hand 1 1 (by decide)).trans h33,
    (hand 2 1 (by decide)).trans h34, (hand 3 1 (by decide)).trans h35, (hand 4 2 (by decide)).trans h36,
    (s.readLE_mirrorBytes (i := 6) (off := 0) rfl (Nat.le_refl 1) rfl).trans hcal,
    s.readLE_mirrorBytes (i := 7) (off := 0) rfl (by decide) rfl, s.mirrorBytes_source, s.mirrorBytes_view,
    (s.readLE_mirrorBytes (i := 10) (off := 0) rfl (by simp) rfl).trans (readLE_replicate_zero _ _ _),
    (s.readLE_mirrorBytes (i := 11) (off := 0) rfl (Nat.le_refl 2) rfl).trans (half _)⟩

end Sys2Proof.Machine
end

section
/-! PROOFS. Responses from memory: relayed, dropped, or placed (O25). -/

namespace Sys2Proof.Machine

/-- A response with nothing waiting on the channels is handed over and nothing follows. -/
theorem exec_responseRow_quiet {s : State} {i : Instr} {e : Fin 64} {m : MemResp} {o : OutEntry}
    (hq : s.quiet) (hi : i ∈ responseRows e m) (ho : s.outstanding[e] = some o)
    (hlen : m.data.length = o.owner.dataLength) : exec i s = .next (s.arrive e o m) := by
  rw [exec_of_responseRow s hi, State.respond_matched ho hlen, (hq.arrive e o m).acceptWaiting]

theorem State.arrive_of_discarded (s : State) (e : Fin 64) (m : MemResp) {o : OutEntry}
    (h : o.discarded = true) : s.arrive e o m = s.freeOutstanding e :=
  if_pos h

theorem State.arrive_of_kept (s : State) (e : Fin 64) (m : MemResp) {o : OutEntry}
    (h : o.discarded = false) : s.arrive e o m = (s.freeOutstanding e).hand o.owner m :=
  if_neg (by simp [h])

/-- A record or mirror writing counts as written whatever the code. -/
theorem State.arrive_of_ownWrite (s : State) (e : Fin 64) (m : MemResp) {o : OutEntry}
    (h : o.owner = .recordWrite ∨ o.owner = .mirrorWrite) : s.arrive e o m = s.freeOutstanding e := by
  unfold State.arrive
  rcases h with h | h <;> simp only [h, State.hand, ite_self]

/-! ### Placing bytes -/

theorem placeBytes_getElem (base addr i : Nat) {buf : List Byte} (data : List Byte) {x : Byte}
    (h : buf[i]? = some x) :
    (placeBytes base buf addr data)[i]? =
      some (if addr ≤ base + i ∧ base + i < addr + data.length then (data[base + i - addr]?).getD 0
        else x) := by
  simp only [placeBytes, List.getElem?_mapIdx, h, Option.map_some]
  by_cases hle : addr ≤ base + i
  · by_cases hlt : base + i < addr + data.length
    · have hin : base + i - addr < data.length := by omega
      simp [hle, hlt, List.getElem?_eq_getElem hin]
    · have hout : data.length ≤ base + i - addr := by omega
      simp [hle, hlt, List.getElem?_eq_none hout]
  · simp [hle]

/-! ### A response of a fetch that is not its last -/

theorem placeInEntry_fetching (segBase : Nat) (sp : Span) (m : MemResp) (key : RowKey) (urgent : Bool)
    (data : List Byte) :
    placeInEntry segBase sp m (.fetching key urgent data) = .fetching key urgent
      (if m.code = .okay then placeBytes segBase data sp.addr m.data else data) := by
  cases h : m.code <;> simp [placeInEntry, h]

theorem Fetch.isOf_iff {v : Fin 2} {n : Fin 16} {f : Fetch} :
    f.isOf v n = true ↔ f.view = v ∧ f.entry = n := by
  simp [Fetch.isOf]

theorem Fetch.not_done_of {f : Fetch} (m : MemResp) (h : f.todo ≠ [] ∨ 2 ≤ f.owed) :
    (f.responded m).done = false := by
  simp only [Fetch.done, Fetch.responded, Bool.and_eq_false_iff, List.isEmpty_eq_false_iff,
    beq_eq_false_iff_ne]
  rcases h with h | h
  · exact Or.inl h
  · exact Or.inr (by omega)

theorem ViewWork.fetchResponse_of_more {e : ViewEnv} {n : Fin 16} {f : Fetch} {w : ViewWork} (sp : Span)
    (m : MemResp) (hf : w.inflight.find? (fun g => g.isOf e.idx n) = some f)
    (h : f.todo ≠ [] ∨ 2 ≤ f.owed) :
    w.fetchResponse e n sp m = ViewWork.continueFetch e n m
      { w with view := w.view.setEntry n (placeInEntry f.segBase sp m w.view.cache[n]) } := by
  simp only [ViewWork.fetchResponse, hf, Fetch.not_done_of m h, Bool.false_eq_true, if_false]

theorem Fetch.responded_map_eq (v : Fin 2) (n : Fin 16) (m : MemResp) (l : List Fetch) :
    (l.map fun f => if f.isOf v n then f.responded m else f) = l.map fun g =>
      if g.view = v ∧ g.entry = n then { g with owed := g.owed - 1, error := g.error || m.code == .error }
      else g := by
  refine List.map_congr_left fun f _ => ?_
  simp only [Fetch.isOf_iff, Fetch.responded]

/-! ### A response of the load that is not its last -/

theorem Load.respond_eq (l : Load) (sp : Span) (m : MemResp) :
    l.respond sp m = { l with
      owed := l.owed - 1
      buffer := if m.code = .okay then placeBytes l.addr l.buffer sp.addr m.data else l.buffer
      error := if m.code = .okay then l.error
        else some (min (l.offsetOf sp) (l.error.getD (l.offsetOf sp))) } := by
  cases h : m.code <;> simp [Load.respond, h]

theorem Load.not_ended_of {l : Load} (sp : Span) (m : MemResp) (h : l.todo ≠ [] ∨ 2 ≤ l.owed) :
    (l.respond sp m).ended = false := by
  rw [Load.respond_eq]
  simp only [Load.ended, Bool.and_eq_false_iff, List.isEmpty_eq_false_iff, beq_eq_false_iff_ne]
  rcases h with h | h
  · exact Or.inl h
  · exact Or.inr (by omega)

theorem State.loadResponse_of_more {s : State} {l : Load} (sp : Span) (m : MemResp)
    (hl : s.cal.load = some l) (h : l.todo ≠ [] ∨ 2 ≤ l.owed) :
    s.loadResponse sp m = { s with cal := { s.cal with load := some (l.respond sp m) } } := by
  simp only [State.loadResponse, hl, Load.not_ended_of sp m h, Bool.false_eq_true, if_false]

/-- Settles O25: the entry names the owner, and each owner takes its response in its own way. -/
theorem responsesHandedOver : Obligations.ResponsesHandedOver := by
  unfold Obligations.ResponsesHandedOver
  refine ⟨fun s e m tag num isRead beats hq ho hlen => ?_, fun s e m o hq ho hlen => ⟨fun hd => ?_, fun hw => ?_⟩,
    fun s e m v n sp r f c hq ho hlen hr hf hmore hc => ?_, fun s e m sp l hq ho hlen hl hmore => ?_,
    fun base addr i buf data x hx => placeBytes_getElem base addr i data hx⟩
  · rw [exec_responseRow_quiet hq (by simp [responseRows]) ho hlen]
    rfl
  · rw [exec_responseRow_quiet hq (by simp [responseRows]) ho hlen, s.arrive_of_discarded e m hd]
    rfl
  · rw [exec_responseRow_quiet hq (by simp [responseRows]) ho hlen, s.arrive_of_ownWrite e m hw]
    rfl
  · rw [exec_responseRow_quiet hq (by simp [responseRows]) ho hlen, s.arrive_of_kept e m rfl]
    have hentry : placeInEntry f.segBase sp m s.views[v].cache[n] = c := by
      rcases hc with ⟨hcache, rfl⟩ | ⟨key, urgent, data, hcache, rfl⟩
      · rw [hcache]; rfl
      · rw [hcache, placeInEntry_fetching]
    have hresp := ViewWork.fetchResponse_of_more (e := (s.freeOutstanding e).envOf v r)
      (w := (s.freeOutstanding e).workOf v) sp m hf hmore
    simp only [State.hand]
    rw [State.onView_of_record _ (show (s.freeOutstanding e).views[v].record = some r from hr), hresp,
      ← Fetch.responded_map_eq]
    simp only [ViewWork.continueFetch, State.envOf, State.workOf, State.raiseAll,
      List.foldl_nil, State.putWork, List.append_nil, State.freeOutstanding, hentry]
    rfl
  · rw [exec_responseRow_quiet hq (by simp [responseRows]) ho hlen, s.arrive_of_kept e m rfl]
    simp only [State.hand]
    rw [State.loadResponse_of_more sp m (show (s.freeOutstanding e).cal.load = some l from hl) hmore,
      Load.respond_eq]
    rfl

end Sys2Proof.Machine
end

section
/-! PROOFS. The ranking of the arbiter and its ages (O19). -/

namespace Sys2Proof.Machine

/-! ### What a view offers -/

theorem State.issuedFetch_some {s : State} {v : Fin 2} {test : Fetch → Bool} {f : Fetch}
    (h : s.issuedFetch v test = some f) : f.view = v ∧ f.todo ≠ [] := by
  have hf := List.find?_some h
  simp only [Bool.and_eq_true, beq_iff_eq, Bool.not_eq_true', List.isEmpty_eq_false_iff] at hf
  exact hf.1

theorem readsFor_ne_nil (first last : Nat) : readsFor first last ≠ [] := by
  intro h
  have := readsFor_head first last
  rw [h] at this
  cases this

theorem State.formFetch_some {s : State} {v : Fin 2} {n : Fin 16} {f : Fetch}
    (h : s.formFetch v n = some f) : f.view = v ∧ f.todo ≠ [] := by
  unfold State.formFetch at h
  split at h
  · split at h
    · cases h
      exact ⟨rfl, readsFor_ne_nil _ _⟩
    · cases h
  all_goals cases h

/-- What a view offers is a fetch of its own with a read to grant. -/
theorem State.viewOffer_some {s : State} {v : Fin 2} {f : Fetch} (h : s.viewOffer v = some f) :
    f.view = v ∧ f.todo ≠ [] := by
  unfold State.viewOffer at h
  split at h
  · rcases Option.or_eq_some_iff.mp h with h | ⟨-, h⟩
    · exact State.issuedFetch_some h
    rcases Option.or_eq_some_iff.mp h with h | ⟨-, h⟩
    · obtain ⟨n, -, hn⟩ := Option.bind_eq_some_iff.mp h
      exact State.formFetch_some hn
    rcases Option.or_eq_some_iff.mp h with h | ⟨-, h⟩
    · exact State.issuedFetch_some h
    · obtain ⟨n, -, hn⟩ := Option.bind_eq_some_iff.mp h
      exact State.formFetch_some hn
  · cases h

theorem State.viewOffer_of_not_running {s : State} (h : s.phase ≠ .running) (v : Fin 2) :
    s.viewOffer v = none := if_neg h

theorem State.urgentOffer_iff {s : State} {v : Fin 2} :
    s.urgentOffer v = true ↔ ∃ f, s.viewOffer v = some f ∧ f.urgent = true := by
  simp [State.urgentOffer, Option.any_eq_true]

theorem State.prefetchOffer_iff {s : State} {v : Fin 2} :
    s.prefetchOffer v = true ↔ ∃ f, s.viewOffer v = some f ∧ f.urgent = false := by
  simp [State.prefetchOffer, Option.any_eq_true]

theorem State.agedPrefetch_iff {s : State} {v : Fin 2} :
    s.agedPrefetch v = true ↔
      (∃ f, s.viewOffer v = some f ∧ f.urgent = false) ∧ s.arb.ageView[v] = 64 := by
  rw [← State.prefetchOffer_iff]
  simp only [State.agedPrefetch, Bool.and_eq_true, beq_iff_eq, agedAt]

/-! ### The round robin -/

@[simp] theorem otherView_otherView (v : Fin 2) : otherView (otherView v) = v := by
  revert v
  decide

theorem roundRobin_of_offers {pointer v : Fin 2} {offers : Fin 2 → Bool} (h : offers v = true)
    (hp : offers (otherView v) = true → pointer = v) : roundRobin pointer offers = some (.view v) := by
  unfold roundRobin
  by_cases hv : pointer = v
  · rw [hv, if_pos h]
  · have hother : pointer = otherView v := Fin.eq_otherView hv
    rw [hother, if_neg fun hoff => hv (hp hoff), otherView_otherView, if_pos h]

theorem roundRobin_of_none {offers : Fin 2 → Bool} (pointer : Fin 2) (h : ∀ v, ¬ offers v = true) :
    roundRobin pointer offers = none := by
  unfold roundRobin
  rw [if_neg (h _), if_neg (h _)]

theorem roundRobin_some {pointer : Fin 2} {offers : Fin 2 → Bool} {g : Requester}
    (h : roundRobin pointer offers = some g) : ∃ v, g = .view v ∧ offers v = true := by
  unfold roundRobin at h
  split at h
  · cases h
    exact ⟨_, rfl, ‹_›⟩
  · split at h
    · cases h
      exact ⟨_, rfl, ‹_›⟩
    · cases h

/-! ### The ranking -/

/-- The ranks in their order. -/
theorem State.winner_eq (s : State) : s.winner =
    (roundRobin s.arb.urgentPtr s.urgentOffer).or
      ((roundRobin s.arb.prefetchPtr s.agedPrefetch).or
        ((if s.reportOffer.isSome ∧ s.arb.ageReport = agedAt then some .report else none).or
          ((if s.calOffer.isSome ∧ s.arb.ageCal = agedAt then some .cal else none).or
            ((if s.passOffer.isSome then some .pass else none).or
              ((roundRobin s.arb.prefetchPtr s.prefetchOffer).or
                ((if s.reportOffer.isSome then some .report else none).or
                  (if s.calOffer.isSome then some .cal else none))))))) := by
  have hlist (a b c d e f : Option Requester) :
      [a, b, c, d, e, f].findSome? id = a.or (b.or (c.or (d.or (e.or f)))) := by
    cases a <;> cases b <;> cases c <;> cases d <;> cases e <;> cases f <;> rfl
  rw [State.winner, State.ranks, hlist, Option.or_assoc]
  have htwo {p q : Prop} [Decidable p] [Decidable q] (x y : Requester) :
      (if p then some x else if q then some y else none) =
        (if p then some x else none).or (if q then some y else none) := by
    split <;> rfl
  rw [htwo, Option.or_assoc]

theorem State.passOffer_isSome {s : State} : s.passOffer.isSome = true ↔ s.passQueue ≠ [] := by
  unfold State.passOffer
  cases s.passQueue <;> simp

/-- What the requester that ranks first has to offer. -/
def State.candidateOf (s : State) : Requester → Prop
  | .pass => s.passQueue ≠ []
  | .view v => s.viewOffer v ≠ none
  | .report => s.reportOffer ≠ none
  | .cal => s.calOffer ≠ none

theorem ite_some_eq_some {α : Type} {p : Prop} [Decidable p] {a b : α} :
    (if p then some a else none) = some b ↔ p ∧ a = b := by
  split <;> simp [*]

/-- The requester that ranks first offers a candidate. -/
theorem State.winner_offers {s : State} {g : Requester} (h : s.winner = some g) : s.candidateOf g := by
  have hview {v : Fin 2} {test : Fetch → Bool} (hv : (s.viewOffer v).any test = true) :
      s.viewOffer v ≠ none := by
    intro hn
    rw [hn] at hv
    cases hv
  rw [State.winner_eq] at h
  simp only [Option.or_eq_some_iff, ite_some_eq_some] at h
  rcases h with h | ⟨-, h | ⟨-, h | ⟨-, h | ⟨-, h | ⟨-, h | ⟨-, h | ⟨-, h⟩⟩⟩⟩⟩⟩⟩
  · obtain ⟨v, rfl, hv⟩ := roundRobin_some h
    exact hview hv
  · obtain ⟨v, rfl, hv⟩ := roundRobin_some h
    exact hview (Bool.and_eq_true_iff.mp hv).1
  · obtain ⟨⟨hr, -⟩, rfl⟩ := h
    exact Option.isSome_iff_ne_none.mp hr
  · obtain ⟨⟨hr, -⟩, rfl⟩ := h
    exact Option.isSome_iff_ne_none.mp hr
  · obtain ⟨hr, rfl⟩ := h
    exact State.passOffer_isSome.mp hr
  · obtain ⟨v, rfl, hv⟩ := roundRobin_some h
    exact hview hv
  · obtain ⟨hr, rfl⟩ := h
    exact Option.isSome_iff_ne_none.mp hr
  · obtain ⟨hr, rfl⟩ := h
    exact Option.isSome_iff_ne_none.mp hr

/-! ### The lowest free entry -/

theorem State.freeEntry_of_lowestFree {s : State} {e : Fin 64} (h : s.lowestFree e) :
    s.freeEntry = some e := by
  obtain ⟨hfree, hlower⟩ := h
  unfold State.freeEntry
  rw [List.find?_eq_some_iff_getElem]
  refine ⟨by simp [hfree], e.val, by simp, by simp, fun j hj => ?_⟩
  have htaken := hlower ⟨j, by omega⟩ (by simpa [Fin.lt_def] using hj)
  simpa [Option.isSome_iff_ne_none] using htaken

theorem State.freeEntry_of_full {s : State} (h : ∀ e : Fin 64, s.outstanding[e] ≠ none) :
    s.freeEntry = none := by
  unfold State.freeEntry
  rw [List.find?_eq_none]
  intro e _
  simpa using h e

/-- A grant with nothing waiting on the channels. -/
theorem exec_arbiterGrant_of_winner {s : State} {e : Fin 64} {g : Requester} (hq : s.quiet)
    (he : s.lowestFree e) (hg : s.winner = some g) : exec .arbiterGrant s = .next (s.grantedTo e g) := by
  have hgrant : s.grant = s.grantedTo e g := by
    simp only [State.grant, State.freeEntry_of_lowestFree he, hg]
  change Host.Outcome.next s.grant.acceptWaiting = _
  rw [hgrant, (hq.grantedTo e g).acceptWaiting]

theorem exec_arbiterGrant_of_none {s : State} (hq : s.quiet)
    (h : (∀ e : Fin 64, s.outstanding[e] ≠ none) ∨ s.winner = none) :
    exec .arbiterGrant s = .next s := by
  have hgrant : s.grant = s := by
    rcases h with h | h
    · simp only [State.grant, State.freeEntry_of_full h]
    · cases hfree : s.freeEntry <;> simp only [State.grant, hfree, h]
  change Host.Outcome.next s.grant.acceptWaiting = _
  rw [hgrant, hq.acceptWaiting]

/-! ### What a grant issues -/

theorem State.grantPass_of_head {s : State} (e : Fin 64) {q : Request} {qs : List Request}
    (h : s.passQueue = q :: qs) :
    s.grantPass e = State.issue { s with passQueue := qs } e (ownerOf q) q := by
  simp only [State.grantPass, h]

theorem State.grantView_of_offer {s : State} (e : Fin 64) {v : Fin 2} {f : Fetch} {sp : Span}
    {rest : List Span} (hf : s.viewOffer v = some f) (ht : f.todo = sp :: rest) :
    s.grantView e v = State.issue (if f.granted = 0 then s.issueFetch f else s.continueFetch f) e
      (.fetch v f.entry sp) (ownRead sp) := by
  simp only [State.grantView, hf, ht]

/-- Whoever is granted, one request leaves under the entry. -/
theorem State.grantTo_issues {s : State} (e : Fin 64) {g : Requester} (h : s.candidateOf g) :
    ∃ o q, (s.grantTo e g).outstanding = s.outstanding.set e.val (some ⟨o, false⟩) e.isLt ∧
      (s.grantTo e g).memRequests = s.memRequests ++ [numbered q e] := by
  cases g with
  | pass =>
    obtain ⟨q, qs, hqueue⟩ := List.exists_cons_of_ne_nil h
    refine ⟨ownerOf q, q, ?_⟩
    rw [State.grantTo, State.grantPass_of_head e hqueue]
    exact ⟨rfl, rfl⟩
  | view v =>
    obtain ⟨f, hf⟩ := Option.ne_none_iff_exists'.mp h
    obtain ⟨sp, rest, ht⟩ := List.exists_cons_of_ne_nil (State.viewOffer_some hf).2
    refine ⟨.fetch v f.entry sp, ownRead sp, ?_⟩
    rw [State.grantTo, State.grantView_of_offer e hf ht]
    split <;> exact ⟨rfl, rfl⟩
  | report =>
    obtain ⟨x, hx⟩ := Option.ne_none_iff_exists'.mp h
    cases x with
    | record r =>
      refine ⟨.recordWrite,
        ownWrite (recordAddr s.strapCp s.report.writeIndex) (r.bytes s.report.writeIndex), ?_⟩
      simp only [State.grantTo, State.grantReport, hx]
      exact ⟨rfl, rfl⟩
    | mirror =>
      refine ⟨.mirrorWrite, ownWrite (mirrorAddr s.strapCp)
        (State.mirrorBytes { s with report := s.report.grantMirror }), ?_⟩
      simp only [State.grantTo, State.grantReport, hx]
      exact ⟨rfl, rfl⟩
  | cal =>
    obtain ⟨sp, hsp⟩ := Option.ne_none_iff_exists'.mp h
    refine ⟨.load sp, ownRead sp, ?_⟩
    simp only [State.grantTo, State.grantCal, hsp]
    exact ⟨rfl, rfl⟩

/-! ### O19 -/

/-- The ranking, each rank when the ones before it hold no candidate. -/
theorem State.winner_ranked (s : State) :
    let urgent := fun v : Fin 2 => ∃ f, s.viewOffer v = some f ∧ f.urgent = true
    let prefetch := fun v : Fin 2 => ∃ f, s.viewOffer v = some f ∧ f.urgent = false
    let aged := fun v : Fin 2 => prefetch v ∧ s.arb.ageView[v] = 64
    let report := s.reportOffer ≠ none
    let cal := s.calOffer ≠ none
    let first := fun (offers : Fin 2 → Prop) (pointer : Fin 2) => ∀ v : Fin 2,
      offers v → (offers (1 - v) → pointer = v) → s.winner = some (.view v)
    first urgent s.arb.urgentPtr ∧
    ((∀ v, ¬ urgent v) →
      first aged s.arb.prefetchPtr ∧
      ((∀ v, ¬ aged v) →
        (report → s.arb.ageReport = 64 → s.winner = some .report) ∧
        (¬ (report ∧ s.arb.ageReport = 64) →
          (cal → s.arb.ageCal = 64 → s.winner = some .cal) ∧
          (¬ (cal ∧ s.arb.ageCal = 64) →
            (s.passQueue ≠ [] → s.winner = some .pass) ∧
            (s.passQueue = [] →
              first prefetch s.arb.prefetchPtr ∧
              ((∀ v, ¬ prefetch v) →
                (report → s.winner = some .report) ∧
                (¬ report → cal → s.winner = some .cal) ∧
                (¬ report → ¬ cal → s.winner = none))))))) := by
  intro urgent prefetch aged report cal first
  have hrep : s.reportOffer.isSome = true ↔ report := Option.isSome_iff_ne_none
  have hcal : s.calOffer.isSome = true ↔ cal := Option.isSome_iff_ne_none
  have hw := s.winner_eq
  refine ⟨fun v hv hp => ?_, fun hu => ?_⟩
  · rw [hw, roundRobin_of_offers (State.urgentOffer_iff.mpr hv) fun h =>
      hp (State.urgentOffer_iff.mp h), Option.some_or]
  have hurgent := roundRobin_of_none s.arb.urgentPtr fun v h => hu v (State.urgentOffer_iff.mp h)
  rw [hurgent, Option.none_or] at hw
  refine ⟨fun v hv hp => ?_, fun ha => ?_⟩
  · rw [hw, roundRobin_of_offers (State.agedPrefetch_iff.mpr hv) fun h => hp (State.agedPrefetch_iff.mp h),
      Option.some_or]
  have haged := roundRobin_of_none s.arb.prefetchPtr fun v h => ha v (State.agedPrefetch_iff.mp h)
  rw [haged, Option.none_or] at hw
  refine ⟨fun h h64 => ?_, fun hnr => ?_⟩
  · rw [hw, if_pos ⟨hrep.mpr h, h64⟩, Option.some_or]
  rw [if_neg fun h => hnr ⟨hrep.mp h.1, h.2⟩, Option.none_or] at hw
  refine ⟨fun h h64 => ?_, fun hnc => ?_⟩
  · rw [hw, if_pos ⟨hcal.mpr h, h64⟩, Option.some_or]
  rw [if_neg fun h => hnc ⟨hcal.mp h.1, h.2⟩, Option.none_or] at hw
  refine ⟨fun h => ?_, fun h => ?_⟩
  · rw [hw, if_pos (State.passOffer_isSome.mpr h), Option.some_or]
  rw [if_neg fun hp => State.passOffer_isSome.mp hp h, Option.none_or] at hw
  refine ⟨fun v hv hp => ?_, fun hnp => ?_⟩
  · rw [hw, roundRobin_of_offers (State.prefetchOffer_iff.mpr hv) fun h => hp (State.prefetchOffer_iff.mp h),
      Option.some_or]
  have hpre := roundRobin_of_none s.arb.prefetchPtr fun v h => hnp v (State.prefetchOffer_iff.mp h)
  rw [hpre, Option.none_or] at hw
  refine ⟨fun h => ?_, fun hr hc => ?_, fun hr hc => ?_⟩
  · rw [hw, if_pos (hrep.mpr h), Option.some_or]
  · rw [hw, if_neg fun h => hr (hrep.mp h), if_pos (hcal.mpr hc), Option.none_or]
  · rw [hw, if_neg fun h => hr (hrep.mp h), if_neg fun h => hc (hcal.mp h), Option.none_or]

/-- The pointers after a grant to a view: that of its candidate's class names the other view. -/
theorem State.arbAfter_pointers {s : State} {v : Fin 2} {f : Fetch} (hf : s.viewOffer v = some f) :
    (f.urgent = true → (s.arbAfter (.view v)).urgentPtr = 1 - v ∧
      (s.arbAfter (.view v)).prefetchPtr = s.arb.prefetchPtr) ∧
    (f.urgent = false → (s.arbAfter (.view v)).urgentPtr = s.arb.urgentPtr ∧
      (s.arbAfter (.view v)).prefetchPtr = 1 - v) := by
  simp only [State.arbAfter, State.urgentOffer, State.prefetchOffer, hf, Option.any_some]
  refine ⟨fun h => ?_, fun h => ?_⟩ <;> simp [h, otherView]

/-- Settles O19: the ranks in their order, the pointers and ages field by field, and the issue of the
winner's request. -/
theorem grantsRanked : Obligations.GrantsRanked := by
  unfold Obligations.GrantsRanked
  refine ⟨State.winner_ranked, fun s => ⟨fun h => ⟨if_pos h, if_pos h⟩, fun h =>
    ⟨State.viewOffer_of_not_running h, if_neg h, if_neg h⟩⟩, fun s g => ?_, fun s => ?_,
    fun s e g hq he hg => ?_, fun s hq h => exec_arbiterGrant_of_none hq h⟩
  · refine ⟨fun v => ?_, ?_, ?_, fun v f hg hf => ?_, fun hg => ?_⟩
    · simp only [State.arbAfter, Fin.getElem_fin, Vector.getElem_ofFn, nextAge, agedAt, beq_iff_eq,
        decide_eq_true_eq]
    · simp only [State.arbAfter, nextAge, agedAt, beq_iff_eq, decide_eq_true_eq]
    · simp only [State.arbAfter, nextAge, agedAt, beq_iff_eq, decide_eq_true_eq]
    · subst hg
      exact State.arbAfter_pointers hf
    · cases g with
      | view v => exact absurd rfl (hg v)
      | pass | report | cal => exact ⟨rfl, rfl⟩
  · have hopt {α : Type} (o : Option α) (n : Nat) :
        (if o.isSome then n else 0) = if o = none then 0 else n := by
      cases o <;> simp
    refine ⟨_, rfl, fun v => ?_, hopt _ _, hopt _ _, rfl, rfl⟩
    simp only [Fin.getElem_fin, Vector.getElem_ofFn]
    exact hopt _ _
  · obtain ⟨o, q, hout, hmem⟩ := State.grantTo_issues e (State.winner_offers hg)
    refine ⟨_, o, q, exec_arbiterGrant_of_winner hq he hg, rfl, hout, hmem, fun q qs hpass hqueue => ?_⟩
    subst hpass
    simp only [State.grantedTo, State.grantTo, State.grantPass_of_head e hqueue]
    rfl

end Sys2Proof.Machine
end

section
/-! PROOFS. The grants of the part's own reads and writes (O20, O22). -/

namespace Sys2Proof.Machine

/-! ### The order in which a view offers its fetches -/

theorem State.issuedFetch_eq_none {s : State} {v : Fin 2} {test : Fetch → Bool}
    (h : ∀ g ∈ s.inflight, ¬ ((g.view = v ∧ g.todo ≠ []) ∧ test g = true)) :
    s.issuedFetch v test = none := by
  unfold State.issuedFetch
  rw [List.find?_eq_none]
  intro g hg
  simpa using h g hg

theorem State.issuedFetch_of_oldest {s : State} {v : Fin 2} {test : Fetch → Bool} {f : Fetch}
    {before after : List Fetch} (hsplit : s.inflight = before ++ f :: after)
    (hf : (f.view = v ∧ f.todo ≠ []) ∧ test f = true)
    (hbefore : ∀ g ∈ before, ¬ ((g.view = v ∧ g.todo ≠ []) ∧ test g = true)) :
    s.issuedFetch v test = some f := by
  unfold State.issuedFetch
  rw [List.find?_eq_some_iff_append]
  refine ⟨by simpa using hf, before, after, hsplit, fun g hg => ?_⟩
  rw [Bool.not_eq_true', ← Bool.not_eq_true]
  simpa using hbefore g hg

/-- The four cases of what a view offers in running. -/
theorem State.viewOffer_cases (s : State) (v : Fin 2) (hrun : s.phase = .running) :
    let left := fun f : Fetch => f.view = v ∧ f.todo ≠ []
    let oldest := fun (test : Fetch → Prop) (f : Fetch) =>
      ∃ before after, s.inflight = before ++ f :: after ∧ test f ∧ ∀ g ∈ before, ¬ test g
    let queue := s.views[v].fetchQ
    (∀ f, oldest (fun g => left g ∧ g.urgent = true) f → s.viewOffer v = some f) ∧
    ((∀ g ∈ s.inflight, ¬ (left g ∧ g.urgent = true)) →
      (∀ n ns f, queue.urgent = n :: ns → s.formFetch v n = some f → s.viewOffer v = some f) ∧
      (queue.urgent = [] →
        (∀ f, oldest left f → s.viewOffer v = some f) ∧
        ((∀ g ∈ s.inflight, ¬ left g) →
          (∀ n ns f, queue.normal = n :: ns → s.formFetch v n = some f → s.viewOffer v = some f) ∧
          (queue.normal = [] → s.viewOffer v = none)))) := by
  intro left oldest queue
  have hoffer : s.viewOffer v = _ := if_pos hrun
  refine ⟨fun f ⟨before, after, hsplit, hf, hbefore⟩ => ?_, fun hnone => ?_⟩
  · rw [hoffer, State.issuedFetch_of_oldest hsplit hf hbefore, Option.some_or]
  rw [State.issuedFetch_eq_none hnone, Option.none_or] at hoffer
  refine ⟨fun n ns f hn hf => ?_, fun hurgent => ?_⟩
  · rw [hoffer, show s.views[v].fetchQ.urgent = n :: ns from hn, List.head?_cons, Option.bind_some, hf,
      Option.some_or]
  rw [show s.views[v].fetchQ.urgent = [] from hurgent, List.head?_nil, Option.bind_none,
    Option.none_or] at hoffer
  refine ⟨fun f ⟨before, after, hsplit, hf, hbefore⟩ => ?_, fun hnone => ?_⟩
  · rw [hoffer, State.issuedFetch_of_oldest hsplit ⟨hf, rfl⟩ fun g hg h => hbefore g hg h.1, Option.some_or]
  rw [State.issuedFetch_eq_none fun g hg h => hnone g hg h.1, Option.none_or] at hoffer
  refine ⟨fun n ns f hn hf => ?_, fun hnormal => ?_⟩
  · rw [hoffer, show s.views[v].fetchQ.normal = n :: ns from hn, List.head?_cons, Option.bind_some, hf]
  · rw [hoffer, show s.views[v].fetchQ.normal = [] from hnormal, List.head?_nil, Option.bind_none]

/-! ### The fetch of an entry -/

theorem Plan.side_eq (p : Plan) (k : Side) :
    p.side k = match k with | .fromSide => p.fromSide | .toSide => p.toSide := by
  cases k <;> rfl

theorem SourceRecord.storeBase_of {r : SourceRecord} {n base : Nat}
    (h : (r.posBases ++ r.spareBases)[n]? = some base) : r.storeBase n = base := by
  simp only [SourceRecord.storeBase, h, Option.getD_some]

/-- The fetch of a FETCHING entry whose side and source are there. -/
theorem State.formFetch_of {s : State} {v : Fin 2} {n : Fin 16} {key : RowKey} {urgent : Bool}
    {data : List Byte} {p : Plan} {side : SidePlan} {r : SourceRecord} {base : Nat}
    (hcache : s.views[v].cache[n] = .fetching key urgent data) (hplan : s.views[v].plan = some p)
    (hside : p.side key.side = some side) (hcols : side.cmin ≤ side.cmax)
    (hsource : s.sources[key.source].record = some r)
    (hbase : (r.posBases ++ r.spareBases)[key.store]? = some base) :
    let row := base + key.row * r.stride
    let reads := readsFor (row + 4 * side.cmin) (row + 4 * side.cmax + 3)
    s.formFetch v n = some ⟨v, n, 0, reads.length, 0, reads, row + 4 * side.cmin, urgent, false⟩ := by
  have hlast (x : Nat) : x + 4 * side.cmin + 4 * (side.cmax - side.cmin) + 3 = x + 4 * side.cmax + 3 := by
    omega
  simp only [State.formFetch, hcache, hplan, Option.bind_some, hside, hsource,
    SourceRecord.storeBase_of hbase, hlast]

theorem State.segmentBytes_of {s : State} {v : Fin 2} {n : Fin 16} {key : RowKey} {urgent : Bool}
    {data : List Byte} {p : Plan} {side : SidePlan}
    (hcache : s.views[v].cache[n] = .fetching key urgent data) (hplan : s.views[v].plan = some p)
    (hside : p.side key.side = some side) :
    s.segmentBytes v n = 4 * (side.cmax - side.cmin + 1) := by
  simp only [State.segmentBytes, hcache, hplan, Option.bind_some, hside, Option.map_some, Option.getD_some]

/-- A grant to a view with nothing waiting on the channels: its fetch's next read leaves. -/
theorem exec_arbiterGrant_of_view {s : State} {e : Fin 64} {v : Fin 2} {f : Fetch} {sp : Span}
    {rest : List Span} (hq : s.quiet) (he : s.lowestFree e) (hw : s.winner = some (.view v))
    (hf : s.viewOffer v = some f) (ht : f.todo = sp :: rest) :
    exec .arbiterGrant s = .next { State.issue
      (if f.granted = 0 then s.issueFetch f else s.continueFetch f) e (.fetch v f.entry sp) (ownRead sp) with
      arb := s.arbAfter (.view v) } := by
  rw [exec_arbiterGrant_of_winner hq he hw, State.grantedTo, State.grantTo,
    State.grantView_of_offer e hf ht]

/-- Settles O20: the order of the offers, the fetch of an entry, and the three grants of a read. -/
theorem readsGranted : Obligations.ReadsGranted := by
  unfold Obligations.ReadsGranted
  refine ⟨State.viewOffer_cases, fun s v n key urgent data p side r base hcache hplan hside hcols hsource
    hbase => ⟨?_, fun e sp rest hq he hw hf ht => ?_⟩, fun s e v f sp rest hq he hw hf hview hgr ht => ?_,
    fun s e l sp rest hq he hw hl ht => ?_⟩
  · exact State.formFetch_of hcache hplan ((p.side_eq key.side).trans hside) hcols hsource hbase
  · have hsegment := State.segmentBytes_of hcache hplan ((p.side_eq key.side).trans hside)
    rw [exec_arbiterGrant_of_view hq he hw hf ht, if_pos rfl]
    simp only [State.issueFetch, Fetch.grant, hsegment, hcache, ht, List.tail_cons, State.issue]
    rfl
  · rw [exec_arbiterGrant_of_view hq he hw hf ht, if_neg hgr]
    subst hview
    rfl
  · have hoffer : s.calOffer = some sp := by
      have hrun : s.phase = .running := by
        by_contra hn
        exact State.winner_offers hw (if_neg hn)
      rw [State.calOffer, if_pos hrun, hl, Option.bind_some, ht, List.head?_cons]
    rw [exec_arbiterGrant_of_winner hq he hw]
    simp only [State.grantedTo, State.grantTo, State.grantCal, hoffer, hl, Option.map_some, Load.grant, ht,
      List.tail_cons]
    rfl

/-! ### The grants of the Report Unit -/

theorem Record.bytes_length (r : Record) (seq : Half) : (r.bytes seq).length = 32 :=
  (r.bytes_fields seq).1

theorem vector_set_eq_ofFn {α : Type} {k : Nat} (w : Vector α k) {i : Nat} (hi : i < k) (x : α) :
    w.set i x hi = Vector.ofFn fun n : Fin k => if n.val = i then x else w[n] := by
  ext j hj
  simp only [Vector.getElem_set, Vector.getElem_ofFn, eq_comm (a := i), Fin.getElem_fin]

theorem ownWrite_eq {addr beats : Nat} {data : List Byte} (h : data.length = 16 * beats) :
    ownWrite addr data =
      .write ⟨255, BitVec.ofNat 40 addr, beats, 0, data, List.replicate (16 * beats) true⟩ := by
  unfold ownWrite
  rw [h, Nat.mul_div_cancel_left _ (by decide)]
  rfl

/-- The Report Unit's head, when the port is granted to it. -/
theorem State.reportOffer_of_winner {s : State} (h : s.winner = some .report) :
    s.reportOffer = s.report.output.head? := by
  by_cases hrun : s.phase = .running
  · exact if_pos hrun
  · exact absurd (if_neg hrun) (State.winner_offers h)

theorem Report.grantRecord_of_head {r : Report} {x : Record} {rest : List OutItem}
    (h : r.output = .record x :: rest) :
    r.grantRecord x = Report.testRoom
      { r with
        writeIndex := r.writeIndex + 1
        alertFlags := Vector.ofFn fun n : Fin 256 =>
          if n.val = r.writeIndex.toNat % 256 then r.mask.getLsbD (x.kind.code - 1) else r.alertFlags[n]
        output := rest } := by
  rw [Report.grantRecord, vector_set_eq_ofFn, h]
  rfl

theorem Report.evtLow_iff (r : Report) :
    r.evtLow = true ↔ ∃ n : Nat, n < (r.writeIndex - r.ackIndex).toNat ∧
      ∃ p : Fin 256, p.val = (r.ackIndex.toNat + n) % 256 ∧ r.alertFlags[p] = true := by
  simp only [Report.evtLow, List.any_eq_true, List.mem_range, Report.unacked, Report.flagAt]
  refine exists_congr fun n => and_congr_right fun _ => ⟨fun h => ⟨⟨_, Nat.mod_lt _ (by decide)⟩, rfl, h⟩, ?_⟩
  rintro ⟨p, hp, hflag⟩
  simp only [← hp]
  exact hflag

/-- Settles O22: the write that leaves has the length of its bytes, and the flags read position by position. -/
theorem reportGrants : Obligations.ReportGrants := by
  unfold Obligations.ReportGrants
  refine ⟨fun s e hq he hw => ⟨fun r rest hout => ⟨?_, ?_⟩, fun rest hout => ?_⟩, fun s => ?_⟩
  · have hoffer : s.reportOffer = some (.record r) := by rw [State.reportOffer_of_winner hw, hout]; rfl
    rw [exec_arbiterGrant_of_winner hq he hw]
    simp only [State.grantedTo, State.grantTo, State.grantReport, hoffer, Report.grantRecord_of_head hout]
    rw [ownWrite_eq (beats := 2) (r.bytes_length _)]
    rfl
  · rw [Report.grantRecord, Report.testRoom, Report.moveEntries_writeIndex]
  · intro granted
    have hoffer : s.reportOffer = some .mirror := by rw [State.reportOffer_of_winner hw, hout]; rfl
    have hgranted : s.report.grantMirror = granted := by
      rw [Report.grantMirror, hout]
      rfl
    rw [exec_arbiterGrant_of_winner hq he hw]
    simp only [State.grantedTo, State.grantTo, State.grantReport, hoffer, hgranted]
    rw [ownWrite_eq (beats := 16) (State.mirrorBytes_length _)]
    rfl
  · rw [State.evtN, Bool.not_eq_false', Report.evtLow_iff]

end Sys2Proof.Machine
end

section
/-! PROOFS. The copy of a control-page write: the bytes copied, a slot's capture, and the overruns (O11). -/

namespace Sys2Proof.Machine

/-! ### The copied bytes -/

theorem mem_copiedBytes {off : Nat} {w : WriteReq} {o : Nat} {x : Byte} :
    (o, x) ∈ copiedBytes off w ↔
      off ≤ o ∧ w.strobes[o - off]? = some true ∧ w.data[o - off]? = some x := by
  simp only [copiedBytes, List.mem_filterMap, List.mem_mapIdx]
  constructor
  · rintro ⟨y, ⟨i, hi, rfl⟩, hy⟩
    obtain ⟨hs, hd⟩ : i < w.strobes.length ∧ i < w.data.length := by simpa using hi
    simp only [List.getElem_zip, Option.ite_none_right_eq_some, Option.some.injEq, Prod.mk.injEq] at hy
    obtain ⟨hstrobe, rfl, rfl⟩ := hy
    simp [List.getElem?_eq_getElem hs, List.getElem?_eq_getElem hd, hstrobe]
  · rintro ⟨hle, hs, hd⟩
    obtain ⟨hi, hs⟩ := List.getElem?_eq_some_iff.mp hs
    obtain ⟨hj, hd⟩ := List.getElem?_eq_some_iff.mp hd
    refine ⟨_, ⟨o - off, by simp [hi, hj], rfl⟩, ?_⟩
    simp [hs, hd]
    omega

/-- Each offset is copied once. -/
theorem copiedBytes_nodup (off : Nat) (w : WriteReq) : ((copiedBytes off w).map Prod.fst).Nodup := by
  have hsorted : ((w.strobes.zip w.data).mapIdx fun i b => (off + i, b)).Pairwise
      fun x y => x.1 < y.1 := by
    rw [List.pairwise_iff_getElem]
    intro i j hi hj hij
    simpa using hij
  rw [List.Nodup, List.pairwise_map]
  refine hsorted.filterMap _ fun x y hxy b hb c hc => ?_
  simp only [Option.ite_none_right_eq_some, Option.some.injEq] at hb hc
  obtain ⟨-, rfl⟩ := hb
  obtain ⟨-, rfl⟩ := hc
  exact Nat.ne_of_lt hxy

theorem mem_slotBytes {n : Fin 32} {p : Fin 64} {x : Byte} {bs : List (Nat × Byte)} :
    (p, x) ∈ slotBytes n bs ↔ (64 * n.val + p.val, x) ∈ bs := by
  simp only [slotBytes, List.mem_filterMap, Option.ite_none_right_eq_some, Option.some.injEq,
    Prod.mk.injEq, Fin.ext_iff]
  constructor
  · rintro ⟨⟨o, y⟩, hmem, hdiv, hmod, rfl⟩
    have ho : o = 64 * n.val + p.val := by dsimp only at hdiv hmod; omega
    exact ho ▸ hmem
  · intro hmem
    refine ⟨_, hmem, ?_, ?_, rfl⟩ <;> (dsimp only; omega)

theorem mem_ackBytes {p : Fin 4} {x : Byte} {bs : List (Nat × Byte)} :
    (p, x) ∈ ackBytes bs ↔ (2048 + p.val, x) ∈ bs := by
  simp only [ackBytes, List.mem_filterMap]
  constructor
  · rintro ⟨⟨o, y⟩, hmem, hy⟩
    obtain ⟨hrange, hpx⟩ := Option.ite_none_right_eq_some.mp hy
    obtain ⟨hmod, rfl⟩ := Prod.mk.inj (Option.some.inj hpx)
    have ho : o = 2048 + p.val := by
      rw [← hmod]
      dsimp only [ackOffset] at hrange ⊢
      omega
    exact ho ▸ hmem
  · intro hmem
    refine ⟨_, hmem, Option.ite_none_right_eq_some.mpr ⟨?_, ?_⟩⟩
    · dsimp only [ackOffset]
      omega
    · rw [Option.some.injEq, Prod.mk.injEq, Fin.ext_iff]
      refine ⟨?_, rfl⟩
      dsimp only
      omega

/-! ### A slot's capture -/

/-- A slot with the bytes of a write in it and their marks set. -/
def Slot.withBytes (sl : Slot) (bs : List (Fin 64 × Byte)) : Slot :=
  { sl with
    bytes := Vector.ofFn fun p => (bs.lookup p).getD sl.bytes[p]
    marks := Vector.ofFn fun p => sl.marks[p] || (bs.lookup p).isSome }

theorem Slot.captureBytes_fields (bs : List (Fin 64 × Byte)) (sl : Slot) :
    bs.foldl Slot.captureByte sl = { sl with
      bytes := bs.foldl (fun ys b => ys.set b.1.val b.2 b.1.isLt) sl.bytes
      marks := (bs.map fun b => (b.1, true)).foldl (fun ys b => ys.set b.1.val b.2 b.1.isLt) sl.marks } := by
  induction bs generalizing sl with
  | nil => rfl
  | cons b bs ih => exact ih _

theorem lookup_map_true (bs : List (Fin 64 × Byte)) (p : Fin 64) :
    (bs.map fun b => (b.1, true)).lookup p = (bs.lookup p).map fun _ => true := by
  induction bs with
  | nil => rfl
  | cons b bs ih =>
    obtain ⟨q, y⟩ := b
    simp only [List.map_cons, List.lookup_cons, ih]
    cases p == q <;> rfl

theorem Slot.captureBytes_eq {bs : List (Fin 64 × Byte)} (sl : Slot) (h : (bs.map Prod.fst).Nodup) :
    bs.foldl Slot.captureByte sl = sl.withBytes bs := by
  have hmarks : ((bs.map fun b => (b.1, true)).map Prod.fst).Nodup := by
    rwa [List.map_map]
  rw [Slot.captureBytes_fields, foldl_set_eq_ofFn bs _ h, foldl_set_eq_ofFn _ _ hmarks, Slot.withBytes]
  congr 2
  funext p
  rw [lookup_map_true]
  cases bs.lookup p <;> simp

theorem Slot.capture_eq {bs : List (Fin 64 × Byte)} (sl : Slot) (h : (bs.map Prod.fst).Nodup) :
    sl.capture bs =
      if ∃ x ∈ bs, 60 ≤ x.1.val then (sl.withBytes bs).testTrailer else sl.withBytes bs := by
  simp only [Slot.capture, sl.captureBytes_eq h, List.any_eq_true, decide_eq_true_eq]

theorem Slot.clearTrailer_eq (sl : Slot) :
    sl.clearTrailer = { sl with marks := Vector.ofFn fun p => sl.marks[p] && decide (p.val < 60) } := by
  suffices hmarks : (((sl.marks.set 60 false).set 61 false).set 62 false).set 63 false =
      Vector.ofFn fun p => sl.marks[p] && decide (p.val < 60) by
    rw [Slot.clearTrailer, hmarks]
  ext p hp
  simp only [Vector.getElem_set, Vector.getElem_ofFn, Fin.getElem_fin]
  by_cases h : p < 60
  · simp [h, show ¬ 60 = p by omega, show ¬ 61 = p by omega, show ¬ 62 = p by omega, show ¬ 63 = p by omega]
  · obtain rfl | rfl | rfl | rfl : p = 60 ∨ p = 61 ∨ p = 62 ∨ p = 63 := by omega
    all_goals simp

/-- A capture by the cases of its trailer. -/
theorem Slot.capture_cases {bs : List (Fin 64 × Byte)} (sl : Slot) (h : (bs.map Prod.fst).Nodup) :
    let took := sl.withBytes bs
    let trailer := ∃ x ∈ bs, 60 ≤ x.1.val
    (¬ trailer ∨ took.seen 15 = false → sl.capture bs = took) ∧
    (trailer → took.seen 15 = true → took.byte 61 = 0xA5 →
      sl.capture bs = { took with
        state := .ready
        incomplete := !took.seen 0 || (decide (took.byte 1 ≤ 14) &&
          (List.range (took.byte 1)).any fun n => !took.seen (n + 1)) }) ∧
    (trailer → took.seen 15 = true → took.byte 61 ≠ 0xA5 →
      sl.capture bs = { took with
        marks := Vector.ofFn fun p => took.marks[p] && decide (p.val < 60) }) := by
  intro took trailer
  have hcap := sl.capture_eq h
  refine ⟨fun hno => ?_, fun ht hseen hmark => ?_, fun ht hseen hmark => ?_⟩
  · by_cases ht : trailer
    · have hseen : took.seen 15 = false := hno.resolve_left fun hn => hn ht
      rw [hcap, if_pos ht, Slot.testTrailer, if_neg (by rw [hseen]; exact Bool.false_ne_true)]
    · rw [hcap, if_neg ht]
  · rw [hcap, if_pos ht, Slot.testTrailer, if_pos hseen,
      if_pos (show (sl.withBytes bs).marker = markerReady from hmark)]
    rfl
  · rw [hcap, if_pos ht, Slot.testTrailer, if_pos hseen,
      if_neg (show ¬ (sl.withBytes bs).marker = markerReady from hmark), Slot.clearTrailer_eq]

/-! ### The slots of a write -/

/-- What the copied bytes of a write make of slot `n`. -/
def Slot.afterCopy (sl : Slot) (n : Fin 32) (bs : List (Nat × Byte)) : Slot :=
  if slotBytes n bs = [] then sl
  else if sl.state = .free then sl.capture (slotBytes n bs)
  else { sl with overrun := true }

/-- Whether the copied bytes of a write are lost on slot `n` for the first time. -/
def Slot.losesCopy (sl : Slot) (n : Fin 32) (bs : List (Nat × Byte)) : Bool :=
  (!(slotBytes n bs).isEmpty && sl.state != .free) && !sl.overrun

/-- The event of a write that is lost on slot `n`. -/
def CommandUnit.lossEvent (c : CommandUnit) (bs : List (Nat × Byte)) (n : Fin 32) : Event :=
  cmdOverrunEvent n (lowestPosition (slotBytes n bs)) c.consumed

/-- A slot that is not FREE takes no bytes. -/
theorem CommandUnit.copySlot_of_busy {bs : List (Nat × Byte)} {c : CommandUnit} {n : Fin 32}
    (es : List Event) (hbs : slotBytes n bs ≠ []) (hst : c.slots[n].state ≠ .free) :
    CommandUnit.copySlot bs (c, es) n =
      if c.slots[n].overrun then (c, es)
      else ({ c with slots := c.slots.set n.val { c.slots[n] with overrun := true } n.isLt },
        es ++ [c.lossEvent bs n]) := by
  have hne : (slotBytes n bs).isEmpty = false := by simpa using hbs
  unfold CommandUnit.copySlot
  simp only [hne, Bool.false_eq_true, if_false]
  split
  · rename_i hfree
    exact absurd hfree hst
  · rfl
  · rfl

theorem CommandUnit.copySlot_eq (bs : List (Nat × Byte)) (c : CommandUnit) (es : List Event) (n : Fin 32) :
    CommandUnit.copySlot bs (c, es) n =
      ({ c with slots := c.slots.set n.val (c.slots[n].afterCopy n bs) n.isLt },
        es ++ if c.slots[n].losesCopy n bs then [c.lossEvent bs n] else []) := by
  have hsame : c.slots.set n.val c.slots[n] n.isLt = c.slots := Vector.set_getElem_self n.isLt
  by_cases hbs : slotBytes n bs = []
  · simp only [CommandUnit.copySlot, Slot.afterCopy, Slot.losesCopy, hbs, List.isEmpty_nil, if_true, hsame,
      Bool.not_true, Bool.false_and, Bool.false_eq_true, if_false, List.append_nil]
  have hne : (slotBytes n bs).isEmpty = false := by simpa using hbs
  by_cases hst : c.slots[n].state = .free
  · simp only [CommandUnit.copySlot, Slot.afterCopy, Slot.losesCopy, hne, hbs, hst, Bool.false_eq_true,
      if_false, if_true, bne_self_eq_false, Bool.and_false, Bool.false_and, List.append_nil]
  have hafter : c.slots[n].afterCopy n bs = { c.slots[n] with overrun := true } := by
    rw [Slot.afterCopy, if_neg hbs, if_neg hst]
  have hloses : c.slots[n].losesCopy n bs = !c.slots[n].overrun := by
    rw [Slot.losesCopy, hne, bne_iff_ne.mpr hst]
    rfl
  rw [CommandUnit.copySlot_of_busy es hbs hst, hafter, hloses]
  cases hov : c.slots[n].overrun with
  | true =>
    have hkept : ({ c.slots[n] with overrun := true } : Slot) = c.slots[n] := by rw [← hov]
    rw [hkept, hsame]
    simp only [if_true, Bool.not_true, Bool.false_eq_true, if_false, List.append_nil]
  | false => rfl

/-- The slots of a list take their bytes one after another, each once. -/
theorem CommandUnit.foldl_copySlot (bs : List (Nat × Byte)) (ns : List (Fin 32)) (hns : ns.Nodup)
    (c : CommandUnit) (es : List Event) :
    ns.foldl (CommandUnit.copySlot bs) (c, es) =
      ({ c with slots := Vector.ofFn fun n =>
          if n ∈ ns then c.slots[n].afterCopy n bs else c.slots[n] },
        es ++ (ns.filter fun n => c.slots[n].losesCopy n bs).map (c.lossEvent bs)) := by
  induction ns generalizing c es with
  | nil => simp
  | cons m ns ih =>
    rw [List.nodup_cons] at hns
    obtain ⟨hm, hns⟩ := hns
    rw [List.foldl_cons, CommandUnit.copySlot_eq, ih hns]
    have hother {n : Fin 32} (hn : n ∈ ns) :
        (c.slots.set m.val (c.slots[m].afterCopy m bs) m.isLt)[n] = c.slots[n] := by
      rw [vector_get_set, if_neg fun h : n = m => hm (h ▸ hn)]
    refine Prod.ext ?_ ?_
    · dsimp only
      congr 2
      funext n
      by_cases hn : n ∈ ns
      · rw [if_pos hn, if_pos (List.mem_cons_of_mem m hn), hother hn]
      · rw [if_neg hn, vector_get_set]
        by_cases hnm : n = m
        · rw [if_pos hnm, if_pos (hnm ▸ List.mem_cons_self), hnm]
        · rw [if_neg hnm, if_neg fun h => (List.mem_cons.mp h).elim hnm hn]
    · have hfilter : (ns.filter fun n =>
          ((c.slots.set m.val (c.slots[m].afterCopy m bs) m.isLt)[n]).losesCopy n bs) =
          ns.filter fun n => c.slots[n].losesCopy n bs :=
        List.filter_congr fun n hn => by rw [hother hn]
      dsimp only
      rw [hfilter, List.filter_cons, List.append_assoc]
      split <;> rfl

/-- The Command Unit after the copy of a write. -/
theorem CommandUnit.copy_eq (c : CommandUnit) (bs : List (Nat × Byte)) :
    c.copy bs = ({ c with slots := Vector.ofFn fun n => c.slots[n].afterCopy n bs },
      ((List.finRange 32).filter fun n => c.slots[n].losesCopy n bs).map (c.lossEvent bs)) := by
  rw [CommandUnit.copy, CommandUnit.foldl_copySlot bs _ (List.nodup_finRange 32)]
  simp only [List.mem_finRange, if_true, List.nil_append]

/-- Events raised in running go to the Report Unit one by one. -/
theorem State.raiseAll_of_running {s : State} (h : s.phase = .running) (es : List Event) :
    s.raiseAll es = { s with report := es.foldl (fun r e => r.raise s.timeBase e) s.report } := by
  induction es generalizing s with
  | nil => rfl
  | cons e es ih =>
    change (s.raise e).raiseAll es = _
    rw [State.raise_of_running e h, ih (by exact h)]
    rfl

theorem CommandUnit.lossEvent_eq (c : CommandUnit) (bs : List (Nat × Byte)) (n : Fin 32) :
    c.lossEvent bs n =
      ⟨.cmdOverrun, 3, n.val, BitVec.ofNat 32 (lowestPosition (slotBytes n bs)), c.consumed⟩ := rfl

/-- Settles O11: the copy slot by slot, the bytes it copies, and a slot's capture. -/
theorem controlPageCopies : Obligations.ControlPageCopies := by
  unfold Obligations.ControlPageCopies
  refine ⟨fun s w b l a hwf hq hw hroom => ?_, fun off w o x =>
    ⟨mem_copiedBytes, copiedBytes_nodup off w, fun n p => mem_slotBytes, fun p => mem_ackBytes⟩,
    fun sl bs hbs => sl.capture_cases hbs⟩
  intro bs lost
  have hrun := State.running_of_windowAt hw
  have haccept := exec_write_accepted (i := .controlPageWrite w) rfl hwf hq
    (State.canAcceptWrite_of_queue hroom)
  rw [haccept, State.acceptWrite_of_control hw, State.copyControl, CommandUnit.copy_eq]
  dsimp only
  rw [State.raiseAll_of_running (by exact hrun), List.foldl_map]
  rfl

end Sys2Proof.Machine
end

section
/-! PROOFS. The Source Tracker: a write, a frame open, a close (O8, O9, O10). -/

namespace Sys2Proof.Machine

/-! ### Closes (O10) -/

theorem modify_eq_set {α : Type} {l : List α} {p : Nat} {x : α} (f : α → α) (h : l[p]? = some x) :
    l.modify p f = l.set p (f x) := by
  rw [List.modify_eq_set_getElem?, h]
  rfl

theorem Source.closeShort_of {src : Source} {p : Nat} {st : FrameStore} (h : src.stores[p]? = some st) :
    src.closeShort p = { src with
      stores := src.stores.set p st.closedShort
      recoveryRun := if src.state = .stalled then 0 else src.recoveryRun } := by
  rw [Source.closeShort, modify_eq_set _ h]

/-- A close with enough bytes landed: READY, then the source's answer. -/
theorem Source.closeStore_ready {src : Source} {r : SourceRecord} {p : Nat} {st : FrameStore}
    (i : Fin 4) (now : Word) (h : src.stores[p]? = some st) (hl : 4 * r.width * r.height ≤ st.landed) :
    src.closeStore i now r p = Source.afterReady
      { src with
        readyCount := src.readyCount + 1
        stores := src.stores.set p (st.closedReady (src.readyCount + 1)) } i now p := by
  simp only [Source.closeStore, h, if_pos hl, modify_eq_set _ h]

theorem Source.closeStore_short {src : Source} {r : SourceRecord} {p : Nat} {st : FrameStore}
    (i : Fin 4) (now : Word) (h : src.stores[p]? = some st) (hl : st.landed < 4 * r.width * r.height) :
    src.closeStore i now r p = ({ src with
      stores := src.stores.set p st.closedShort
      recoveryRun := if src.state = .stalled then 0 else src.recoveryRun },
      [frameShortEvent i p st.landed]) := by
  simp only [Source.closeStore, h, if_neg (Nat.not_le.mpr hl), Source.closeShort_of h]

/-- Settles O10: READY or SHORT by the bytes landed, then the answer of each source state. -/
theorem frameCloses : Obligations.FrameCloses := by
  unfold Obligations.FrameCloses
  refine fun src i now r p st h => ⟨fun hl hst => ?_, fun hl hst => ?_, fun hl hst hrun => ?_,
    fun hl hst hrun => ?_, fun hl => Source.closeStore_short i now h hl⟩
  · rw [Source.closeStore_ready i now h hl]
    simp only [Source.afterReady, hst]
    rfl
  · rw [Source.closeStore_ready i now h hl]
    simp only [Source.afterReady, hst]
    rfl
  · rw [Source.closeStore_ready i now h hl]
    simp only [Source.afterReady, hst, hrun]
    rfl
  · rw [Source.closeStore_ready i now h hl]
    simp only [Source.afterReady, hst, hrun]
    rfl

/-! ### Opens (O9) -/

/-- A store as a close leaves it when it was FILLING. -/
def FrameStore.shortened (st : FrameStore) : FrameStore :=
  if st.state = .filling then st.closedShort else st

/-- The recovery run after a store that may be FILLING has been closed SHORT. -/
def Source.runAfter (src : Source) (filling : Bool) : Nat :=
  if filling = true ∧ src.state = .stalled then 0 else src.recoveryRun

/-- FRAME_SHORT when the store was FILLING. -/
def FrameStore.shortEvents (st : FrameStore) (i : Fin 4) (p : Nat) : List Event :=
  if st.state = .filling then [frameShortEvent i p st.landed] else []

/-- The source after store `p` has been closed SHORT when it was FILLING. -/
def Source.cleared (src : Source) (p : Nat) (st : FrameStore) : Source :=
  { src with
    stores := src.stores.set p st.shortened
    recoveryRun := src.runAfter (st.state == .filling) }

theorem Source.shortenFilling_of {src : Source} {p : Nat} {st : FrameStore} (i : Fin 4)
    (h : src.stores[p]? = some st) :
    src.shortenFilling i p = (src.cleared p st, st.shortEvents i p) := by
  by_cases hst : st.state = .filling
  · simp only [Source.shortenFilling, h, hst, if_true, Source.closeShort_of h, Source.cleared,
      FrameStore.shortened, FrameStore.shortEvents, Source.runAfter, beq_self_eq_true, true_and]
  · have hsame : src.stores.set p st = src.stores := by
      obtain ⟨hp, hget⟩ := List.getElem?_eq_some_iff.mp h
      rw [← hget, List.set_getElem_self]
    have hfilling : (st.state == StoreState.filling) = false := beq_eq_false_iff_ne.mpr hst
    simp only [Source.shortenFilling, h, hst, if_false, Source.cleared, FrameStore.shortened, FrameStore.shortEvents,
      Source.runAfter, hfilling, Bool.false_eq_true, false_and, hsame]

@[simp] theorem FrameStore.shortened_pins (st : FrameStore) : st.shortened.pins = st.pins := by
  unfold FrameStore.shortened
  split <;> rfl

theorem FrameStore.opened_shortened (rect : Rect) (torn : Bool) (st : FrameStore) :
    FrameStore.opened rect torn st.shortened = ⟨.filling, st.pins, torn, none, 0, .zero, .zero, rect⟩ := by
  rw [FrameStore.opened, st.shortened_pins]

theorem Source.pinsOf_of {src : Source} {p : Nat} {st : FrameStore} (h : src.stores[p]? = some st) :
    src.pinsOf p = st.pins := by
  rw [Source.pinsOf, h]
  rfl

/-- Store `q` is a spare: mapped to no position and unpinned. -/
def Source.isSpare (src : Source) (q : Nat) : Prop :=
  q ∉ src.ringMap ∧ ∃ sq, src.stores[q]? = some sq ∧ sq.pins = 0

theorem Source.mem_spareStores {src : Source} {q : Nat} : q ∈ src.spareStores ↔ src.isSpare q := by
  unfold Source.spareStores Source.isSpare
  simp only [List.mem_filter, List.mem_range, Bool.and_eq_true, Bool.not_eq_true', beq_iff_eq,
    List.contains_eq_mem, decide_eq_false_iff_not]
  constructor
  · rintro ⟨hq, hmap, hpins⟩
    have hget := List.getElem?_eq_getElem hq
    exact ⟨hmap, _, hget, (Source.pinsOf_of hget).symm.trans hpins⟩
  · rintro ⟨hmap, sq, hget, hpins⟩
    exact ⟨(List.getElem?_eq_some_iff.mp hget).1, hmap, (Source.pinsOf_of hget).trans hpins⟩

theorem Source.spareStores_sorted (src : Source) : src.spareStores.Pairwise (· < ·) :=
  List.pairwise_lt_range.filter _

/-- The spare taken is the lowest one. -/
theorem Source.spareStores_head {src : Source} {q : Nat} (hq : src.isSpare q)
    (hlow : ∀ j < q, ¬ src.isSpare j) : src.spareStores.head? = some q := by
  have hmem := Source.mem_spareStores.mpr hq
  have hsorted := src.spareStores_sorted
  cases hl : src.spareStores with
  | nil => rw [hl] at hmem; cases hmem
  | cons j js =>
    rw [hl] at hmem hsorted
    have hj : src.isSpare j := Source.mem_spareStores.mp (hl ▸ List.mem_cons_self)
    rcases List.mem_cons.mp hmem with rfl | hjs
    · rfl
    · exact absurd hj (hlow j (List.rel_of_pairwise_cons hsorted hjs))

theorem Source.spareStores_none {src : Source} (h : ∀ q, ¬ src.isSpare q) :
    src.spareStores.head? = none := by
  rw [List.head?_eq_none_iff, List.eq_nil_iff_forall_not_mem]
  exact fun q hq => h q (Source.mem_spareStores.mp hq)

/-- Spares do not depend on what else a store holds. -/
theorem Source.isSpare_congr {src t : Source} (hmap : t.ringMap = src.ringMap)
    (hpins : ∀ q : Nat, (t.stores[q]?).map FrameStore.pins = (src.stores[q]?).map FrameStore.pins) (q : Nat) :
    t.isSpare q ↔ src.isSpare q := by
  have hiff (u : Source) : (∃ sq, u.stores[q]? = some sq ∧ sq.pins = 0) ↔
      (u.stores[q]?).map FrameStore.pins = some 0 := by
    rw [Option.map_eq_some_iff]
  rw [Source.isSpare, Source.isSpare, hmap, hiff, hiff, hpins]

theorem Source.cleared_runAfter (src : Source) (p : Nat) (st : FrameStore) (filling : Bool) :
    (src.cleared p st).runAfter filling = src.runAfter (st.state == .filling || filling) := by
  unfold Source.cleared Source.runAfter
  by_cases hst : src.state = .stalled
  · cases filling <;> cases st.state == .filling <;> simp [hst]
  · simp [hst]

theorem Source.cleared_store {src : Source} {p : Nat} {st : FrameStore} (h : src.stores[p]? = some st) :
    (src.cleared p st).stores[p]? = some st.shortened := by
  obtain ⟨hp, -⟩ := List.getElem?_eq_some_iff.mp h
  rw [Source.cleared, List.getElem?_set_self hp]

theorem Source.cleared_isSpare {src : Source} {p : Nat} {st : FrameStore} (h : src.stores[p]? = some st)
    (q : Nat) : (src.cleared p st).isSpare q ↔ src.isSpare q := by
  refine Source.isSpare_congr (src := src) (t := src.cleared p st) rfl (fun q => ?_) q
  by_cases hq : p = q
  · subst hq
    rw [Source.cleared_store h, h, Option.map_some, Option.map_some, st.shortened_pins]
  · rw [Source.cleared, List.getElem?_set_ne hq]

theorem Source.cleared_openStore {src : Source} {p : Nat} {st : FrameStore} (h : src.stores[p]? = some st)
    (rect : Rect) (torn : Bool) :
    (src.cleared p st).openStore p rect torn = { src with
      stores := src.stores.set p ⟨.filling, st.pins, torn, none, 0, .zero, .zero, rect⟩
      recoveryRun := src.runAfter (st.state == .filling) } := by
  rw [Source.openStore, modify_eq_set _ (Source.cleared_store h), FrameStore.opened_shortened,
    Source.cleared, List.set_set]

/-- A frame open in terms of the source with the position's store cleared. -/
theorem Source.frameOpen_of {src : Source} {k p : Nat} {st : FrameStore} (i : Fin 4) (rect : Rect)
    (hmap : src.ringMap[k]? = some p) (h : src.stores[p]? = some st) :
    src.frameOpen i rect k =
      if st.pins = 0 then ((src.cleared p st).openStore p rect false, st.shortEvents i p)
      else
        match (src.cleared p st).spareStores.head? with
        | some q =>
          let (u, eq) := (src.cleared p st).shortenFilling i q
          ({ u.openStore q rect false with ringMap := u.ringMap.set k q },
            st.shortEvents i p ++ eq ++ [.mk' .storeRemapped i.val (argWord k) (argWord (p + 256 * q))])
        | none =>
          ((src.cleared p st).openStore p rect true,
            st.shortEvents i p ++
              [.mk' .frameTorn i.val (argWord k) (argWord (p + 256 * st.pins))]) := by
  have hpins : (src.cleared p st).pinsOf p = st.pins :=
    (Source.pinsOf_of (Source.cleared_store h)).trans st.shortened_pins
  simp only [Source.frameOpen, hmap, Source.shortenFilling_of i h, hpins]
  rfl

/-- The exchange of a pinned store for spare `q`. -/
theorem Source.frameOpen_exchange {src : Source} {k p q : Nat} {st sq : FrameStore} (i : Fin 4)
    (rect : Rect) (hmap : src.ringMap[k]? = some p) (h : src.stores[p]? = some st) (hpins : 0 < st.pins)
    (hq : src.isSpare q) (hlow : ∀ j < q, ¬ src.isSpare j) (hsq : src.stores[q]? = some sq) :
    src.frameOpen i rect k = ({ src with
      stores := (src.stores.set p st.shortened).set q ⟨.filling, 0, false, none, 0, .zero, .zero, rect⟩
      ringMap := src.ringMap.set k q
      recoveryRun := src.runAfter (st.state == .filling || sq.state == .filling) },
      st.shortEvents i p ++ sq.shortEvents i q ++
        [⟨.storeRemapped, 1, i.val, BitVec.ofNat 32 k, BitVec.ofNat 32 (p + 256 * q)⟩]) := by
  have hne : p ≠ q := fun hpq => hq.1 (hpq ▸ List.mem_of_getElem? hmap)
  have hhead : (src.cleared p st).spareStores.head? = some q :=
    Source.spareStores_head ((Source.cleared_isSpare h q).mpr hq)
      fun j hj hs => hlow j hj ((Source.cleared_isSpare h j).mp hs)
  have hsq' : (src.cleared p st).stores[q]? = some sq := by
    rw [Source.cleared, List.getElem?_set_ne hne, hsq]
  have hzero : sq.pins = 0 := by
    obtain ⟨-, x, hx, hx0⟩ := hq
    rw [hsq] at hx
    cases hx
    exact hx0
  have hrun : (src.cleared p st).runAfter (sq.state == .filling) =
      src.runAfter (st.state == .filling || sq.state == .filling) := Source.cleared_runAfter _ _ _ _
  rw [Source.frameOpen_of i rect hmap h, if_neg (Nat.pos_iff_ne_zero.mp hpins), hhead]
  dsimp only
  rw [Source.shortenFilling_of i hsq']
  have hopen := Source.cleared_openStore hsq' rect false
  rw [hrun, hzero] at hopen
  rw [hopen]
  rfl

/-- Settles O9: the store behind the position is cleared, and its pins and the spares decide the open. -/
theorem frameOpens : Obligations.FrameOpens := by
  unfold Obligations.FrameOpens
  refine fun src i rect k p st hmap h => ⟨fun hpins => ?_, fun q sq hpins hq hlow hsq => ?_,
    fun hpins hnone => ?_⟩
  · rw [Source.frameOpen_of i rect hmap h, if_pos hpins, Source.cleared_openStore h, hpins]
    rfl
  · exact Source.frameOpen_exchange i rect hmap h hpins hq hlow hsq
  · have hhead : (src.cleared p st).spareStores.head? = none :=
      Source.spareStores_none fun q hs => hnone q ((Source.cleared_isSpare h q).mp hs)
    rw [Source.frameOpen_of i rect hmap h, if_neg (Nat.pos_iff_ne_zero.mp hpins), hhead,
      Source.cleared_openStore h]
    rfl

/-! ### Writes (O8) -/

theorem Source.storeIs_of {src : Source} {p : Nat} {st : FrameStore} (h : src.stores[p]? = some st)
    (x : StoreState) : src.storeIs p x = (st.state == x) := by
  rw [Source.storeIs, h]
  rfl

theorem Source.progress_of_idle {src : Source} {k p : Nat} (i : Fin 4) (now : Word) (r : SourceRecord)
    (off : Nat) (w : WriteReq) (hmap : src.ringMap[k]? = some p) (h : src.storeIs p .filling = false) :
    src.progress i now r k off w = (src, []) := by
  simp only [Source.progress, hmap, h, Bool.false_eq_true, if_false]

theorem Source.progress_of_filling {src : Source} {k p : Nat} {st : FrameStore} (i : Fin 4) (now : Word)
    (r : SourceRecord) (off : Nat) (w : WriteReq) (hmap : src.ringMap[k]? = some p)
    (h : src.stores[p]? = some st) (hst : st.state = .filling) :
    let counted : Source := { src with stores := src.stores.set p (st.progress r off w) }
    src.progress i now r k off w =
      if coversLast r off w then counted.closeStore i now r p else (counted, []) := by
  have hfilling : src.storeIs p .filling = true := by rw [Source.storeIs_of h, hst]; rfl
  simp only [Source.progress, hmap, hfilling, if_true, modify_eq_set _ h]

theorem coversLast_iff {r : SourceRecord} {off : Nat} {w : WriteReq} :
    coversLast r off w = true ↔ off ≤ r.lastActive ∧ w.strobes[r.lastActive - off]? = some true := by
  simp only [coversLast, Bool.and_eq_true, decide_eq_true_eq, beq_iff_eq]

theorem Source.onWrite_of_master {src : Source} {r : SourceRecord} (i : Fin 4) (active : Option CalSet)
    (now : Word) (k off : Nat) {w : WriteReq} (hr : src.record = some r) (ht : w.tag = r.tag) :
    let o := if off = 0 then src.frameOpen i (latchRect active i r) k else (src, [])
    src.onWrite i active now k off w =
      ((o.1.progress i now r k off w).1, o.2 ++ (o.1.progress i now r k off w).2) := by
  simp only [Source.onWrite, hr, if_pos ht]

/-! #### The statistics of a write -/

/-- Whether a whole pixel of a write lies inside the frame. -/
def SourceRecord.inFrame (r : SourceRecord) (off : Nat) (x : Nat × Byte × Byte × Byte) : Bool :=
  decide ((off + x.1) % r.stride / 4 < r.width ∧ (off + x.1) / r.stride < r.height)

/-- Whether a rectangle holds a whole pixel of a write. -/
def SourceRecord.inRect (r : SourceRecord) (off : Nat) (rect : Rect) (x : Nat × Byte × Byte × Byte) : Bool :=
  rect.holds ((off + x.1) % r.stride / 4) ((off + x.1) / r.stride)

/-- A whole pixel added to an accumulator. -/
def Accum.addPixel (a : Accum) (x : Nat × Byte × Byte × Byte) : Accum := a.add x.2.1 x.2.2.1 x.2.2.2

theorem FrameStore.addPixel_eq (r : SourceRecord) (off : Nat) (st : FrameStore)
    (x : Nat × Byte × Byte × Byte) :
    st.addPixel r off x = { st with
      full := if r.inFrame off x then st.full.addPixel x else st.full
      inner := if r.inFrame off x && r.inRect off st.rect x then st.inner.addPixel x else st.inner } := by
  unfold FrameStore.addPixel SourceRecord.inFrame SourceRecord.inRect
  by_cases hin : (off + x.1) % r.stride / 4 < r.width ∧ (off + x.1) / r.stride < r.height
  · by_cases hrect : st.rect.holds ((off + x.1) % r.stride / 4) ((off + x.1) / r.stride) = true
    · simp [hin, hrect, Accum.addPixel]
    · simp [hin, hrect, Accum.addPixel]
  · simp [hin]

theorem FrameStore.addPixels_eq (r : SourceRecord) (off : Nat) (xs : List (Nat × Byte × Byte × Byte))
    (st : FrameStore) :
    xs.foldl (FrameStore.addPixel r off) st = { st with
      full := (xs.filter (r.inFrame off)).foldl Accum.addPixel st.full
      inner := (xs.filter fun x => r.inFrame off x && r.inRect off st.rect x).foldl Accum.addPixel st.inner } := by
  induction xs generalizing st with
  | nil => rfl
  | cons x xs ih =>
    rw [List.foldl_cons, ih, FrameStore.addPixel_eq]
    simp only [List.filter_cons]
    split <;> split <;> rfl

theorem landedBy_eq (r : SourceRecord) (off : Nat) (w : WriteReq) :
    landedBy r off w = ((List.range w.strobes.length).filter fun n =>
      w.strobes[n]? = some true ∧ (off + n) / r.stride < r.height ∧
        (off + n) % r.stride < 4 * r.width).length := by
  rw [landedBy, List.countP_eq_length_filter]
  congr 2
  funext n
  rw [Bool.eq_iff_iff]
  simp [SourceRecord.activeByte]

theorem mem_wholePixels {off : Nat} {w : WriteReq} {n : Nat} {y cb cr : Byte} :
    (n, y, cb, cr) ∈ wholePixels off w ↔
      (off + n) % 4 = 0 ∧ n % 16 + 2 < 16 ∧ w.strobes[n]? = some true ∧ w.strobes[n + 1]? = some true ∧
      w.strobes[n + 2]? = some true ∧ w.data[n]? = some y ∧ w.data[n + 1]? = some cb ∧
      w.data[n + 2]? = some cr := by
  simp only [wholePixels, List.mem_filterMap, List.mem_range]
  constructor
  · rintro ⟨j, hj, hx⟩
    obtain ⟨⟨hmod, hbeat⟩, hx⟩ := Option.ite_none_right_eq_some.mp hx
    split at hx
    · cases hx
      exact ⟨hmod, hbeat, ‹_›, ‹_›, ‹_›, ‹_›, ‹_›, ‹_›⟩
    · cases hx
  · rintro ⟨hmod, hbeat, hs0, hs1, hs2, hy, hcb, hcr⟩
    refine ⟨n, (List.getElem?_eq_some_iff.mp hy).1, Option.ite_none_right_eq_some.mpr ⟨⟨hmod, hbeat⟩, ?_⟩⟩
    simp only [hs0, hs1, hs2, hy, hcb, hcr]

/-! #### The latched rectangle -/

theorem latchRect_uncalibrated {c : CalSet} {i : Fin 4} (r : SourceRecord) (h : c.count ≤ i.val) :
    latchRect (some c) i r = r.wholeFrame :=
  if_neg (Nat.not_lt.mpr h)

theorem latchRect_calibrated {c : CalSet} {i : Fin 4} {m : CalSource} (r : SourceRecord)
    (h : i.val < c.count) (hm : c.sources[i.val]? = some m) :
    latchRect (some c) i r =
      match m.rect with
      | some q => ⟨q.x0, q.y0, min q.x1 (r.width - 1), min q.y1 (r.height - 1)⟩
      | none => r.wholeFrame := by
  simp only [latchRect, if_pos h, hm, Option.bind_some] <;> rfl

/-- Settles O8: the open, the count and the close of a write in turn, and what each of them reads. -/
theorem writesTracked : Obligations.WritesTracked := by
  unfold Obligations.WritesTracked
  refine ⟨fun src i active now k off w r hr => ⟨fun ht => ?_, fun ht => ?_⟩, fun r off w st => ?_,
    fun off w n y cb cr => mem_wholePixels, fun a y cb cr => rfl, fun c i r m hi hm => ⟨rfl, fun hn => ?_,
    fun q hq => ?_⟩, fun c i r hi => latchRect_uncalibrated r hi⟩
  · exact Source.onWrite_of_other i active now k off hr ht
  · intro o
    have hwrite := Source.onWrite_of_master i active now k off hr ht
    refine ⟨fun p hmap hidle => ?_, fun p st hmap h hst => ?_⟩
    · rw [hwrite, Source.progress_of_idle i now r off w hmap hidle, List.append_nil]
    · intro counted last
      have hprog := Source.progress_of_filling i now r off w hmap h hst
      refine ⟨fun hnot => ?_, fun hle hs => ?_⟩
      · have hno : ¬ coversLast r off w = true := by
          rw [coversLast_iff]
          rintro ⟨hle, hs⟩
          exact hnot.elim (fun hlt => absurd hle (Nat.not_le.mpr hlt)) fun hns => hns hs
        rw [hwrite, hprog, if_neg hno, List.append_nil]
      · rw [hwrite, hprog, if_pos (coversLast_iff.mpr ⟨hle, hs⟩)]
  · rw [FrameStore.progress, FrameStore.addPixels_eq, landedBy_eq]
    rfl
  · rw [latchRect_calibrated r hi hm, hn]
    rfl
  · rw [latchRect_calibrated r hi hm, hq]

end Sys2Proof.Machine
end

section
/-! PROOFS. The commands that set up and control sources and views: SOURCE_SETUP, SOURCE_CONTROL and
VIEW_SETUP (O30, O31, O32). -/

namespace Sys2Proof.Machine

/-! ### The take of a slot that a row owns -/

/-- A command offered to a row that owns it, whose owner answers OK. -/
theorem State.take_owned_executed {s t : State} {c : CmdCode} {sl : Slot} {mine : Slot → Bool} {act : OwnerAct}
    (h : s.offers c sl) (hm : mine sl = true) (hact : act sl s.markTaken = (.ok, t.markTaken)) :
    s.take mine act = t.executed sl := by
  obtain ⟨hs, -, hown⟩ := h
  rw [State.take_of_ready act hs hm, State.runTake_of_passed act hown, hact, if_pos rfl,
    State.completeTake_markTaken_ok]

/-- A command offered to a row that owns it, whose owner answers another result. -/
theorem State.take_owned_refused {s : State} {c : CmdCode} {sl : Slot} {mine : Slot → Bool} {act : OwnerAct}
    {r : CmdResult} (h : s.offers c sl) (hm : mine sl = true) (hp : s.phase = .running)
    (hact : (act sl s.markTaken).1 = r) (hr : r ≠ .ok) : s.take mine act = s.refused sl r := by
  obtain ⟨hs, -, hown⟩ := h
  rw [State.take_of_ready act hs hm]
  exact State.runTake_refused hp (.inr ⟨hown, hact, hr⟩)

theorem holdsEnable_of_offers {s : State} {c : CmdCode} {sl : Slot} (h : s.offers c sl)
    (ha : sl.action ≠ actionDisable) : holdsEnable c sl = true := by
  obtain ⟨-, hc, -⟩ := h
  simp [holdsEnable, holds, hc, ha]

theorem holdsDisable_of_offers {s : State} {c : CmdCode} {sl : Slot} (h : s.offers c sl)
    (ha : sl.action ≠ actionEnable) : holdsDisable c sl = true := by
  obtain ⟨-, hc, -⟩ := h
  simp [holdsDisable, holds, hc, ha]

/-! ### The operands of the commands -/

theorem Slot.source_eq_some {sl : Slot} {i : Fin 4} : sl.source = some i ↔ sl.index = i.val := by
  unfold Slot.source
  split
  · simp [Fin.ext_iff]
  · have := i.isLt
    simp
    omega

theorem Slot.view_eq_some {sl : Slot} {v : Fin 2} : sl.view = some v ↔ sl.index = v.val := by
  unfold Slot.view
  split
  · simp [Fin.ext_iff]
  · have := v.isLt
    simp
    omega

theorem Slot.index_eq_readLE (sl : Slot) : sl.index = readLE sl.bytes.toList 4 1 := sl.byte_eq_readLE 4

theorem Slot.action_eq_readLE (sl : Slot) : sl.action = readLE sl.bytes.toList 5 1 := sl.byte_eq_readLE 5

theorem Slot.page_eq_readLE (sl : Slot) (i : Nat) : sl.page i = 4096 * readLE sl.bytes.toList i 4 := by
  rw [Slot.page, Slot.word_eq_readLE]

theorem Slot.sourceRecord_eq_readLE (sl : Slot) :
    let field := readLE sl.bytes.toList
    sl.sourceRecord =
      { tag := BitVec.ofNat 8 (field 5 1)
        width := field 8 2
        height := field 10 2
        stride := field 12 4
        positions := field 6 1
        spares := field 7 1
        watchdog := field 16 1
        posBases := (List.range (field 6 1)).map fun k => 4096 * field (20 + 4 * k) 4
        spareBases := (List.range (field 7 1)).map fun j => 4096 * field (36 + 4 * j) 4 } := by
  simp only [Slot.sourceRecord, Slot.byte_eq_readLE, Slot.half_eq_readLE, Slot.word_eq_readLE,
    Slot.page_eq_readLE]

/-! ### Address ranges -/

/-- Two ranges that share no byte. -/
def RangesApart (x y : Nat × Nat) : Prop := x.1 + x.2 ≤ y.1 ∨ y.1 + y.2 ≤ x.1

theorem rangesOverlap_eq_false_iff {x y : Nat × Nat} : rangesOverlap x y = false ↔ RangesApart x y := by
  simp only [rangesOverlap, RangesApart, Bool.and_eq_false_iff, decide_eq_false_iff_not, Nat.not_lt]
  exact or_comm

theorem any_rangesOverlap_eq_false_iff {x : Nat × Nat} {ys : List (Nat × Nat)} :
    ys.any (rangesOverlap x) = false ↔ ∀ y ∈ ys, RangesApart x y := by
  simp only [List.any_eq_false, Bool.not_eq_true, rangesOverlap_eq_false_iff]

theorem anyOverlap_eq_false_iff {xs : List (Nat × Nat)} :
    anyOverlap xs = false ↔ xs.Pairwise RangesApart := by
  induction xs with
  | nil => simp [anyOverlap]
  | cons x xs ih =>
    rw [anyOverlap, Bool.or_eq_false_iff, ih, List.pairwise_cons, any_rangesOverlap_eq_false_iff]

theorem mem_getD_map_iff {α β : Type} {o : Option α} {f : α → List β} {y : β} :
    y ∈ (o.map f).getD [] ↔ ∃ q, o = some q ∧ y ∈ f q := by
  cases o <;> simp

theorem State.mem_otherRanges {s : State} {i : Fin 4} {y : Nat × Nat} :
    y ∈ s.otherRanges i ↔ ∃ (j : Fin 4) (q : SourceRecord), j ≠ i ∧ s.sources[j].record = some q ∧ y ∈ q.ranges := by
  simp only [State.otherRanges, List.mem_flatMap, List.mem_finRange, true_and]
  refine exists_congr fun j => ?_
  split
  · next h => simp [h]
  · next h => simp only [mem_getD_map_iff, h, ne_eq, not_false_iff, true_and]

theorem mem_vector_iff {α : Type} {n : Nat} {x : α} {xs : Vector α n} :
    x ∈ xs.toList ↔ ∃ i : Fin n, xs[i] = x := by
  rw [List.mem_iff_getElem]
  constructor
  · rintro ⟨k, hk, rfl⟩
    exact ⟨⟨k, by simpa using hk⟩, by simp⟩
  · rintro ⟨i, rfl⟩
    exact ⟨i.val, by simp, by simp⟩

theorem State.mem_sourceRanges {s : State} {y : Nat × Nat} :
    y ∈ s.sourceRanges ↔ ∃ (j : Fin 4) (q : SourceRecord), s.sources[j].record = some q ∧ y ∈ q.ranges := by
  simp only [State.sourceRanges, List.mem_flatMap, mem_vector_iff, mem_getD_map_iff]
  constructor
  · rintro ⟨-, ⟨j, rfl⟩, q, hq, hy⟩
    exact ⟨j, q, hq, hy⟩
  · rintro ⟨j, q, hq, hy⟩
    exact ⟨_, ⟨j, rfl⟩, q, hq, hy⟩

theorem State.mem_apertures {s : State} {y : Nat × Nat} :
    y ∈ s.apertures ↔ ∃ (v : Fin 2) (q : ViewRecord), s.views[v].record = some q ∧ y = q.aperture := by
  simp only [State.apertures, List.mem_filterMap, mem_vector_iff, Option.map_eq_some_iff]
  constructor
  · rintro ⟨-, ⟨v, rfl⟩, q, hq, rfl⟩
    exact ⟨v, q, hq, rfl⟩
  · rintro ⟨v, q, hq, rfl⟩
    exact ⟨_, ⟨v, rfl⟩, q, hq, rfl⟩

/-! ### SOURCE_SETUP (O30) -/

theorem SourceState.settable_iff (st : SourceState) :
    st.settable = true ↔ st = .unset ∨ st = .off := by
  cases st <;> simp [SourceState.settable]

theorem SourceRecord.inRange_iff (r : SourceRecord) : r.inRange = true ↔
    64 ≤ r.width ∧ r.width ≤ 4096 ∧ 64 ≤ r.height ∧ r.height ≤ 3072 ∧
      r.stride % 64 = 0 ∧ 4 * r.width ≤ r.stride ∧ 2 ≤ r.positions ∧ r.positions ≤ 4 ∧
      1 ≤ r.spares ∧ r.spares ≤ 2 ∧ r.watchdog ≤ 7 ∧
      ∀ b ∈ r.posBases ++ r.spareBases, b % 4096 = 0 ∧ b + roundUpPage (r.height * r.stride) ≤ 2 ^ 40 := by
  simp only [SourceRecord.inRange, Bool.and_eq_true, decide_eq_true_eq, beq_iff_eq, List.all_eq_true,
    and_assoc]
  rfl

/-- The ranges of a new source record conflict with nothing. -/
theorem State.sourceConflict_eq_false_iff {s : State} {i : Fin 4} {r : SourceRecord} :
    s.sourceConflict i r = false ↔ r.ranges.Pairwise RangesApart ∧ ∀ x ∈ r.ranges,
      RangesApart x (controlBase s.strapCp, 65536) ∧
      (∀ (j : Fin 4) (q : SourceRecord), j ≠ i → s.sources[j].record = some q →
        ∀ y ∈ q.ranges, RangesApart x y) ∧
      ∀ (v : Fin 2) (q : ViewRecord), s.views[v].record = some q → RangesApart x q.aperture := by
  rw [State.sourceConflict, Bool.or_eq_false_iff, anyOverlap_eq_false_iff]
  refine and_congr_right fun _ => ?_
  rw [List.any_eq_false]
  refine forall₂_congr fun x _ => ?_
  rw [Bool.not_eq_true, any_rangesOverlap_eq_false_iff, List.forall_mem_cons, List.forall_mem_append]
  refine and_congr Iff.rfl (and_congr ?_ ?_)
  · constructor
    · exact fun h j q hj hq y hy => h y (State.mem_otherRanges.mpr ⟨j, q, hj, hq, hy⟩)
    · intro h y hy
      obtain ⟨j, q, hj, hq, hy⟩ := State.mem_otherRanges.mp hy
      exact h j q hj hq y hy
  · constructor
    · exact fun h v q hq => h _ (State.mem_apertures.mpr ⟨v, q, hq, rfl⟩)
    · intro h y hy
      obtain ⟨v, q, hq, rfl⟩ := State.mem_apertures.mp hy
      exact h v q hq

theorem State.tagTaken_eq_false_iff {s : State} {i : Fin 4} {tag : Byte} :
    s.tagTaken i tag = false ↔
      ∀ (j : Fin 4) (q : SourceRecord), j ≠ i → s.sources[j].record = some q → q.tag ≠ tag := by
  simp only [State.tagTaken, List.any_eq_false, List.mem_finRange, true_implies, Bool.not_eq_true,
    Bool.and_eq_false_iff, bne_eq_false_iff_eq]
  refine forall_congr' fun j => ⟨fun h q hj hq => ?_, fun h => ?_⟩
  · have hany := h.resolve_left hj
    rw [hq, Option.any_some, beq_eq_false_iff_ne] at hany
    exact hany
  · by_cases hj : j = i
    · exact Or.inl hj
    · refine Or.inr ?_
      cases hq : s.sources[j].record with
      | none => rfl
      | some q => exact beq_eq_false_iff_ne.mpr (h q hj hq)

theorem stores_unpinned_iff {stores : List FrameStore} :
    (stores.any fun st => decide (0 < st.pins)) = false ↔ ∀ st ∈ stores, st.pins = 0 := by
  simp only [List.any_eq_false, decide_eq_true_eq, Nat.not_lt, Nat.le_zero]

section
variable {s : State} {i : Fin 4} {r : SourceRecord}

/-! What SOURCE_SETUP answers, check by check. -/

theorem State.sourceSetupResult_state (h : s.sources[i].state.settable = false) :
    s.sourceSetupResult i r = .state := if_pos h

theorem State.sourceSetupResult_range (h : s.sources[i].state.settable = true) (hr : r.inRange = false) :
    s.sourceSetupResult i r = .range := by
  simp only [State.sourceSetupResult, h, hr, Bool.true_eq_false, if_false, if_true]

theorem State.sourceSetupResult_conflict (h : s.sources[i].state.settable = true) (hr : r.inRange = true)
    (hc : ¬ (s.sourceConflict i r = false ∧ s.tagTaken i r.tag = false)) :
    s.sourceSetupResult i r = .conflict := by
  simp only [State.sourceSetupResult, h, hr, Bool.true_eq_false, if_false]
  cases hconf : s.sourceConflict i r with
  | true => rfl
  | false =>
    have htag : s.tagTaken i r.tag = true := Bool.not_eq_false _ ▸ fun ht => hc ⟨hconf, ht⟩
    simp only [htag, if_true, Bool.false_eq_true, if_false]

theorem State.sourceSetupResult_pins (h : s.sources[i].state.settable = true) (hr : r.inRange = true)
    (hc : s.sourceConflict i r = false) (ht : s.tagTaken i r.tag = false) :
    s.sourceSetupResult i r =
      if (s.sources[i].stores.any fun st => decide (0 < st.pins)) = true then .busy else .ok := by
  simp only [State.sourceSetupResult, h, hr, hc, ht, Bool.true_eq_false, Bool.false_eq_true, if_false]

end

/-- What a SOURCE_SETUP whose index is in range leaves. -/
theorem exec_sourceSetup {s : State} {sl : Slot} {i : Fin 4} (hp : s.phase = .running)
    (ho : s.offers .sourceSetup sl) (hi : sl.source = some i) {x : CmdResult}
    (hx : s.sourceSetupResult i sl.sourceRecord = x) :
    exec .sourceSetup s = .next
      (if x = .ok then (s.setUpSource i sl.sourceRecord).executed sl else s.refused sl x) := by
  have hact : actSourceSetup sl s.markTaken = (x, (s.setUpSource i sl.sourceRecord).markTaken) := by
    simp only [actSourceSetup, hi]
    exact Prod.ext hx rfl
  change Host.Outcome.next (s.take (holds .sourceSetup) actSourceSetup) = _
  by_cases hok : x = .ok
  · subst hok
    rw [State.take_executed ho hact, if_pos rfl]
  · rw [State.take_refused ho hp (by rw [hact]) hok, if_neg hok]

/-- Settles O30: the checks in their order, each read from the record and the state. -/
theorem sourceSetUp : Obligations.SourceSetUp := by
  unfold Obligations.SourceSetUp
  refine ⟨fun sl => ⟨fun i => ?_, sl.sourceRecord_eq_readLE⟩, fun s sl hp ho => ⟨fun hn => ?_, fun i hi => ?_⟩⟩
  · rw [Slot.source_eq_some, Slot.index_eq_readLE]
  · have hact : actSourceSetup sl s.markTaken = (.range, s.markTaken) := by simp only [actSourceSetup, hn]
    exact congrArg Host.Outcome.next (State.take_refused ho hp (by rw [hact]) (by decide))
  intro r apart settable inRange clear tagFree unpinned
  have hset : s.sources[i].state.settable = true ↔ settable := SourceState.settable_iff _
  have hrange : r.inRange = true ↔ inRange := r.inRange_iff
  have hclear : s.sourceConflict i r = false ↔ clear := State.sourceConflict_eq_false_iff
  have htag : s.tagTaken i r.tag = false ↔ tagFree := State.tagTaken_eq_false_iff
  refine ⟨fun h => ?_, fun h hr => ?_, fun h hr hc => ?_, fun h hr hc ht hu => ?_, fun h hr hc ht hu => ?_⟩
  · exact exec_sourceSetup hp ho hi
      (State.sourceSetupResult_state (Bool.not_eq_true _ ▸ fun hs => h (hset.mp hs)))
  · exact exec_sourceSetup hp ho hi (State.sourceSetupResult_range (hset.mpr h)
      (Bool.not_eq_true _ ▸ fun hs => hr (hrange.mp hs)))
  · exact exec_sourceSetup hp ho hi (State.sourceSetupResult_conflict (hset.mpr h) (hrange.mpr hr)
      fun hs => hc ⟨hclear.mp hs.1, htag.mp hs.2⟩)
  · have hpins := State.sourceSetupResult_pins (hset.mpr h) (hrange.mpr hr) (hclear.mpr hc) (htag.mpr ht)
    rw [if_pos (Bool.not_eq_false _ ▸ fun hs => hu (stores_unpinned_iff.mp hs))] at hpins
    exact exec_sourceSetup hp ho hi hpins
  · have hpins := State.sourceSetupResult_pins (hset.mpr h) (hrange.mpr hr) (hclear.mpr hc) (htag.mpr ht)
    rw [if_neg (Bool.not_eq_true _ ▸ stores_unpinned_iff.mpr hu)] at hpins
    exact exec_sourceSetup hp ho hi hpins

/-! ### SOURCE_CONTROL (O31) -/

theorem actSourceEnable_range {sl : Slot} (s : State) (h : sl.source = none ∨ sl.action ≠ actionEnable) :
    actSourceEnable sl s = (.range, s) := by
  cases hsrc : sl.source with
  | none => simp only [actSourceEnable, hsrc]
  | some i => simp only [actSourceEnable, hsrc, if_pos (h.resolve_left (by simp [hsrc]))]

theorem actSourceEnable_of {sl : Slot} {i : Fin 4} (s : State) (hi : sl.source = some i)
    (ha : sl.action = actionEnable) :
    actSourceEnable sl s = if s.sources[i].state = .off then (.ok, s.enableSource i) else (.state, s) := by
  simp only [actSourceEnable, hi, if_neg (not_not_intro ha)]

theorem actSourceDisable_range {sl : Slot} (s : State) (h : sl.source = none ∨ sl.action ≠ actionDisable) :
    actSourceDisable sl s = (.range, s) := by
  cases hsrc : sl.source with
  | none => simp only [actSourceDisable, hsrc]
  | some i => simp only [actSourceDisable, hsrc, if_pos (h.resolve_left (by simp [hsrc]))]

/-- SOURCE_CONTROL disable in the three states of an enabled source. -/
theorem actSourceDisable_of_active {sl : Slot} {i : Fin 4} (s : State) (hi : sl.source = some i)
    (ha : sl.action = actionDisable) (h : s.sources[i].state.windowsActive = true) :
    actSourceDisable sl s = (.ok, s.disableSource i) := by
  simp only [actSourceDisable, hi, if_neg (not_not_intro ha)]
  split
  · next hst => rw [hst] at h; cases h
  · next hst => rw [hst] at h; cases h
  all_goals rfl

theorem actSourceDisable_of_unset {sl : Slot} {i : Fin 4} (s : State) (hi : sl.source = some i)
    (ha : sl.action = actionDisable) (h : s.sources[i].state = .unset) :
    actSourceDisable sl s = (.state, s) := by
  simp only [actSourceDisable, hi, if_neg (not_not_intro ha), h]

theorem actSourceDisable_of_off {sl : Slot} {i : Fin 4} (s : State) (hi : sl.source = some i)
    (ha : sl.action = actionDisable) (h : s.sources[i].state = .off) :
    actSourceDisable sl s = (.ok, s) := by
  simp only [actSourceDisable, hi, if_neg (not_not_intro ha), h]

/-- Settles O31: the answers of the two rows in each state. -/
theorem sourceControl : Obligations.SourceControl := by
  unfold Obligations.SourceControl
  refine ⟨fun sl => ⟨sl.action_eq_readLE, fun i => ?_⟩, fun s sl hp ho => ⟨fun ha h => ?_, fun ha h => ?_,
    fun i hi ha => ⟨fun hst => ?_, fun hst => ?_⟩, fun i hi ha => ⟨fun hst => ?_, fun hst => ?_,
    fun r hst hr => ?_⟩⟩⟩
  · rw [Slot.source_eq_some, Slot.index_eq_readLE]
  · exact congrArg Host.Outcome.next (State.take_owned_refused ho (holdsEnable_of_offers ho ha) hp
      (by rw [actSourceEnable_range _ h]) (by decide))
  · exact congrArg Host.Outcome.next (State.take_owned_refused ho (holdsDisable_of_offers ho ha) hp
      (by rw [actSourceDisable_range _ h]) (by decide))
  · have hmine := holdsEnable_of_offers ho (by rw [ha]; decide)
    refine congrArg Host.Outcome.next (State.take_owned_refused ho hmine hp ?_ (by decide))
    rw [actSourceEnable_of _ hi ha, if_neg (show ¬ s.markTaken.sources[i].state = .off from hst)]
  · have hmine := holdsEnable_of_offers ho (by rw [ha]; decide)
    refine congrArg Host.Outcome.next (State.take_owned_executed (t := s.enableSource i) ho hmine ?_)
    rw [actSourceEnable_of _ hi ha, if_pos (show s.markTaken.sources[i].state = .off from hst)]
    rfl
  · have hmine := holdsDisable_of_offers ho (by rw [ha]; decide)
    exact congrArg Host.Outcome.next (State.take_owned_refused ho hmine hp
      (by rw [actSourceDisable_of_unset s.markTaken hi ha hst]) (by decide))
  · have hmine := holdsDisable_of_offers ho (by rw [ha]; decide)
    exact congrArg Host.Outcome.next (State.take_owned_executed ho hmine
      (actSourceDisable_of_off _ hi ha hst))
  · have hmine := holdsDisable_of_offers ho (by rw [ha]; decide)
    have hmap : s.sources[i].disable = { s.sources[i] with
        state := .off, ringMap := List.range r.positions, watchdog := none, recoveryRun := 0 } := by
      simp only [Source.disable, identityMap, hr, Option.map_some, Option.getD_some]
    have htake := State.take_owned_executed (t := s.disableSource i) ho hmine
      (actSourceDisable_of_active s.markTaken hi ha hst)
    rw [State.disableSource, hmap] at htake
    exact congrArg Host.Outcome.next htake

/-! ### VIEW_SETUP (O32) -/

theorem Slot.viewRecord_defaults {sl : Slot} (h : readLE sl.bytes.toList 5 1 % 2 = 1) :
    let field := readLE sl.bytes.toList
    sl.viewRecord =
      { width := field 8 2
        height := field 10 2
        stride := field 12 4
        base := 4096 * field 16 4
        fillY := 16
        fillCb := 128
        fillCr := 128
        lookahead := 4
        warnLead := 2
        holdLimit := 64
        underrunLimit := 4
        idleTimeout := 50 } := by
  simp only [Slot.viewRecord, if_pos ((sl.flag_iff_readLE 5).mpr h), Slot.half_eq_readLE,
    Slot.word_eq_readLE, Slot.page_eq_readLE]

theorem Slot.viewRecord_own {sl : Slot} (h : readLE sl.bytes.toList 5 1 % 2 = 0) :
    let field := readLE sl.bytes.toList
    sl.viewRecord =
      { width := field 8 2
        height := field 10 2
        stride := field 12 4
        base := 4096 * field 16 4
        fillY := BitVec.ofNat 8 (field 20 1)
        fillCb := BitVec.ofNat 8 (field 21 1)
        fillCr := BitVec.ofNat 8 (field 22 1)
        lookahead := field 24 1
        warnLead := field 25 1
        holdLimit := field 28 2
        underrunLimit := field 26 1
        idleTimeout := field 27 1 } := by
  have hflag : ¬ sl.flag 5 = true := by
    rw [sl.flag_iff_readLE 5]
    omega
  simp only [Slot.viewRecord, if_neg hflag, Slot.byte_eq_readLE, Slot.half_eq_readLE,
    Slot.word_eq_readLE, Slot.page_eq_readLE]

theorem ViewRecord.inRange_iff (r : ViewRecord) : r.inRange = true ↔
    64 ≤ r.width ∧ r.width ≤ 3840 ∧ 64 ≤ r.height ∧ r.height ≤ 2160 ∧
      r.stride % 16 = 0 ∧ 4 * r.width ≤ r.stride ∧ r.base % 4096 = 0 ∧
      1 ≤ r.lookahead ∧ r.lookahead ≤ 8 ∧ r.warnLead ≤ 8 ∧
      4 ≤ r.holdLimit ∧ r.holdLimit ≤ 1020 ∧ r.holdLimit % 4 = 0 ∧
      1 ≤ r.underrunLimit ∧ r.underrunLimit ≤ 15 ∧ 1 ≤ r.idleTimeout ∧ r.idleTimeout ≤ 255 ∧
      r.base + roundUpPage (r.height * r.stride) ≤ 2 ^ 40 := by
  simp only [ViewRecord.inRange, Bool.and_eq_true, decide_eq_true_eq, beq_iff_eq, and_assoc]
  rfl

/-- A new aperture conflicts with nothing. -/
theorem State.apertureConflict_eq_false_iff {s : State} {v : Fin 2} {r : ViewRecord} :
    s.apertureConflict v r = false ↔ RangesApart r.aperture (controlBase s.strapCp, 65536) ∧
      (∀ (j : Fin 4) (q : SourceRecord), s.sources[j].record = some q →
        ∀ y ∈ q.ranges, RangesApart r.aperture y) ∧
      ∀ (u : Fin 2) (q : ViewRecord), u ≠ v → s.views[u].record = some q →
        RangesApart r.aperture q.aperture := by
  rw [State.apertureConflict, any_rangesOverlap_eq_false_iff, List.forall_mem_cons, List.forall_mem_append]
  refine and_congr Iff.rfl (and_congr ?_ ?_)
  · constructor
    · exact fun h j q hq y hy => h y (State.mem_sourceRanges.mpr ⟨j, q, hq, hy⟩)
    · intro h y hy
      obtain ⟨j, q, hq, hy⟩ := State.mem_sourceRanges.mp hy
      exact h j q hq y hy
  · simp only [Option.mem_toList, Option.map_eq_some_iff]
    constructor
    · intro h u q hu hq
      have hother : u = otherView v := Fin.eq_otherView hu
      exact h _ ⟨q, hother ▸ hq, rfl⟩
    · rintro h y ⟨q, hq, rfl⟩
      exact h _ q (otherView_ne v) hq

theorem State.viewSetupResult_state {s : State} {v : Fin 2} (r : ViewRecord)
    (h : s.views[v].enabled = true) : s.viewSetupResult v r = .state := if_pos h

theorem State.viewSetupResult_disabled {s : State} {v : Fin 2} {r : ViewRecord}
    (h : s.views[v].enabled = false) (hr : r.inRange = true) :
    s.viewSetupResult v r = if s.apertureConflict v r = true then .conflict else .ok := by
  simp only [State.viewSetupResult, h, hr, Bool.true_eq_false, Bool.false_eq_true, if_false]

theorem State.viewSetupResult_range {s : State} {v : Fin 2} {r : ViewRecord}
    (h : s.views[v].enabled = false) (hr : r.inRange = false) : s.viewSetupResult v r = .range := by
  simp only [State.viewSetupResult, h, hr, Bool.false_eq_true, if_false, if_true]

/-- What a VIEW_SETUP whose index is in range leaves. -/
theorem exec_viewSetup {s : State} {sl : Slot} {v : Fin 2} (hp : s.phase = .running)
    (ho : s.offers .viewSetup sl) (hv : sl.view = some v) {x : CmdResult}
    (hx : s.viewSetupResult v sl.viewRecord = x) :
    exec .viewSetup s = .next
      (if x = .ok then (s.setUpView v sl.viewRecord).executed sl else s.refused sl x) := by
  have hact : actViewSetup sl s.markTaken = (x, (s.setUpView v sl.viewRecord).markTaken) := by
    simp only [actViewSetup, hv]
    exact Prod.ext hx rfl
  change Host.Outcome.next (s.take (holds .viewSetup) actViewSetup) = _
  by_cases hok : x = .ok
  · subst hok
    rw [State.take_executed ho hact, if_pos rfl]
  · rw [State.take_refused ho hp (by rw [hact]) hok, if_neg hok]

/-- Settles O32: the checks in their order, each read from the record and the state. -/
theorem viewSetUp : Obligations.ViewSetUp := by
  unfold Obligations.ViewSetUp
  refine ⟨fun sl => ⟨fun v => ?_, Slot.viewRecord_defaults, Slot.viewRecord_own⟩,
    fun s sl hp ho => ⟨fun hn => ?_, fun v hv => ?_⟩⟩
  · rw [Slot.view_eq_some, Slot.index_eq_readLE]
  · have hact : actViewSetup sl s.markTaken = (.range, s.markTaken) := by simp only [actViewSetup, hn]
    exact congrArg Host.Outcome.next (State.take_refused ho hp (by rw [hact]) (by decide))
  intro r size apart inRange clear
  have hrange : r.inRange = true ↔ inRange := r.inRange_iff
  have hclear : s.apertureConflict v r = false ↔ clear := State.apertureConflict_eq_false_iff
  refine ⟨fun h => ?_, fun h hr => ?_, fun h hr hc => ?_, fun h hr hc => ?_⟩
  · exact exec_viewSetup hp ho hv (State.viewSetupResult_state _
      (Bool.not_eq_false _ ▸ fun he => h ((View.enabled_eq_false_iff _).mp he)))
  · exact exec_viewSetup hp ho hv (State.viewSetupResult_range ((View.enabled_eq_false_iff _).mpr h)
      (Bool.not_eq_true _ ▸ fun hs => hr (hrange.mp hs)))
  · have hres := State.viewSetupResult_disabled ((View.enabled_eq_false_iff _).mpr h) (hrange.mpr hr)
    rw [if_pos (Bool.not_eq_false _ ▸ fun hs => hc (hclear.mp hs))] at hres
    exact exec_viewSetup hp ho hv hres
  · have hres := State.viewSetupResult_disabled ((View.enabled_eq_false_iff _).mpr h) (hrange.mpr hr)
    rw [if_neg (Bool.not_eq_true _ ▸ hclear.mpr hc)] at hres
    exact exec_viewSetup hp ho hv hres

end Sys2Proof.Machine
end

section
/-! PROOFS. The commands of a view's control, a load and the zoom: VIEW_CONTROL, CAL_LOAD and ZOOM_SET
(O33, O34, O36). -/

namespace Sys2Proof.Machine

/-! ### The clearing of a view (R126) -/

theorem clearedInflight_eq (v : Fin 2) (fs : List Fetch) :
    clearedInflight v fs = (fs.filter fun f => f.view ≠ v ∨ f.owed ≠ 0).map fun f =>
      if f.view = v then { f with todo := [], total := f.granted } else f := by
  unfold clearedInflight
  rw [List.filter_map]
  congr 1
  refine List.filter_congr fun f _ => ?_
  rw [Function.comp_apply]
  rw [Bool.eq_iff_iff]
  by_cases h : f.view = v <;> simp [h]

theorem clearedEntry_of_fetching (v : Fin 2) (fs : List Fetch) (n : Fin 16) (key : RowKey) (urgent : Bool)
    (data : List Byte) :
    clearedEntry v fs n (.fetching key urgent data) =
      if ∃ f ∈ fs, f.view = v ∧ f.entry = n ∧ f.owed ≠ 0 then .discarding else .empty := by
  have hany : (fs.any fun f => f.view == v && f.entry == n && f.owed != 0) = true ↔
      ∃ f ∈ fs, f.view = v ∧ f.entry = n ∧ f.owed ≠ 0 := by
    simp [and_assoc]
  simp only [clearedEntry, hany]

theorem clearedTo_ofFn (v : Fin 2) (fs : List Fetch) (old : Vector CacheEntry 16) :
    ClearedTo v fs old (Vector.ofFn fun n => clearedEntry v fs n old[n]) := by
  intro n owed
  have hn : (Vector.ofFn fun n => clearedEntry v fs n old[n])[n] = clearedEntry v fs n old[n] := by
    rw [Fin.getElem_fin, Vector.getElem_ofFn]
  rw [hn]
  refine ⟨fun h => by rw [h]; rfl, fun key urgent data h => ?_, fun h1 h2 => ?_⟩
  · rw [h, clearedEntry_of_fetching]
    exact ⟨fun ho => if_pos ho, fun ho => if_neg ho⟩
  · cases hold : old[n] with
    | discarding => exact absurd hold h1
    | fetching key urgent data => exact absurd hold (h2 key urgent data)
    | empty | valid | failed => rfl

/-! ### VIEW_CONTROL (O33) -/

/-- The state that a disable of view `v`, with record `r`, leaves before its counts settle. -/
def State.disabledView (s : State) (v : Fin 2) (r : ViewRecord) : State :=
  { s with
    up := { s.up with responses := s.up.responses ++ s.views[v].held.map fun h => r.fillAnswer h.req }
    sources := releasePlan s.sources s.views[v].plan
    inflight := (s.inflight.filter fun f => f.view ≠ v ∨ f.owed ≠ 0).map fun f =>
      if f.view = v then { f with todo := [], total := f.granted } else f
    views := s.views.set v.val
      { s.views[v] with
        state := .disabled
        plan := none
        held := []
        cache := Vector.ofFn fun n => clearedEntry v s.inflight n s.views[v].cache[n]
        fetchQ := ⟨[], []⟩
        markRow := 0 } v.isLt
    windows := s.windows.map fun w => if w.ofView v then { w with active := false } else w }

/-- The part once the held reads of a view are answered and its plan is retired (R84). -/
def State.retiredView (s : State) (v : Fin 2) : State :=
  { s with
    up := { s.up with responses := s.up.responses ++ fillHeld s.views[v] }
    sources := releasePlan s.sources s.views[v].plan }

/-- A clearing with a record answers nothing and raises nothing. -/
theorem State.onView_clear {s : State} {v : Fin 2} {r : ViewRecord} (h : s.views[v].record = some r) :
    s.onView v (fun _ w => w.clear v) = { s with
      inflight := clearedInflight v s.inflight
      views := s.views.set v.val ((s.workOf v).clear v).view v.isLt } := by
  rw [State.onView_of_record _ h]
  simp only [ViewWork.clear, State.workOf, State.putWork, List.append_nil]
  rfl

theorem State.disableView_of_record {s : State} {v : Fin 2} {r : ViewRecord}
    (h : s.views[v].record = some r) : s.disableView v = (s.disabledView v r).settleAges := by
  have hfill : fillHeld s.views[v] = s.views[v].held.map fun h => r.fillAnswer h.req := by
    simp only [fillHeld, h]
  have hclear := State.onView_clear (s := s.retiredView v) h
  rw [State.disabledView, ← clearedInflight_eq, ← hfill]
  change State.settleAges { (s.retiredView v).onView v (fun _ w => w.clear v) with
    views := ((s.retiredView v).onView v fun _ w => w.clear v).views.set v.val
      ((s.retiredView v).onView v fun _ w => w.clear v).views[v].disable v.isLt
    windows := setActive (fun w => w.ofView v) false
      ((s.retiredView v).onView v fun _ w => w.clear v).windows } = _
  rw [hclear]
  refine congrArg State.settleAges ?_
  have hget : (s.views.set v.val (((s.retiredView v).workOf v).clear v).view v.isLt)[v] =
      (((s.retiredView v).workOf v).clear v).view := by
    rw [vector_get_set, if_pos rfl]
  have hset (x y : View) : (s.views.set v.val x v.isLt).set v.val y v.isLt = s.views.set v.val y v.isLt :=
    Vector.set_set ..
  simp only [State.retiredView] at hget ⊢
  rw [hset, hget]
  rfl

theorem actViewEnable_range {sl : Slot} (s : State) (h : sl.view = none ∨ sl.action ≠ actionEnable) :
    actViewEnable sl s = (.range, s) := by
  cases hview : sl.view with
  | none => simp only [actViewEnable, hview]
  | some v => simp only [actViewEnable, hview, if_pos (h.resolve_left (by simp [hview]))]

theorem actViewEnable_of {sl : Slot} {v : Fin 2} (s : State) (hv : sl.view = some v)
    (ha : sl.action = actionEnable) :
    actViewEnable sl s =
      if s.views[v].record.isSome ∧ s.views[v].enabled = false then (.ok, s.enableView v) else (.state, s) := by
  simp only [actViewEnable, hv, if_neg (not_not_intro ha)]

theorem actViewDisable_range {sl : Slot} (s : State) (h : sl.view = none ∨ sl.action ≠ actionDisable) :
    actViewDisable sl s = (.range, s) := by
  cases hview : sl.view with
  | none => simp only [actViewDisable, hview]
  | some v => simp only [actViewDisable, hview, if_pos (h.resolve_left (by simp [hview]))]

theorem actViewDisable_of {sl : Slot} {v : Fin 2} (s : State) (hv : sl.view = some v)
    (ha : sl.action = actionDisable) :
    actViewDisable sl s =
      if s.views[v].record.isNone then (.state, s)
      else if s.views[v].enabled then (.ok, s.disableView v) else (.ok, s) := by
  simp only [actViewDisable, hv, if_neg (not_not_intro ha)]

theorem View.enabled_of_ne {v : View} (h : v.state ≠ .disabled) : v.enabled = true :=
  Bool.not_eq_false _ ▸ fun he => h (v.enabled_eq_false_iff.mp he)

/-- A take that leaves the channels empty is all that a control row of a view does. -/
theorem exec_viewControl_of_quiet {s t : State} (hq : t.quiet) (h : s = t) :
    (.next s.acceptWaiting : Host.Outcome State Fault Refusal) = .next t := by
  rw [h, hq.acceptWaiting]

/-- Settles O33: the answers of the two rows in each state, and the disable step by step. -/
theorem viewControl : Obligations.ViewControl := by
  unfold Obligations.ViewControl
  refine ⟨fun sl => ⟨sl.action_eq_readLE, fun v => ?_⟩, fun s sl hp hq ho => ⟨fun ha h => ?_, fun ha h => ?_,
    fun v hv ha => ⟨fun hst => ?_, fun r hr hst => ?_⟩, fun v hv ha => ⟨fun hr => ?_, fun r hr hst => ?_,
    fun r hr hst => ?_⟩⟩⟩
  · rw [Slot.view_eq_some, Slot.index_eq_readLE]
  · exact exec_viewControl_of_quiet hq (State.take_owned_refused ho (holdsEnable_of_offers ho ha) hp
      (by rw [actViewEnable_range _ h]) (by decide))
  · exact exec_viewControl_of_quiet hq (State.take_owned_refused ho (holdsDisable_of_offers ho ha) hp
      (by rw [actViewDisable_range _ h]) (by decide))
  · have hmine := holdsEnable_of_offers ho (by rw [ha]; decide)
    refine exec_viewControl_of_quiet hq (State.take_owned_refused ho hmine hp ?_ (by decide))
    have hno : ¬ (s.markTaken.views[v].record.isSome = true ∧ s.markTaken.views[v].enabled = false) := by
      rintro ⟨hsome, hoff⟩
      rcases hst with hnone | hen
      · rw [show s.markTaken.views[v].record = none from hnone] at hsome
        cases hsome
      · exact hen ((View.enabled_eq_false_iff _).mp hoff)
    rw [actViewEnable_of _ hv ha, if_neg hno]
  · have hmine := holdsEnable_of_offers ho (by rw [ha]; decide)
    refine exec_viewControl_of_quiet hq (State.take_owned_executed (t := s.enableView v) ho hmine ?_)
    have hyes : s.markTaken.views[v].record.isSome = true ∧ s.markTaken.views[v].enabled = false :=
      ⟨by rw [show s.markTaken.views[v].record = some r from hr]; rfl,
        (View.enabled_eq_false_iff _).mpr hst⟩
    rw [actViewEnable_of _ hv ha, if_pos hyes]
    rfl
  · have hmine := holdsDisable_of_offers ho (by rw [ha]; decide)
    refine exec_viewControl_of_quiet hq (State.take_owned_refused ho hmine hp ?_ (by decide))
    rw [actViewDisable_of _ hv ha, if_pos (show s.markTaken.views[v].record.isNone = true by
      rw [show s.markTaken.views[v].record = none from hr]; rfl)]
  · have hmine := holdsDisable_of_offers ho (by rw [ha]; decide)
    refine exec_viewControl_of_quiet hq (State.take_owned_executed ho hmine ?_)
    have hsome : ¬ s.markTaken.views[v].record.isNone = true := by
      rw [show s.markTaken.views[v].record = some r from hr]
      exact Bool.false_ne_true
    have hoff : ¬ s.markTaken.views[v].enabled = true := by
      rw [show s.markTaken.views[v].enabled = false from (View.enabled_eq_false_iff _).mpr hst]
      exact Bool.false_ne_true
    rw [actViewDisable_of _ hv ha, if_neg hsome, if_neg hoff]
  · have hmine := holdsDisable_of_offers ho (by rw [ha]; decide)
    refine ⟨_, clearedTo_ofFn v s.inflight s.views[v].cache, ?_⟩
    refine exec_viewControl_of_quiet (t := ((s.disabledView v r).settleAges).executed sl) hq
      (State.take_owned_executed ho hmine ?_)
    have hsome : ¬ s.markTaken.views[v].record.isNone = true := by
      rw [show s.markTaken.views[v].record = some r from hr]
      exact Bool.false_ne_true
    rw [actViewDisable_of _ hv ha, if_neg hsome, if_pos (View.enabled_of_ne (by exact hst)),
      State.disableView_of_record (show s.markTaken.views[v].record = some r from hr)]
    rfl

/-! ### CAL_LOAD and the end of a load (O34) -/

theorem actCalLoad_markTaken (s : State) (sl : Slot) :
    actCalLoad sl s.markTaken = (s.calLoadResult sl,
      ({ s with cal := { s.cal with load := some (Load.start sl.loadAddr sl.loadLength) } } : State).markTaken) :=
  rfl

theorem State.calLoadResult_busy {s : State} (sl : Slot) (h : s.cal.load ≠ none) :
    s.calLoadResult sl = .busy := if_pos (Option.isSome_iff_ne_none.mpr h)

theorem State.calLoadResult_free {s : State} (sl : Slot) (h : s.cal.load = none) :
    s.calLoadResult sl =
      if 4095 < sl.loadOffset ∨ sl.loadLength < 16 ∨ 1024 < sl.loadLength ∨
        2 ^ 40 < sl.loadAddr + sl.loadLength then .range else .ok := by
  rw [State.calLoadResult, h]
  rfl

/-- The last response of a load ends it. -/
theorem State.loadResponse_of_last {s : State} {l : Load} (sp : Span) (m : MemResp)
    (hl : s.cal.load = some l) (ht : l.todo = []) (ho : l.owed = 1) :
    s.loadResponse sp m =
      match checkLoad (l.respond sp m) s.sources with
      | some x => State.raiseAll { s with cal := { s.cal with load := none } } [calBadEvent x]
      | none => { s with cal :=
          { s.cal with load := none, staged := some (blockSet (l.respond sp m).buffer) } } := by
  have hended : (l.respond sp m).ended = true := by
    rw [Load.respond_eq]
    simp [Load.ended, ht, ho]
  simp only [State.loadResponse, hl, hended, if_true, CalStore.endLoad]
  cases checkLoad (l.respond sp m) s.sources <;> rfl

/-- Settles O34: the checks of the command, and the two ends of a load. -/
theorem calibrationLoads : Obligations.CalibrationLoads := by
  unfold Obligations.CalibrationLoads
  refine ⟨fun sl => ⟨sl.half_eq_readLE 8, sl.half_eq_readLE 10, ?_⟩, fun s sl hp ho => ⟨fun hl => ?_,
    fun hl hbad => ?_, fun hl hoff hmin hmax htop => ?_⟩, fun s e m sp l hp hq hout hlen hl ht howed => ?_⟩
  · rw [Slot.loadAddr, Slot.page_eq_readLE, Slot.loadOffset, Slot.half_eq_readLE]
  · exact congrArg Host.Outcome.next (State.take_refused ho hp
      (by rw [actCalLoad_markTaken, State.calLoadResult_busy sl hl]) (by decide))
  · exact congrArg Host.Outcome.next (State.take_refused ho hp
      (by rw [actCalLoad_markTaken, State.calLoadResult_free sl hl, if_pos hbad]) (by decide))
  · have hact := actCalLoad_markTaken s sl
    rw [State.calLoadResult_free sl hl, if_neg (by omega)] at hact
    exact congrArg Host.Outcome.next (State.take_executed ho hact)
  · have hlast := State.loadResponse_of_last (s := s.freeOutstanding e) sp m hl ht howed
    have hexec := exec_responseRow_quiet (i := .calibrationLoadEnd e m) hq (by simp [responseRows]) hout hlen
    rw [State.arrive_of_kept _ _ _ rfl] at hexec
    refine ⟨fun hok => ?_, fun x hx => ?_⟩
    · rw [show checkLoad (l.respond sp m) (s.freeOutstanding e).sources = none from hok] at hlast
      exact hexec.trans (congrArg Host.Outcome.next hlast)
    · rw [show checkLoad (l.respond sp m) (s.freeOutstanding e).sources = some x from hx] at hlast
      dsimp only at hlast
      rw [State.raiseAll_of_running (by exact hp)] at hlast
      exact hexec.trans (congrArg Host.Outcome.next hlast)

/-! ### ZOOM_SET (O36) -/

/-- What ZOOM_SET makes of the Zoom Controller with the target taken. -/
def State.zoomSetTo (s : State) (sl : Slot) (target : Nat) : Zoom :=
  { s.zoom with
    target
    slew := sl.zoomSlew
    panX := (sl.zoomPan.map Prod.fst).getD s.zoom.panX
    panY := (sl.zoomPan.map Prod.snd).getD s.zoom.panY
    reachArm :=
      if s.views[(0 : Fin 2)].state = .disabled ∧ s.views[(1 : Fin 2)].state = .disabled then
        s.zoom.reachArm
      else decide (target ≠ s.zoom.current) }

theorem State.hasLead_eq_false_iff (s : State) : s.hasLead = false ↔
    s.views[(0 : Fin 2)].state = .disabled ∧ s.views[(1 : Fin 2)].state = .disabled := by
  rw [State.hasLead, Bool.or_eq_false_iff, View.enabled_eq_false_iff, View.enabled_eq_false_iff]

theorem State.zoom_set_eq (s : State) (sl : Slot) :
    s.zoom.set s.hasLead sl.zoomTarget sl.zoomSlew sl.zoomPan =
      (s.zoomSetTo sl (clampNat sl.zoomTarget 1024 24576),
        if clampNat sl.zoomTarget 1024 24576 = sl.zoomTarget then []
        else [zoomClampedEvent 0 clampRange sl.zoomTarget (clampNat sl.zoomTarget 1024 24576)]) := by
  have hpan : sl.zoomPan.getD (s.zoom.panX, s.zoom.panY) =
      ((sl.zoomPan.map Prod.fst).getD s.zoom.panX, (sl.zoomPan.map Prod.snd).getD s.zoom.panY) := by
    cases sl.zoomPan <;> rfl
  have harm (d : Bool) : (if s.hasLead = true then d else s.zoom.reachArm) =
      if s.views[(0 : Fin 2)].state = .disabled ∧ s.views[(1 : Fin 2)].state = .disabled then
        s.zoom.reachArm else d := by
    by_cases hlead : s.hasLead = true
    · rw [if_pos hlead, if_neg fun h => by rw [(s.hasLead_eq_false_iff).mpr h] at hlead; cases hlead]
    · rw [if_neg hlead, if_pos (s.hasLead_eq_false_iff.mp (Bool.not_eq_true _ ▸ hlead))]
  simp only [Zoom.set, State.zoomSetTo, hpan, harm]

/-- ZOOM_SET with a slew in range. -/
theorem exec_zoomSet {s : State} {sl : Slot} (hp : s.phase = .running) (ho : s.offers .zoomSet sl)
    (h : sl.zoomSlew ≤ 4096) {target : Nat} (ht : clampNat sl.zoomTarget 1024 24576 = target) :
    exec .zoomSet s = .next (State.executed (State.raiseAll { s with zoom := s.zoomSetTo sl target }
      (if target = sl.zoomTarget then []
        else [zoomClampedEvent 0 clampRange sl.zoomTarget target])) sl) := by
  have hset := s.zoom_set_eq sl
  rw [ht] at hset
  refine congrArg Host.Outcome.next (State.take_executed ho ?_)
  have hslew : ¬ slewLimit < sl.zoomSlew := Nat.not_lt.mpr h
  rw [actZoomSet, if_neg hslew,
    show s.markTaken.zoom.set s.markTaken.hasLead sl.zoomTarget sl.zoomSlew sl.zoomPan = _ from hset,
    State.raiseAll_of_running (by exact hp)]
  dsimp only
  rw [State.raiseAll_of_running (by exact hp)]
  rfl

/-- Settles O36: the operands from their bytes, then the three places of the target. -/
theorem zoomSetTaken : Obligations.ZoomSetTaken := by
  unfold Obligations.ZoomSetTaken
  refine ⟨fun sl => ⟨sl.half_eq_readLE 4, sl.half_eq_readLE 6, fun hf => ?_, fun hf => ?_⟩,
    fun s sl hp ho => ⟨fun h => ?_, fun h => ?_⟩⟩
  · exact if_pos ((sl.flag_iff_readLE 16).mpr hf)
  · have hflag : ¬ sl.flag 16 = true := by
      rw [sl.flag_iff_readLE 16]
      omega
    rw [Slot.zoomPan, if_neg hflag, Slot.signed, Slot.signed, Slot.word_eq_readLE, Slot.word_eq_readLE]
    rfl
  · exact congrArg Host.Outcome.next (State.take_refused ho hp
      (by rw [actZoomSet, if_pos (show slewLimit < sl.zoomSlew from h)]) (by decide))
  · intro set clamped
    refine ⟨fun hlow hhigh => ?_, fun hlow => ?_, fun hhigh => ?_⟩
    · have hexec := exec_zoomSet hp ho h (target := sl.zoomTarget) (by unfold clampNat; omega)
      rw [if_pos rfl] at hexec
      exact hexec
    · have hexec := exec_zoomSet hp ho h (target := 1024) (by unfold clampNat; omega)
      rw [if_neg (by omega), State.raiseAll_of_running (by exact hp)] at hexec
      exact hexec
    · have hexec := exec_zoomSet hp ho h (target := 24576) (by unfold clampNat; omega)
      rw [if_neg (by omega), State.raiseAll_of_running (by exact hp)] at hexec
      exact hexec

end Sys2Proof.Machine
end

section
/-! PROOFS. The checks of a loaded calibration block (O35). -/

namespace Sys2Proof.Machine

/-! ### The CRC-32 (R36) -/

theorem crcByte_eq (rem : Word) (b : Byte) :
    crcByte rem b = (fun r : Word => if r.getLsbD 0 then (r >>> 1) ^^^ 0xEDB88320#32 else r >>> 1)^[8]
      (rem ^^^ b.setWidth 32) := rfl

theorem crc32_append (bs : List Byte) (b : Byte) :
    crc32 (bs ++ [b]) ^^^ 0xFFFFFFFF#32 = crcByte (crc32 bs ^^^ 0xFFFFFFFF#32) b := by
  have hcancel (x : Word) : x ^^^ 0xFFFFFFFF#32 ^^^ 0xFFFFFFFF#32 = x := by
    rw [BitVec.xor_assoc, BitVec.xor_self, BitVec.xor_zero]
  rw [crc32, crc32, hcancel, hcancel, List.foldl_append]
  rfl

/-! ### The range checks (R37) -/

/-- Check `code`, with the indices at which it fails, reports its lowest index. -/
def ReportsLowest (o : Option (Nat × Nat)) (code : Nat) (fails : Nat → Prop) : Prop :=
  (o = none → ∀ n, ¬ fails n) ∧
  ∀ x, o = some x → x.1 = code ∧ fails x.2 ∧ ∀ n < x.2, ¬ fails n

/-- The checks from `code` on report the lowest code that fails, at its lowest index. -/
def ScansFrom (os : List (Option (Nat × Nat))) (code : Nat) (fails : Nat → Nat → Prop) : Prop :=
  (os.findSome? id = none → ∀ d, code ≤ d → ∀ n, ¬ fails d n) ∧
  ∀ x, os.findSome? id = some x → code ≤ x.1 ∧ fails x.1 x.2 ∧
    (∀ d, code ≤ d → d < x.1 → ∀ n, ¬ fails d n) ∧ ∀ n < x.2, ¬ fails x.1 n

theorem scansFrom_cons {o : Option (Nat × Nat)} {os : List (Option (Nat × Nat))} {code : Nat}
    {fails : Nat → Nat → Prop} (ho : ReportsLowest o code (fails code))
    (hos : (∀ n, ¬ fails code n) → ScansFrom os (code + 1) fails) : ScansFrom (o :: os) code fails := by
  obtain ⟨hnone, hsome⟩ := ho
  cases ho : o with
  | none =>
    have hfree := hnone ho
    obtain ⟨hn, hs⟩ := hos hfree
    have hcode {P : Nat → Prop} (d : Nat) (hd : code ≤ d) (h : ∀ d, code + 1 ≤ d → P d) (h0 : P code) : P d := by
      rcases Nat.eq_or_lt_of_le hd with rfl | hlt
      · exact h0
      · exact h d hlt
    refine ⟨fun h d hd => hcode (P := fun d => ∀ n, ¬ fails d n) d hd (hn h) hfree, fun x hx => ?_⟩
    obtain ⟨hle, hf, hbefore, hlow⟩ := hs x hx
    refine ⟨Nat.le_of_succ_le hle, hf, fun d hd hdx => ?_, hlow⟩
    rcases Nat.eq_or_lt_of_le hd with rfl | hlt
    · exact hfree
    · exact hbefore d hlt hdx
  | some y =>
    obtain ⟨rfl, hf, hlow⟩ := hsome y ho
    refine ⟨fun h => by simp at h, fun x hx => ?_⟩
    have hxy : y = x := by simpa using hx
    subst hxy
    exact ⟨le_rfl, hf, fun d hd hdx => absurd hdx (Nat.not_lt.mpr hd), hlow⟩

theorem scansFrom_nil {code : Nat} {fails : Nat → Nat → Prop} (h : ∀ d, code ≤ d → ∀ n, ¬ fails d n) :
    ScansFrom [] code fails :=
  ⟨fun _ => h, fun _ hx => absurd hx (by simp)⟩

/-- A check with one subject, 0. -/
theorem reportsLowest_single {code : Nat} {p : Prop} [Decidable p] {fails : Nat → Prop}
    (h : ∀ n, fails n ↔ n = 0 ∧ p) : ReportsLowest (if p then some (code, 0) else none) code fails := by
  by_cases hp : p
  · rw [if_pos hp]
    refine ⟨fun hn => (Option.some_ne_none _ hn).elim, fun x hx => ?_⟩
    cases hx
    exact ⟨rfl, (h 0).mpr ⟨rfl, hp⟩, fun n hn => absurd hn (Nat.not_lt_zero n)⟩
  · rw [if_neg hp]
    exact ⟨fun _ n hn => hp ((h n).mp hn).2, fun x hx => absurd hx (by simp)⟩

theorem reportsLowest_firstFailing {code n shift : Nat} {bad : Nat → Bool} {fails : Nat → Prop}
    (h : ∀ m, fails m ↔ ∃ i, i < n ∧ m = i + shift ∧ bad i = true) :
    ReportsLowest (firstFailing code n shift bad) code fails := by
  unfold firstFailing
  refine ⟨fun hn m hm => ?_, fun x hx => ?_⟩
  · obtain ⟨i, hi, -, hbad⟩ := (h m).mp hm
    rw [Option.map_eq_none_iff, List.find?_eq_none] at hn
    exact hn i (List.mem_range.mpr hi) hbad
  · obtain ⟨i, hfind, rfl⟩ := Option.map_eq_some_iff.mp hx
    obtain ⟨hbad, hmem, hlow⟩ := List.find?_range_eq_some.mp hfind
    refine ⟨rfl, (h _).mpr ⟨i, List.mem_range.mp hmem, rfl, hbad⟩, fun m hm hf => ?_⟩
    obtain ⟨j, -, rfl, hj⟩ := (h m).mp hf
    have hno := hlow j (by dsimp only at hm; omega)
    rw [hj] at hno
    cases hno

/-- A test of the entries of a list, by their indices. -/
theorem exists_entry_iff {α : Type} {l : List α} {n : Nat} {P : Nat → α → Prop} {bad : Nat → Bool}
    (hn : l.length = n) (h : ∀ i x, l[i]? = some x → (bad i = true ↔ P i x)) (m : Nat) :
    (∃ x, l[m]? = some x ∧ P m x) ↔ ∃ i, i < n ∧ m = i + 0 ∧ bad i = true := by
  constructor
  · rintro ⟨x, hx, hp⟩
    exact ⟨m, hn ▸ (List.getElem?_eq_some_iff.mp hx).1, rfl, (h m x hx).mpr hp⟩
  · rintro ⟨i, hi, rfl, hbad⟩
    have hx : l[m]? = some l[m] := List.getElem?_eq_getElem (hn ▸ hi)
    exact ⟨_, hx, (h m _ hx).mp hbad⟩

/-- The fifteen range checks of a set, with the indices at which each fails. -/
def CalSet.Fails (c : CalSet) (length : Nat) (sources : Vector Source 4) (code n : Nat) : Prop :=
  let source := fun (n : Nat) (bad : CalSource → Prop) => ∃ x, c.sources[n]? = some x ∧ bad x
  let pair := fun (n : Nat) (bad : CalPair → Prop) => ∃ x, c.pairs[n]? = some x ∧ bad x
  let rect := fun (n : Nat) (bad : Rect → Prop) => source n fun x => ∃ q, x.rect = some q ∧ bad q
  match code with
  | 1 => n = 0 ∧ (c.count < 1 ∨ 4 < c.count)
  | 2 => n = 0 ∧ length < 16 + 24 * c.count + 12 * (c.count - 1)
  | 3 => source n fun x => x.k = 0
  | 4 => n = 0 ∧ source 0 fun x => x.floor < 1024
  | 5 => source n fun x => 24576 < x.floor
  | 6 => ∃ j, n = j + 1 ∧ source j fun x => source (j + 1) fun y => y.floor ≤ x.floor
  | 7 => rect n fun q => q.x1 < q.x0 ∨ q.y1 < q.y0
  | 8 => rect n fun q => ∃ i : Fin 4, i.val = n ∧ ∃ r, sources[i].record = some r ∧
      ¬ (q.x0 < r.width ∧ q.x1 < r.width ∧ q.y0 < r.height ∧ q.y1 < r.height)
  | 9 => pair n fun p => source (n + 1) fun x => p.down < x.floor
  | 10 => pair n fun p => p.up ≤ p.down
  | 11 => pair n fun p => p.up - p.down < p.margin
  | 12 => pair n fun p => 24576 < p.up
  | 13 => pair n fun p => p.step < 1 ∨ 256 < p.step
  | 14 => pair n fun p => p.relax < 1 ∨ 64 < p.relax
  | 15 => pair n fun p => p.prepareLimit < 1 ∨ 255 < p.prepareLimit
  | _ => False

theorem CalSet.not_fails_past (c : CalSet) (length : Nat) (sources : Vector Source 4) (code : Nat)
    (h : 16 ≤ code) (n : Nat) : ¬ c.Fails length sources code n := by
  obtain ⟨d, rfl⟩ := Nat.exists_eq_add_of_le h
  rw [Nat.add_comm]
  exact not_false

theorem recordOf_eq_some {sources : Vector Source 4} {n : Nat} {r : SourceRecord} :
    recordOf sources n = some r ↔ ∃ i : Fin 4, i.val = n ∧ sources[i].record = some r := by
  unfold recordOf
  split
  · next h => exact ⟨fun hr => ⟨⟨n, h⟩, rfl, hr⟩, fun ⟨i, hi, hr⟩ => by subst hi; exact hr⟩
  · next h => exact ⟨fun hr => absurd hr (by simp), fun ⟨i, hi, _⟩ => absurd i.isLt (hi ▸ h)⟩

theorem Rect.within_iff {q : Rect} {r : SourceRecord} : q.within r = true ↔
    q.x0 < r.width ∧ q.x1 < r.width ∧ q.y0 < r.height ∧ q.y1 < r.height := by
  simp only [Rect.within, Bool.and_eq_true, decide_eq_true_eq, and_assoc]

/-- The range checks of a set with as many records as its count says. -/
theorem rangeChecks_scan {c : CalSet} (length : Nat) (sources : Vector Source 4)
    (hs : c.sources.length = c.count) (hp : c.pairs.length = c.count - 1) :
    ScansFrom (rangeChecks c length sources) 1 (c.Fails length sources) := by
  unfold rangeChecks
  refine scansFrom_cons (reportsLowest_single fun n => Iff.rfl) fun hcount => ?_
  have hpos : 1 ≤ c.count := by
    by_contra h
    exact hcount 0 ⟨rfl, Or.inl (Nat.not_le.mp h)⟩
  have hsrc (i : Nat) (hi : i < c.count) : ∃ x, c.sources[i]? = some x :=
    ⟨_, List.getElem?_eq_getElem (hs ▸ hi)⟩
  have hlt {p : Nat} {x : CalPair} (hx : c.pairs[p]? = some x) : p + 1 < c.count := by
    have := (List.getElem?_eq_some_iff.mp hx).1
    omega
  refine scansFrom_cons (reportsLowest_single fun n => Iff.rfl) fun _ => ?_
  refine scansFrom_cons (reportsLowest_firstFailing (exists_entry_iff hs fun i x hx => ?_)) fun _ => ?_
  · rw [hx, Option.any_some, beq_iff_eq]
  obtain ⟨x0, hx0⟩ := hsrc 0 hpos
  refine scansFrom_cons (reportsLowest_single fun n => and_congr_right fun _ => ?_) fun _ => ?_
  · simp only [hx0, Option.some.injEq, exists_eq_left', Option.map_some, Option.getD_some]
  refine scansFrom_cons (reportsLowest_firstFailing (exists_entry_iff hs fun i x hx => ?_)) fun _ => ?_
  · simp [hx]
  refine scansFrom_cons (reportsLowest_firstFailing fun m => ?_) fun _ => ?_
  · constructor
    · rintro ⟨j, rfl, x, hx, y, hy, hle⟩
      have hj := (List.getElem?_eq_some_iff.mp hy).1
      exact ⟨j, by omega, rfl, by simpa [hx, hy] using hle⟩
    · rintro ⟨j, hj, rfl, hle⟩
      obtain ⟨x, hx⟩ := hsrc j (by omega)
      obtain ⟨y, hy⟩ := hsrc (j + 1) (by omega)
      exact ⟨j, rfl, x, hx, y, hy, by simpa [hx, hy] using hle⟩
  refine scansFrom_cons (reportsLowest_firstFailing (exists_entry_iff hs fun i x hx => ?_)) fun _ => ?_
  · simp [hx, Option.any_eq_true]
  refine scansFrom_cons (reportsLowest_firstFailing (exists_entry_iff (P := fun n (x : CalSource) => ∃ q, x.rect = some q ∧
    ∃ i : Fin 4, i.val = n ∧ ∃ r, sources[i].record = some r ∧
      ¬ (q.x0 < r.width ∧ q.x1 < r.width ∧ q.y0 < r.height ∧ q.y1 < r.height)) hs
    fun i x hx => ?_)) fun _ => ?_
  · simp only [hx, Option.bind_some, Option.any_eq_true, Bool.not_eq_true', ← Bool.not_eq_true,
      Rect.within_iff, recordOf_eq_some]
    refine exists_congr fun q => and_congr_right fun _ => ⟨?_, ?_⟩
    · rintro ⟨r, ⟨j, hj, hr⟩, hout⟩
      exact ⟨j, hj, r, hr, hout⟩
    · rintro ⟨j, hj, r, hr, hout⟩
      exact ⟨r, ⟨j, hj, hr⟩, hout⟩
  refine scansFrom_cons (reportsLowest_firstFailing (exists_entry_iff
    (P := fun n (p : CalPair) => ∃ x, c.sources[n + 1]? = some x ∧ p.down < x.floor) hp fun i p hx => ?_)) fun _ => ?_
  · obtain ⟨y, hy⟩ := hsrc (i + 1) (hlt hx)
    simp [hx, hy]
  refine scansFrom_cons (reportsLowest_firstFailing (exists_entry_iff hp fun i p hx => ?_)) fun _ => ?_
  · simp [hx]
  refine scansFrom_cons (reportsLowest_firstFailing (exists_entry_iff hp fun i p hx => ?_)) fun _ => ?_
  · simp [hx]
  refine scansFrom_cons (reportsLowest_firstFailing (exists_entry_iff hp fun i p hx => ?_)) fun _ => ?_
  · simp [hx]
  refine scansFrom_cons (reportsLowest_firstFailing (exists_entry_iff hp fun i p hx => ?_)) fun _ => ?_
  · simp [hx]
  refine scansFrom_cons (reportsLowest_firstFailing (exists_entry_iff hp fun i p hx => ?_)) fun _ => ?_
  · simp [hx]
  refine scansFrom_cons (reportsLowest_firstFailing (exists_entry_iff hp fun i p hx => ?_)) fun _ => ?_
  · simp [hx]
  exact scansFrom_nil (c.not_fails_past length sources)

/-! ### The set of a block and its checks -/

theorem blockSet_source {bs : List Byte} {i : Nat} (h : i < readLE bs 7 1) :
    (blockSet bs).sources[i]? = some (blockSource bs (readLE bs 7 1) i) := by
  simp only [blockSet, blockCount, List.getElem?_map, List.getElem?_range h, Option.map_some]

theorem blockSet_pair {bs : List Byte} {p : Nat} (h : p + 1 < readLE bs 7 1) :
    (blockSet bs).pairs[p]? = some (blockPair bs (readLE bs 7 1) p) := by
  have hp : p < readLE bs 7 1 - 1 := by omega
  simp only [blockSet, blockCount, List.getElem?_map, List.getElem?_range hp, Option.map_some]

theorem blockSet_sources_length (bs : List Byte) : (blockSet bs).sources.length = (blockSet bs).count := by
  simp [blockSet]

theorem blockSet_pairs_length (bs : List Byte) : (blockSet bs).pairs.length = (blockSet bs).count - 1 := by
  simp [blockSet]

theorem checkHeader_passed {bs : List Byte} {length : Nat} (hid : readLE bs 0 2 = 0x5A4C)
    (hver : readLE bs 6 1 = 1) (hlen : readLE bs 8 2 = length)
    (hcrc : crc32 ((bs.take length).drop 6) = BitVec.ofNat 32 (readLE bs 2 4)) :
    checkHeader bs length = none := by
  rw [checkHeader, if_neg (not_not_intro hid), if_neg (not_not_intro hver), if_neg (not_not_intro hlen)]
  exact if_neg (not_not_intro hcrc)

/-- Past an ERROR the header's checks come first. -/
theorem checkLoad_of_header {l : Load} {x : LoadFailure} (sources : Vector Source 4) (he : l.error = none)
    (h : checkHeader l.buffer l.length = some x) : checkLoad l sources = some x := by
  simp only [checkLoad, he, h, Option.some_or]

/-- Past the header's checks the range checks decide. -/
theorem checkLoad_of_passed {l : Load} (sources : Vector Source 4) (he : l.error = none)
    (h : checkHeader l.buffer l.length = none) :
    checkLoad l sources = ((rangeChecks (blockSet l.buffer) l.length sources).findSome? id).map fun f =>
      ⟨reasonRange, argWord f.1, f.2⟩ := by
  simp only [checkLoad, he, h, Option.none_or, checkRange]

/-- The range checks decide by their codes, from 1 on. -/
theorem checkLoad_range {l : Load} (sources : Vector Source 4) (he : l.error = none)
    (h : checkHeader l.buffer l.length = none) :
    let fails := (blockSet l.buffer).Fails l.length sources
    (checkLoad l sources = none ↔ ∀ code n, ¬ fails code n) ∧
    ∀ x, checkLoad l sources = some x → x.reason = 3 ∧
      ∃ code, x.detail = BitVec.ofNat 32 code ∧ fails code x.subject ∧
        (∀ d < code, ∀ n, ¬ fails d n) ∧ ∀ n < x.subject, ¬ fails code n := by
  intro fails
  obtain ⟨hnone, hsome⟩ := rangeChecks_scan l.length sources (blockSet_sources_length l.buffer)
    (blockSet_pairs_length l.buffer)
  have hfrom {P : Nat → Prop} (h0 : P 0) (h1 : ∀ d, 1 ≤ d → P d) (d : Nat) : P d := by
    cases d with
    | zero => exact h0
    | succ d => exact h1 _ (Nat.succ_pos d)
  have hzero : ∀ n, ¬ fails 0 n := fun n => not_false
  rw [checkLoad_of_passed sources he h]
  refine ⟨⟨fun hno => ?_, fun hno => ?_⟩, fun x hx => ?_⟩
  · exact hfrom (P := fun d => ∀ n, ¬ fails d n) hzero (hnone (Option.map_eq_none_iff.mp hno))
  · rw [Option.map_eq_none_iff]
    by_contra hne
    obtain ⟨y, hy⟩ := Option.ne_none_iff_exists'.mp hne
    obtain ⟨-, hf, -, -⟩ := hsome y hy
    exact hno _ _ hf
  · obtain ⟨y, hy, rfl⟩ := Option.map_eq_some_iff.mp hx
    obtain ⟨-, hf, hbefore, hlow⟩ := hsome y hy
    exact ⟨rfl, y.1, rfl, hf,
      fun d => hfrom (P := fun d => d < y.1 → ∀ n, ¬ fails d n) (fun _ => hzero) hbefore d, hlow⟩

/-- Settles O35: the fields of a block, the CRC byte by byte, and the checks in their order. -/
theorem blockChecks : Obligations.BlockChecks := by
  unfold Obligations.BlockChecks
  refine ⟨fun bs off => ⟨readLE_zero bs off, readLE_succ bs off⟩, fun bs => ⟨rfl, rfl,
    blockSet_sources_length bs, blockSet_pairs_length bs, fun i hi => blockSet_source hi,
    fun p hp => blockSet_pair hp⟩, ⟨rfl, fun bs b => crc32_append bs b⟩, fun l sources => ?_⟩
  intro bs c crc source pair rect fails
  refine ⟨fun o ho => by simp only [checkLoad, ho]; rfl, fun he => ⟨fun hid => ?_, fun hid => ⟨fun hver => ?_,
    fun hver => ⟨fun hlen => ?_, fun hlen => ⟨fun hcrc => ?_, fun hcrc => ?_⟩⟩⟩⟩⟩
  · exact checkLoad_of_header sources he (if_pos hid)
  · refine checkLoad_of_header sources he ?_
    rw [checkHeader, if_neg (not_not_intro hid), if_pos hver]
    rfl
  · refine checkLoad_of_header sources he ?_
    rw [checkHeader, if_neg (not_not_intro hid), if_neg (not_not_intro hver), if_pos hlen]
    rfl
  · refine checkLoad_of_header sources he ?_
    rw [checkHeader, if_neg (not_not_intro hid), if_neg (not_not_intro hver), if_neg (not_not_intro hlen)]
    exact if_pos hcrc
  · exact checkLoad_range sources he (checkHeader_passed hid hver hlen hcrc)

end Sys2Proof.Machine
end

section
/-! PROOFS. The rows that a view brings in: their entries, their requests, the demand pass (O38). -/

namespace Sys2Proof.Machine

/-! ### Rows -/

theorem rowKeys_eq (e : ViewEnv) (p : Plan) (y : Nat) :
    let of := fun (side : Side) (x : SidePlan) =>
      let a := axisPos x.v0 x.step y (e.heightOf x.source)
      (if a.next = a.cell then [a.cell] else [a.cell, a.next]).map fun row =>
        (⟨side, x.source, x.store, row⟩ : RowKey)
    rowKeys e p y =
      p.fromSide.toList.flatMap (of .fromSide) ++ p.toSide.toList.flatMap (of .toSide) := by
  intro of
  rw [rowKeys, Plan.sides, List.flatMap_append, List.flatMap_map, List.flatMap_map]
  rfl

theorem lookRows_eq (e : ViewEnv) (y : Nat) :
    lookRows e y = (List.range' y (e.conf.lookahead + 1)).filter (fun i => i < e.conf.height) := by
  rw [lookRows, List.range'_eq_map_range]

/-! ### The entry of a row -/

/-- The live entries of a row: FETCHING, VALID or FAILED. -/
theorem CacheEntry.liveKey_eq_some {c : CacheEntry} {k : RowKey} :
    c.liveKey = some k ↔ (∃ urgent data, c = .fetching k urgent data) ∨
      (∃ order pixels, c = .valid k order pixels) ∨ ∃ order, c = .failed k order := by
  cases c <;> simp [CacheEntry.liveKey]

theorem View.entryOf_live {v : View} {k : RowKey} {n : Fin 16} (h : v.entryOf k = some n) :
    v.cache[n].liveKey = some k := by
  have hp := List.find?_some h
  exact beq_iff_eq.mp hp

/-! ### The entry taken for a new row -/

theorem greatestSecond_max (xs : List (Fin 16 × Nat)) :
    (∀ y, greatestSecond xs = some y → y ∈ xs ∧ ∀ x ∈ xs, x.2 ≤ y.2) ∧
    (greatestSecond xs = none → xs = []) := by
  induction xs with
  | nil => exact ⟨fun y hy => absurd hy (by simp [greatestSecond]), fun _ => rfl⟩
  | cons x xs ih =>
    obtain ⟨ihsome, ihnone⟩ := ih
    unfold greatestSecond
    cases hrest : greatestSecond xs with
    | none =>
      have hnil := ihnone hrest
      subst hnil
      refine ⟨fun y hy => ?_, fun h => by simp at h⟩
      have hxy : x = y := by simpa using hy
      subst hxy
      simp
    | some z =>
      obtain ⟨hz, hmax⟩ := ihsome z hrest
      dsimp only
      by_cases htake : x.2 < z.2 ∨ z.2 = x.2 ∧ Config.olderOfEqual z.1.val x.1.val = true
      · rw [if_pos htake]
        refine ⟨fun y hy => ?_, fun h => by simp at h⟩
        have hzy : z = y := by simpa using hy
        subst hzy
        refine ⟨List.mem_cons_of_mem _ hz, fun a ha => ?_⟩
        rcases List.mem_cons.mp ha with rfl | ha
        · omega
        · exact hmax a ha
      · rw [if_neg htake]
        refine ⟨fun y hy => ?_, fun h => by simp at h⟩
        have hxy : x = y := by simpa using hy
        subst hxy
        refine ⟨List.mem_cons_self, fun a ha => ?_⟩
        rcases List.mem_cons.mp ha with rfl | ha
        · exact le_rfl
        · have := hmax a ha
          omega

/-- An entry whose row no held read and no row of the mark window needs, with its completion order. -/
def View.canEvict (e : ViewEnv) (v : View) (n : Fin 16) (order : Word) : Prop :=
  ∃ k, ((∃ pixels, v.cache[n] = .valid k order pixels) ∨ v.cache[n] = .failed k order) ∧
    (∀ h ∈ v.held, k ∉ h.needed) ∧ k ∉ markWindow e v

theorem CacheEntry.completed_eq_some {c : CacheEntry} {k : RowKey} {o : Word} :
    c.completed = some (k, o) ↔ (∃ pixels, c = .valid k o pixels) ∨ c = .failed k o := by
  cases c <;> simp [CacheEntry.completed]

theorem mem_evictable {e : ViewEnv} {v : View} {x : Fin 16 × Nat} :
    x ∈ evictable e v ↔ ∃ o, v.canEvict e x.1 o ∧ x.2 = (v.completionCount - o).toNat := by
  obtain ⟨n, d⟩ := x
  simp only [evictable, entryNumbers, List.mem_filterMap, List.mem_finRange, true_and]
  constructor
  · rintro ⟨m, hm⟩
    split at hm
    · rename_i k o hc
      obtain ⟨hkept, hx⟩ := Option.ite_none_left_eq_some.mp hm
      cases hx
      refine ⟨o, ⟨k, CacheEntry.completed_eq_some.mp hc, ?_⟩, rfl⟩
      simpa using hkept
    · cases hm
  · rintro ⟨o, ⟨k, hc, hheld, hmark⟩, rfl⟩
    refine ⟨n, ?_⟩
    rw [CacheEntry.completed_eq_some.mpr hc]
    refine Option.ite_none_left_eq_some.mpr ⟨?_, rfl⟩
    simpa using ⟨hheld, hmark⟩

theorem chooseEntry_empty {e : ViewEnv} {v : View} {n : Fin 16} (hn : v.cache[n] = .empty)
    (hlow : ∀ m < n, v.cache[m] ≠ .empty) : chooseEntry e v = some n := by
  have hfind : (entryNumbers.find? fun n => v.cache[n] == .empty) = some n := by
    rw [entryNumbers, List.find?_eq_some_iff_getElem]
    refine ⟨beq_iff_eq.mpr hn, n.val, by simp, by simp, fun j hj => ?_⟩
    have := hlow ⟨j, by omega⟩ (by simpa [Fin.lt_def] using hj)
    simpa using this
  simp only [chooseEntry, hfind]

/-- Some entry is EMPTY: the lowest one is taken. -/
theorem chooseEntry_isSome_of_empty {e : ViewEnv} {v : View} {n : Fin 16} (hn : v.cache[n] = .empty) :
    ∃ m, chooseEntry e v = some m := by
  unfold chooseEntry
  cases hfind : entryNumbers.find? fun n => v.cache[n] == .empty with
  | some m => exact ⟨m, rfl⟩
  | none =>
    have := List.find?_eq_none.mp hfind n (List.mem_finRange n)
    exact absurd (beq_iff_eq.mpr hn) this

theorem chooseEntry_full {e : ViewEnv} {v : View} (h : ∀ n : Fin 16, v.cache[n] ≠ .empty) :
    chooseEntry e v = (greatestSecond (evictable e v)).map Prod.fst := by
  have hfind : (entryNumbers.find? fun n => v.cache[n] == .empty) = none := by
    rw [List.find?_eq_none]
    intro n _ hn
    exact h n (beq_iff_eq.mp hn)
  simp only [chooseEntry, hfind]

theorem chooseEntry_oldest {e : ViewEnv} {v : View} (h : ∀ n : Fin 16, v.cache[n] ≠ .empty) :
    (∀ n, chooseEntry e v = some n → ∃ o, v.canEvict e n o ∧ ∀ m o', v.canEvict e m o' →
      (v.completionCount - o').toNat ≤ (v.completionCount - o).toNat) ∧
    (chooseEntry e v = none → ∀ n o, ¬ v.canEvict e n o) := by
  obtain ⟨hsome, hnone⟩ := greatestSecond_max (evictable e v)
  rw [chooseEntry_full h]
  refine ⟨fun n hn => ?_, fun hn m o hev => ?_⟩
  · obtain ⟨y, hy, rfl⟩ := Option.map_eq_some_iff.mp hn
    obtain ⟨hmem, hmax⟩ := hsome y hy
    obtain ⟨o, hev, hd⟩ := mem_evictable.mp hmem
    refine ⟨o, hev, fun m o' hev' => ?_⟩
    rw [← hd]
    exact hmax (m, (v.completionCount - o').toNat) (mem_evictable.mpr ⟨o', hev', rfl⟩)
  · have hnil := hnone (Option.map_eq_none_iff.mp hn)
    have hmem : (m, (v.completionCount - o).toNat) ∈ evictable e v := mem_evictable.mpr ⟨o, hev, rfl⟩
    rw [hnil] at hmem
    cases hmem

/-! ### Requests -/

/-- The fetch queue has room for one more request. -/
def View.hasFetchRoom (v : View) : Prop := v.fetchQ.urgent.length + v.fetchQ.normal.length < 8

/-- A view with an urgent request for a row in entry `n`, at the end of the urgent part. -/
def View.urged (v : View) (n : Fin 16) (k : RowKey) : View :=
  { v with
    cache := v.cache.set n.val (.fetching k true []) n.isLt
    fetchQ := { v.fetchQ with urgent := v.fetchQ.urgent ++ [n] } }

theorem View.full_iff (v : View) : v.fetchQ.full = true ↔ ¬ v.hasFetchRoom := by
  rw [FetchQueue.full, View.hasFetchRoom, Nat.not_lt]
  exact decide_eq_true_iff

theorem requestNormal_none {e : ViewEnv} {v : View} (k : RowKey)
    (h : ¬ v.hasFetchRoom ∨ chooseEntry e v = none) : requestNormal e v k = none := by
  unfold requestNormal
  by_cases hroom : v.fetchQ.full = true
  · rw [if_pos hroom]
  · rw [if_neg hroom, h.resolve_left fun hn => hroom (v.full_iff.mpr hn), Option.map_none]

theorem requestNormal_some {e : ViewEnv} {v : View} {n : Fin 16} (k : RowKey) (hroom : v.hasFetchRoom)
    (hn : chooseEntry e v = some n) :
    requestNormal e v k = some { v with
      cache := v.cache.set n.val (.fetching k false []) n.isLt
      fetchQ := { v.fetchQ with normal := v.fetchQ.normal ++ [n] } } := by
  rw [requestNormal, if_neg fun hf => v.full_iff.mp hf hroom, hn]
  rfl

theorem placeUrgent_none {e : ViewEnv} {v : View} (k : RowKey)
    (h : ¬ v.hasFetchRoom ∨ chooseEntry e v = none) : placeUrgent e v k = none := by
  unfold placeUrgent
  by_cases hroom : v.fetchQ.full = true
  · rw [if_pos hroom]
  · rw [if_neg hroom, h.resolve_left fun hn => hroom (v.full_iff.mpr hn), Option.map_none]

theorem placeUrgent_some {e : ViewEnv} {v : View} {n : Fin 16} (k : RowKey) (hroom : v.hasFetchRoom)
    (hn : chooseEntry e v = some n) : placeUrgent e v k = some (v.urged n k) := by
  rw [placeUrgent, if_neg fun hf => v.full_iff.mp hf hroom, hn]
  rfl

theorem requestUrgent_placed {e : ViewEnv} {v : View} {n : Fin 16} (k : RowKey) (hroom : v.hasFetchRoom)
    (hn : chooseEntry e v = some n) : requestUrgent e v k = some (v.urged n k) := by
  simp only [requestUrgent, placeUrgent_some k hroom hn]

theorem requestUrgent_fails {e : ViewEnv} {v : View} (k : RowKey)
    (h : ¬ v.hasFetchRoom ∨ chooseEntry e v = none) (hnormal : v.fetchQ.normal = []) :
    requestUrgent e v k = none := by
  simp only [requestUrgent, placeUrgent_none k h, displace, hnormal, List.getLast?_nil, Option.map_none,
    Option.bind_none]

/-- A displacement leaves an EMPTY entry and room, so the urgent request then succeeds. -/
theorem requestUrgent_displaces {e : ViewEnv} {v : View} {before : List (Fin 16)} {m : Fin 16} (k : RowKey)
    (h : ¬ v.hasFetchRoom ∨ chooseEntry e v = none) (hnormal : v.fetchQ.normal = before ++ [m])
    (hlen : v.fetchQ.length ≤ 8) :
    let w : View := { v with
      cache := v.cache.set m.val .empty m.isLt
      fetchQ := { v.fetchQ with normal := before } }
    ∃ n, chooseEntry e w = some n ∧ requestUrgent e v k = some (w.urged n k) := by
  intro w
  have hdisplace : displace v = some w := by
    rw [displace, hnormal, List.getLast?_concat, List.dropLast_concat]
    rfl
  have hroom : w.hasFetchRoom := by
    have hcount : v.fetchQ.urgent.length + (before ++ [m]).length ≤ 8 := hnormal ▸ hlen
    rw [List.length_append, List.length_singleton] at hcount
    exact hcount
  have hempty : w.cache[m] = .empty := by rw [vector_get_set, if_pos rfl]
  obtain ⟨n, hn⟩ := chooseEntry_isSome_of_empty (e := e) hempty
  refine ⟨n, hn, ?_⟩
  simp only [requestUrgent, placeUrgent_none k h, hdisplace, Option.bind_some, placeUrgent_some k hroom hn]

theorem prefetchKeys_present {e : ViewEnv} {v : View} {k : RowKey} (ks : List RowKey)
    (h : v.entryOf k ≠ none) : prefetchKeys e (k :: ks) v = prefetchKeys e ks v := by
  rw [prefetchKeys, if_pos (Option.isSome_iff_ne_none.mpr h)]

theorem prefetchKeys_absent {e : ViewEnv} {v : View} {k : RowKey} (ks : List RowKey)
    (h : v.entryOf k = none) :
    prefetchKeys e (k :: ks) v = (requestNormal e v k).elim v (prefetchKeys e ks) := by
  rw [prefetchKeys, h]
  cases requestNormal e v k <;> rfl

/-! ### The demand pass -/

theorem demandRows_cons (e : ViewEnv) (w : ViewWork) (k : RowKey) (ks : List RowKey) :
    ViewWork.demandRows e (k :: ks) w = (w.demandRow e k).elim w (ViewWork.demandRows e ks) := by
  rw [ViewWork.demandRows]
  cases w.demandRow e k <;> rfl

theorem demandRow_absent {e : ViewEnv} {w : ViewWork} {k : RowKey} (h : w.view.entryOf k = none) :
    w.demandRow e k = (requestUrgent e w.view k).map fun v => { w with view := v } := by
  simp only [ViewWork.demandRow, h]

/-- A live entry that is not a FETCHING one without urgency is left as it is. -/
theorem demandRow_kept {e : ViewEnv} {w : ViewWork} {k : RowKey} {n : Fin 16}
    (h : w.view.entryOf k = some n) (hc : ∀ data, w.view.cache[n] ≠ .fetching k false data) :
    w.demandRow e k = some w := by
  have hlive := View.entryOf_live h
  simp only [ViewWork.demandRow, h]
  split
  · rename_i key data hcache
    rw [hcache] at hlive
    have hkey : key = k := Option.some.inj hlive
    exact absurd (hkey ▸ hcache) (hc data)
  · rfl

theorem demandRow_promotes {e : ViewEnv} {w : ViewWork} {k : RowKey} {n : Fin 16} {data : List Byte}
    (h : w.view.entryOf k = some n) (hc : w.view.cache[n] = .fetching k false data) :
    w.demandRow e k = some (w.promote e n k data) := by
  simp only [ViewWork.demandRow, h, hc]

theorem promote_queued {e : ViewEnv} {w : ViewWork} {n : Fin 16} (k : RowKey) (data : List Byte)
    (h : n ∈ w.view.fetchQ.normal) :
    w.promote e n k data = { w with view := { w.view with
      cache := w.view.cache.set n.val (.fetching k true data) n.isLt
      fetchQ := ⟨w.view.fetchQ.urgent ++ [n], w.view.fetchQ.normal.erase n⟩ } } := by
  rw [ViewWork.promote, if_pos (by simpa using h)]
  rfl

theorem promote_issued {e : ViewEnv} {w : ViewWork} {n : Fin 16} (k : RowKey) (data : List Byte)
    (h : n ∉ w.view.fetchQ.normal) :
    w.promote e n k data = { w with
      view := { w.view with cache := w.view.cache.set n.val (.fetching k true data) n.isLt }
      inflight := w.inflight.map fun f =>
        if f.view = e.idx ∧ f.entry = n then { f with urgent := true } else f } := by
  rw [ViewWork.promote, if_neg (by simpa using h)]
  rfl

/-- What a clearing leaves, entry by entry. -/
theorem ViewWork.clear_eq (i : Fin 2) (w : ViewWork) : w.clear i = { w with
    inflight := (w.inflight.filter fun f => f.view ≠ i ∨ f.owed ≠ 0).map fun f =>
      if f.view = i then { f with todo := [], total := f.granted } else f
    view := { w.view with
      cache := Vector.ofFn fun n => clearedEntry i w.inflight n w.view.cache[n]
      fetchQ := ⟨[], []⟩
      markRow := 0 } } := by
  rw [ViewWork.clear, clearedInflight_eq]

/-- Settles O38: each rule of the row cache from the lemma that states it. -/
theorem rowsRequested : Obligations.RowsRequested := by
  unfold Obligations.RowsRequested
  intro live room urged
  refine ⟨fun e p y => ⟨fun i r hr => ?_, rowKeys_eq e p y⟩, fun e p v y ys =>
    ⟨lookRows_eq e y, rfl, rfl, rfl⟩, fun v k => ⟨fun n hn => ?_, fun hn n hl => ?_⟩,
    fun e v => ⟨fun n => chooseEntry_empty, chooseEntry_oldest⟩, fun e v k =>
    ⟨requestNormal_none k, fun n => requestNormal_some k, fun n => requestUrgent_placed k,
      fun h => ⟨requestUrgent_fails k h, fun before m => requestUrgent_displaces k h⟩⟩,
    fun e w v k ks y => ⟨rfl, rfl, prefetchKeys_present ks, fun hn => ⟨fun u hu => ?_, fun hu => ?_⟩⟩,
    fun e w p h hp => ?_, fun e w k ks => ⟨rfl, rfl, fun hn => ⟨fun u hu => ?_, fun hu => ?_⟩,
      fun n hn => ⟨fun hc => ?_, fun data hc => ⟨fun hmem => ?_, fun hmem => ?_⟩⟩⟩,
    fun i w => ⟨_, clearedTo_ofFn i w.inflight w.view.cache, w.clear_eq i⟩⟩
  · rw [ViewEnv.heightOf, hr]
    rfl
  · exact CacheEntry.liveKey_eq_some.mp (View.entryOf_live hn)
  · exact View.entryOf_none hn n (CacheEntry.liveKey_eq_some.mpr hl)
  · rw [prefetchKeys_absent ks hn, hu, Option.elim_some]
  · rw [prefetchKeys_absent ks hn, hu, Option.elim_none]
  · intro y answered
    simp only [ViewWork.answerHead, hp]
    rfl
  · rw [demandRows_cons, demandRow_absent hn, hu, Option.map_some, Option.elim_some]
  · rw [demandRows_cons, demandRow_absent hn, hu, Option.map_none, Option.elim_none]
  · rw [demandRows_cons, demandRow_kept hn hc, Option.elim_some]
  · rw [demandRows_cons, demandRow_promotes hn hc, Option.elim_some, promote_queued k data hmem]
  · rw [demandRows_cons, demandRow_promotes hn hc, Option.elim_some, promote_issued k data hmem]

end Sys2Proof.Machine
end

section
/-! PROOFS. A view answers its reads in order (O39). -/

namespace Sys2Proof.Machine

/-! ### Entries by state -/

theorem View.rowValid_iff {v : View} {k : RowKey} :
    v.rowValid k = true ↔ ∃ n order pixels, v.entryOf k = some n ∧ v.cache[n] = .valid k order pixels := by
  constructor
  · intro h
    cases hn : v.entryOf k with
    | none => simp only [View.rowValid, hn, Bool.false_eq_true] at h
    | some n =>
      have hlive := View.entryOf_live hn
      cases hc : v.cache[n] with
      | valid key o px =>
        rw [hc] at hlive
        have hkey : key = k := Option.some.inj hlive
        exact ⟨n, o, px, rfl, hkey ▸ hc⟩
      | empty | fetching | failed | discarding =>
        simp only [View.rowValid, hn, hc, Bool.false_eq_true] at h
  · rintro ⟨n, o, px, hn, hc⟩
    simp only [View.rowValid, hn, hc]

theorem View.rowFailed_iff {v : View} {k : RowKey} :
    v.rowFailed k = true ↔ ∃ n order, v.entryOf k = some n ∧ v.cache[n] = .failed k order := by
  constructor
  · intro h
    cases hn : v.entryOf k with
    | none => simp only [View.rowFailed, hn, Bool.false_eq_true] at h
    | some n =>
      have hlive := View.entryOf_live hn
      cases hc : v.cache[n] with
      | failed key o =>
        rw [hc] at hlive
        have hkey : key = k := Option.some.inj hlive
        exact ⟨n, o, rfl, hkey ▸ hc⟩
      | empty | fetching | valid | discarding =>
        simp only [View.rowFailed, hn, hc, Bool.false_eq_true] at h
  · rintro ⟨n, o, hn, hc⟩
    simp only [View.rowFailed, hn, hc]

theorem View.rowReady_iff {v : View} {k : RowKey} :
    v.rowReady k = true ↔ v.rowValid k = true ∨ v.rowFailed k = true := by
  rw [View.rowReady, Bool.or_eq_true]

/-- A row is not VALID and FAILED at once. -/
theorem View.rowFailed_of_valid {v : View} {k : RowKey} (h : v.rowValid k = true) : v.rowFailed k = false := by
  obtain ⟨n, o, px, hn, hc⟩ := View.rowValid_iff.mp h
  simp only [View.rowFailed, hn, hc]

/-! ### What leaves the held reads and the answers alone -/

/-- A part of a view's step that neither answers nor takes a read. -/
def ViewWork.SameReads (w u : ViewWork) : Prop := u.view.held = w.view.held ∧ u.answers = w.answers

theorem ViewWork.SameReads.trans {w u x : ViewWork} (h : w.SameReads u) (k : u.SameReads x) :
    w.SameReads x := ⟨k.1.trans h.1, k.2.trans h.2⟩

theorem ViewWork.prefetch_sameReads (e : ViewEnv) (y : Nat) (w : ViewWork) : w.SameReads (w.prefetch e y) :=
  ⟨(w.prefetch_sameOutside e y).held, rfl⟩

theorem ViewWork.latencyTest_sameReads (e : ViewEnv) (p : Plan) (h : HeldRead) (y : Nat) (w : ViewWork) :
    w.SameReads (w.latencyTest e p h y) := by
  unfold ViewWork.latencyTest
  split
  · exact ⟨rfl, rfl⟩
  · dsimp only
    split
    · split <;> exact ⟨rfl, rfl⟩
    · exact ⟨rfl, rfl⟩

theorem ViewWork.fetchError_sameReads (e : ViewEnv) (h : HeldRead) (w : ViewWork) :
    w.SameReads (w.fetchError e h) := by
  unfold ViewWork.fetchError
  split
  · exact ⟨rfl, rfl⟩
  · dsimp only
    split <;> exact ⟨rfl, rfl⟩

theorem ViewWork.demandRow_answers {e : ViewEnv} {w u : ViewWork} {k : RowKey}
    (h : w.demandRow e k = some u) : u.answers = w.answers := by
  unfold ViewWork.demandRow at h
  split at h
  · obtain ⟨v, -, rfl⟩ := Option.map_eq_some_iff.mp h
    rfl
  · split at h
    · cases h
      unfold ViewWork.promote
      dsimp only
      split <;> rfl
    · cases h
      rfl

theorem ViewWork.demandRows_answers (e : ViewEnv) (ks : List RowKey) (w : ViewWork) :
    (w.demandRows e ks).answers = w.answers := by
  induction ks generalizing w with
  | nil => rfl
  | cons k ks ih =>
    rw [demandRows_cons]
    cases h : w.demandRow e k with
    | none => rfl
    | some u =>
      rw [Option.elim_some, ih u, ViewWork.demandRow_answers h]

theorem ViewWork.demandPass_sameReads (e : ViewEnv) (w : ViewWork) : w.SameReads (w.demandPass e) :=
  ⟨(w.demandPass_sameOutside e).held, w.demandRows_answers e _⟩

/-! ### One answer -/

/-- A read is answered: it leaves the head of the queue, and one answer to it is given. -/
def ViewWork.Answers (w u : ViewWork) (h : HeldRead) : Prop :=
  u.view.held = w.view.held.tail ∧ ∃ data, u.answers = w.answers ++ [okayAnswer h.req data]

theorem ViewWork.Answers.then {w u x : ViewWork} {h : HeldRead} (hu : w.Answers u h) (hx : u.SameReads x) :
    w.Answers x h := by
  obtain ⟨hheld, data, hans⟩ := hu
  exact ⟨hx.1.trans hheld, data, hx.2.trans hans⟩

theorem ViewWork.SameReads.answers {w u x : ViewWork} {h : HeldRead} (hu : w.SameReads u)
    (hx : u.Answers x h) : w.Answers x h := by
  obtain ⟨hheld, data, hans⟩ := hx
  exact ⟨hheld.trans (congrArg List.tail hu.1), data, hans.trans (congrArg (· ++ _) hu.2)⟩

theorem ViewWork.respond_answers (w : ViewWork) (h : HeldRead) (data : List Byte) :
    w.Answers (w.respond (okayAnswer h.req data)) h := ⟨rfl, data, rfl⟩

/-- A composed read is answered; then the mark row moves, a prefetch is made and the latency is tested. -/
theorem ViewWork.serve_answers (e : ViewEnv) (p : Plan) (h : HeldRead) (w : ViewWork) :
    w.Answers (w.serve e p h) h := by
  have hrespond : w.Answers ({ w.respond (okayAnswer h.req
      (e.conf.answerData h.req fun x y ch => composedPixel e w.view p x y ch)) with
      view := { (w.respond (okayAnswer h.req
        (e.conf.answerData h.req fun x y ch => composedPixel e w.view p x y ch))).view with
        markRow := highestRow h.rows } } : ViewWork) h := ⟨rfl, _, rfl⟩
  exact hrespond.then ((ViewWork.prefetch_sameReads e _ _).trans (ViewWork.latencyTest_sameReads e p h _ _))

theorem ViewWork.answerHead_answers (e : ViewEnv) (h : HeldRead) (kind : AnswerKind) (w : ViewWork) :
    w.Answers (w.answerHead e h kind) h := by
  unfold ViewWork.answerHead
  dsimp only
  split
  · exact (w.serve_answers e _ h).then (ViewWork.demandPass_sameReads e _)
  · exact ((w.fetchError_sameReads e h).answers (ViewWork.respond_answers _ h _)).then
      (ViewWork.demandPass_sameReads e _)
  · exact (w.respond_answers h _).then (ViewWork.demandPass_sameReads e _)

/-! ### All answers -/

theorem ViewWork.answerReads_waits {e : ViewEnv} {w : ViewWork} {h : HeldRead} {hs : List HeldRead} (n : Nat)
    (hw : w.view.held = h :: hs) (ha : w.view.answerable h = none) : w.answerReads e n = w := by
  cases n with
  | zero => rfl
  | succ n => simp only [ViewWork.answerReads, hw, ha]

theorem ViewWork.answerReads_empty {e : ViewEnv} {w : ViewWork} (n : Nat) (hw : w.view.held = []) :
    w.answerReads e n = w := by
  cases n with
  | zero => rfl
  | succ n => simp only [ViewWork.answerReads, hw]

theorem ViewWork.answerReads_answers {e : ViewEnv} {w : ViewWork} {h : HeldRead} {hs : List HeldRead}
    {kind : AnswerKind} (n : Nat) (hw : w.view.held = h :: hs) (ha : w.view.answerable h = some kind) :
    w.answerReads e (n + 1) = (w.answerHead e h kind).answerReads e n := by
  simp only [ViewWork.answerReads, hw, ha]

/-- The head is answered, and the queue goes on from there. -/
theorem ViewWork.answerAll_step {e : ViewEnv} {w : ViewWork} {h : HeldRead} {hs : List HeldRead}
    {kind : AnswerKind} (hw : w.view.held = h :: hs) (ha : w.view.answerable h = some kind) :
    w.answerAll e = (w.answerHead e h kind).answerAll e := by
  obtain ⟨hheld, -⟩ := w.answerHead_answers e h kind
  rw [ViewWork.answerAll, ViewWork.answerAll, hheld, hw, List.length_cons,
    ViewWork.answerReads_answers _ hw ha, List.tail_cons]

/-- The reads answered are the first ones held, in their order. -/
theorem ViewWork.answerReads_prefix (e : ViewEnv) (n : Nat) (w : ViewWork) :
    ∃ m ≤ n, (w.answerReads e n).view.held = w.view.held.drop m ∧
      (w.answerReads e n).answers.map (fun a => (a.tag, a.num)) =
        w.answers.map (fun a => (a.tag, a.num)) ++ (w.view.held.take m).map fun h => (h.req.tag, h.req.num) := by
  induction n generalizing w with
  | zero => exact ⟨0, le_rfl, rfl, by simp [ViewWork.answerReads]⟩
  | succ n ih =>
    have hstays : w.answerReads e (n + 1) = w → ∃ m ≤ n + 1,
        (w.answerReads e (n + 1)).view.held = w.view.held.drop m ∧
        (w.answerReads e (n + 1)).answers.map (fun a => (a.tag, a.num)) =
          w.answers.map (fun a => (a.tag, a.num)) ++
            (w.view.held.take m).map fun h => (h.req.tag, h.req.num) :=
      fun h => ⟨0, Nat.zero_le _, by rw [h, List.drop_zero], by rw [h]; simp⟩
    cases hw : w.view.held with
    | nil => rw [← hw]; exact hstays (ViewWork.answerReads_empty _ hw)
    | cons h hs =>
      cases ha : w.view.answerable h with
      | none => rw [← hw]; exact hstays (ViewWork.answerReads_waits _ hw ha)
      | some kind =>
        obtain ⟨m, hm, hheld, hans⟩ := ih (w.answerHead e h kind)
        obtain ⟨htail, data, hdata⟩ := w.answerHead_answers e h kind
        rw [ViewWork.answerReads_answers n hw ha]
        rw [htail, hw, List.tail_cons] at hheld hans
        refine ⟨m + 1, Nat.succ_le_succ hm, hheld, ?_⟩
        rw [hans, hdata]
        simp [okayAnswer]

/-- With as many steps as reads held, the queue stops only empty or at a head that must wait. -/
theorem ViewWork.answerReads_stops (e : ViewEnv) (n : Nat) (w : ViewWork) (hn : w.view.held.length ≤ n)
    {h : HeldRead} {hs : List HeldRead} (hw : (w.answerReads e n).view.held = h :: hs) :
    (w.answerReads e n).view.answerable h = none := by
  induction n generalizing w with
  | zero =>
    have hnil : w.view.held = [] := List.length_eq_zero_iff.mp (Nat.le_zero.mp hn)
    rw [ViewWork.answerReads, hnil] at hw
    cases hw
  | succ n ih =>
    cases hq : w.view.held with
    | nil =>
      rw [ViewWork.answerReads_empty _ hq, hq] at hw
      cases hw
    | cons g gs =>
      cases ha : w.view.answerable g with
      | none =>
        rw [ViewWork.answerReads_waits _ hq ha] at hw ⊢
        rw [hq] at hw
        cases hw
        exact ha
      | some kind =>
        rw [ViewWork.answerReads_answers n hq ha] at hw ⊢
        refine ih _ ?_ hw
        rw [(w.answerHead_answers e g kind).1, hq, List.tail_cons]
        rw [hq, List.length_cons] at hn
        omega

/-! ### How a read can be answered -/

theorem Plan.isFill_iff {p : Plan} : p.isFill = true ↔ p.fromSide = none ∧ p.toSide = none := by
  rw [Plan.isFill, Bool.and_eq_true, Option.isNone_iff_eq_none, Option.isNone_iff_eq_none]

section
variable {v : View} {h : HeldRead} {p : Plan}

theorem View.answerable_zeros (hr : h.rows = []) : v.answerable h = some .zeros := by
  rw [View.answerable, hr]
  rfl

theorem View.answerable_noPlan (hr : h.rows ≠ []) (hp : v.plan = none) : v.answerable h = some .fill := by
  simp only [View.answerable, List.isEmpty_iff, hr, if_false, hp]

theorem View.answerable_fill (hr : h.rows ≠ []) (hp : v.plan = some p)
    (hf : p.isFill = true ∨ h.expired = true) : v.answerable h = some .fill := by
  simp only [View.answerable, List.isEmpty_iff, hr, if_false, hp]
  by_cases hfill : p.isFill = true
  · rw [if_pos hfill]
  · rw [if_neg hfill, if_pos (hf.resolve_left hfill)]

theorem View.answerable_planned (hr : h.rows ≠ []) (hp : v.plan = some p) (hf : ¬ p.isFill = true)
    (he : h.expired = false) :
    v.answerable h = if h.needed.all v.rowReady then
      (if h.needed.any v.rowFailed then some .failed else some .composed) else none := by
  simp only [View.answerable, List.isEmpty_iff, hr, if_false, hp, hf, he, Bool.false_eq_true]

end

/-- A head that must wait: it has rows, under a plan that is not a fill frame, has not expired, and a row
that it needs is neither VALID nor FAILED. -/
def View.ReadWaits (v : View) (h : HeldRead) : Prop :=
  h.rows ≠ [] ∧ h.expired = false ∧ (∃ p, v.plan = some p ∧ ¬ (p.fromSide = none ∧ p.toSide = none)) ∧
    ∃ k ∈ h.needed, ¬ (v.rowValid k = true ∨ v.rowFailed k = true)

theorem all_rowReady_iff {v : View} {h : HeldRead} : h.needed.all v.rowReady = true ↔
    ∀ k ∈ h.needed, v.rowValid k = true ∨ v.rowFailed k = true := by
  simp only [List.all_eq_true, View.rowReady_iff]

theorem View.answerable_eq_none_iff {v : View} {h : HeldRead} : v.answerable h = none ↔ v.ReadWaits h := by
  unfold View.ReadWaits
  by_cases hr : h.rows = []
  · rw [View.answerable_zeros hr]
    simp [hr]
  cases hp : v.plan with
  | none =>
    rw [View.answerable_noPlan hr hp]
    simp
  | some p =>
    by_cases hf : p.isFill = true ∨ h.expired = true
    · rw [View.answerable_fill hr hp hf]
      refine ⟨fun hn => absurd hn (by simp), ?_⟩
      rintro ⟨-, he, ⟨q, hq, hnot⟩, -⟩
      cases hq
      rcases hf with hf | hf
      · exact absurd (Plan.isFill_iff.mp hf) hnot
      · rw [hf] at he
        cases he
    · obtain ⟨hfill, hexp⟩ := not_or.mp hf
      have hexp' : h.expired = false := Bool.not_eq_true _ ▸ hexp
      rw [View.answerable_planned hr hp hfill hexp']
      by_cases hall : h.needed.all v.rowReady = true
      · rw [if_pos hall]
        refine ⟨fun hn => absurd hn (by split <;> simp), ?_⟩
        rintro ⟨-, -, -, k, hk, hno⟩
        exact absurd (all_rowReady_iff.mp hall k hk) hno
      · rw [if_neg hall]
        refine ⟨fun _ => ⟨hr, hexp', ⟨p, rfl, fun hn => hfill (Plan.isFill_iff.mpr hn)⟩, ?_⟩, fun _ => rfl⟩
        by_contra hno
        push Not at hno
        exact hall (all_rowReady_iff.mpr hno)

/-! ### What each kind of answer leaves -/

theorem ViewWork.answerHead_plain (e : ViewEnv) (h : HeldRead) (w : ViewWork) {kind : AnswerKind}
    (hk : kind = .zeros ∨ kind = .fill) :
    w.answerHead e h kind = (w.respond (e.conf.fillAnswer h.req)).demandPass e := by
  rcases hk with rfl | rfl <;> rfl

theorem ViewWork.answerHead_failed (e : ViewEnv) (h : HeldRead) (w : ViewWork) :
    w.answerHead e h .failed = ((w.fetchError e h).respond (e.conf.fillAnswer h.req)).demandPass e := rfl

theorem ViewWork.answerHead_composed (e : ViewEnv) (h : HeldRead) {w : ViewWork} {p : Plan}
    (hp : w.view.plan = some p) : w.answerHead e h .composed = (w.serve e p h).demandPass e := by
  simp only [ViewWork.answerHead, hp]

theorem eraseDups_ne_nil {α : Type} [BEq α] (x : α) (xs : List α) : (x :: xs).eraseDups ≠ [] := by
  rw [List.eraseDups_cons]
  exact List.cons_ne_nil _ _

/-- A read that touches no row is answered with zeros. -/
theorem ViewRecord.fillAnswer_untouched {r : ViewRecord} {q : ReadReq} (h : r.touched q = []) :
    r.fillAnswer q = okayAnswer q (List.replicate (16 * q.beats) 0) := by
  have hnone : (readOffsets q r.base).filter r.activeByte = [] := by
    cases hl : (readOffsets q r.base).filter r.activeByte with
    | nil => rfl
    | cons o os =>
      rw [ViewRecord.touched, hl, List.map_cons] at h
      exact absurd h (eraseDups_ne_nil _ _)
  rw [ViewRecord.fillAnswer, ViewRecord.answerData]
  congr 1
  rw [List.eq_replicate_iff]
  refine ⟨by simp [readOffsets], fun b hb => ?_⟩
  obtain ⟨o, ho, rfl⟩ := List.mem_map.mp hb
  exact if_neg (List.filter_eq_nil_iff.mp hnone o ho)

/-- Settles O39: the queue is answered from its head, each head by its case. -/
theorem answersInOrder : Obligations.AnswersInOrder := by
  unfold Obligations.AnswersInOrder
  refine ⟨fun v k => ⟨View.rowValid_iff, View.rowFailed_iff⟩, fun e w => ?_⟩
  intro there fillFrame waits
  refine ⟨w.answerReads_prefix e _, fun h hs hw => View.answerable_eq_none_iff.mp
    (w.answerReads_stops e _ le_rfl hw), fun hw => ViewWork.answerReads_empty _ hw, fun h hs hw => ?_⟩
  intro replied next fill
  have hreply (u : ViewWork) (data : List Byte) (hu : u.view.held = h :: hs) :
      replied u data = u.respond (okayAnswer h.req data) := by
    simp only [replied, ViewWork.respond, hu]
    rfl
  have hstep {kind : AnswerKind} (ha : w.view.answerable h = some kind) {u : ViewWork}
      (hu : w.answerHead e h kind = u.demandPass e) : next u := by
    change w.answerAll e = (u.demandPass e).answerAll e
    rw [ViewWork.answerAll_step hw ha, hu]
  refine ⟨fun hr ht => ?_, fun hr => ⟨fun hp => ?_, fun p hp => ⟨fun hf => ?_, fun hf he hall =>
    ⟨fun hany => ?_, fun hvalid => ?_⟩⟩⟩, fun hwait => ?_⟩
  · refine hstep (View.answerable_zeros hr) ?_
    rw [hreply w _ hw, w.answerHead_plain e h (.inl rfl), ViewRecord.fillAnswer_untouched ht]
  · refine hstep (View.answerable_noPlan hr hp) ?_
    rw [hreply w _ hw, w.answerHead_plain e h (.inr rfl)]
    rfl
  · refine hstep (View.answerable_fill hr hp (hf.imp_left Plan.isFill_iff.mpr)) ?_
    rw [hreply w _ hw, w.answerHead_plain e h (.inr rfl)]
    rfl
  · have ha := View.answerable_planned hr hp (fun hn => hf (Plan.isFill_iff.mp hn)) he
    rw [if_pos (all_rowReady_iff.mpr hall), if_pos (List.any_eq_true.mpr hany)] at ha
    refine hstep ha ?_
    rw [hreply _ _ ((w.fetchError_sameReads e h).1.trans hw), w.answerHead_failed e h]
    rfl
  · have ha := View.answerable_planned hr hp (fun hn => hf (Plan.isFill_iff.mp hn)) he
    have hnofail : ¬ h.needed.any w.view.rowFailed = true := by
      rw [List.any_eq_true]
      rintro ⟨k, hk, hfail⟩
      rw [View.rowFailed_of_valid (hvalid k hk)] at hfail
      cases hfail
    rw [if_pos (all_rowReady_iff.mpr hall), if_neg hnofail] at ha
    intro y u u'
    refine hstep ha ?_
    rw [ViewWork.answerHead_composed e h hp]
    simp only [u', u, hreply w _ hw]
    rfl
  · exact ViewWork.answerReads_waits _ hw (View.answerable_eq_none_iff.mpr hwait)

end Sys2Proof.Machine
end

section
/-! PROOFS. Underruns, latency warnings and fetch errors (O40). -/

namespace Sys2Proof.Machine

/-! ### Underruns -/

theorem View.openFrameOf_own {v : View} {h : HeldRead} {f : FrameRecord} (hs : v.state = .opened f)
    (hf : h.frame = some f.number) : v.openFrameOf h = some f := by
  simp only [View.openFrameOf, hs, hf, if_true]

theorem View.openFrameOf_other {v : View} {h : HeldRead}
    (hf : ∀ f, v.state = .opened f → h.frame ≠ some f.number) : v.openFrameOf h = none := by
  cases hs : v.state with
  | opened f => simp only [View.openFrameOf, hs, if_neg (hf f hs)]
  | idle | disabled => simp only [View.openFrameOf, hs]

/-- The event of the first underrun of a read that touches rows. -/
def ViewWork.underrunEvents (e : ViewEnv) (h : HeldRead) (y : Nat) (w : ViewWork) : List Event :=
  if w.view.underrunRaised then [] else
    [⟨.underrun, 3, e.idx.val, h.frame.getD w.view.framesOpened, BitVec.ofNat 32 y⟩]

theorem ViewWork.raiseUnderrun_eq {e : ViewEnv} {h : HeldRead} {y : Nat} {ys : List Nat} (w : ViewWork)
    (hr : h.rows = y :: ys) :
    w.raiseUnderrun e h = { w with
      view := { w.view with underrunRaised := true }
      events := w.events ++ w.underrunEvents e h y } := by
  unfold ViewWork.raiseUnderrun ViewWork.underrunEvents
  cases hraised : w.view.underrunRaised with
  | true =>
    have hsame : ({ w.view with underrunRaised := true } : View) = w.view := by rw [← hraised]
    rw [if_pos rfl, if_pos rfl, hsame, List.append_nil]
  | false =>
    simp only [Bool.false_eq_true, if_false, hr]
    rfl

theorem ViewWork.countInFrame_limit {e : ViewEnv} {f : FrameRecord} {w : ViewWork}
    (hl : f.underruns + 1 = e.conf.underrunLimit) (hd : w.view.degrade = .full) :
    w.countInFrame e f = { w with
      view := { w.view with
        state := .opened { f with underruns := f.underruns + 1 }, degrade := .single, cleanRun := 0 }
      events := w.events ++
        [⟨.degradeEnter, 2, e.idx.val, f.number, BitVec.ofNat 32 e.conf.underrunLimit⟩] } :=
  if_pos ⟨hl, hd⟩

theorem ViewWork.countInFrame_below {e : ViewEnv} {f : FrameRecord} {w : ViewWork}
    (h : f.underruns + 1 ≠ e.conf.underrunLimit ∨ w.view.degrade = .single) :
    w.countInFrame e f = { w with
      view := { w.view with state := .opened { f with underruns := f.underruns + 1 } } } := by
  refine if_neg ?_
  rintro ⟨hl, hd⟩
  rcases h with h | h
  · exact h hl
  · rw [show w.view.degrade = .full from hd] at h
    cases h

/-! ### The lead -/

theorem leadFrom_spec (e : ViewEnv) (v : View) (p : Plan) (n y : Nat) :
    let ready := fun row : Nat => e.conf.height ≤ row ∨ ∀ k ∈ rowKeys e p row, v.rowValid k = true
    let lead := leadFrom e v p n y
    lead ≤ n ∧ (∀ i < lead, ready (y + 1 + i)) ∧ (lead < n → ¬ ready (y + 1 + lead)) := by
  induction n generalizing y with
  | zero => exact ⟨le_rfl, fun i hi => absurd hi (Nat.not_lt_zero i), fun h => absurd h (lt_irrefl 0)⟩
  | succ n ih =>
    intro ready lead
    obtain ⟨hle, hready, hstop⟩ := ih (y + 1)
    have hnext : (e.conf.height ≤ y + 1 ∨ (rowKeys e p (y + 1)).all v.rowValid = true) ↔ ready (y + 1) := by
      rw [List.all_eq_true]
    by_cases hr : ready (y + 1)
    · have hlead : lead = leadFrom e v p n (y + 1) + 1 := if_pos (hnext.mpr hr)
      rw [hlead]
      refine ⟨Nat.succ_le_succ hle, fun i hi => ?_, fun hlt => ?_⟩
      · cases i with
        | zero => exact hr
        | succ i =>
          have := hready i (Nat.lt_of_succ_lt_succ hi)
          rwa [show y + 1 + (i + 1) = y + 1 + 1 + i by omega]
      · have := hstop (Nat.lt_of_succ_lt_succ hlt)
        rwa [show y + 1 + (leadFrom e v p n (y + 1) + 1) = y + 1 + 1 + leadFrom e v p n (y + 1) by omega]
    · have hlead : lead = 0 := if_neg fun h => hr (hnext.mp h)
      rw [hlead]
      exact ⟨Nat.zero_le _, fun i hi => absurd hi (Nat.not_lt_zero i), fun _ => hr⟩

/-! ### Latency warnings -/

theorem ViewWork.latencyTest_other {e : ViewEnv} {w : ViewWork} {h : HeldRead} (p : Plan) (y : Nat)
    (hf : ∀ f, w.view.state = .opened f → h.frame ≠ some f.number) : w.latencyTest e p h y = w := by
  simp only [ViewWork.latencyTest, View.openFrameOf_other hf]

theorem ViewWork.latencyTest_own {e : ViewEnv} {w : ViewWork} {h : HeldRead} {f : FrameRecord} (p : Plan)
    (y : Nat) (hs : w.view.state = .opened f) (hf : h.frame = some f.number) :
    let lead := leadFrom e w.view p e.conf.lookahead y
    w.latencyTest e p h y =
      if e.conf.lookahead ≤ y ∧ lead < e.conf.warnLead then
        { w with
          view := { w.view with state := .opened { f with warned := true }, warnRaised := true }
          events := w.events ++ (if w.view.warnRaised ∨ w.view.saturated then [] else
            [⟨.latencyWarn, 2, e.idx.val, f.number, BitVec.ofNat 32 lead⟩]) }
      else w := by
  intro lead
  simp only [ViewWork.latencyTest, View.openFrameOf_own hs hf]
  refine if_congr Iff.rfl ?_ rfl
  by_cases hq : w.view.warnRaised = true ∨ w.view.saturated = true
  · rw [if_pos hq, if_pos hq, List.append_nil]
  · rw [if_neg hq, if_neg hq]
    rfl

/-! ### Fetch errors -/

/-- The view's step at the first fill for FAILED row `k`. -/
def ViewWork.raisedFor (e : ViewEnv) (k : RowKey) (d : Nat) (w : ViewWork) : ViewWork :=
  { w with
    view := { w.view with fetchErrorRaised := true }
    draws := d
    events := w.events ++ [⟨.fetchError, 3, e.idx.val,
      BitVec.ofNat 32 (k.source.val + 256 * k.store), BitVec.ofNat 32 k.row⟩] }

theorem ViewWork.fetchError_raised {e : ViewEnv} {w : ViewWork} (h : HeldRead)
    (hr : w.view.fetchErrorRaised = true) : w.fetchError e h = w := if_pos hr

/-- The first fill for a FAILED row names one of the FAILED rows that the read needs. -/
theorem ViewWork.fetchError_first {e : ViewEnv} {w : ViewWork} {h : HeldRead}
    (hr : w.view.fetchErrorRaised = false) (hf : ∃ k ∈ h.needed, w.view.rowFailed k = true) :
    ∃ k ∈ h.needed, w.view.rowFailed k = true ∧ ∃ d, w.fetchError e h = w.raisedFor e k d := by
  have hmem {k : RowKey} : k ∈ h.needed.filter w.view.rowFailed ↔ k ∈ h.needed ∧ w.view.rowFailed k = true :=
    List.mem_filter
  unfold ViewWork.fetchError
  rw [if_neg (by rw [hr]; exact Bool.false_ne_true)]
  dsimp only
  obtain ⟨k0, hk0, hfail0⟩ := hf
  have hk0 := hmem.mpr ⟨hk0, hfail0⟩
  cases hl : h.needed.filter w.view.rowFailed with
  | nil =>
    rw [hl] at hk0
    cases hk0
  | cons k ks =>
    rw [hl] at hmem
    cases ks with
    | nil =>
      obtain ⟨hneed, hfail⟩ := hmem.mp List.mem_cons_self
      exact ⟨k, hneed, hfail, w.draws, rfl⟩
    | cons k' ks =>
      have hlt : Config.failedRowChoice w.draws % ((k' :: ks).length + 1) < (k :: k' :: ks).length :=
        Nat.mod_lt _ (Nat.succ_pos _)
      obtain ⟨hneed, hfail⟩ := hmem.mp (List.getElem_mem hlt)
      refine ⟨_, hneed, hfail, w.draws + 1, ?_⟩
      simp only [List.getElem?_eq_getElem hlt, Option.getD_some]
      rfl

/-- Settles O40: each count with its event, from the frame that a read belongs to. -/
theorem underrunsAndWarnings : Obligations.UnderrunsAndWarnings := by
  unfold Obligations.UnderrunsAndWarnings
  refine ⟨fun e w h y ys hr => ?_, fun e v p y => leadFrom_spec e v p _ y, fun e w p h y => ?_,
    fun e w h => ⟨ViewWork.fetchError_raised h, ViewWork.fetchError_first⟩⟩
  · intro u first counted
    have hu : u = ((w.countOwn e h).countTotal).raiseUnderrun e h := rfl
    refine ⟨fun f hs hf => ⟨fun hl hd => ?_, fun hbelow => ?_⟩, fun hother => ?_⟩
    · rw [hu, ViewWork.raiseUnderrun_eq _ hr]
      simp only [ViewWork.countOwn, View.openFrameOf_own hs hf, ViewWork.countInFrame_limit hl hd]
      rfl
    · rw [hu, ViewWork.raiseUnderrun_eq _ hr]
      simp only [ViewWork.countOwn, View.openFrameOf_own hs hf, ViewWork.countInFrame_below hbelow]
      rfl
    · rw [hu, ViewWork.raiseUnderrun_eq _ hr]
      simp only [ViewWork.countOwn, View.openFrameOf_other hother]
      rfl
  · refine ⟨fun hf => ViewWork.latencyTest_other p y hf, fun f hs hf => ⟨fun hno => ?_, fun hl hlead => ?_⟩⟩
    · rw [ViewWork.latencyTest_own p y hs hf, if_neg]
      rintro ⟨hl, hlead⟩
      omega
    · rw [ViewWork.latencyTest_own p y hs hf, if_pos ⟨hl, hlead⟩]

end Sys2Proof.Machine
end

section
/-! PROOFS. The completion of a fetch (O26). -/

namespace Sys2Proof.Machine

/-! ### The last response of a fetch -/

theorem ViewWork.fetchResponse_of_last {e : ViewEnv} {n : Fin 16} {f : Fetch} {w : ViewWork} (sp : Span)
    (m : MemResp) (hf : w.inflight.find? (fun g => g.isOf e.idx n) = some f) (ht : f.todo = [])
    (ho : f.owed = 1) :
    w.fetchResponse e n sp m = ViewWork.completeFetch e n (f.error || m.code == .error)
      { w with view := w.view.setEntry n (placeInEntry f.segBase sp m w.view.cache[n]) } := by
  have hdone : (f.responded m).done = true := by
    simp [Fetch.done, Fetch.responded, ht, ho]
  simp only [ViewWork.fetchResponse, hf, hdone, if_true]
  rfl

theorem View.completeEntry_fetching {v : View} {n : Fin 16} {key : RowKey} {urgent : Bool}
    {data : List Byte} (error : Bool) (h : v.cache[n] = .fetching key urgent data) :
    v.completeEntry n error = { v with
      completionCount := v.completionCount + 1
      cache := v.cache.set n.val (if error then .failed key (v.completionCount + 1)
        else .valid key (v.completionCount + 1) data) n.isLt } := by
  simp only [View.completeEntry, h]
  rfl

theorem View.completeEntry_discarding {v : View} {n : Fin 16} (error : Bool) (h : v.cache[n] = .discarding) :
    v.completeEntry n error = { v with cache := v.cache.set n.val .empty n.isLt } := by
  simp only [View.completeEntry, h]
  rfl

/-- The view with the entry of a fetch completed, its last response placed. -/
theorem View.completed_fetching {v : View} {n : Fin 16} {key : RowKey} {urgent : Bool} {data : List Byte}
    (f : Fetch) (sp : Span) (m : MemResp) (h : v.cache[n] = .fetching key urgent data) :
    (v.setEntry n (placeInEntry f.segBase sp m v.cache[n])).completeEntry n (f.error || m.code == .error) =
      { v with
        completionCount := v.completionCount + 1
        cache := v.cache.set n.val
          (if f.error = true ∨ m.code = .error then .failed key (v.completionCount + 1)
          else .valid key (v.completionCount + 1) (placeBytes f.segBase data sp.addr m.data)) n.isLt } := by
  rw [h, placeInEntry_fetching]
  have hget (d : List Byte) : (v.setEntry n (.fetching key urgent d)).cache[n] = .fetching key urgent d := by
    rw [View.setEntry, vector_get_set, if_pos rfl]
  have hset (x y : CacheEntry) : (v.cache.set n.val x n.isLt).set n.val y n.isLt = v.cache.set n.val y n.isLt :=
    Vector.set_set ..
  rw [View.completeEntry_fetching _ (hget _)]
  simp only [View.setEntry, hset]
  by_cases herr : f.error = true ∨ m.code = .error
  · have hb : (f.error || m.code == .error) = true := by
      simpa only [Bool.or_eq_true, beq_iff_eq] using herr
    rw [if_pos hb, if_pos herr]
  · have hb : ¬ (f.error || m.code == .error) = true := by
      simpa only [Bool.or_eq_true, beq_iff_eq] using herr
    have hok : m.code = .okay := by
      cases hcode : m.code with
      | okay => rfl
      | error => exact absurd (Or.inr hcode) herr
    rw [if_neg hb, if_neg herr, if_pos hok]

theorem View.completed_discarding {v : View} {n : Fin 16} (f : Fetch) (sp : Span) (m : MemResp)
    (h : v.cache[n] = .discarding) :
    (v.setEntry n (placeInEntry f.segBase sp m v.cache[n])).completeEntry n (f.error || m.code == .error) =
      { v with cache := v.cache.set n.val .empty n.isLt } := by
  rw [h]
  have hget : (v.setEntry n .discarding).cache[n] = .discarding := by
    rw [View.setEntry, vector_get_set, if_pos rfl]
  have hset (x y : CacheEntry) : (v.cache.set n.val x n.isLt).set n.val y n.isLt = v.cache.set n.val y n.isLt :=
    Vector.set_set ..
  rw [placeInEntry, View.completeEntry_discarding _ hget]
  simp only [View.setEntry, hset]

/-! ### The state behind a view's step -/

theorem State.stepView_view (s : State) (i : Fin 2) (w : ViewWork) :
    (((s.putWork i w).raiseAll w.events).settleAges).views[i] = w.view := by
  have h : ((s.putWork i w).raiseAll w.events).settleAges.views = s.views.set i.val w.view i.isLt :=
    State.raiseAll_views ..
  rw [h, vector_get_set, if_pos rfl]

theorem State.stepView_responses (s : State) (i : Fin 2) (w : ViewWork) :
    (((s.putWork i w).raiseAll w.events).settleAges).up.responses = s.up.responses ++ w.answers :=
  congrArg (fun u => u.responses) (State.raiseAll_up (s.putWork i w) w.events)

theorem State.stepView_outstanding (s : State) (i : Fin 2) (w : ViewWork) :
    (((s.putWork i w).raiseAll w.events).settleAges).outstanding = s.outstanding :=
  State.raiseAll_outstanding ..

/-! ### The pass over rows that are there -/

/-- A demand pass leaves rows that are VALID or FAILED as they are. -/
theorem demandRows_of_ready (e : ViewEnv) (w : ViewWork) (ks : List RowKey)
    (h : ∀ k ∈ ks, w.view.rowReady k = true) : w.demandRows e ks = w := by
  induction ks with
  | nil => rfl
  | cons k ks ih =>
    obtain ⟨n, hn, hc⟩ : ∃ n, w.view.entryOf k = some n ∧ ∀ data, w.view.cache[n] ≠ .fetching k false data := by
      rcases View.rowReady_iff.mp (h k List.mem_cons_self) with hv | hf
      · obtain ⟨n, o, px, hn, hc⟩ := View.rowValid_iff.mp hv
        exact ⟨n, hn, fun data hd => by rw [hc] at hd; cases hd⟩
      · obtain ⟨n, o, hn, hc⟩ := View.rowFailed_iff.mp hf
        exact ⟨n, hn, fun data hd => by rw [hc] at hd; cases hd⟩
    rw [demandRows_cons, demandRow_kept hn hc, Option.elim_some,
      ih fun k hk => h k (List.mem_cons_of_mem _ hk)]

/-- Nothing becomes VALID or FAILED between two views. -/
def View.NoNewReady (v u : View) : Prop :=
  ∀ (n : Fin 16) (x : RowKey × Word), u.cache[n].completed = some x → v.cache[n].completed = some x

theorem View.NoNewReady.trans {v u x : View} (h : v.NoNewReady u) (k : u.NoNewReady x) : v.NoNewReady x :=
  fun n y hy => h n y (k n y hy)

theorem View.NoNewReady.of_set {v u : View} {m : Fin 16} {c : CacheEntry}
    (hcache : u.cache = v.cache.set m.val c m.isLt) (hc : c.completed = none) : v.NoNewReady u := by
  intro n x hx
  rw [hcache, vector_get_set] at hx
  split at hx
  · rw [hc] at hx
    cases hx
  · exact hx

theorem placeUrgent_noNewReady {e : ViewEnv} {v u : View} {k : RowKey} (h : placeUrgent e v k = some u) :
    v.NoNewReady u := by
  unfold placeUrgent at h
  split at h
  · cases h
  · obtain ⟨n, -, rfl⟩ := Option.map_eq_some_iff.mp h
    exact .of_set rfl rfl

theorem requestUrgent_noNewReady {e : ViewEnv} {v u : View} {k : RowKey} (h : requestUrgent e v k = some u) :
    v.NoNewReady u := by
  unfold requestUrgent at h
  split at h
  · rename_i w hw
    cases h
    exact placeUrgent_noNewReady hw
  · obtain ⟨x, hx, hp⟩ := Option.bind_eq_some_iff.mp h
    obtain ⟨n, -, rfl⟩ := Option.map_eq_some_iff.mp hx
    have hdisplaced : v.NoNewReady { v.setEntry n .empty with
        fetchQ := { v.fetchQ with normal := v.fetchQ.normal.dropLast } } := .of_set rfl rfl
    exact hdisplaced.trans (placeUrgent_noNewReady hp)

theorem demandRow_noNewReady {e : ViewEnv} {w u : ViewWork} {k : RowKey} (h : w.demandRow e k = some u) :
    w.view.NoNewReady u.view := by
  unfold ViewWork.demandRow at h
  split at h
  · obtain ⟨v, hv, rfl⟩ := Option.map_eq_some_iff.mp h
    exact requestUrgent_noNewReady hv
  · split at h
    · cases h
      unfold ViewWork.promote
      dsimp only
      split
      · exact .of_set rfl rfl
      · exact .of_set rfl rfl
    · cases h
      exact fun _ _ hx => hx

theorem demandRows_noNewReady (e : ViewEnv) (ks : List RowKey) (w : ViewWork) :
    w.view.NoNewReady (w.demandRows e ks).view := by
  induction ks generalizing w with
  | nil => exact fun _ _ hx => hx
  | cons k ks ih =>
    rw [demandRows_cons]
    cases h : w.demandRow e k with
    | none => exact fun _ _ hx => hx
    | some u => exact (demandRow_noNewReady h).trans (ih u)

/-- A needed row that is there has an entry that is. -/
theorem View.exists_completed_of_ready {v : View} {k : RowKey} (h : v.rowReady k = true) :
    ∃ (n : Fin 16) (o : Word), v.cache[n].completed = some (k, o) := by
  rcases View.rowReady_iff.mp h with hv | hf
  · obtain ⟨n, o, px, -, hc⟩ := View.rowValid_iff.mp hv
    exact ⟨n, o, CacheEntry.completed_eq_some.mpr (.inl ⟨px, hc⟩)⟩
  · obtain ⟨n, o, -, hc⟩ := View.rowFailed_iff.mp hf
    exact ⟨n, o, CacheEntry.completed_eq_some.mpr (.inr hc)⟩

theorem CacheEntry.liveKey_of_completed {c : CacheEntry} {k : RowKey} {o : Word}
    (h : c.completed = some (k, o)) : c.liveKey = some k := by
  rcases CacheEntry.completed_eq_some.mp h with ⟨px, rfl⟩ | rfl <;> rfl

/-- With rows distinct, an entry that is there makes its row ready. -/
theorem View.rowReady_of_completed {v : View} {k : RowKey} {n : Fin 16} {o : Word} (hv : v.CacheOk)
    (h : v.cache[n].completed = some (k, o)) : v.rowReady k = true := by
  have hlive := CacheEntry.liveKey_of_completed h
  have hentry : v.entryOf k = some n := by
    cases hm : v.entryOf k with
    | none => exact absurd hlive (View.entryOf_none hm n)
    | some m => rw [hv.1 m n k (View.entryOf_live hm) hlive]
  rw [View.rowReady_iff]
  rcases CacheEntry.completed_eq_some.mp h with ⟨px, hc⟩ | hc
  · exact .inl (View.rowValid_iff.mpr ⟨n, o, px, hentry, hc⟩)
  · exact .inr (View.rowFailed_iff.mpr ⟨n, o, hentry, hc⟩)

/-- A demand pass makes no row ready. -/
theorem demandPass_not_ready {e : ViewEnv} {w : ViewWork} {k : RowKey} (hw : w.view.CacheOk)
    (h : w.view.rowReady k = false) : (w.demandPass e).view.rowReady k = false := by
  by_contra hk
  obtain ⟨n, o, hc⟩ := View.exists_completed_of_ready (Bool.not_eq_false _ ▸ hk)
  have hold := demandRows_noNewReady e _ w n (k, o) hc
  rw [View.rowReady_of_completed hw hold] at h
  cases h

/-! ### What answers leave of the plan, the mark row and the total -/

/-- A part of a view's step that leaves its plan, mark row and total underruns. -/
def ViewWork.SameMarks (w u : ViewWork) : Prop :=
  u.view.plan = w.view.plan ∧ u.view.markRow = w.view.markRow ∧
    u.view.totalUnderruns = w.view.totalUnderruns

theorem ViewWork.SameMarks.trans {w u x : ViewWork} (h : w.SameMarks u) (k : u.SameMarks x) :
    w.SameMarks x := ⟨k.1.trans h.1, k.2.1.trans h.2.1, k.2.2.trans h.2.2⟩

theorem View.sameOutside.sameMarks {w u : ViewWork} (h : w.view.sameOutside u.view) : w.SameMarks u := by
  have hu : u.view = { w.view with cache := u.view.cache, fetchQ := u.view.fetchQ } := h
  unfold ViewWork.SameMarks
  rw [hu]
  exact ⟨rfl, rfl, rfl⟩

theorem ViewWork.latencyTest_sameMarks (e : ViewEnv) (p : Plan) (h : HeldRead) (y : Nat) (w : ViewWork) :
    w.SameMarks (w.latencyTest e p h y) := by
  unfold ViewWork.latencyTest
  split
  · exact ⟨rfl, rfl, rfl⟩
  · dsimp only
    split
    · split <;> exact ⟨rfl, rfl, rfl⟩
    · exact ⟨rfl, rfl, rfl⟩

/-- A composed answer moves the mark row, and leaves the plan and the total. -/
theorem ViewWork.serve_marks (e : ViewEnv) (p : Plan) (h : HeldRead) (w : ViewWork) :
    (w.serve e p h).view.plan = w.view.plan ∧ (w.serve e p h).view.markRow = highestRow h.rows ∧
      (w.serve e p h).view.totalUnderruns = w.view.totalUnderruns :=
  (View.sameOutside.sameMarks (ViewWork.prefetch_sameOutside e _ _)).trans
    (ViewWork.latencyTest_sameMarks e p h _ _)

/-- A fill for a FAILED row that a read needs leaves FETCH_ERROR raised, and the rest of the view. -/
theorem ViewWork.fetchError_view {e : ViewEnv} {w : ViewWork} {h : HeldRead}
    (hf : ∃ k ∈ h.needed, w.view.rowFailed k = true) :
    (w.fetchError e h).view = { w.view with fetchErrorRaised := true } := by
  cases hr : w.view.fetchErrorRaised with
  | true =>
    have hsame : ({ w.view with fetchErrorRaised := true } : View) = w.view := by rw [← hr]
    rw [ViewWork.fetchError_raised h hr, hsame]
  | false =>
    obtain ⟨k, -, -, d, hd⟩ := ViewWork.fetchError_first (e := e) hr hf
    rw [hd]
    rfl

theorem ViewWork.serve_answer (e : ViewEnv) (p : Plan) (h : HeldRead) (w : ViewWork) :
    (w.serve e p h).answers = w.answers ++ [okayAnswer h.req
      (e.conf.answerData h.req fun x y ch => composedPixel e w.view p x y ch)] :=
  (ViewWork.latencyTest_sameReads e p h _ _).2.trans (ViewWork.prefetch_sameReads e _ _).2

/-- The work of a view whose one read can be answered: that answer, and no more. -/
theorem ViewWork.answerAll_single {e : ViewEnv} {w : ViewWork} {h : HeldRead} {kind : AnswerKind}
    (hw : w.view.held = [h]) (ha : w.view.answerable h = some kind) :
    w.answerAll e = w.answerHead e h kind := by
  rw [ViewWork.answerAll_step hw ha]
  refine ViewWork.answerReads_empty _ ?_
  rw [(w.answerHead_answers e h kind).1, hw, List.tail_cons]

/-! ### The completion of a fetch -/

/-- A view's work at the completion of the fetch into entry `n`, its view being `done`: the demand pass, then
the answers. -/
def State.completionWork (s : State) (v : Fin 2) (n : Fin 16) (r : ViewRecord) (done : View) : ViewWork :=
  ((⟨done, s.inflight.filter fun g => !g.isOf v n, [], [], s.draws⟩ : ViewWork).demandPass
    (s.envOf v r)).answerAll (s.envOf v r)

/-- A state after a view's step, the arbiter's counts settled. -/
def State.stepped (s : State) (v : Fin 2) (w : ViewWork) : State :=
  ((s.putWork v w).raiseAll w.events).settleAges

theorem exec_fetchCompletion {s : State} {e : Fin 64} {m : MemResp} {v : Fin 2} {n : Fin 16} {sp : Span}
    {r : ViewRecord} {f : Fetch} {done : View} (hq : s.quiet)
    (ho : s.outstanding[e] = some ⟨.fetch v n sp, false⟩) (hlen : m.data.length = 16 * sp.beats)
    (hr : s.views[v].record = some r) (hf : s.inflight.find? (fun g => g.isOf v n) = some f)
    (ht : f.todo = []) (howed : f.owed = 1)
    (hdone : (s.views[v].setEntry n (placeInEntry f.segBase sp m s.views[v].cache[n])).completeEntry n
      (f.error || m.code == .error) = done) :
    exec (.fetchCompletion e m) s =
      .next ((s.freeOutstanding e).stepped v (s.completionWork v n r done)) := by
  rw [exec_responseRow_quiet hq (by simp [responseRows]) ho hlen, s.arrive_of_kept e m rfl]
  simp only [State.hand]
  have hlast := ViewWork.fetchResponse_of_last (e := (s.freeOutstanding e).envOf v r)
    (w := (s.freeOutstanding e).workOf v) sp m hf ht howed
  rw [State.onView_of_record _ (show (s.freeOutstanding e).views[v].record = some r from hr), hlast]
  simp only [ViewWork.completeFetch, State.workOf, State.completionWork, ← hdone]
  rfl

/-- The work of a view that holds nothing: its completed view. -/
theorem State.completionWork_idle (s : State) (v : Fin 2) (n : Fin 16) (r : ViewRecord) {done : View}
    (h : done.held = []) :
    s.completionWork v n r done = ⟨done, s.inflight.filter fun g => !g.isOf v n, [], [], s.draws⟩ := by
  have hpass : (⟨done, s.inflight.filter fun g => !g.isOf v n, [], [], s.draws⟩ : ViewWork).demandPass
      (s.envOf v r) = ⟨done, s.inflight.filter fun g => !g.isOf v n, [], [], s.draws⟩ := by
    simp only [ViewWork.demandPass, h, List.filter_nil, List.flatMap_nil]
    rfl
  rw [State.completionWork, hpass]
  exact ViewWork.answerReads_empty _ h

/-- The demand pass of a view whose one read needs rows that are all there leaves it. -/
theorem State.completionWork_ready (s : State) (v : Fin 2) (n : Fin 16) (r : ViewRecord) {done : View}
    {h : HeldRead} (hh : done.held = [h]) (he : h.expired = false)
    (hk : ∀ k ∈ h.needed, done.rowReady k = true) :
    s.completionWork v n r done =
      ViewWork.answerAll (s.envOf v r) ⟨done, s.inflight.filter fun g => !g.isOf v n, [], [], s.draws⟩ := by
  have hpass : (⟨done, s.inflight.filter fun g => !g.isOf v n, [], [], s.draws⟩ : ViewWork).demandPass
      (s.envOf v r) = ⟨done, s.inflight.filter fun g => !g.isOf v n, [], [], s.draws⟩ := by
    refine demandRows_of_ready _ _ _ fun k hmem => ?_
    simp only [hh, List.filter_cons, he, Bool.not_false, if_true, List.filter_nil, List.flatMap_cons,
      List.flatMap_nil, List.append_nil] at hmem
    exact hk k hmem
  rw [State.completionWork, hpass]

section
variable {s : State} {v : Fin 2} {r : ViewRecord} {done : View} {h : HeldRead} {p : Plan}

/-- The one read held is composed. -/
theorem State.completionWork_composed (n : Fin 16) (hh : done.held = [h]) (hp : done.plan = some p)
    (hfill : p.isFill = false) (hrows : h.rows ≠ []) (he : h.expired = false)
    (hk : ∀ k ∈ h.needed, done.rowValid k = true) :
    let w := s.completionWork v n r done
    w.view.held = [] ∧ w.view.markRow = highestRow h.rows ∧ w.view.plan = some p ∧
      w.view.totalUnderruns = done.totalUnderruns ∧
      w.answers = [okayAnswer h.req (r.answerData h.req fun x y ch =>
        composedPixel (s.envOf v r) done p x y ch)] := by
  have hready : ∀ k ∈ h.needed, done.rowReady k = true := fun k hmem => View.rowReady_iff.mpr (.inl (hk k hmem))
  have ha := View.answerable_planned hrows hp (by rw [hfill]; exact Bool.false_ne_true) he
  have hnofail : ¬ h.needed.any done.rowFailed = true := by
    rw [List.any_eq_true]
    rintro ⟨k, hmem, hf⟩
    rw [View.rowFailed_of_valid (hk k hmem)] at hf
    cases hf
  rw [if_pos (List.all_eq_true.mpr hready), if_neg hnofail] at ha
  rw [State.completionWork_ready s v n r hh he hready, ViewWork.answerAll_single hh ha,
    ViewWork.answerHead_composed _ h hp]
  obtain ⟨hplan, hmark, htotal⟩ := ViewWork.serve_marks (s.envOf v r) p h
    ⟨done, s.inflight.filter fun g => !g.isOf v n, [], [], s.draws⟩
  obtain ⟨hheld, -⟩ := ViewWork.serve_answers (s.envOf v r) p h
    ⟨done, s.inflight.filter fun g => !g.isOf v n, [], [], s.draws⟩
  have hans := ViewWork.serve_answer (s.envOf v r) p h
    ⟨done, s.inflight.filter fun g => !g.isOf v n, [], [], s.draws⟩
  obtain ⟨hplan', hmark', htotal'⟩ := View.sameOutside.sameMarks (ViewWork.demandPass_sameOutside (s.envOf v r)
    (ViewWork.serve (s.envOf v r) p h ⟨done, s.inflight.filter fun g => !g.isOf v n, [], [], s.draws⟩))
  obtain ⟨hheld', hans'⟩ := ViewWork.demandPass_sameReads (s.envOf v r)
    (ViewWork.serve (s.envOf v r) p h ⟨done, s.inflight.filter fun g => !g.isOf v n, [], [], s.draws⟩)
  refine ⟨hheld'.trans (hheld.trans ?_), hmark'.trans hmark, hplan'.trans (hplan.trans hp),
    htotal'.trans htotal, hans'.trans hans⟩
  rw [hh, List.tail_cons]

/-- The one read held is filled for a FAILED row. -/
theorem State.completionWork_failed (n : Fin 16) (hh : done.held = [h]) (hp : done.plan = some p)
    (hfill : p.isFill = false) (hrows : h.rows ≠ []) (he : h.expired = false)
    (hready : ∀ k ∈ h.needed, done.rowReady k = true) (hf : ∃ k ∈ h.needed, done.rowFailed k = true) :
    let w := s.completionWork v n r done
    w.view.held = [] ∧ w.view.markRow = done.markRow ∧ w.view.plan = some p ∧
      w.view.totalUnderruns = done.totalUnderruns ∧ w.view.fetchErrorRaised = true ∧
      w.answers = [r.fillAnswer h.req] := by
  have ha := View.answerable_planned hrows hp (by rw [hfill]; exact Bool.false_ne_true) he
  rw [if_pos (List.all_eq_true.mpr hready), if_pos (List.any_eq_true.mpr hf)] at ha
  rw [State.completionWork_ready s v n r hh he hready, ViewWork.answerAll_single hh ha,
    ViewWork.answerHead_failed]
  have hview := ViewWork.fetchError_view (e := s.envOf v r)
    (w := ⟨done, s.inflight.filter fun g => !g.isOf v n, [], [], s.draws⟩) hf
  have hans := (ViewWork.fetchError_sameReads (s.envOf v r) h
    ⟨done, s.inflight.filter fun g => !g.isOf v n, [], [], s.draws⟩).2
  have houtside := ViewWork.demandPass_sameOutside (s.envOf v r) (ViewWork.respond (ViewWork.fetchError
    (s.envOf v r) h ⟨done, s.inflight.filter fun g => !g.isOf v n, [], [], s.draws⟩) (r.fillAnswer h.req))
  have hans' := (ViewWork.demandPass_sameReads (s.envOf v r) (ViewWork.respond (ViewWork.fetchError
    (s.envOf v r) h ⟨done, s.inflight.filter fun g => !g.isOf v n, [], [], s.draws⟩)
    (r.fillAnswer h.req))).2
  have hrespond : (ViewWork.respond (ViewWork.fetchError (s.envOf v r) h
      ⟨done, s.inflight.filter fun g => !g.isOf v n, [], [], s.draws⟩) (r.fillAnswer h.req)).view =
      { done with fetchErrorRaised := true, held := done.held.tail } := by
    simp only [ViewWork.respond, hview]
  intro w
  have hw : w.view = { ({ done with fetchErrorRaised := true, held := done.held.tail } : View) with
      cache := w.view.cache, fetchQ := w.view.fetchQ } := by
    exact Eq.trans houtside (by rw [hrespond]; rfl)
  rw [hw]
  refine ⟨?_, rfl, hp, rfl, rfl, ?_⟩
  · rw [hh, List.tail_cons]
  · refine hans'.trans ?_
    rw [ViewWork.respond, hans]
    rfl

/-- The one read held waits for a row that is not there. -/
theorem State.completionWork_waits (n : Fin 16) (hh : done.held = [h]) (hp : done.plan = some p)
    (hfill : p.isFill = false) (hrows : h.rows ≠ []) (he : h.expired = false) (hcache : done.CacheOk)
    (hk : ∃ k ∈ h.needed, done.rowReady k = false) :
    let w := s.completionWork v n r done
    w.view.held = [h] ∧ w.view.markRow = done.markRow ∧ w.view.plan = some p ∧ w.answers = [] := by
  have houtside := ViewWork.demandPass_sameOutside (s.envOf v r)
    ⟨done, s.inflight.filter fun g => !g.isOf v n, [], [], s.draws⟩
  obtain ⟨hplan, hmark, -⟩ := houtside.sameMarks
  obtain ⟨hheld, hans⟩ := ViewWork.demandPass_sameReads (s.envOf v r)
    ⟨done, s.inflight.filter fun g => !g.isOf v n, [], [], s.draws⟩
  obtain ⟨k, hmem, hno⟩ := hk
  have hnot := demandPass_not_ready (e := s.envOf v r)
    (w := ⟨done, s.inflight.filter fun g => !g.isOf v n, [], [], s.draws⟩) hcache hno
  have hwaits : (ViewWork.demandPass (s.envOf v r)
      ⟨done, s.inflight.filter fun g => !g.isOf v n, [], [], s.draws⟩).view.ReadWaits h := by
    refine ⟨hrows, he, ⟨p, hplan.trans hp, fun hn => ?_⟩, k, hmem, fun hr => ?_⟩
    · rw [Plan.isFill_iff.mpr hn] at hfill
      cases hfill
    · rw [View.rowReady_iff.mpr hr] at hnot
      cases hnot
  have hstay : s.completionWork v n r done = ViewWork.demandPass (s.envOf v r)
      ⟨done, s.inflight.filter fun g => !g.isOf v n, [], [], s.draws⟩ :=
    ViewWork.answerReads_waits _ (hheld.trans hh) (View.answerable_eq_none_iff.mpr hwaits)
  rw [hstay]
  exact ⟨hheld.trans hh, hmark, hplan.trans hp, hans⟩

end

/-- Settles O26: the entry completed, then the demand pass and the answers of the view that it leaves. -/
theorem fetchCompletes : Obligations.FetchCompletes := by
  unfold Obligations.FetchCompletes
  intro s e m v n sp r f hq ho hlen hr hf ht howed after
  have hstep {done : View} (hdone : (s.views[v].setEntry n (placeInEntry f.segBase sp m
      s.views[v].cache[n])).completeEntry n (f.error || m.code == .error) = done) :=
    exec_fetchCompletion hq ho hlen hr hf ht howed hdone
  have hidle {done : View} (hdone : (s.views[v].setEntry n (placeInEntry f.segBase sp m
      s.views[v].cache[n])).completeEntry n (f.error || m.code == .error) = done) (hh : done.held = []) :
      exec (.fetchCompletion e m) s = .next (State.settleAges
        { s with
          outstanding := s.outstanding.set e.val none e.isLt
          inflight := s.inflight.filter fun g => !g.isOf v n
          views := s.views.set v.val done v.isLt }) := by
    rw [hstep hdone, s.completionWork_idle v n r hh]
    simp only [State.stepped, State.putWork, State.raiseAll, List.foldl_nil, List.append_nil]
    rfl
  constructor
  · intro key urgent data hcache done
    refine ⟨?_, fun hh => ?_, fun h p hh hp hfill hrows he =>
      ⟨fun hk => ?_, fun hk hfail => ?_, fun hok hk => ?_⟩⟩
    · exact hstep (View.completed_fetching f sp m hcache)
    · exact hidle (View.completed_fetching f sp m hcache) hh
    · obtain ⟨hheld, hmark, hplan, htotal, hans⟩ := State.completionWork_composed (s := s) (v := v) (r := r)
        (done := done) n hh hp hfill hrows he hk
      refine ⟨_, hstep (View.completed_fetching f sp m hcache), ?_⟩
      have hview := State.stepView_view (s.freeOutstanding e) v (s.completionWork v n r done)
      have hresp := State.stepView_responses (s.freeOutstanding e) v (s.completionWork v n r done)
      rw [hans] at hresp
      exact ⟨(congrArg View.held hview).trans hheld, (congrArg View.markRow hview).trans hmark,
        (congrArg View.plan hview).trans hplan, (congrArg View.totalUnderruns hview).trans htotal, hresp,
        State.stepView_outstanding _ _ _⟩
    · obtain ⟨hheld, hmark, hplan, htotal, hraised, hans⟩ := State.completionWork_failed (s := s) (v := v) (r := r)
        (done := done) n hh hp hfill hrows he hk hfail
      refine ⟨_, hstep (View.completed_fetching f sp m hcache), ?_⟩
      have hview := State.stepView_view (s.freeOutstanding e) v (s.completionWork v n r done)
      have hresp := State.stepView_responses (s.freeOutstanding e) v (s.completionWork v n r done)
      rw [hans] at hresp
      exact ⟨(congrArg View.held hview).trans hheld, (congrArg View.markRow hview).trans hmark,
        (congrArg View.plan hview).trans hplan, (congrArg View.totalUnderruns hview).trans htotal,
        (congrArg View.fetchErrorRaised hview).trans hraised, hresp, State.stepView_outstanding _ _ _⟩
    · have hdone : done.CacheOk := by
        refine View.cacheOk_setEntry_sameKey hok rfl hok.2 ?_
        rw [hcache]
        split <;> rfl
      obtain ⟨hheld, hmark, hplan, hans⟩ := State.completionWork_waits (s := s) (v := v) (r := r)
        (done := done) n hh hp hfill hrows he hdone hk
      refine ⟨_, hstep (View.completed_fetching f sp m hcache), ?_⟩
      have hview := State.stepView_view (s.freeOutstanding e) v (s.completionWork v n r done)
      have hresp := State.stepView_responses (s.freeOutstanding e) v (s.completionWork v n r done)
      rw [hans, List.append_nil] at hresp
      exact ⟨(congrArg View.held hview).trans hheld, (congrArg View.markRow hview).trans hmark,
        (congrArg View.plan hview).trans hplan, hresp, State.stepView_outstanding _ _ _⟩
  · intro hcache done
    refine ⟨?_, fun hh => ?_⟩
    · exact hstep (View.completed_discarding f sp m hcache)
    · exact hidle (View.completed_discarding f sp m hcache) hh

end Sys2Proof.Machine
end

section
/-! PROOFS. The three timers (O18): the watchdog, the idle timer and the hold limit. -/

namespace Sys2Proof.Machine

/-! ### What answers leave of a view -/

/-- Between two states of a view, the open frame at most gains its warned mark. -/
def ViewState.StaysOpen (s t : ViewState) : Prop :=
  t = s ∨ ∃ f : FrameRecord, s = .opened f ∧ t = .opened { f with warned := true }

theorem ViewState.StaysOpen.trans {s t u : ViewState} (h : s.StaysOpen t) (k : t.StaysOpen u) :
    s.StaysOpen u := by
  rcases h with rfl | ⟨f, rfl, rfl⟩
  · exact k
  · rcases k with rfl | ⟨g, hg, rfl⟩
    · exact .inr ⟨f, rfl, rfl⟩
    · cases hg
      exact .inr ⟨f, rfl, rfl⟩

/-- A part of a view's step that only answers reads and moves rows: the frame at most gains its warned mark,
and of the rest only the queue, the cache, the mark row and two raised flags move. -/
structure ViewWork.Answering (w u : ViewWork) : Prop where
  view : u.view = { w.view with
    state := u.view.state
    held := u.view.held
    cache := u.view.cache
    fetchQ := u.view.fetchQ
    markRow := u.view.markRow
    fetchErrorRaised := u.view.fetchErrorRaised
    warnRaised := u.view.warnRaised }
  state : w.view.state.StaysOpen u.view.state

theorem ViewWork.Answering.refl (w : ViewWork) : w.Answering w := ⟨rfl, .inl rfl⟩

theorem ViewWork.Answering.trans {w u x : ViewWork} (h : w.Answering u) (k : u.Answering x) :
    w.Answering x := ⟨k.view.trans (by rw [h.view]), h.state.trans k.state⟩

theorem View.sameOutside.answering {w u : ViewWork} (h : w.view.sameOutside u.view) : w.Answering u :=
  ⟨Eq.trans h (by rw [h]), .inl h.state⟩

section
variable {w u : ViewWork} (h : w.Answering u)
include h

theorem ViewWork.Answering.plan : u.view.plan = w.view.plan := by rw [h.view]
theorem ViewWork.Answering.totalUnderruns : u.view.totalUnderruns = w.view.totalUnderruns := by rw [h.view]
theorem ViewWork.Answering.underrunRaised : u.view.underrunRaised = w.view.underrunRaised := by rw [h.view]
theorem ViewWork.Answering.framesOpened : u.view.framesOpened = w.view.framesOpened := by rw [h.view]
theorem ViewWork.Answering.degrade : u.view.degrade = w.view.degrade := by rw [h.view]
theorem ViewWork.Answering.cleanRun : u.view.cleanRun = w.view.cleanRun := by rw [h.view]
theorem ViewWork.Answering.warnedRun : u.view.warnedRun = w.view.warnedRun := by rw [h.view]

end

theorem ViewWork.respond_answering (w : ViewWork) (a : UpResponse) : w.Answering (w.respond a) :=
  ⟨rfl, .inl rfl⟩

theorem ViewWork.latencyTest_answering (e : ViewEnv) (p : Plan) (h : HeldRead) (y : Nat) (w : ViewWork) :
    w.Answering (w.latencyTest e p h y) := by
  unfold ViewWork.latencyTest
  split
  · exact .refl w
  · next f hf =>
    have hs := View.openFrameOf_state hf
    dsimp only
    split
    · split <;> exact ⟨rfl, .inr ⟨f, hs, rfl⟩⟩
    · exact .refl w

theorem ViewWork.fetchError_answering (e : ViewEnv) (h : HeldRead) (w : ViewWork) :
    w.Answering (w.fetchError e h) := by
  unfold ViewWork.fetchError
  split
  · exact .refl w
  · dsimp only
    split <;> exact ⟨rfl, .inl rfl⟩

theorem ViewWork.serve_answering (e : ViewEnv) (p : Plan) (h : HeldRead) (w : ViewWork) :
    w.Answering (w.serve e p h) := by
  have hrespond : w.Answering ({ w.respond (okayAnswer h.req
      (e.conf.answerData h.req fun x y ch => composedPixel e w.view p x y ch)) with
      view := { (w.respond (okayAnswer h.req
        (e.conf.answerData h.req fun x y ch => composedPixel e w.view p x y ch))).view with
        markRow := highestRow h.rows } } : ViewWork) := ⟨rfl, .inl rfl⟩
  exact hrespond.trans ((View.sameOutside.answering (ViewWork.prefetch_sameOutside e _ _)).trans
    (ViewWork.latencyTest_answering e p h _ _))

theorem ViewWork.demandPass_answering (e : ViewEnv) (w : ViewWork) : w.Answering (w.demandPass e) :=
  View.sameOutside.answering (w.demandPass_sameOutside e)

theorem ViewWork.answerHead_answering (e : ViewEnv) (h : HeldRead) (kind : AnswerKind) (w : ViewWork) :
    w.Answering (w.answerHead e h kind) := by
  unfold ViewWork.answerHead
  dsimp only
  refine ViewWork.Answering.trans ?_ (ViewWork.demandPass_answering e _)
  split
  · exact w.serve_answering e _ h
  · exact (w.fetchError_answering e h).trans (ViewWork.respond_answering _ _)
  · exact w.respond_answering _

theorem ViewWork.answerReads_answering (e : ViewEnv) (n : Nat) (w : ViewWork) :
    w.Answering (w.answerReads e n) := by
  induction n generalizing w with
  | zero => exact .refl w
  | succ n ih =>
    unfold ViewWork.answerReads
    split
    · exact .refl w
    · split
      · exact (w.answerHead_answering e _ _).trans (ih _)
      · exact .refl w

theorem ViewWork.answerAll_answering (e : ViewEnv) (w : ViewWork) : w.Answering (w.answerAll e) :=
  w.answerReads_answering e _

/-- The answers given stay in front of the new ones, which are OKAY read answers, one a read that left. -/
theorem ViewWork.answerReads_new (e : ViewEnv) (n : Nat) (w : ViewWork) :
    ∃ new, (w.answerReads e n).answers = w.answers ++ new ∧
      (∀ x ∈ new, x.code = .okay ∧ x.isRead = true) ∧
      new.length + (w.answerReads e n).view.held.length = w.view.held.length := by
  induction n generalizing w with
  | zero => exact ⟨[], (List.append_nil _).symm, by simp, Nat.zero_add _⟩
  | succ n ih =>
    have hstays : w.answerReads e (n + 1) = w → ∃ new, (w.answerReads e (n + 1)).answers = w.answers ++ new ∧
        (∀ x ∈ new, x.code = .okay ∧ x.isRead = true) ∧
        new.length + (w.answerReads e (n + 1)).view.held.length = w.view.held.length :=
      fun h => ⟨[], by rw [h, List.append_nil], by simp, by rw [h]; exact Nat.zero_add _⟩
    cases hw : w.view.held with
    | nil => rw [← hw]; exact hstays (ViewWork.answerReads_empty _ hw)
    | cons h hs =>
      cases ha : w.view.answerable h with
      | none => rw [← hw]; exact hstays (ViewWork.answerReads_waits _ hw ha)
      | some kind =>
        obtain ⟨new, hnew, hokay, hlen⟩ := ih (w.answerHead e h kind)
        obtain ⟨htail, data, hdata⟩ := w.answerHead_answers e h kind
        rw [ViewWork.answerReads_answers n hw ha]
        refine ⟨okayAnswer h.req data :: new, ?_, ?_, ?_⟩
        · rw [hnew, hdata, List.append_assoc]
          rfl
        · rintro x hx
          rcases List.mem_cons.mp hx with rfl | hx
          · exact ⟨rfl, rfl⟩
          · exact hokay x hx
        · rw [htail, hw, List.tail_cons] at hlen
          simp only [List.length_cons]
          omega

theorem ViewWork.answerAll_new (e : ViewEnv) (w : ViewWork) :
    ∃ new, (w.answerAll e).answers = w.answers ++ new ∧
      (∀ x ∈ new, x.code = .okay ∧ x.isRead = true) ∧
      new.length + (w.answerAll e).view.held.length = w.view.held.length := w.answerReads_new e _

/-! ### An underrun -/

theorem ViewWork.countOwn_view (e : ViewEnv) (h : HeldRead) (w : ViewWork) :
    (w.countOwn e h).view = { w.view with
      state := (w.countOwn e h).view.state
      degrade := (w.countOwn e h).view.degrade
      cleanRun := (w.countOwn e h).view.cleanRun } := by
  unfold ViewWork.countOwn
  split
  · unfold ViewWork.countInFrame
    dsimp only
    split <;> rfl
  · rfl

theorem ViewWork.countOwn_outside (e : ViewEnv) (h : HeldRead) (w : ViewWork) :
    (w.countOwn e h).answers = w.answers ∧ (w.countOwn e h).inflight = w.inflight ∧
      ∃ es, (w.countOwn e h).events = w.events ++ es := by
  unfold ViewWork.countOwn
  split
  · unfold ViewWork.countInFrame
    dsimp only
    split
    · exact ⟨rfl, rfl, _, rfl⟩
    · exact ⟨rfl, rfl, [], (List.append_nil _).symm⟩
  · exact ⟨rfl, rfl, [], (List.append_nil _).symm⟩

theorem ViewWork.raiseUnderrun_view (e : ViewEnv) (h : HeldRead) (w : ViewWork) :
    (w.raiseUnderrun e h).view = { w.view with underrunRaised := true } := by
  unfold ViewWork.raiseUnderrun
  split
  · next hr => rw [← show w.view.underrunRaised = true from hr]
  · dsimp only
    split <;> rfl

theorem ViewWork.raiseUnderrun_outside (e : ViewEnv) (h : HeldRead) (w : ViewWork) :
    (w.raiseUnderrun e h).answers = w.answers ∧ (w.raiseUnderrun e h).inflight = w.inflight ∧
      ∃ es, (w.raiseUnderrun e h).events = w.events ++ es := by
  unfold ViewWork.raiseUnderrun
  split
  · exact ⟨rfl, rfl, [], (List.append_nil _).symm⟩
  · dsimp only
    split <;> exact ⟨rfl, rfl, _, rfl⟩

/-- An underrun counts in the total, leaves UNDERRUN raised, and of the rest moves only the frame's record and
the degrade. -/
theorem ViewWork.underrun_view (e : ViewEnv) (h : HeldRead) (w : ViewWork) :
    (w.underrun e h).view = { w.view with
      state := (w.countOwn e h).view.state
      degrade := (w.countOwn e h).view.degrade
      cleanRun := (w.countOwn e h).view.cleanRun
      totalUnderruns := min 65535 (w.view.totalUnderruns + 1)
      underrunRaised := true } := by
  simp only [ViewWork.underrun, ViewWork.raiseUnderrun_view, ViewWork.countTotal]
  rw [ViewWork.countOwn_view]

theorem ViewWork.underrun_outside (e : ViewEnv) (h : HeldRead) (w : ViewWork) :
    (w.underrun e h).answers = w.answers ∧ (w.underrun e h).inflight = w.inflight ∧
      ∃ es, (w.underrun e h).events = (w.countOwn e h).events ++ es := by
  obtain ⟨hans, hfly, -⟩ := w.countOwn_outside e h
  obtain ⟨hans', hfly', hevents⟩ := (w.countOwn e h).countTotal.raiseUnderrun_outside e h
  exact ⟨hans'.trans hans, hfly'.trans hfly, hevents⟩

section
variable (e : ViewEnv) (h : HeldRead) (w : ViewWork)

theorem ViewWork.underrun_held : (w.underrun e h).view.held = w.view.held := by rw [ViewWork.underrun_view]
theorem ViewWork.underrun_plan : (w.underrun e h).view.plan = w.view.plan := by rw [ViewWork.underrun_view]
theorem ViewWork.underrun_markRow : (w.underrun e h).view.markRow = w.view.markRow := by
  rw [ViewWork.underrun_view]
theorem ViewWork.underrun_cache : (w.underrun e h).view.cache = w.view.cache := by rw [ViewWork.underrun_view]
theorem ViewWork.underrun_raised : (w.underrun e h).view.underrunRaised = true := by
  rw [ViewWork.underrun_view]
theorem ViewWork.underrun_total :
    (w.underrun e h).view.totalUnderruns = min 65535 (w.view.totalUnderruns + 1) := by
  rw [ViewWork.underrun_view]

end

/-! ### The hold limit -/

/-- Whether a row is there is a matter of the cache alone. -/
theorem View.rowReady_of_cache {v u : View} (h : u.cache = v.cache) (k : RowKey) :
    u.rowReady k = v.rowReady k := by
  simp only [View.rowReady, View.rowValid, View.rowFailed, View.entryOf, h]

theorem View.holdDue_iff {v : View} {limit : Nat} {now : Word} {h : HeldRead} :
    v.holdDue limit now h = true ↔
      h.expired = false ∧ limit ≤ (now - h.accepted).toNat ∧ ∃ k ∈ h.needed, v.rowReady k = false := by
  simp only [View.holdDue, Bool.and_eq_true, Bool.not_eq_true', decide_eq_true_eq, List.any_eq_true, and_assoc]
  exact Iff.rfl

/-- The first read due is marked expired in its place and counts its underrun; then the queue answers. -/
theorem ViewWork.expireHold_of_due {e : ViewEnv} {w : ViewWork} {before after : List HeldRead} {h : HeldRead}
    (hw : w.view.held = before ++ h :: after)
    (hb : ∀ g ∈ before, w.view.holdDue e.conf.holdLimit e.now g = false)
    (hd : w.view.holdDue e.conf.holdLimit e.now h = true) :
    w.expireHold e = ViewWork.answerAll e (ViewWork.underrun e h
      { w with view := { w.view with held := before ++ { h with expired := true } :: after } }) := by
  have hfind : w.view.held.findIdx? (w.view.holdDue e.conf.holdLimit e.now) = some before.length := by
    rw [hw, List.findIdx?_append, List.findIdx?_eq_none_iff.mpr hb, List.findIdx?_cons, if_pos hd]
    simp
  have hget : w.view.held[before.length]? = some h := by
    rw [hw, List.getElem?_append_right le_rfl, Nat.sub_self]
    rfl
  have hmod : w.view.held.modify before.length (fun h => { h with expired := true }) =
      before ++ { h with expired := true } :: after := by
    rw [modify_eq_set _ hget, hw, List.set_append_right _ _ le_rfl, Nat.sub_self]
    rfl
  simp only [ViewWork.expireHold, hfind, ViewWork.expireAt, hget, hmod]

/-- The work of view `v` at the hold limit of `h`, which has `before` ahead of it and `after` behind it. -/
def State.holdWork (s : State) (v : Fin 2) (r : ViewRecord) (before : List HeldRead) (h : HeldRead)
    (after : List HeldRead) : ViewWork :=
  ViewWork.answerAll ⟨v, r, s.timeBase, s.sources⟩ (ViewWork.underrun ⟨v, r, s.timeBase, s.sources⟩ h
    ⟨{ s.views[v] with held := before ++ { h with expired := true } :: after }, s.inflight, [], [], s.draws⟩)

theorem State.expireHold_of_due {s : State} {v : Fin 2} {r : ViewRecord} {before after : List HeldRead}
    {h : HeldRead} (hr : s.views[v].record = some r) (hheld : s.views[v].held = before ++ h :: after)
    (hb : ∀ g ∈ before, s.views[v].holdDue r.holdLimit s.timeBase g = false)
    (hd : s.views[v].holdDue r.holdLimit s.timeBase h = true) :
    (s.onView v fun e w => w.expireHold e) = (s.putWork v (s.holdWork v r before h after)).raiseAll
      (s.holdWork v r before h after).events := by
  rw [State.onView_of_record _ hr, ViewWork.expireHold_of_due (e := s.envOf v r) (w := s.workOf v) hheld hb hd]
  rfl

theorem exec_holdLimitExpiry_eq (s : State) (v : Fin 2) :
    exec (.holdLimitExpiry v) s = .next (s.onView v fun e w => w.expireHold e).acceptWaiting := rfl

section
variable (s : State) (v : Fin 2) (r : ViewRecord) (before after : List HeldRead) (h : HeldRead)

theorem State.holdWork_counts : (s.holdWork v r before h after).view.totalUnderruns =
      min 65535 (s.views[v].totalUnderruns + 1) ∧
    (s.holdWork v r before h after).view.underrunRaised = true := by
  have hanswers := ViewWork.answerAll_answering ⟨v, r, s.timeBase, s.sources⟩
    (ViewWork.underrun ⟨v, r, s.timeBase, s.sources⟩ h
      ⟨{ s.views[v] with held := before ++ { h with expired := true } :: after }, s.inflight, [], [], s.draws⟩)
  exact ⟨hanswers.totalUnderruns.trans (ViewWork.underrun_total _ _ _),
    hanswers.underrunRaised.trans (ViewWork.underrun_raised _ _ _)⟩

/-- An expired read is answered with fill at the head. -/
theorem View.answerable_expired {u : View} {g : HeldRead} (hr : g.rows ≠ []) (he : g.expired = true) :
    u.answerable g = some .fill := by
  cases hp : u.plan with
  | none => exact View.answerable_noPlan hr hp
  | some p => exact View.answerable_fill hr hp (.inr he)

/-- With nothing ahead of it, the read that expires is filled, and its queue goes on. -/
theorem State.holdWork_head (hr : h.rows ≠ []) : s.holdWork v r [] h after =
    ViewWork.answerAll ⟨v, r, s.timeBase, s.sources⟩ (ViewWork.demandPass ⟨v, r, s.timeBase, s.sources⟩
      (ViewWork.respond (ViewWork.underrun ⟨v, r, s.timeBase, s.sources⟩ h
        ⟨{ s.views[v] with held := { h with expired := true } :: after }, s.inflight, [], [], s.draws⟩)
        (r.fillAnswer h.req))) := by
  have hheld := ViewWork.underrun_held ⟨v, r, s.timeBase, s.sources⟩ h
    ⟨{ s.views[v] with held := { h with expired := true } :: after }, s.inflight, [], [], s.draws⟩
  rw [State.holdWork, List.nil_append,
    ViewWork.answerAll_step hheld (View.answerable_expired (g := { h with expired := true }) hr rfl),
    ViewWork.answerHead_plain _ _ _ (.inr rfl)]

/-- The answers of a queue whose head expires begin with its fill. -/
theorem State.holdWork_answers (hr : h.rows ≠ []) :
    ∃ more, (s.holdWork v r [] h after).answers = r.fillAnswer h.req :: more := by
  rw [s.holdWork_head v r after h hr]
  obtain ⟨more, hmore, -⟩ := ViewWork.answerAll_new ⟨v, r, s.timeBase, s.sources⟩
    (ViewWork.demandPass ⟨v, r, s.timeBase, s.sources⟩
      (ViewWork.respond (ViewWork.underrun ⟨v, r, s.timeBase, s.sources⟩ h
        ⟨{ s.views[v] with held := { h with expired := true } :: after }, s.inflight, [], [], s.draws⟩)
        (r.fillAnswer h.req)))
  refine ⟨more, ?_⟩
  rw [hmore, (ViewWork.demandPass_sameReads _ _).2]
  simp only [ViewWork.respond, (ViewWork.underrun_outside _ _ _).1]
  rfl

/-- Behind a head that waits, the read that expires is only marked. -/
theorem State.holdWork_behind {g : HeldRead} {gs : List HeldRead} {p : Plan} (hg : g.rows ≠ [])
    (he : g.expired = false) (hp : s.views[v].plan = some p) (hfill : ¬ (p.fromSide = none ∧ p.toSide = none))
    (hk : ∃ k ∈ g.needed, s.views[v].rowReady k = false) :
    (s.holdWork v r (g :: gs) h after).answers = [] ∧
      (s.holdWork v r (g :: gs) h after).view.held = (g :: gs) ++ { h with expired := true } :: after := by
  have hheld := ViewWork.underrun_held ⟨v, r, s.timeBase, s.sources⟩ h ⟨{ s.views[v] with
    held := (g :: gs) ++ { h with expired := true } :: after }, s.inflight, [], [], s.draws⟩
  have hwaits : (ViewWork.underrun ⟨v, r, s.timeBase, s.sources⟩ h ⟨{ s.views[v] with
      held := (g :: gs) ++ { h with expired := true } :: after }, s.inflight, [], [], s.draws⟩).view.answerable g =
      none := by
    obtain ⟨k, hmem, hno⟩ := hk
    refine View.answerable_eq_none_iff.mpr ⟨hg, he, ⟨p, (ViewWork.underrun_plan _ _ _).trans hp, hfill⟩,
      k, hmem, fun hready => ?_⟩
    have hready := View.rowReady_iff.mpr hready
    rw [View.rowReady_of_cache (v := s.views[v]) (ViewWork.underrun_cache _ _ _), hno] at hready
    cases hready
  rw [State.holdWork, ViewWork.answerAll, ViewWork.answerReads_waits _ hheld hwaits]
  exact ⟨(ViewWork.underrun_outside _ _ _).1, hheld⟩

/-- The work of a view whose one read expires: that read filled, and nothing left. -/
theorem State.holdWork_single (hr : h.rows ≠ []) :
    (s.holdWork v r [] h []).view.held = [] ∧ (s.holdWork v r [] h []).answers = [r.fillAnswer h.req] ∧
      (s.holdWork v r [] h []).view.plan = s.views[v].plan ∧
      (s.holdWork v r [] h []).view.markRow = s.views[v].markRow := by
  rw [s.holdWork_head v r [] h hr]
  generalize hu : ViewWork.underrun ⟨v, r, s.timeBase, s.sources⟩ h
    ⟨{ s.views[v] with held := [{ h with expired := true }] }, s.inflight, [], [], s.draws⟩ = u
  have hheld : u.view.held = [{ h with expired := true }] := by rw [← hu, ViewWork.underrun_held]
  have hplan : u.view.plan = s.views[v].plan := by rw [← hu, ViewWork.underrun_plan]
  have hmark : u.view.markRow = s.views[v].markRow := by rw [← hu, ViewWork.underrun_markRow]
  have hans : u.answers = [] := by rw [← hu, (ViewWork.underrun_outside _ _ _).1]
  obtain ⟨hheld', hans'⟩ := ViewWork.demandPass_sameReads ⟨v, r, s.timeBase, s.sources⟩
    (u.respond (r.fillAnswer h.req))
  obtain ⟨hplan', hmark', -⟩ := View.sameOutside.sameMarks (ViewWork.demandPass_sameOutside
    ⟨v, r, s.timeBase, s.sources⟩ (u.respond (r.fillAnswer h.req)))
  have hnil : (u.respond (r.fillAnswer h.req)).view.held = [] := by rw [ViewWork.respond, hheld]; rfl
  rw [ViewWork.answerAll, ViewWork.answerReads_empty _ (hheld'.trans hnil)]
  refine ⟨hheld'.trans hnil, hans'.trans ?_, hplan'.trans hplan, hmark'.trans hmark⟩
  rw [ViewWork.respond, hans]
  rfl

end

/-! ### The idle timer -/

/-- The view after its open frame `f` is closed, before its degrade is examined. -/
def View.closed (v : View) (f : FrameRecord) : View :=
  { v with
    state := .idle
    underrunRaised := false
    fetchErrorRaised := false
    warnedRun := if f.warned then min 6 (v.warnedRun + 1) else 0
    saturated := f.warned && (v.saturated || decide (6 ≤ v.warnedRun + 1)) }

theorem View.closed_eq (v : View) (f : FrameRecord) : v.closed f =
    { v.examineWarned f.warned with state := .idle, underrunRaised := false, fetchErrorRaised := false } := by
  cases hw : f.warned with
  | true => simp [View.closed, View.examineWarned, hw]
  | false => simp [View.closed, View.examineWarned, hw]

theorem View.examineWarned_keeps (v : View) (b : Bool) : (v.examineWarned b).degrade = v.degrade ∧
    (v.examineWarned b).cleanRun = v.cleanRun ∧ (v.examineWarned b).totalUnderruns = v.totalUnderruns := by
  cases b <;> exact ⟨rfl, rfl, rfl⟩

/-- Whether a frame closes clean. -/
def FrameRecord.Clean (f : FrameRecord) : Prop := f.underruns = 0 ∧ f.warned = false

theorem FrameRecord.clean_iff {f : FrameRecord} : (f.underruns == 0 && !f.warned) = true ↔ f.Clean := by
  simp [FrameRecord.Clean]

section
variable {e : ViewEnv} {f : FrameRecord} {w : ViewWork}

theorem ViewWork.closeFrame_full (hd : w.view.degrade = .full) :
    w.closeFrame e f = { w with view := w.view.closed f } := by
  obtain ⟨hdegrade, -, -⟩ := w.view.examineWarned_keeps f.warned
  simp only [ViewWork.closeFrame, hdegrade, hd, View.closed_eq]

theorem ViewWork.closeFrame_unclean (hd : w.view.degrade = .single) (hc : ¬ f.Clean) :
    w.closeFrame e f = { w with view := { w.view.closed f with cleanRun := 0 } } := by
  obtain ⟨hdegrade, -, -⟩ := w.view.examineWarned_keeps f.warned
  have hc' : (f.underruns == 0 && !f.warned) = false := by
    rwa [← Bool.not_eq_true, FrameRecord.clean_iff]
  simp only [ViewWork.closeFrame, hdegrade, hd, hc', View.closed_eq, Bool.not_false, if_true]

theorem ViewWork.closeFrame_clean (hd : w.view.degrade = .single) (hc : f.Clean) (h7 : w.view.cleanRun ≠ 7) :
    w.closeFrame e f = { w with view := { w.view.closed f with cleanRun := w.view.cleanRun + 1 } } := by
  obtain ⟨hdegrade, hrun, -⟩ := w.view.examineWarned_keeps f.warned
  have h8 : ¬ w.view.cleanRun + 1 = 8 := fun h => h7 (Nat.succ.inj h)
  simp only [ViewWork.closeFrame, hdegrade, hd, hrun, FrameRecord.clean_iff.mpr hc, View.closed_eq, Bool.not_true,
    Bool.false_eq_true, if_false, if_neg h8]

theorem ViewWork.closeFrame_eighth (hd : w.view.degrade = .single) (hc : f.Clean) (h7 : w.view.cleanRun = 7) :
    w.closeFrame e f = { w with
      view := { w.view.closed f with degrade := .full, cleanRun := 0 }
      events := w.events ++ [⟨.degradeExit, 2, e.idx.val, f.number, BitVec.ofNat 32 w.view.totalUnderruns⟩] } := by
  obtain ⟨hdegrade, hrun, htotal⟩ := w.view.examineWarned_keeps f.warned
  simp only [ViewWork.closeFrame, hdegrade, hd, hrun, h7, htotal, FrameRecord.clean_iff.mpr hc, View.closed_eq,
    Bool.not_true, Bool.false_eq_true, if_false, if_true]
  rfl

end

/-- The row of the idle timer closes the open frame when its limit has passed. -/
theorem exec_idleTimerExpiry_of_due {s : State} {v : Fin 2} {r : ViewRecord} {f : FrameRecord}
    (hr : s.views[v].record = some r) (hs : s.views[v].state = .opened f)
    (hd : 1000 * r.idleTimeout ≤ (s.timeBase - f.idleLoad).toNat) {w : ViewWork}
    (hw : ViewWork.closeFrame (s.envOf v r) f (s.workOf v) = w) :
    exec (.idleTimerExpiry v) s = .next ((s.putWork v w).raiseAll w.events) := by
  have hrow : exec (.idleTimerExpiry v) s = .next (s.onView v fun e w => w.expireIdle e) := rfl
  have hclose : (s.workOf v).expireIdle (s.envOf v r) = w := by
    rw [← hw]
    unfold ViewWork.expireIdle
    rw [show (s.workOf v).view.state = .opened f from hs]
    exact if_pos hd
  rw [hrow, State.onView_of_record _ hr, hclose]

/-- A view's step that answers nothing and raises nothing sets its view. -/
theorem State.putWork_view (s : State) (v : Fin 2) (x : View) :
    s.putWork v { s.workOf v with view := x } = { s with views := s.views.set v.val x v.isLt } := by
  simp only [State.putWork, State.workOf, List.append_nil]

/-! ### The watchdog -/

theorem Source.watchdogDue_iff {src : Source} {load : Word} {r : SourceRecord} (now : Word)
    (hw : src.watchdog = some load) (hr : src.record = some r) :
    src.watchdogDue now = true ↔ (src.state = .waiting ∨ src.state = .running) ∧
      1000 * watchdogMs r.watchdog ≤ (now - load).toNat := by
  simp [Source.watchdogDue, Source.timeoutMs, hw, hr, elapsed]

theorem exec_watchdogExpiry_of_due {s : State} {i : Fin 4} (h : s.sources[i].watchdogDue s.timeBase = true) :
    exec (.watchdogExpiry i) s = .next (s.onSource i fun src => src.stall i) :=
  congrArg Host.Outcome.next (if_pos h)

/-- Settles O18: each timer by what it does when due, and by the test that it fails before. -/
theorem timersExpire : Obligations.TimersExpire := by
  unfold Obligations.TimersExpire
  refine ⟨rfl, ?_, ?_, ?_, ?_, fun s i => ⟨fun load r hw hr hlt => ?_, fun h1 h2 => ?_⟩, ?_, ?_⟩
  · intro s i load r hp hstate hw hr hd
    have hms : s.sources[i].timeoutMs = watchdogMs r.watchdog := by simp only [Source.timeoutMs, hr]; rfl
    rw [exec_watchdogExpiry_of_due ((Source.watchdogDue_iff _ hw hr).mpr ⟨hstate, hd⟩)]
    refine congrArg Host.Outcome.next ?_
    simp only [State.onSource, Source.stall, hms]
    exact State.raise_of_running _ hp
  · intro s v r f hp hr hs hd old closed clean
    refine ⟨fun hfull => ?_, fun hsingle hc => ?_, fun hsingle hc h7 => ?_, fun hsingle hc h7 => ?_⟩
    · rw [exec_idleTimerExpiry_of_due hr hs hd (ViewWork.closeFrame_full hfull)]
      exact congrArg Host.Outcome.next (s.putWork_view v _)
    · rw [exec_idleTimerExpiry_of_due hr hs hd (ViewWork.closeFrame_unclean hsingle hc)]
      exact congrArg Host.Outcome.next (s.putWork_view v _)
    · rw [exec_idleTimerExpiry_of_due hr hs hd (ViewWork.closeFrame_clean hsingle hc h7)]
      exact congrArg Host.Outcome.next (s.putWork_view v _)
    · rw [exec_idleTimerExpiry_of_due hr hs hd (ViewWork.closeFrame_eighth hsingle hc h7),
        State.raiseAll_of_running (by exact hp)]
      refine congrArg Host.Outcome.next ?_
      simp only [State.putWork, State.workOf, List.append_nil, List.nil_append, List.foldl_cons, List.foldl_nil]
      rfl
  · intro s v r h p k hq hr hheld hp hrows he hd hk hno
    have hdue := View.holdDue_iff.mpr ⟨he, hd, k, hk, hno⟩
    obtain ⟨hnil, hans, hplan, hmark⟩ := s.holdWork_single v r h hrows
    obtain ⟨htotal, hraised⟩ := s.holdWork_counts v r [] [] h
    have hstep := State.expireHold_of_due (before := []) (after := []) hr hheld (by simp) hdue
    have hview : (s.onView v fun e w => w.expireHold e).views = s.views.set v.val
        (s.holdWork v r [] h []).view v.isLt := by
      rw [hstep]
      exact State.raiseAll_views ..
    have hself : (s.onView v fun e w => w.expireHold e).views[v] = (s.holdWork v r [] h []).view := by
      rw [hview, vector_get_set, if_pos rfl]
    refine ⟨_, (exec_holdLimitExpiry_eq s v).trans
      (congrArg Host.Outcome.next (hq.onView v _).acceptWaiting), ?_⟩
    rw [hself]
    refine ⟨hnil, ?_, htotal, hraised, hplan.trans hp, hmark, ?_, ?_, fun u hu => ?_⟩
    · rw [hstep]
      refine (congrArg (fun u => u.responses) (State.raiseAll_up ..)).trans ?_
      exact congrArg _ hans
    · rw [hstep]
      exact State.raiseAll_passQueue ..
    · rw [hstep]
      exact State.raiseAll_sources ..
    · rw [hview, vector_get_set, if_neg hu]
  · intro s v r before after h hq hr hheld due hb hd env held w
    obtain ⟨htotal, hraised⟩ := s.holdWork_counts v r before after h
    refine ⟨?_, htotal, hraised, fun hnil hrows => ?_, fun g gs p hg hrows he hp hfill hk => ?_⟩
    · rw [exec_holdLimitExpiry_eq, (hq.onView v _).acceptWaiting,
        State.expireHold_of_due hr hheld (fun g hg => ?_) (View.holdDue_iff.mpr hd)]
      · rfl
      · rw [← Bool.not_eq_true, View.holdDue_iff]
        exact hb g hg
    · subst hnil
      exact s.holdWork_answers v r after h hrows
    · subst hg
      exact s.holdWork_behind v r after h hrows he hp hfill hk
  · refine exec_watchdogExpiry_not_due ?_
    rw [← Bool.not_eq_true, Source.watchdogDue_iff _ hw hr]
    exact fun h => absurd h.2 (Nat.not_le.mpr hlt)
  · refine exec_watchdogExpiry_not_due ?_
    unfold Source.watchdogDue
    split
    · rw [beq_eq_false_iff_ne.mpr h1, beq_eq_false_iff_ne.mpr h2]
      rfl
    · rfl
  · intro s v r f hr hs hlt
    refine exec_idleTimerExpiry_not_due fun r' hr' => ?_
    cases hr.symm.trans hr'
    unfold ViewWork.expireIdle
    dsimp only
    rw [hs]
    exact if_neg (Nat.not_le.mpr hlt)
  · intro s v r hq hr hno
    refine exec_holdLimitExpiry_not_due hq fun r' hr' x hx => ?_
    cases hr.symm.trans hr'
    rw [← Bool.not_eq_true, View.holdDue_iff]
    rintro ⟨he, hd, k, hk, hnot⟩
    rcases hno x hx with h | h | h
    · rw [he] at h
      cases h
    · omega
    · rw [h k hk] at hnot
      cases hnot

end Sys2Proof.Machine
end

section
/-! PROOFS. The openings of a frame (O13, O15, O16): the flush of the held reads, the close and its examination,
and the acceptance of a read. -/

namespace Sys2Proof.Machine

/-! ### One underrun in its frame -/

theorem ViewWork.countOwn_other {e : ViewEnv} {h : HeldRead} {w : ViewWork}
    (hf : ∀ f, w.view.state = .opened f → h.frame ≠ some f.number) : w.countOwn e h = w := by
  simp only [ViewWork.countOwn, View.openFrameOf_other hf]

/-- A view is at the limit of its frame at FULL, or not. -/
theorem DegradeLevel.limit_cases (d : DegradeLevel) (n limit : Nat) :
    (n = limit ∧ d = .full) ∨ (n ≠ limit ∨ d = .single) := by
  by_cases hl : n = limit
  · cases d with
    | full => exact .inl ⟨hl, rfl⟩
    | single => exact .inr (.inr rfl)
  · exact .inr (.inl hl)

theorem ViewWork.countOwn_own {e : ViewEnv} {h : HeldRead} {w : ViewWork} {f : FrameRecord}
    (hs : w.view.state = .opened f) (hf : h.frame = some f.number) :
    let hit := w.view.degrade = .full ∧ f.underruns + 1 = e.conf.underrunLimit
    (w.countOwn e h).view.state = .opened { f with underruns := f.underruns + 1 } ∧
      (w.countOwn e h).view.degrade = (if hit then .single else w.view.degrade) ∧
      (w.countOwn e h).view.cleanRun = (if hit then 0 else w.view.cleanRun) ∧
      (hit → ⟨.degradeEnter, 2, e.idx.val, f.number, BitVec.ofNat 32 e.conf.underrunLimit⟩ ∈
        (w.countOwn e h).events) := by
  intro hit
  have hcount : w.countOwn e h = w.countInFrame e f := by
    simp only [ViewWork.countOwn, View.openFrameOf_own hs hf]
  rcases w.view.degrade.limit_cases (f.underruns + 1) e.conf.underrunLimit with ⟨hl, hd⟩ | hb
  · have hh : hit := ⟨hd, hl⟩
    rw [hcount, ViewWork.countInFrame_limit hl hd, if_pos hh, if_pos hh]
    exact ⟨rfl, rfl, rfl, fun _ => List.mem_append_right _ List.mem_cons_self⟩
  · have hh : ¬ hit := by
      rintro ⟨hd, hl⟩
      rcases hb with hb | hb
      · exact hb hl
      · rw [hd] at hb
        cases hb
    rw [hcount, ViewWork.countInFrame_below hb, if_neg hh, if_neg hh]
    exact ⟨rfl, rfl, rfl, fun h => absurd h hh⟩

/-! ### The flush (R92) -/

theorem ViewWork.countInFrame_respond (e : ViewEnv) (f : FrameRecord) (w : ViewWork) (a : UpResponse) :
    ((w.respond a).countInFrame e f).view = { (w.countInFrame e f).view with held := w.view.held.tail } := by
  rcases w.view.degrade.limit_cases (f.underruns + 1) e.conf.underrunLimit with ⟨hl, hd⟩ | hb
  · rw [ViewWork.countInFrame_limit hl hd, ViewWork.countInFrame_limit (w := w.respond a) hl hd]
    rfl
  · rw [ViewWork.countInFrame_below hb, ViewWork.countInFrame_below (w := w.respond a) hb]
    rfl

theorem ViewWork.flushRead_view (e : ViewEnv) (w : ViewWork) (h : HeldRead) :
    (w.flushRead e h).view = { w.view with
      held := w.view.held.tail
      state := (w.countOwn e h).view.state
      degrade := (w.countOwn e h).view.degrade
      cleanRun := (w.countOwn e h).view.cleanRun
      totalUnderruns := min 65535 (w.view.totalUnderruns + 1)
      underrunRaised := true } := by
  have hsame : ((w.respond (e.conf.fillAnswer h.req)).countOwn e h).view =
      { (w.countOwn e h).view with held := w.view.held.tail } := by
    unfold ViewWork.countOwn
    rw [show (w.respond (e.conf.fillAnswer h.req)).view.openFrameOf h = w.view.openFrameOf h from rfl]
    split
    · exact ViewWork.countInFrame_respond e _ w _
    · rfl
  rw [ViewWork.flushRead, ViewWork.underrun_view, hsame]
  rfl

theorem ViewWork.flushRead_outside (e : ViewEnv) (w : ViewWork) (h : HeldRead) :
    (w.flushRead e h).answers = w.answers ++ [e.conf.fillAnswer h.req] ∧
      (w.flushRead e h).inflight = w.inflight ∧
      ∃ es, (w.flushRead e h).events = ((w.respond (e.conf.fillAnswer h.req)).countOwn e h).events ++ es :=
  (w.respond (e.conf.fillAnswer h.req)).underrun_outside e h

theorem ViewWork.flushRead_events (e : ViewEnv) (w : ViewWork) (h : HeldRead) :
    ∃ es, (w.flushRead e h).events = w.events ++ es := by
  obtain ⟨-, -, es, hes⟩ := w.flushRead_outside e h
  obtain ⟨-, -, es', hes'⟩ := (w.respond (e.conf.fillAnswer h.req)).countOwn_outside e h
  exact ⟨es' ++ es, by rw [hes, hes', ← List.append_assoc]; rfl⟩

/-- The flush of the reads `hs`, each filled and counting its underrun. -/
def ViewWork.flushReads (e : ViewEnv) (hs : List HeldRead) (w : ViewWork) : ViewWork :=
  hs.foldl (ViewWork.flushRead e) w

theorem ViewWork.flushReads_cons (e : ViewEnv) (h : HeldRead) (hs : List HeldRead) (w : ViewWork) :
    w.flushReads e (h :: hs) = (w.flushRead e h).flushReads e hs := rfl

theorem ViewWork.flushReads_view (e : ViewEnv) (hs : List HeldRead) (w : ViewWork) :
    (w.flushReads e hs).view = { w.view with
      held := w.view.held.drop hs.length
      state := (w.flushReads e hs).view.state
      degrade := (w.flushReads e hs).view.degrade
      cleanRun := (w.flushReads e hs).view.cleanRun
      totalUnderruns := (w.flushReads e hs).view.totalUnderruns
      underrunRaised := (w.flushReads e hs).view.underrunRaised } := by
  induction hs generalizing w with
  | nil => rfl
  | cons h hs ih =>
    rw [ViewWork.flushReads_cons, ih, ViewWork.flushRead_view, List.length_cons]
    simp only [List.drop_tail]

theorem ViewWork.flushReads_outside (e : ViewEnv) (hs : List HeldRead) (w : ViewWork) :
    (w.flushReads e hs).answers = w.answers ++ (hs.map fun h => e.conf.fillAnswer h.req) ∧
      (w.flushReads e hs).inflight = w.inflight ∧ ∃ es, (w.flushReads e hs).events = w.events ++ es := by
  induction hs generalizing w with
  | nil => exact ⟨(List.append_nil _).symm, rfl, [], (List.append_nil _).symm⟩
  | cons h hs ih =>
    obtain ⟨hans, hfly, es, hes⟩ := ih (w.flushRead e h)
    obtain ⟨hans', hfly', -⟩ := w.flushRead_outside e h
    obtain ⟨es', hes'⟩ := w.flushRead_events e h
    refine ⟨?_, hfly.trans hfly', es' ++ es, ?_⟩
    · rw [ViewWork.flushReads_cons, hans, hans', List.append_assoc]
      rfl
    · rw [ViewWork.flushReads_cons, hes, hes', List.append_assoc]

theorem ViewWork.flushReads_total (e : ViewEnv) (hs : List HeldRead) (w : ViewWork)
    (hw : w.view.totalUnderruns ≤ 65535) :
    (w.flushReads e hs).view.totalUnderruns = min 65535 (w.view.totalUnderruns + hs.length) := by
  induction hs generalizing w with
  | nil =>
    rw [List.length_nil, Nat.add_zero, Nat.min_eq_right hw]
    rfl
  | cons h hs ih =>
    have htotal : (w.flushRead e h).view.totalUnderruns = min 65535 (w.view.totalUnderruns + 1) := by
      rw [ViewWork.flushRead_view]
    rw [ViewWork.flushReads_cons, ih _ (htotal ▸ Nat.min_le_left ..), htotal, List.length_cons]
    omega

/-- Outside a frame, a flush leaves the state and the degrade. -/
theorem ViewWork.flushReads_other (e : ViewEnv) (hs : List HeldRead) (w : ViewWork)
    (hw : ∀ f, w.view.state ≠ .opened f) :
    (w.flushReads e hs).view.state = w.view.state ∧ (w.flushReads e hs).view.degrade = w.view.degrade ∧
      (w.flushReads e hs).view.cleanRun = w.view.cleanRun := by
  induction hs generalizing w with
  | nil => exact ⟨rfl, rfl, rfl⟩
  | cons h hs ih =>
    have hcount : w.countOwn e h = w := ViewWork.countOwn_other fun f hf => absurd hf (hw f)
    have hstate : (w.flushRead e h).view.state = w.view.state := by rw [ViewWork.flushRead_view, hcount]
    obtain ⟨h1, h2, h3⟩ := ih (w.flushRead e h) (by rw [hstate]; exact hw)
    rw [ViewWork.flushReads_cons]
    refine ⟨h1.trans hstate, h2.trans ?_, h3.trans ?_⟩
    · rw [ViewWork.flushRead_view, hcount]
    · rw [ViewWork.flushRead_view, hcount]

/-- The number of reads that belong to the frame of number `n`. -/
def ownReads (hs : List HeldRead) (n : Word) : Nat := (hs.filter fun h => h.frame = some n).length

/-- In its frame, a flush counts the frame's own reads, and the limit brings SINGLE. -/
theorem ViewWork.flushReads_own (e : ViewEnv) (hs : List HeldRead) (w : ViewWork) (f : FrameRecord)
    (hw : w.view.state = .opened f) :
    let n := ownReads hs f.number
    let enters := w.view.degrade = .full ∧ f.underruns < e.conf.underrunLimit ∧
      e.conf.underrunLimit ≤ f.underruns + n
    (w.flushReads e hs).view.state = .opened { f with underruns := f.underruns + n } ∧
      (w.flushReads e hs).view.degrade = (if enters then .single else w.view.degrade) ∧
      (w.flushReads e hs).view.cleanRun = (if enters then 0 else w.view.cleanRun) ∧
      (enters → ⟨.degradeEnter, 2, e.idx.val, f.number, BitVec.ofNat 32 e.conf.underrunLimit⟩ ∈
        (w.flushReads e hs).events) := by
  induction hs generalizing w f with
  | nil =>
    intro n enters
    have hno : ¬ enters := fun h => absurd h.2.1 (Nat.not_lt.mpr h.2.2)
    rw [if_neg hno, if_neg hno]
    exact ⟨hw, rfl, rfl, fun h => absurd h hno⟩
  | cons h hs ih =>
    intro n enters
    rw [ViewWork.flushReads_cons]
    by_cases hf : h.frame = some f.number
    · have hn : n = ownReads hs f.number + 1 := by
        simp only [n, ownReads, List.filter_cons, hf, decide_true, if_true, List.length_cons]
      obtain ⟨hstate, hdegrade, hrun, -⟩ := ViewWork.countOwn_own (e := e) (w := w) hw hf
      obtain ⟨-, -, -, hevent⟩ := ViewWork.countOwn_own (e := e)
        (w := w.respond (e.conf.fillAnswer h.req)) hw hf
      obtain ⟨-, -, es, hes⟩ := w.flushRead_outside e h
      obtain ⟨-, -, es', hes'⟩ := (w.flushRead e h).flushReads_outside e hs
      have hstate' : (w.flushRead e h).view.state = .opened { f with underruns := f.underruns + 1 } := by
        rw [ViewWork.flushRead_view, hstate]
      obtain ⟨hs1, hd1, hr1, he1⟩ := ih (w.flushRead e h) _ hstate'
      have hdw : (w.flushRead e h).view.degrade = (w.countOwn e h).view.degrade := by
        rw [ViewWork.flushRead_view]
      have hrw : (w.flushRead e h).view.cleanRun = (w.countOwn e h).view.cleanRun := by
        rw [ViewWork.flushRead_view]
      rw [hdw, hdegrade] at hd1 he1
      rw [hdw, hdegrade, hrw, hrun] at hr1
      have hsum : f.underruns + 1 + ownReads hs f.number = f.underruns + n := by omega
      refine ⟨by rw [hs1]; simp only [hsum], ?_⟩
      by_cases hit : w.view.degrade = .full ∧ f.underruns + 1 = e.conf.underrunLimit
      · have hyes : enters := ⟨hit.1, by omega, by omega⟩
        rw [if_pos hit] at hd1 he1 hr1
        rw [if_pos hyes, if_pos hyes, hd1, hr1]
        refine ⟨by simp, by simp [hit], fun _ => ?_⟩
        rw [hes', hes]
        exact List.mem_append_left _ (List.mem_append_left _ (hevent hit))
      · have hiff : (w.view.degrade = .full ∧ f.underruns + 1 < e.conf.underrunLimit ∧
            e.conf.underrunLimit ≤ f.underruns + 1 + ownReads hs f.number) ↔ enters := by
          constructor
          · rintro ⟨h1, h2, h3⟩
            exact ⟨h1, by omega, by omega⟩
          · rintro ⟨h1, h2, h3⟩
            have hne : f.underruns + 1 ≠ e.conf.underrunLimit := fun h => hit ⟨h1, h⟩
            exact ⟨h1, by omega, by omega⟩
        rw [if_neg hit] at hd1 he1 hr1
        rw [if_neg hit] at hr1
        exact ⟨hd1.trans (if_congr hiff rfl rfl), hr1.trans (if_congr hiff rfl rfl), fun h => he1 (hiff.mpr h)⟩
    · have hn : n = ownReads hs f.number := by
        simp only [n, ownReads, List.filter_cons, hf, decide_false, Bool.false_eq_true, if_false]
      have hcount : w.countOwn e h = w := by
        refine ViewWork.countOwn_other fun g hg => ?_
        cases hw.symm.trans hg
        exact hf
      have hstate' : (w.flushRead e h).view.state = .opened f := by rw [ViewWork.flushRead_view, hcount, hw]
      obtain ⟨hs1, hd1, hr1, he1⟩ := ih (w.flushRead e h) _ hstate'
      have hdw : (w.flushRead e h).view.degrade = w.view.degrade := by rw [ViewWork.flushRead_view, hcount]
      have hrw : (w.flushRead e h).view.cleanRun = w.view.cleanRun := by rw [ViewWork.flushRead_view, hcount]
      rw [hdw] at hd1 he1 hr1
      rw [hrw] at hr1
      simp only [enters, hn]
      exact ⟨hs1, hd1, hr1, he1⟩

end Sys2Proof.Machine
end

section
/-! PROOFS. The stages of an opening and the taking of a read (O16). -/

namespace Sys2Proof.Machine

/-! ### The close and its examination (R101, R134) -/

theorem ViewWork.closeFrame_view (e : ViewEnv) (f : FrameRecord) (w : ViewWork) :
    (w.closeFrame e f).view = { w.view.closed f with
      degrade := (w.closeFrame e f).view.degrade
      cleanRun := (w.closeFrame e f).view.cleanRun } := by
  cases hd : w.view.degrade with
  | full =>
    rw [ViewWork.closeFrame_full hd]
  | single =>
    by_cases hc : f.Clean
    · by_cases h7 : w.view.cleanRun = 7
      · rw [ViewWork.closeFrame_eighth hd hc h7]
      · rw [ViewWork.closeFrame_clean hd hc h7]
    · rw [ViewWork.closeFrame_unclean hd hc]

theorem ViewWork.closeFrame_outside (e : ViewEnv) (f : FrameRecord) (w : ViewWork) :
    (w.closeFrame e f).answers = w.answers ∧ (w.closeFrame e f).inflight = w.inflight := by
  unfold ViewWork.closeFrame
  dsimp only
  split
  · exact ⟨rfl, rfl⟩
  · split
    · exact ⟨rfl, rfl⟩
    · split <;> exact ⟨rfl, rfl⟩

/-- The degrade after a close: the eighth clean frame ends SINGLE. -/
theorem ViewWork.closeFrame_degrade (e : ViewEnv) (f : FrameRecord) (w : ViewWork) :
    (w.closeFrame e f).view.degrade =
        (if w.view.degrade = .single ∧ (f.underruns = 0 ∧ f.warned = false) ∧ w.view.cleanRun = 7 then .full
        else w.view.degrade) ∧
      (w.closeFrame e f).view.cleanRun =
        (if w.view.degrade = .full then w.view.cleanRun
        else if (f.underruns = 0 ∧ f.warned = false) ∧ w.view.cleanRun ≠ 7 then w.view.cleanRun + 1 else 0) := by
  cases hd : w.view.degrade with
  | full =>
    rw [ViewWork.closeFrame_full hd, if_neg (by rintro ⟨h, -⟩; cases h), if_pos rfl]
    exact ⟨hd, rfl⟩
  | single =>
    rw [if_neg (show ¬ DegradeLevel.single = .full by intro h; cases h)]
    by_cases hc : f.Clean
    · by_cases h7 : w.view.cleanRun = 7
      · rw [ViewWork.closeFrame_eighth hd hc h7, if_pos ⟨rfl, hc, h7⟩, if_neg fun h => h.2 h7]
        exact ⟨rfl, rfl⟩
      · rw [ViewWork.closeFrame_clean hd hc h7, if_neg fun h => h7 h.2.2, if_pos ⟨hc, h7⟩]
        exact ⟨hd, rfl⟩
    · rw [ViewWork.closeFrame_unclean hd hc, if_neg fun h => hc h.2.1, if_neg fun h => hc h.1]
      exact ⟨hd, rfl⟩

/-! ### Stage 1 -/

/-- The three raised flags cleared. -/
def ViewWork.clearRaised (w : ViewWork) : ViewWork :=
  { w with view := { w.view with
      underrunRaised := false, fetchErrorRaised := false, warnRaised := false } }

theorem ViewWork.openingStage1_other {e : ViewEnv} {w : ViewWork} (hw : ∀ f, w.view.state ≠ .opened f) :
    w.openingStage1 e = (w.flushReads e w.view.held).clearRaised := by
  have hstate := (w.flushReads_other e w.view.held hw).1
  have hcut : (w.flushReads e w.view.held).cutShort e = w.flushReads e w.view.held := by
    unfold ViewWork.cutShort
    rw [hstate]
    cases hs : w.view.state with
    | opened f => exact absurd hs (hw f)
    | idle | disabled => rfl
  exact congrArg ViewWork.clearRaised hcut

theorem ViewWork.openingStage1_opened {e : ViewEnv} {w : ViewWork} {f : FrameRecord}
    (hw : w.view.state = .opened f) :
    w.openingStage1 e = ((w.flushReads e w.view.held).closeFrame e
      { f with underruns := f.underruns + ownReads w.view.held f.number }).clearRaised := by
  have hstate := (w.flushReads_own e w.view.held f hw).1
  have hcut : (w.flushReads e w.view.held).cutShort e = (w.flushReads e w.view.held).closeFrame e
      { f with underruns := f.underruns + ownReads w.view.held f.number } := by
    unfold ViewWork.cutShort
    rw [hstate]
  exact congrArg ViewWork.clearRaised hcut

theorem ViewWork.flushReads_held (e : ViewEnv) (w : ViewWork) : (w.flushReads e w.view.held).view.held = [] := by
  rw [ViewWork.flushReads_view]
  exact List.drop_length

/-- The flush begins with UNDERRUN of its first read. -/
theorem ViewWork.flushReads_first {e : ViewEnv} {w : ViewWork} {h : HeldRead} {hs : List HeldRead} {y : Nat}
    {ys : List Nat} (hr : h.rows = y :: ys) (hraised : w.view.underrunRaised = false) :
    ⟨.underrun, 3, e.idx.val, h.frame.getD w.view.framesOpened, BitVec.ofNat 32 y⟩ ∈
      (w.flushReads e (h :: hs)).events := by
  have hown := (w.respond (e.conf.fillAnswer h.req)).countOwn_view e h
  obtain ⟨-, -, es, hes⟩ := (w.flushRead e h).flushReads_outside e hs
  rw [ViewWork.flushReads_cons, hes]
  refine List.mem_append_left _ ?_
  have hflush : w.flushRead e h =
      (((w.respond (e.conf.fillAnswer h.req)).countOwn e h).countTotal).raiseUnderrun e h := rfl
  have hnot : ((w.respond (e.conf.fillAnswer h.req)).countOwn e h).countTotal.view.underrunRaised = false := by
    simp only [ViewWork.countTotal]
    rw [hown]
    exact hraised
  have hcount : ((w.respond (e.conf.fillAnswer h.req)).countOwn e h).countTotal.view.framesOpened =
      w.view.framesOpened := by
    simp only [ViewWork.countTotal]
    rw [hown]
    rfl
  rw [hflush, ViewWork.raiseUnderrun_eq _ hr]
  refine List.mem_append_right _ ?_
  rw [ViewWork.underrunEvents, hnot, hcount]
  exact List.mem_cons_self

/-! ### The taking of a read -/

theorem ViewWork.acceptRead_idle {e : ViewEnv} {w : ViewWork} (r : ReadReq) (rows : List Nat)
    (hw : w.view.state = .idle) : w.acceptRead e r rows = ViewWork.demandPass e (ViewWork.answerAll e
      { w with view := { w.view with
        held := w.view.held ++ [⟨r, e.now, none, rows, neededRows e w.view.plan rows, false⟩] } }) := by
  have hjoin : w.join e r rows = { w with view := { w.view with
      held := w.view.held ++ [⟨r, e.now, none, rows, neededRows e w.view.plan rows, false⟩] } } := by
    simp only [ViewWork.join, hw]
  have hclose : (w.join e r rows).closeNormal e r = w.join e r rows := by
    rw [hjoin]
    unfold ViewWork.closeNormal
    dsimp only
    rw [hw]
  rw [ViewWork.acceptRead, hclose, hjoin]

/-- The view with read `r` taken into its open frame `f`. -/
def ViewWork.joined (e : ViewEnv) (r : ReadReq) (rows : List Nat) (f : FrameRecord) (w : ViewWork) : ViewWork :=
  { w with view := { w.view with
    state := .opened { f with highest := max f.highest (highestRow rows), idleLoad := e.now }
    held := w.view.held ++
      [⟨r, e.now, if rows = [] then none else some f.number, rows, neededRows e w.view.plan rows, false⟩] } }

theorem ViewWork.join_opened {e : ViewEnv} {w : ViewWork} {f : FrameRecord} (r : ReadReq) (rows : List Nat)
    (hw : w.view.state = .opened f) : w.join e r rows = w.joined e r rows f := by
  have hframe : (if rows.isEmpty then (none : Option Word) else some f.number) =
      if rows = [] then none else some f.number := if_congr List.isEmpty_iff rfl rfl
  simp only [ViewWork.join, hw, hframe]
  rfl

theorem ViewWork.acceptRead_stays {e : ViewEnv} {w : ViewWork} {f : FrameRecord} {r : ReadReq} (rows : List Nat)
    (hw : w.view.state = .opened f) (hl : e.conf.coversLast r = false) :
    w.acceptRead e r rows = ((w.joined e r rows f).answerAll e).demandPass e := by
  have hclose : (w.joined e r rows f).closeNormal e r = w.joined e r rows f := by
    unfold ViewWork.closeNormal ViewWork.joined
    simp only [hl, Bool.false_eq_true, if_false]
  rw [ViewWork.acceptRead, ViewWork.join_opened r rows hw, hclose]

theorem ViewWork.acceptRead_closes {e : ViewEnv} {w : ViewWork} {f : FrameRecord} {r : ReadReq} (rows : List Nat)
    (hw : w.view.state = .opened f) (hl : e.conf.coversLast r = true) :
    w.acceptRead e r rows = (((w.joined e r rows f).closeFrame e
      { f with highest := max f.highest (highestRow rows), idleLoad := e.now }).answerAll e).demandPass e := by
  have hclose : (w.joined e r rows f).closeNormal e r = (w.joined e r rows f).closeFrame e
      { f with highest := max f.highest (highestRow rows), idleLoad := e.now } := by
    unfold ViewWork.closeNormal ViewWork.joined
    simp only [hl, if_true]
  rw [ViewWork.acceptRead, ViewWork.join_opened r rows hw, hclose]

/-! ### The opening inside the part -/

theorem View.opensFrame_iff {v : View} {r : ViewRecord} (rows : List Nat) (hr : v.record = some r) :
    v.opensFrame rows = true ↔ rows.contains 0 = true ∧
      (v.state = .idle ∨ ∃ f, v.state = .opened f ∧ r.height / 2 ≤ f.highest) := by
  unfold View.opensFrame
  rw [hr]
  cases hs : v.state with
  | idle => simp
  | disabled => simp
  | opened f => simp

/-- The state before stage 3 of an opening of view `v` by a read that touches `rows`. -/
def State.newFrame (s : State) (v : Fin 2) (rows : List Nat) : State :=
  s.onView v fun e w => (w.openingStage1 e).openingStage2 e rows

/-- Stages 7 to 9 of an opening: the plan latched, and the cache cleared and filled again. -/
def State.fresh (s : State) (v : Fin 2) (p : Plan) : State :=
  (s.latched v p).onView v fun e w => (w.clear v).prefetch e 0

theorem State.newFrame_record {s : State} {v : Fin 2} {r : ViewRecord} (rows : List Nat)
    (hr : s.views[v].record = some r) : (s.newFrame v rows).views[v].record = some r ∧
      (s.newFrame v rows).views[v].plan = s.views[v].plan := by
  have hview := State.onView_same s v (fun e w => (w.openingStage1 e).openingStage2 e rows) r hr
  obtain ⟨hplan, hrecord, -, -⟩ := ViewWork.openingStages_spec ⟨v, r, s.timeBase, s.sources⟩ rows
    ⟨s.views[v], s.inflight, [], [], s.draws⟩
  exact ⟨(congrArg View.record hview).trans (hrecord.trans hr), (congrArg View.plan hview).trans hplan⟩

theorem State.leadStages_record {s : State} {v : Fin 2} {r : ViewRecord} (hr : s.views[v].record = some r) :
    (s.leadStages v).views[v].record = some r := by
  rw [State.leadStages_views]
  exact hr

theorem State.openFrame_lead {s : State} {v : Fin 2} {r : ViewRecord} (rows : List Nat)
    (hr : s.views[v].record = some r) (hl : s.isLead v = true) :
    s.openFrame v rows = (((s.newFrame v rows).leadStages v).fresh v
      (((s.newFrame v rows).leadStages v).planAt v r)).requestMirror := by
  have hrec := State.leadStages_record (State.newFrame_record rows hr).1
  have hopen : s.openFrame v rows = (((s.newFrame v rows).leadStages v).latchStages v).requestMirror := by
    unfold State.openFrame
    dsimp only
    rw [hl]
    rfl
  rw [hopen, State.latchStages_of_record hrec]
  rfl

theorem State.openFrame_other {s : State} {v : Fin 2} {r : ViewRecord} (rows : List Nat)
    (hr : s.views[v].record = some r) (hl : s.isLead v = false) :
    s.openFrame v rows = (s.newFrame v rows).fresh v ((s.newFrame v rows).planAt v r) := by
  have hopen : s.openFrame v rows = (s.newFrame v rows).latchStages v := by
    unfold State.openFrame
    dsimp only
    rw [hl]
    rfl
  rw [hopen, State.latchStages_of_record (State.newFrame_record rows hr).1]
  rfl

theorem State.fresh_view {s : State} {v : Fin 2} {r : ViewRecord} (p : Plan) (hr : s.views[v].record = some r) :
    (s.fresh v p).views[v] = { s.views[v] with
      plan := some p
      cache := (s.fresh v p).views[v].cache
      fetchQ := (s.fresh v p).views[v].fetchQ
      markRow := 0 } := by
  have hget : (s.latched v p).views[v] = { s.views[v] with plan := some p } := by
    rw [State.latched, vector_get_set, if_pos rfl]
  have hrec : (s.latched v p).views[v].record = some r := by rw [hget]; exact hr
  have hview := State.onView_same (s.latched v p) v (fun e w => (w.clear v).prefetch e 0) r hrec
  have hout := ViewWork.prefetch_sameOutside ⟨v, r, (s.latched v p).timeBase, (s.latched v p).sources⟩ 0
    (ViewWork.clear v ⟨(s.latched v p).views[v], (s.latched v p).inflight, [], [], (s.latched v p).draws⟩)
  rw [← hview] at hout
  refine Eq.trans hout ?_
  simp only [ViewWork.clear, hget]
  rfl

/-- The lead view is view 0, or view 1 when view 0 is not enabled. -/
theorem State.isLead_iff {s : State} {v : Fin 2} (h : s.views[v].state ≠ .disabled) :
    s.isLead v = true ↔ v = 0 ∨ s.views[(0 : Fin 2)].state = .disabled := by
  have henabled := View.enabled_of_ne h
  unfold State.isLead
  rcases Fin.exists_fin_two.mp ⟨v, rfl⟩ with rfl | rfl
  · simp only [List.find?_cons, henabled, beq_self_eq_true, true_or]
  · cases h0 : s.views[(0 : Fin 2)].enabled with
    | true =>
      have hne : s.views[(0 : Fin 2)].state ≠ .disabled := fun hd => by
        rw [(View.enabled_eq_false_iff _).mpr hd] at h0
        cases h0
      simp only [List.find?_cons, h0, hne, or_false]
      decide
    | false =>
      have hd := (View.enabled_eq_false_iff _).mp h0
      simp only [List.find?_cons, h0, henabled, hd, or_true, beq_self_eq_true]

/-- The state after view `v` has taken read `r` and its counts have settled. -/
def State.taken (s : State) (v : Fin 2) (r : ReadReq) (rows : List Nat) : State :=
  (s.onView v fun e w => w.acceptRead e r rows).settleAges

theorem exec_apertureRead {s : State} {r : ReadReq} {b l : Nat} {v : Fin 2} {a : Bool} {rec : ViewRecord}
    (hwf : r.wf = true) (hq : s.quiet) (hw : s.windowAt r.addr = some ⟨b, l, .aperture v, a⟩)
    (hr : s.views[v].record = some rec) (hh : s.views[v].held.length < 8) :
    exec (.apertureRead r) s = .next (State.taken (if s.views[v].opensFrame (rec.touched r) then
      s.openFrame v (rec.touched r) else s) v r (rec.touched r)) := by
  rw [exec_read_accepted rfl hwf hq (State.canAcceptRead_of_view (State.apertureAt_of_aperture hw) hh),
    State.acceptRead_of_aperture hw]
  simp only [State.acceptAperture, hr]
  rfl

theorem State.taken_view {s : State} {v : Fin 2} {rec : ViewRecord} (r : ReadReq) (rows : List Nat)
    (hr : s.views[v].record = some rec) :
    (s.taken v r rows).views[v] = ((s.workOf v).acceptRead (s.envOf v rec) r rows).view := by
  rw [State.taken, State.settleAges_views]
  exact State.onView_same s v (fun e w => w.acceptRead e r rows) rec hr

theorem State.taken_plan {s : State} {v : Fin 2} {rec : ViewRecord} (r : ReadReq) (rows : List Nat)
    (hr : s.views[v].record = some rec) : (s.taken v r rows).views[v].plan = s.views[v].plan := by
  rw [State.taken_view r rows hr]
  exact (ViewWork.acceptRead_spec (s.envOf v rec) r rows (s.workOf v)).1

/-! ### A mirror that waits stays -/

theorem Report.mirror_mem_raise {r : Report} (now : Word) (e : Event) (h : OutItem.mirror ∈ r.output) :
    OutItem.mirror ∈ (r.raise now e).output := by
  unfold Report.raise
  split
  · exact h
  · split
    · exact List.mem_append_left _ h
    · exact h

theorem State.mirror_mem_raiseAll {s : State} (es : List Event) (h : OutItem.mirror ∈ s.report.output) :
    OutItem.mirror ∈ (s.raiseAll es).report.output := by
  induction es generalizing s with
  | nil => exact h
  | cons e es ih =>
    refine ih ?_
    unfold State.raise
    split
    · exact Report.mirror_mem_raise _ e h
    · exact h

theorem State.mirror_mem_taken {s : State} (v : Fin 2) (r : ReadReq) (rows : List Nat)
    (h : OutItem.mirror ∈ s.report.output) : OutItem.mirror ∈ (s.taken v r rows).report.output := by
  unfold State.taken State.onView
  rw [State.settleAges_report]
  split
  · exact h
  · exact State.mirror_mem_raiseAll _ h

/-- Settles O16: the stages of an opening from their definitions, each in its place. -/
theorem openingRuns : Obligations.OpeningRuns := by
  unfold Obligations.OpeningRuns
  refine ⟨?_, ?_, ?_, ?_⟩
  · intro s r b l v a rec hwf hq hw hr hh rows old taken opens
    have hexec := exec_apertureRead hwf hq hw hr hh
    have hopens : s.views[v].opensFrame rows = true ↔ opens := View.opensFrame_iff rows hr
    refine ⟨fun hno => ?_, fun hyes => ?_⟩
    · rw [hexec, if_neg (fun h => hno (hopens.mp h))]
      rfl
    · rw [if_pos (hopens.mpr hyes)] at hexec
      intro s2 lead opened
      have henabled : s.views[v].state ≠ .disabled := by
        rcases hyes.2 with h | ⟨f, h, -⟩ <;> rw [h] <;> intro hn <;> cases hn
      obtain ⟨hrec2, hplan2⟩ := State.newFrame_record rows hr
      have hplanOf {s6 : State} (hp : s6.views[v].plan = old) : s6.planAt v rec = latchPlan rec
          s6.views[v].framesOpened s6.views[v].degrade old s6.sources s6.cal.active s6.zoom s6.handoff := by
        rw [State.planAt, hp]
      have hopened {s6 : State} (hrec : s6.views[v].record = some rec) (hp : s6.views[v].plan = old)
          (mirror : Report → Report)
          (hx : exec (.apertureRead r) s = .next (State.taken { s6.fresh v (s6.planAt v rec) with
            report := mirror (s6.fresh v (s6.planAt v rec)).report } v r rows)) : opened s6 mirror := by
        have hfresh := State.fresh_view (s6.planAt v rec) hrec
        rw [hplanOf hp] at hx hfresh
        simp only [State.fresh, State.latched, hp] at hx hfresh
        refine ⟨hx, ?_, ?_, ?_, ?_⟩
        · refine (State.taken_plan (rec := rec) r rows ?_).trans ?_
          · exact (congrArg View.record hfresh).trans hrec
          · exact congrArg View.plan hfresh
        · simp only [taken, State.settleAges_zoom, State.onView_zoom]
        · simp only [taken, State.settleAges_handoff, State.onView_handoff]
        · simp only [taken, State.settleAges_cal, State.onView_cal]
      refine ⟨fun hl => ?_, fun hl => ?_⟩
      · rw [State.openFrame_lead rows hr ((State.isLead_iff henabled).mpr hl)] at hexec
        refine ⟨hopened (State.leadStages_record hrec2) ?_ _ hexec, fun t ht => ?_⟩
        · rw [State.leadStages_views]
          exact hplan2
        · rw [hexec] at ht
          cases ht
          exact State.mirror_mem_taken v r rows (Report.requestMirror_mem _)
      · have hnot : s.isLead v = false := by
          rw [← Bool.not_eq_true, State.isLead_iff henabled]
          exact hl
        rw [State.openFrame_other rows hr hnot] at hexec
        exact ⟨hopened hrec2 hplan2 id hexec, State.onView_zoom .., State.onView_handoff .., State.onView_cal ..⟩
  · intro e w r rows needed
    exact ⟨ViewWork.acceptRead_idle r rows, fun f hw =>
      ⟨ViewWork.acceptRead_stays rows hw, ViewWork.acceptRead_closes rows hw⟩⟩
  · intro e w filled cleared limit
    refine ⟨w.flushReads_held e, (w.flushReads_outside e _).1, fun h hs y ys hw hr hn => ?_,
      ViewWork.openingStage1_other, fun f hw => ?_, fun rows => rfl⟩
    · have := ViewWork.flushReads_first (e := e) (w := w) (hs := hs) hr hn
      rwa [← hw] at this
    · obtain ⟨-, hdegrade, -, hevent⟩ := w.flushReads_own e w.view.held f hw
      exact ⟨ViewWork.openingStage1_opened hw, hdegrade, hevent⟩
  · intro e f w v closed clean
    exact ⟨ViewWork.closeFrame_full, ViewWork.closeFrame_unclean, ViewWork.closeFrame_clean,
      ViewWork.closeFrame_eighth⟩

end Sys2Proof.Machine
end

section
/-! PROOFS. An aperture read in its view: what an opening and a read that stays leave (O13, O15). -/

namespace Sys2Proof.Machine

/-! ### The channels -/

theorem State.onView_up {s : State} {v : Fin 2} {r : ViewRecord} (f : ViewEnv → ViewWork → ViewWork)
    (hr : s.views[v].record = some r) : (s.onView v f).up =
      { s.up with responses := s.up.responses ++ (f (s.envOf v r) (s.workOf v)).answers } := by
  rw [State.onView_of_record f hr, State.raiseAll_up]
  rfl

theorem State.taken_up {s : State} {v : Fin 2} {rec : ViewRecord} (r : ReadReq) (rows : List Nat)
    (hr : s.views[v].record = some rec) : (s.taken v r rows).up =
      { s.up with responses := s.up.responses ++ ((s.workOf v).acceptRead (s.envOf v rec) r rows).answers } := by
  rw [State.taken, State.settleAges_up]
  exact State.onView_up (fun e w => w.acceptRead e r rows) hr

/-! ### Stage 1 -/

theorem ViewState.opened_or (s : ViewState) : (∃ f, s = .opened f) ∨ ∀ f, s ≠ .opened f := by
  cases s with
  | opened f => exact .inl ⟨f, rfl⟩
  | idle => exact .inr fun f h => by cases h
  | disabled => exact .inr fun f h => by cases h

theorem ViewWork.openingStage1_answers (e : ViewEnv) (w : ViewWork) : (w.openingStage1 e).answers =
    w.answers ++ w.view.held.map fun h => e.conf.fillAnswer h.req := by
  rcases w.view.state.opened_or with ⟨f, hf⟩ | hno
  · rw [ViewWork.openingStage1_opened hf]
    exact (ViewWork.closeFrame_outside e _ _).1.trans (w.flushReads_outside e _).1
  · rw [ViewWork.openingStage1_other hno]
    exact (w.flushReads_outside e _).1

/-- Stage 1 empties the queue, clears the raised flags, and of the rest moves only what the close examines and
the total. -/
theorem ViewWork.openingStage1_view (e : ViewEnv) (w : ViewWork) : (w.openingStage1 e).view = { w.view with
    held := []
    state := (w.openingStage1 e).view.state
    degrade := (w.openingStage1 e).view.degrade
    cleanRun := (w.openingStage1 e).view.cleanRun
    warnedRun := (w.openingStage1 e).view.warnedRun
    saturated := (w.openingStage1 e).view.saturated
    totalUnderruns := (w.flushReads e w.view.held).view.totalUnderruns
    underrunRaised := false
    fetchErrorRaised := false
    warnRaised := false } := by
  have hflush := w.flushReads_view e w.view.held
  rw [List.drop_length] at hflush
  rcases w.view.state.opened_or with ⟨f, hf⟩ | hno
  · rw [ViewWork.openingStage1_opened hf]
    simp only [ViewWork.clearRaised]
    rw [ViewWork.closeFrame_view, hflush]
    rfl
  · rw [ViewWork.openingStage1_other hno]
    simp only [ViewWork.clearRaised]
    rw [hflush]

/-- Out of a frame, stage 1 leaves what a close examines. -/
theorem ViewWork.openingStage1_runs_other {e : ViewEnv} {w : ViewWork} (hw : ∀ f, w.view.state ≠ .opened f) :
    (w.openingStage1 e).view.warnedRun = w.view.warnedRun ∧
      (w.openingStage1 e).view.degrade = w.view.degrade ∧
      (w.openingStage1 e).view.cleanRun = w.view.cleanRun := by
  obtain ⟨-, hdegrade, hrun⟩ := w.flushReads_other e w.view.held hw
  rw [ViewWork.openingStage1_other hw]
  refine ⟨?_, hdegrade, hrun⟩
  simp only [ViewWork.clearRaised]
  rw [ViewWork.flushReads_view]

/-- In a frame, stage 1 examines it with the underruns of its own reads. -/
theorem ViewWork.openingStage1_runs_own {e : ViewEnv} {w : ViewWork} {f : FrameRecord}
    (hw : w.view.state = .opened f) :
    let underruns := f.underruns + ownReads w.view.held f.number
    let entered := w.view.degrade = .full ∧ f.underruns < e.conf.underrunLimit ∧
      e.conf.underrunLimit ≤ underruns
    let clean := underruns = 0 ∧ f.warned = false
    (w.openingStage1 e).view.warnedRun = (if f.warned then min 6 (w.view.warnedRun + 1) else 0) ∧
      (w.openingStage1 e).view.degrade =
        (if entered then .single
        else if w.view.degrade = .single ∧ clean ∧ w.view.cleanRun = 7 then .full else w.view.degrade) ∧
      (w.openingStage1 e).view.cleanRun =
        (if entered then 0
        else if w.view.degrade = .full then w.view.cleanRun
        else if clean ∧ w.view.cleanRun ≠ 7 then w.view.cleanRun + 1 else 0) := by
  intro underruns entered clean
  obtain ⟨-, hdegrade, hrun, -⟩ := w.flushReads_own e w.view.held f hw
  obtain ⟨hd, hc⟩ := (w.flushReads e w.view.held).closeFrame_degrade e { f with underruns := underruns }
  rw [ViewWork.openingStage1_opened hw]
  refine ⟨?_, ?_⟩
  · simp only [ViewWork.clearRaised]
    rw [ViewWork.closeFrame_view, ViewWork.flushReads_view]
    rfl
  by_cases he : entered
  · have hdirty : ¬ clean := fun h => by have := he.2.1; have := he.2.2; have := h.1; omega
    rw [if_pos he] at hdegrade hrun
    rw [hdegrade, if_neg fun h => hdirty h.2.1] at hd
    rw [hdegrade, if_neg (by intro h; cases h), if_neg fun h => hdirty h.1] at hc
    rw [if_pos he, if_pos he]
    exact ⟨hd, hc⟩
  · rw [if_neg he] at hdegrade hrun
    rw [hdegrade, hrun] at hd hc
    rw [if_neg he, if_neg he]
    exact ⟨hd, hc⟩

/-! ### A read taken -/

/-- The read joined to its queue, and the frame closed if it covers its last byte. -/
def ViewWork.entered (e : ViewEnv) (r : ReadReq) (rows : List Nat) (w : ViewWork) : ViewWork :=
  (w.join e r rows).closeNormal e r

theorem ViewWork.acceptRead_eq (e : ViewEnv) (r : ReadReq) (rows : List Nat) (w : ViewWork) :
    w.acceptRead e r rows = ((w.entered e r rows).answerAll e).demandPass e := rfl

theorem ViewWork.acceptRead_answering (e : ViewEnv) (r : ReadReq) (rows : List Nat) (w : ViewWork) :
    (w.entered e r rows).Answering (w.acceptRead e r rows) :=
  (ViewWork.answerAll_answering e _).trans (ViewWork.demandPass_answering e _)

theorem ViewWork.closeNormal_view (e : ViewEnv) (r : ReadReq) (w : ViewWork) :
    (w.closeNormal e r).view = { w.view with
      state := (w.closeNormal e r).view.state
      degrade := (w.closeNormal e r).view.degrade
      cleanRun := (w.closeNormal e r).view.cleanRun
      warnedRun := (w.closeNormal e r).view.warnedRun
      saturated := (w.closeNormal e r).view.saturated
      underrunRaised := (w.closeNormal e r).view.underrunRaised
      fetchErrorRaised := (w.closeNormal e r).view.fetchErrorRaised } ∧
    (w.view.underrunRaised = false → (w.closeNormal e r).view.underrunRaised = false) ∧
    (w.closeNormal e r).answers = w.answers := by
  unfold ViewWork.closeNormal
  split
  · split
    · refine ⟨?_, fun _ => ?_, (ViewWork.closeFrame_outside e _ _).1⟩
      · rw [ViewWork.closeFrame_view]
        rfl
      · rw [ViewWork.closeFrame_view]
        rfl
    · exact ⟨rfl, id, rfl⟩
  · exact ⟨rfl, id, rfl⟩
  · exact ⟨rfl, id, rfl⟩

theorem ViewWork.entered_view (e : ViewEnv) (r : ReadReq) (rows : List Nat) (w : ViewWork) :
    (∃ h : HeldRead, h.req = r ∧ (w.entered e r rows).view.held = w.view.held ++ [h]) ∧
      (w.entered e r rows).answers = w.answers ∧
      (w.entered e r rows).view.framesOpened = w.view.framesOpened ∧
      (w.entered e r rows).view.plan = w.view.plan ∧
      (w.entered e r rows).view.totalUnderruns = w.view.totalUnderruns ∧
      (w.view.underrunRaised = false → (w.entered e r rows).view.underrunRaised = false) := by
  obtain ⟨hview, hraised, hans⟩ := (w.join e r rows).closeNormal_view e r
  exact ⟨⟨_, rfl, congrArg View.held hview⟩, hans, (congrArg View.framesOpened hview).trans rfl,
    (congrArg View.plan hview).trans rfl, (congrArg View.totalUnderruns hview).trans rfl, hraised⟩

/-- A read taken leaves the frame count, the plan and the total. -/
theorem ViewWork.acceptRead_marks (e : ViewEnv) (r : ReadReq) (rows : List Nat) (w : ViewWork) :
    (w.acceptRead e r rows).view.framesOpened = w.view.framesOpened ∧
      (w.acceptRead e r rows).view.plan = w.view.plan ∧
      (w.acceptRead e r rows).view.totalUnderruns = w.view.totalUnderruns ∧
      (w.view.underrunRaised = false → (w.acceptRead e r rows).view.underrunRaised = false) := by
  have hanswers := w.acceptRead_answering e r rows
  obtain ⟨-, -, hcount, hplan, htotal, hraised⟩ := w.entered_view e r rows
  exact ⟨hanswers.framesOpened.trans hcount, hanswers.plan.trans hplan, hanswers.totalUnderruns.trans htotal,
    fun h => hanswers.underrunRaised.trans (hraised h)⟩

/-- The answers of a read taken: OKAY, and one for each read that left the queue. -/
theorem ViewWork.acceptRead_new (e : ViewEnv) (r : ReadReq) (rows : List Nat) (w : ViewWork) :
    ∃ new, (w.acceptRead e r rows).answers = w.answers ++ new ∧
      (∀ x ∈ new, x.code = .okay ∧ x.isRead = true) ∧
      new.length + (w.acceptRead e r rows).view.held.length = w.view.held.length + 1 := by
  obtain ⟨⟨h, -, hheld⟩, hans, -⟩ := w.entered_view e r rows
  obtain ⟨new, hnew, hokay, hlen⟩ := (w.entered e r rows).answerAll_new e
  obtain ⟨hheld', hans'⟩ := ((w.entered e r rows).answerAll e).demandPass_sameReads e
  rw [ViewWork.acceptRead_eq, hheld', hans']
  refine ⟨new, hnew.trans (congrArg (· ++ new) hans), hokay, hlen.trans ?_⟩
  rw [hheld, List.length_append]
  rfl

/-- A read taken by an empty queue is answered, or is the one read held. -/
theorem ViewWork.acceptRead_first {e : ViewEnv} {r : ReadReq} {rows : List Nat} {w : ViewWork}
    (hw : w.view.held = []) :
    (∃ data, (w.acceptRead e r rows).view.held = [] ∧
      (w.acceptRead e r rows).answers = w.answers ++ [okayAnswer r data]) ∨
    (∃ h : HeldRead, h.req = r ∧ (w.acceptRead e r rows).view.held = [h] ∧
      (w.acceptRead e r rows).answers = w.answers) := by
  obtain ⟨⟨h, hreq, hheld⟩, hans, -⟩ := w.entered_view e r rows
  rw [hw, List.nil_append] at hheld
  obtain ⟨hheld', hans'⟩ := ((w.entered e r rows).answerAll e).demandPass_sameReads e
  rw [ViewWork.acceptRead_eq, hheld', hans']
  cases ha : (w.entered e r rows).view.answerable h with
  | none =>
    have hstay : (w.entered e r rows).answerAll e = w.entered e r rows :=
      ViewWork.answerReads_waits _ hheld ha
    rw [hstay]
    exact .inr ⟨h, hreq, hheld, hans⟩
  | some kind =>
    obtain ⟨htail, data, hdata⟩ := (w.entered e r rows).answerHead_answers e h kind
    rw [ViewWork.answerAll_single hheld ha, htail, hdata, hheld, hans, hreq]
    exact .inl ⟨data, rfl, rfl⟩

/-- A read that does not cover the last byte stays in its frame. -/
theorem ViewWork.acceptRead_stays_state {e : ViewEnv} {r : ReadReq} {w : ViewWork} {f : FrameRecord}
    (rows : List Nat) (hw : w.view.state = .opened f) (hl : e.conf.coversLast r = false) :
    (∃ g : FrameRecord, (w.acceptRead e r rows).view.state = .opened g ∧ g.number = f.number ∧
      g.highest = max f.highest (highestRow rows) ∧ g.underruns = f.underruns ∧ g.idleLoad = e.now) ∧
    (w.acceptRead e r rows).view.warnedRun = w.view.warnedRun ∧
    (w.acceptRead e r rows).view.degrade = w.view.degrade ∧
    (w.acceptRead e r rows).view.cleanRun = w.view.cleanRun := by
  have hanswers : (w.joined e r rows f).Answering (w.acceptRead e r rows) := by
    rw [ViewWork.acceptRead_stays rows hw hl]
    exact (ViewWork.answerAll_answering e _).trans (ViewWork.demandPass_answering e _)
  refine ⟨?_, hanswers.warnedRun, hanswers.degrade, hanswers.cleanRun⟩
  rcases hanswers.state with h | ⟨g, hg, h⟩
  · exact ⟨_, h, rfl, rfl, rfl, rfl⟩
  · cases hg
    exact ⟨_, h, rfl, rfl, rfl, rfl⟩

/-- A read that covers the last byte closes its frame. -/
theorem ViewWork.acceptRead_closes_state {e : ViewEnv} {r : ReadReq} {w : ViewWork} {f : FrameRecord}
    (rows : List Nat) (hw : w.view.state = .opened f) (hl : e.conf.coversLast r = true) :
    (w.acceptRead e r rows).view.state = .idle := by
  have hanswers := (ViewWork.answerAll_answering e ((w.joined e r rows f).closeFrame e
    { f with highest := max f.highest (highestRow rows), idleLoad := e.now })).trans
    (ViewWork.demandPass_answering e _)
  have hidle : ((w.joined e r rows f).closeFrame e
      { f with highest := max f.highest (highestRow rows), idleLoad := e.now }).view.state = .idle := by
    rw [ViewWork.closeFrame_view]
    rfl
  rw [ViewWork.acceptRead_closes rows hw hl]
  rcases hanswers.state with h | ⟨g, hg, -⟩
  · exact h.trans hidle
  · rw [hidle] at hg
    cases hg

/-! ### The view and the channels after an opening -/

/-- The work of view `v` after stages 1 and 2 of an opening. -/
def State.newFrameWork (s : State) (v : Fin 2) (r : ViewRecord) (rows : List Nat) : ViewWork :=
  ((s.workOf v).openingStage1 (s.envOf v r)).openingStage2 (s.envOf v r) rows

section
variable {s : State} {v : Fin 2} {r : ViewRecord} (rows : List Nat) (hr : s.views[v].record = some r)
include hr

theorem State.newFrame_view : (s.newFrame v rows).views[v] = (s.newFrameWork v r rows).view :=
  State.onView_same s v _ r hr

theorem State.newFrame_up : (s.newFrame v rows).up = { s.up with
    responses := s.up.responses ++ s.views[v].held.map fun h => r.fillAnswer h.req } := by
  refine (State.onView_up _ hr).trans ?_
  have hans := (s.workOf v).openingStage1_answers (s.envOf v r)
  simp only [ViewWork.openingStage2, hans]
  rfl

theorem State.fresh_up (p : Plan) : (s.fresh v p).up = s.up := by
  have hget : (s.latched v p).views[v].record = some r := by
    rw [State.latched, vector_get_set, if_pos rfl]
    exact hr
  refine (State.onView_up _ hget).trans ?_
  simp only [ViewWork.prefetch, ViewWork.clear, State.workOf, List.append_nil]
  rfl

/-- What an opening leaves of its view: the new frame's, under the new plan, its cache cleared. -/
theorem State.openFrame_view : ∃ p cache fetchQ, (s.openFrame v rows).views[v] =
    { (s.newFrameWork v r rows).view with plan := some p, cache := cache, fetchQ := fetchQ, markRow := 0 } := by
  obtain ⟨hrec, -⟩ := State.newFrame_record rows hr
  have hview := State.newFrame_view rows hr
  have hfresh {t : State} (ht : t.views[v] = (s.newFrame v rows).views[v]) (p : Plan) :
      ∃ q cache fetchQ, (t.fresh v p).views[v] = { (s.newFrameWork v r rows).view with
        plan := some q, cache := cache, fetchQ := fetchQ, markRow := 0 } :=
    ⟨p, (t.fresh v p).views[v].cache, (t.fresh v p).views[v].fetchQ,
      (State.fresh_view (r := r) p (by rw [ht]; exact hrec)).trans (by rw [ht, hview])⟩
  cases hl : s.isLead v with
  | true =>
    rw [State.openFrame_lead rows hr hl, State.requestMirror_views]
    exact hfresh (t := (s.newFrame v rows).leadStages v) (by rw [State.leadStages_views]) _
  | false =>
    rw [State.openFrame_other rows hr hl]
    exact hfresh (t := s.newFrame v rows) rfl _

theorem State.openFrame_up : (s.openFrame v rows).up = { s.up with
    responses := s.up.responses ++ s.views[v].held.map fun h => r.fillAnswer h.req } := by
  obtain ⟨hrec, -⟩ := State.newFrame_record rows hr
  cases hl : s.isLead v with
  | true =>
    rw [State.openFrame_lead rows hr hl, State.requestMirror_up, State.fresh_up (State.leadStages_record hrec),
      State.leadStages_up, State.newFrame_up rows hr]
  | false =>
    rw [State.openFrame_other rows hr hl, State.fresh_up hrec, State.newFrame_up rows hr]

theorem State.openingPlan_number : (s.openingPlan v rows r).number = s.views[v].framesOpened + 1 := by
  have hnumber : (s.openingPlan v rows r).number = (s.beforeLatch v rows).views[v].framesOpened := rfl
  have hviews : (s.beforeLatch v rows).views = (s.newFrame v rows).views := by
    unfold State.beforeLatch State.newFrame
    dsimp only
    split
    · exact State.leadStages_views ..
    · rfl
  have hstage := (s.workOf v).openingStage1_view (s.envOf v r)
  rw [hnumber, hviews, State.newFrame_view rows hr, State.newFrameWork]
  simp only [ViewWork.openingStage2]
  rw [hstage]
  rfl

end

end Sys2Proof.Machine
end

section
/-! PROOFS. Aperture reads handed to their view, opening a frame or staying in one (O13, O15). -/

namespace Sys2Proof.Machine

section
variable {s : State} {v : Fin 2} {rec : ViewRecord} (rows : List Nat) (hr : s.views[v].record = some rec)
include hr

/-- The view after an opening: OPEN in the next frame, with nothing held and the raised flags clear, and with
what stage 1 leaves of the counts. -/
theorem State.openFrame_fields :
    let u := (s.openFrame v rows).views[v]
    let one := (s.workOf v).openingStage1 (s.envOf v rec)
    u.state = .opened ⟨s.views[v].framesOpened + 1, highestRow rows, 0, false, s.timeBase⟩ ∧ u.held = [] ∧
      u.totalUnderruns = ((s.workOf v).flushReads (s.envOf v rec) s.views[v].held).view.totalUnderruns ∧
      u.underrunRaised = false ∧ u.warnedRun = one.view.warnedRun ∧ u.degrade = one.view.degrade ∧
      u.cleanRun = one.view.cleanRun := by
  intro u one
  obtain ⟨p, cache, fetchQ, hview⟩ := State.openFrame_view rows hr
  have hone := (s.workOf v).openingStage1_view (s.envOf v rec)
  have hu : u = { one.view with
      framesOpened := one.view.framesOpened + 1
      state := .opened ⟨one.view.framesOpened + 1, highestRow rows, 0, false, s.timeBase⟩
      plan := some p, cache := cache, fetchQ := fetchQ, markRow := 0 } := hview
  have hcount : one.view.framesOpened = s.views[v].framesOpened := (congrArg View.framesOpened hone).trans rfl
  rw [hu]
  refine ⟨?_, (congrArg View.held hone).trans rfl, (congrArg View.totalUnderruns hone).trans rfl,
    (congrArg View.underrunRaised hone).trans rfl, rfl, rfl, rfl⟩
  rw [hcount]

end

/-- Settles O13: the queue answers or holds every read given to it, one OKAY answer for each that leaves. -/
theorem apertureReadHandedToView : Obligations.ApertureReadHandedToView := by
  unfold Obligations.ApertureReadHandedToView
  refine ⟨?_, ?_⟩
  · intro s r b l v a rec hwf hq hw hr hh
    have hother := (s.acceptAperture_views v r).2.2.2
    have haccept : s.acceptAperture v r = (if s.views[v].opensFrame (rec.touched r) then
        s.openFrame v (rec.touched r) else s).onView v fun e w => w.acceptRead e r (rec.touched r) := by
      simp only [State.acceptAperture, hr]
    have hexec : exec (.apertureRead r) s = .next (s.acceptAperture v r).settleAges := by
      rw [exec_apertureRead hwf hq hw hr hh, haccept]
      rfl
    have hnew : ∃ new, (s.acceptAperture v r).up = { s.up with responses := s.up.responses ++ new } ∧
        (∀ x ∈ new, x.code = .okay ∧ x.isRead = true) ∧
        new.length + (s.acceptAperture v r).views[v].held.length = s.views[v].held.length + 1 := by
      rw [haccept]
      by_cases ho : s.views[v].opensFrame (rec.touched r) = true
      · rw [if_pos ho]
        have hrec := (s.openFrame_spec v (rec.touched r) rec hr).2.1
        obtain ⟨-, hnil, -⟩ := State.openFrame_fields (rec.touched r) hr
        obtain ⟨new, hans, hokay, hlen⟩ := ((s.openFrame v (rec.touched r)).workOf v).acceptRead_new
          ((s.openFrame v (rec.touched r)).envOf v rec) r (rec.touched r)
        have hup := State.onView_up (fun e w => w.acceptRead e r (rec.touched r)) hrec
        have hview := State.onView_same (s.openFrame v (rec.touched r)) v
          (fun e w => w.acceptRead e r (rec.touched r)) rec hrec
        refine ⟨(s.views[v].held.map fun h => rec.fillAnswer h.req) ++ new, ?_, fun x hx => ?_, ?_⟩
        · rw [hup, hans, State.openFrame_up (rec.touched r) hr]
          simp only [List.append_assoc]
          rfl
        · rcases List.mem_append.mp hx with hx | hx
          · obtain ⟨h, -, rfl⟩ := List.mem_map.mp hx
            exact ⟨rfl, rfl⟩
          · exact hokay x hx
        · rw [congrArg View.held hview, List.length_append, List.length_map]
          have hlen' : new.length + (((s.openFrame v (rec.touched r)).workOf v).acceptRead
              ((s.openFrame v (rec.touched r)).envOf v rec) r (rec.touched r)).view.held.length = 1 := by
            rw [hlen, show ((s.openFrame v (rec.touched r)).workOf v).view.held = [] from hnil, List.length_nil]
          exact (Nat.add_assoc ..).trans (congrArg (s.views[v].held.length + ·) hlen')
      · rw [if_neg ho]
        obtain ⟨new, hans, hokay, hlen⟩ := (s.workOf v).acceptRead_new (s.envOf v rec) r (rec.touched r)
        have hview := State.onView_same s v (fun e w => w.acceptRead e r (rec.touched r)) rec hr
        refine ⟨new, ?_, hokay, ?_⟩
        · rw [State.onView_up _ hr, hans]
          rfl
        · rw [congrArg View.held hview]
          exact hlen
    obtain ⟨new, hup, hokay, hlen⟩ := hnew
    exact ⟨_, new, hexec, s.acceptAperture_passQueue v r, s.acceptAperture_memRequests v r,
      s.acceptAperture_outstanding v r, s.acceptAperture_cmd v r, s.acceptAperture_windows v r,
      s.acceptAperture_timeBase v r, s.acceptAperture_phase v r, hother, hup, hokay, hlen⟩
  · intro s r b l v a rec hwf hq hw hr hidle hplan hheld hzero
    have hno : ¬ s.views[v].opensFrame (rec.touched r) = true := by
      rw [View.opensFrame_iff _ hr, hzero]
      rintro ⟨h, -⟩
      cases h
    have hsingle : s.views[v].held.length < 8 := by rw [hheld]; decide
    rw [exec_apertureRead hwf hq hw hr hsingle, if_neg hno]
    refine congrArg Host.Outcome.next (congrArg State.settleAges ?_)
    have htaken : (s.workOf v).acceptRead (s.envOf v rec) r (rec.touched r) =
        { s.workOf v with answers := [rec.fillAnswer r] } := by
      rw [ViewWork.acceptRead_idle r (rec.touched r) (show (s.workOf v).view.state = .idle from hidle)]
      generalize hjoin : (⟨r, (s.envOf v rec).now, none, rec.touched r,
        neededRows (s.envOf v rec) (s.workOf v).view.plan (rec.touched r), false⟩ : HeldRead) = h
      have hreq : h.req = r := by rw [← hjoin]
      have hheld' : (s.workOf v).view.held ++ [h] = [h] := by
        rw [show (s.workOf v).view.held = [] from hheld, List.nil_append]
      rw [hheld']
      have hanswer : ∃ kind, (kind = AnswerKind.zeros ∨ kind = AnswerKind.fill) ∧
          View.answerable { (s.workOf v).view with held := [h] } h = some kind := by
        by_cases hrows : h.rows = []
        · exact ⟨_, .inl rfl, View.answerable_zeros hrows⟩
        · exact ⟨_, .inr rfl, View.answerable_noPlan hrows hplan⟩
      obtain ⟨kind, hkind, ha⟩ := hanswer
      have hview : ({ (s.workOf v).view with held := [] } : View) = (s.workOf v).view := by
        rw [← show (s.workOf v).view.held = [] from hheld]
      have hpass (w : ViewWork) (hw : w.view.held = []) : w.demandPass (s.envOf v rec) = w := by
        simp only [ViewWork.demandPass, hw, List.filter_nil, List.flatMap_nil]
        rfl
      rw [ViewWork.answerAll_single (w := { s.workOf v with
        view := { (s.workOf v).view with held := [h] } }) rfl ha, ViewWork.answerHead_plain _ _ _ hkind, hreq]
      simp only [ViewWork.respond, List.tail_cons]
      rw [hview, hpass { s.workOf v with answers := _ } hheld, hpass _ hheld]
      rfl
    have hstep := State.onView_of_record (fun e w => w.acceptRead e r (rec.touched r)) hr
    rw [htaken] at hstep
    refine hstep.trans ?_
    have hviews : s.views.set v.val s.views[v] v.isLt = s.views := by simp
    simp only [State.putWork, State.workOf, State.raiseAll, List.foldl_nil, hviews]
    rfl

/-! ### What a read taken leaves of the part -/

section
variable (s : State) (v : Fin 2) (r : ReadReq) (rows : List Nat)

theorem State.taken_sources : (s.taken v r rows).sources = s.sources := by
  rw [State.taken, State.settleAges_sources, State.onView_sources]
theorem State.taken_zoom : (s.taken v r rows).zoom = s.zoom := by
  rw [State.taken, State.settleAges_zoom, State.onView_zoom]
theorem State.taken_handoff : (s.taken v r rows).handoff = s.handoff := by
  rw [State.taken, State.settleAges_handoff, State.onView_handoff]
theorem State.taken_cal : (s.taken v r rows).cal = s.cal := by
  rw [State.taken, State.settleAges_cal, State.onView_cal]
theorem State.taken_passQueue : (s.taken v r rows).passQueue = s.passQueue := by
  rw [State.taken, State.settleAges_passQueue, State.onView_passQueue]
theorem State.taken_memRequests : (s.taken v r rows).memRequests = s.memRequests := by
  rw [State.taken, State.settleAges_memRequests, State.onView_memRequests]
theorem State.taken_other {u : Fin 2} (hu : u ≠ v) : (s.taken v r rows).views[u] = s.views[u] := by
  rw [State.taken, State.settleAges_views]
  exact s.onView_other v u _ hu

end

section
variable {s : State} {v : Fin 2} {rec : ViewRecord} (r : ReadReq) (rows : List Nat)
  (hr : s.views[v].record = some rec)
include hr

/-- A read taken leaves the frame count, the plan and the total of its view. -/
theorem State.taken_marks : (s.taken v r rows).views[v].framesOpened = s.views[v].framesOpened ∧
    (s.taken v r rows).views[v].plan = s.views[v].plan ∧
    (s.taken v r rows).views[v].totalUnderruns = s.views[v].totalUnderruns ∧
    (s.views[v].underrunRaised = false → (s.taken v r rows).views[v].underrunRaised = false) := by
  rw [State.taken_view r rows hr]
  exact (s.workOf v).acceptRead_marks (s.envOf v rec) r rows

/-- A read taken into an open frame without covering its last byte stays in the frame. -/
theorem State.taken_stays {f : FrameRecord} (hf : s.views[v].state = .opened f) (hl : rec.coversLast r = false) :
    (∃ g : FrameRecord, (s.taken v r rows).views[v].state = .opened g ∧ g.number = f.number ∧
      g.highest = max f.highest (highestRow rows) ∧ g.underruns = f.underruns ∧ g.idleLoad = s.timeBase) ∧
    (s.taken v r rows).views[v].warnedRun = s.views[v].warnedRun ∧
    (s.taken v r rows).views[v].degrade = s.views[v].degrade ∧
    (s.taken v r rows).views[v].cleanRun = s.views[v].cleanRun := by
  rw [State.taken_view r rows hr]
  exact ViewWork.acceptRead_stays_state (e := s.envOf v rec) (w := s.workOf v) rows hf hl

theorem State.taken_closes {f : FrameRecord} (hf : s.views[v].state = .opened f) (hl : rec.coversLast r = true) :
    (s.taken v r rows).views[v].state = .idle := by
  rw [State.taken_view r rows hr]
  exact ViewWork.acceptRead_closes_state (e := s.envOf v rec) (w := s.workOf v) rows hf hl

/-- A read taken by an empty queue is answered, or is the one read held. -/
theorem State.taken_first (hnil : s.views[v].held = []) :
    ∃ new, (s.taken v r rows).up.responses = s.up.responses ++ new ∧
      new.length + (s.taken v r rows).views[v].held.length = 1 ∧
      (∀ x ∈ new, x.tag = r.tag ∧ x.num = r.num) ∧ ∀ h ∈ (s.taken v r rows).views[v].held, h.req = r := by
  rw [State.taken_view r rows hr, State.taken_up r rows hr]
  refine ⟨_, rfl, ?_⟩
  rcases ViewWork.acceptRead_first (e := s.envOf v rec) (r := r) (rows := rows) (w := s.workOf v) hnil with
    ⟨data, hheld, hans⟩ | ⟨h, hreq, hheld, hans⟩
  · rw [hheld, hans]
    refine ⟨rfl, fun x hx => ?_, fun h hh => (by cases hh)⟩
    obtain rfl := List.mem_singleton.mp hx
    exact ⟨rfl, rfl⟩
  · rw [hheld, hans]
    refine ⟨rfl, fun x hx => (by cases hx), fun g hg => ?_⟩
    obtain rfl := List.mem_singleton.mp hg
    exact hreq

end

/-- A read that opens no frame of an OPEN view stays in its frame. -/
theorem exec_apertureRead_stays {s : State} {r : ReadReq} {b l : Nat} {v : Fin 2} {a : Bool} {rec : ViewRecord}
    (hwf : r.wf = true) (hq : s.quiet) (hw : s.windowAt r.addr = some ⟨b, l, .aperture v, a⟩)
    (hr : s.views[v].record = some rec) (hh : s.views[v].held.length < 8) {f : FrameRecord}
    (hf : s.views[v].state = .opened f)
    (hno : (rec.touched r).contains 0 = false ∨ f.highest < rec.height / 2) :
    exec (.apertureRead r) s = .next (s.taken v r (rec.touched r)) := by
  have hstay : ¬ s.views[v].opensFrame (rec.touched r) = true := by
    rw [View.opensFrame_iff _ hr]
    rintro ⟨hz, hs | ⟨g, hg, hhigh⟩⟩
    · rw [hf] at hs
      cases hs
    · cases hf.symm.trans hg
      rcases hno with hno | hno
      · rw [hno] at hz
        cases hz
      · omega
  rw [exec_apertureRead hwf hq hw hr hh, if_neg hstay]

section
variable {s : State} {v : Fin 2} {rec : ViewRecord} (r : ReadReq) (rows : List Nat)
  (hr : s.views[v].record = some rec)
include hr

/-- The frame, the plan and the pool after an opening and its read. -/
theorem State.openTaken_frame : ∃ p,
    ((s.openFrame v rows).taken v r rows).views[v].framesOpened = s.views[v].framesOpened + 1 ∧
    ((s.openFrame v rows).taken v r rows).views[v].plan = some p ∧ p.number = s.views[v].framesOpened + 1 ∧
    ((s.openFrame v rows).taken v r rows).sources = releasePlan (pinPlan s.sources (some p)) s.views[v].plan ∧
    ((s.openFrame v rows).taken v r rows).passQueue = s.passQueue ∧
    ((s.openFrame v rows).taken v r rows).memRequests = s.memRequests ∧
    ∀ u : Fin 2, u ≠ v → ((s.openFrame v rows).taken v r rows).views[u] = s.views[u] := by
  obtain ⟨hplan, hrec, -, -, hother, hsources⟩ := s.openFrame_spec v rows rec hr
  obtain ⟨hframes, -⟩ := s.openFrame_frame v rows rec hr
  have hpass := s.openFrame_passQueue v rows
  have hmem := s.openFrame_memRequests v rows
  generalize s.openFrame v rows = o at hplan hrec hother hsources hframes hpass hmem ⊢
  obtain ⟨hcount, hplan', -⟩ := State.taken_marks r rows hrec
  exact ⟨s.openingPlan v rows rec, hcount.trans hframes, hplan'.trans hplan, State.openingPlan_number rows hr,
    (o.taken_sources v r rows).trans hsources, (o.taken_passQueue v r rows).trans hpass,
    (o.taken_memRequests v r rows).trans hmem, fun u hu => (o.taken_other v r rows hu).trans (hother u hu)⟩

/-- The answers of an opening and its read. -/
theorem State.openTaken_answers : ∃ new,
    ((s.openFrame v rows).taken v r rows).up.responses =
      s.up.responses ++ (s.views[v].held.map fun h => rec.fillAnswer h.req) ++ new ∧
    new.length + ((s.openFrame v rows).taken v r rows).views[v].held.length = 1 ∧
    (∀ x ∈ new, x.tag = r.tag ∧ x.num = r.num) ∧
    ∀ h ∈ ((s.openFrame v rows).taken v r rows).views[v].held, h.req = r := by
  obtain ⟨-, hrec, -⟩ := s.openFrame_spec v rows rec hr
  obtain ⟨-, hnil, -⟩ := State.openFrame_fields rows hr
  obtain ⟨new, hup, hrest⟩ := State.taken_first r rows hrec hnil
  rw [State.openFrame_up rows hr] at hup
  exact ⟨new, hup, hrest⟩

/-- The total and the raised flag after an opening and its read. -/
theorem State.openTaken_total :
    (s.views[v].totalUnderruns ≤ 65535 → ((s.openFrame v rows).taken v r rows).views[v].totalUnderruns =
      min 65535 (s.views[v].totalUnderruns + s.views[v].held.length)) ∧
    ((s.openFrame v rows).taken v r rows).views[v].underrunRaised = false := by
  obtain ⟨-, hrec, -⟩ := s.openFrame_spec v rows rec hr
  obtain ⟨-, -, htotal, hraised, -⟩ := State.openFrame_fields rows hr
  obtain ⟨-, -, htotal', hraised'⟩ := State.taken_marks r rows hrec
  exact ⟨fun h => htotal'.trans (htotal.trans (ViewWork.flushReads_total _ _ _ h)), hraised' hraised⟩

/-- The new frame, when its read does not close it. -/
theorem State.openTaken_state (hl : rec.coversLast r = false) : ∃ g : FrameRecord,
    ((s.openFrame v rows).taken v r rows).views[v].state = .opened g ∧
      g.number = s.views[v].framesOpened + 1 ∧ g.highest = highestRow rows ∧ g.underruns = 0 ∧
      g.idleLoad = s.timeBase := by
  obtain ⟨-, hrec, -⟩ := s.openFrame_spec v rows rec hr
  obtain ⟨hopen, -⟩ := State.openFrame_fields rows hr
  obtain ⟨⟨g, hg, hnumber, hhighest, hunder, hload⟩, -⟩ := State.taken_stays r rows hrec hopen hl
  exact ⟨g, hg, hnumber, hhighest.trans (Nat.max_self _), hunder, hload.trans (s.openFrame_timeBase v rows)⟩

/-- The warned run and the degrade after an opening are those that stage 1 leaves. -/
theorem State.openTaken_runs (hl : rec.coversLast r = false) :
    let one := (s.workOf v).openingStage1 (s.envOf v rec)
    ((s.openFrame v rows).taken v r rows).views[v].warnedRun = one.view.warnedRun ∧
    ((s.openFrame v rows).taken v r rows).views[v].degrade = one.view.degrade ∧
    ((s.openFrame v rows).taken v r rows).views[v].cleanRun = one.view.cleanRun := by
  intro one
  obtain ⟨-, hrec, -⟩ := s.openFrame_spec v rows rec hr
  obtain ⟨hopen, -, -, -, hwarned, hdegrade, hrun⟩ := State.openFrame_fields rows hr
  obtain ⟨-, hwarned', hdegrade', hrun'⟩ := State.taken_stays r rows hrec hopen hl
  exact ⟨hwarned'.trans hwarned, hdegrade'.trans hdegrade, hrun'.trans hrun⟩

end

/-- Settles O15: the opening by its stages, and the read that stays by its place in the queue. -/
theorem apertureReadOpensOrStaysInFrame : Obligations.ApertureReadOpensOrStaysInFrame := by
  unfold Obligations.ApertureReadOpensOrStaysInFrame
  intro s r b l v a rec hwf hq hw hr hh old rows last
  refine ⟨fun hzero hstate => ?_, fun f hf hno => ?_⟩
  · have hexec := exec_apertureRead hwf hq hw hr hh
    rw [if_pos ((View.opensFrame_iff rows hr).mpr ⟨hzero, hstate⟩)] at hexec
    obtain ⟨p, hcount, hplan, hnumber, hsources, hpass, hmem, hother⟩ := State.openTaken_frame r rows hr
    obtain ⟨new, hresponses, hlen, htags, hheld⟩ := State.openTaken_answers r rows hr
    obtain ⟨htotal, hraised⟩ := State.openTaken_total r rows hr
    refine ⟨_, p, new, hexec, hcount, hplan, hnumber, hsources, hpass, hmem, hother, hresponses, hlen, htags,
      hheld, htotal, State.openTaken_state r rows hr, fun hl hidle => ?_, fun f hl hf => ?_, hraised⟩
    · obtain ⟨hwarned, hdegrade, hrun⟩ := State.openTaken_runs r rows hr hl
      have hother' : ∀ f, (s.workOf v).view.state ≠ .opened f := fun f hf => by
        rw [show (s.workOf v).view.state = .idle from hidle] at hf
        cases hf
      obtain ⟨h1, h2, h3⟩ := ViewWork.openingStage1_runs_other (e := s.envOf v rec) hother'
      exact ⟨hwarned.trans h1, hdegrade.trans h2, hrun.trans h3⟩
    · obtain ⟨hwarned, hdegrade, hrun⟩ := State.openTaken_runs r rows hr hl
      obtain ⟨h1, h2, h3⟩ := ViewWork.openingStage1_runs_own (e := s.envOf v rec) (w := s.workOf v) hf
      exact ⟨hwarned.trans h1, hdegrade.trans h2, hrun.trans h3⟩
  · have hexec := exec_apertureRead_stays hwf hq hw hr hh hf hno
    obtain ⟨hcount, hplan, -⟩ := State.taken_marks r rows hr
    exact ⟨_, hexec, hcount, hplan, s.taken_sources v r rows, s.taken_zoom v r rows, s.taken_handoff v r rows,
      s.taken_cal v r rows, fun hl => (State.taken_stays r rows hr hf hl).1, State.taken_closes r rows hr hf⟩

end Sys2Proof.Machine
end

section
/-! PROOFS. Requests that wait are accepted when room comes (O14). -/

namespace Sys2Proof.Machine

/-! ### One request that waits -/

/-- The one request that waits, a read with room, is accepted. -/
theorem State.acceptWaiting_single {s : State} {r : ReadReq} (hreads : s.up.reads = [r])
    (hwrites : s.up.writes = []) (hc : s.canAcceptRead r = true) :
    s.acceptWaiting = (s.withChannels [] []).acceptRead r := by
  have hone : s.acceptOne = some (s.takeRead r) :=
    State.acceptOne_read hreads hc fun w ws hw => by rw [hwrites] at hw; cases hw
  have htake : s.takeRead r = (s.withChannels [] []).acceptRead r := by
    rw [State.takeRead_eq, hreads, hwrites]
    rfl
  rw [State.acceptWaiting_of_some hone, htake]
  exact State.acceptWaiting_quiet _ ((acceptRead_ignoresChannels r).reads (s.withChannels [] []))
    ((acceptRead_ignoresChannels r).writes (s.withChannels [] []))

theorem State.windowAt_eq_none {s : State} {a : Addr}
    (h : ∀ w ∈ s.windows, w.active = true → w.contains a.toNat = false) : s.windowAt a = none := by
  unfold State.windowAt
  split
  · rw [List.find?_eq_none]
    intro w hw
    cases ha : w.active with
    | false => simp
    | true => simp [h w hw ha]
  · rfl

theorem State.windowAt_of_apertureAt {s : State} {a : Addr} {v : Fin 2} (h : s.apertureAt a = some v) :
    ∃ b l act, s.windowAt a = some ⟨b, l, .aperture v, act⟩ := by
  unfold State.apertureAt at h
  split at h
  · next b l u act hw =>
    cases h
    exact ⟨b, l, act, hw⟩
  · cases h

/-- The one request that waits, a read outside every window, is forwarded when it has room. -/
theorem State.acceptWaiting_forwards {s : State} {r : ReadReq} (hreads : s.up.reads = [r])
    (hwrites : s.up.writes = []) (hno : s.windowAt r.addr = none) (hroom : s.queuedReads < 16) :
    s.acceptWaiting = (s.withChannels [] []).forward (.read r) := by
  rw [State.acceptWaiting_single hreads hwrites
    (State.canAcceptRead_of_queue (State.apertureAt_of_none hno) hroom)]
  exact State.acceptRead_of_none hno

/-! ### Acceptance after a row that makes room -/

section
variable {s : State}

/-- Of several reads held, eight with the first due, an expiry leaves at most seven. -/
theorem State.holdWork_length (v : Fin 2) (r : ViewRecord) (h : HeldRead) (hs : List HeldRead)
    (hr : h.rows ≠ []) : (s.holdWork v r [] h hs).view.held.length ≤ hs.length := by
  rw [s.holdWork_head v r hs h hr]
  generalize hu : ViewWork.underrun ⟨v, r, s.timeBase, s.sources⟩ h
    ⟨{ s.views[v] with held := { h with expired := true } :: hs }, s.inflight, [], [], s.draws⟩ = u
  have hheld : u.view.held = { h with expired := true } :: hs := by rw [← hu, ViewWork.underrun_held]
  obtain ⟨new, -, -, hlen⟩ := ViewWork.answerAll_new ⟨v, r, s.timeBase, s.sources⟩
    (ViewWork.demandPass ⟨v, r, s.timeBase, s.sources⟩ (u.respond (r.fillAnswer h.req)))
  have htail : (ViewWork.demandPass ⟨v, r, s.timeBase, s.sources⟩
      (u.respond (r.fillAnswer h.req))).view.held = hs := by
    rw [(ViewWork.demandPass_sameReads _ _).1, ViewWork.respond, hheld, List.tail_cons]
  rw [htail] at hlen
  omega

/-- A waiting read enters its view when the expiry of the first read held empties a place. -/
theorem exec_holdLimitExpiry_lets {v : Fin 2} {rec : ViewRecord} {h : HeldRead} {hs : List HeldRead}
    {r : ReadReq} (hr : s.views[v].record = some rec) (hheld : s.views[v].held = h :: hs)
    (hlen : (h :: hs).length = 8) (hrows : h.rows ≠ [])
    (hd : s.views[v].holdDue rec.holdLimit s.timeBase h = true) (hreads : s.up.reads = [r])
    (hwrites : s.up.writes = []) (ha : s.apertureAt r.addr = some v) :
    ∃ t, exec (.holdLimitExpiry v) s = .next t ∧ t.up.reads = [] ∧ t.passQueue = s.passQueue := by
  have hstep := State.expireHold_of_due (before := []) (after := hs) hr hheld (by simp) hd
  have hwork := State.holdWork_length (s := s) v rec h hs hrows
  have hview : (s.onView v fun e w => w.expireHold e).views[v] = (s.holdWork v rec [] h hs).view := by
    rw [hstep, State.raiseAll_views, State.putWork, vector_get_set, if_pos rfl]
  generalize ho : (s.onView v fun e w => w.expireHold e) = o at hview
  have hchannels : o.up.reads = [r] ∧ o.up.writes = [] := by
    obtain ⟨h1, h2⟩ := s.onView_channels v fun e w => w.expireHold e
    rw [← ho]
    exact ⟨h1.trans hreads, h2.trans hwrites⟩
  have hwindow (x : Addr) : o.windowAt x = s.windowAt x := by
    rw [← ho, State.windowAt, State.onView_phase, State.onView_windows]
    rfl
  have hpass : o.passQueue = s.passQueue := by rw [← ho]; exact State.onView_passQueue ..
  have hroom : o.canAcceptRead r = true := by
    refine State.canAcceptRead_of_view (v := v) ?_ ?_
    · rw [State.apertureAt, hwindow]
      exact ha
    · rw [hview]
      rw [List.length_cons] at hlen
      omega
  obtain ⟨b, l, act, hw⟩ := State.windowAt_of_apertureAt ha
  have haccept : (o.withChannels [] []).acceptRead r =
      ((o.withChannels [] []).acceptAperture v r).settleAges :=
    State.acceptRead_of_aperture ((hwindow r.addr).trans hw)
  refine ⟨_, (exec_holdLimitExpiry_eq s v).trans (congrArg Host.Outcome.next
    ((congrArg State.acceptWaiting ho).trans
      (State.acceptWaiting_single hchannels.1 hchannels.2 hroom))), ?_, ?_⟩
  · exact (acceptRead_ignoresChannels r).reads (o.withChannels [] [])
  · rw [haccept, State.settleAges_passQueue, State.acceptAperture_passQueue]
    exact hpass

/-- A waiting read is forwarded when a grant of a forwarded read makes room for it. -/
theorem exec_arbiterGrant_lets {e : Fin 64} {q r : ReadReq} {qs : List Request} (he : s.lowestFree e)
    (hw : s.winner = some .pass) (hq : s.passQueue = .read q :: qs) (hfull : s.queuedReads = 16)
    (hreads : s.up.reads = [r]) (hwrites : s.up.writes = []) (hno : s.windowAt r.addr = none) :
    exec .arbiterGrant s = .next
      { s with
        passQueue := qs ++ [.read r]
        up := { s.up with reads := [] }
        outstanding := s.outstanding.set e.val (some ⟨.forwarded q.tag q.num true q.beats, false⟩) e.isLt
        memRequests := s.memRequests ++ [.read { q with num := e.val }]
        arb := s.arbAfter .pass } := by
  have hgrant : exec .arbiterGrant (s.withChannels [] []) =
      .next ((s.withChannels [] []).grantedTo e .pass) := exec_arbiterGrant_of_winner ⟨rfl, rfl⟩ he hw
  have hpass : (s.withChannels [] []).grantedTo e .pass = { s.withChannels [] [] with
      passQueue := qs
      outstanding := s.outstanding.set e.val (some ⟨.forwarded q.tag q.num true q.beats, false⟩) e.isLt
      memRequests := s.memRequests ++ [.read { q with num := e.val }]
      arb := s.arbAfter .pass } := by
    have hissue := State.grantPass_of_head (s := s.withChannels [] []) e hq
    unfold State.grantedTo State.grantTo
    dsimp only
    rw [hissue]
    rfl
  rw [exec_makesRoom rfl hgrant, hpass, hreads, hwrites]
  refine congrArg Host.Outcome.next ?_
  have hcount : State.queuedReads { s with passQueue := qs } < 16 := by
    have : s.queuedReads = State.queuedReads { s with passQueue := qs } + 1 := by
      simp only [State.queuedReads, hq]
      exact List.countP_cons_of_pos rfl
    omega
  refine (State.acceptWaiting_forwards (r := r) ?_ ?_ ?_ ?_).trans ?_
  · rfl
  · rfl
  · exact hno
  · exact hcount
  · rw [← hwrites]
    rfl

/-- A read that waited for its view is forwarded when the view is disabled. -/
theorem exec_viewControlDisable_lets {sl : Slot} {v : Fin 2} {rec : ViewRecord} {r : ReadReq}
    (ho : s.offers .viewControl sl) (hv : sl.view = some v) (hact : sl.action = 2)
    (hr : s.views[v].record = some rec) (hstate : s.views[v].state ≠ .disabled) (hreads : s.up.reads = [r])
    (hwrites : s.up.writes = []) (ha : s.apertureAt r.addr = some v) (hroom : s.queuedReads < 16)
    (honly : ∀ w ∈ s.windows, w.active = true → w.contains r.addr.toNat = true → w.ofView v = true) :
    ∃ t, exec .viewControlDisable s = .next t ∧ t.views[v].state = .disabled ∧ t.up.reads = [] ∧
      t.passQueue = s.passQueue ++ [.read r] ∧
      t.up.responses = s.up.responses ++ s.views[v].held.map fun h => rec.fillAnswer h.req := by
  obtain ⟨b, l, act, hw⟩ := State.windowAt_of_apertureAt ha
  have hp : (s.withChannels [] []).phase = .running := State.running_of_windowAt hw
  obtain ⟨-, hcontrol⟩ := viewControl
  obtain ⟨-, -, -, hdisable⟩ := hcontrol (s.withChannels [] []) sl hp ⟨rfl, rfl⟩ ho
  obtain ⟨-, -, hrun⟩ := hdisable v hv hact
  obtain ⟨cache, -, hexec⟩ := hrun rec hr hstate
  have hleaves : ∃ t, exec .viewControlDisable (s.withChannels [] []) = .next t ∧
      t.windows = (s.windows.map fun w => if w.ofView v then { w with active := false } else w) ∧
      t.passQueue = s.passQueue ∧ t.views[v].state = .disabled ∧
      t.up.responses = s.up.responses ++ s.views[v].held.map fun h => rec.fillAnswer h.req := by
    refine ⟨_, hexec, rfl, rfl, ?_, rfl⟩
    change (s.views.set v.val _ v.isLt)[v].state = .disabled
    rw [vector_get_set, if_pos rfl]
  obtain ⟨t, ht, hwindows, hpass, hview, hresponses⟩ := hleaves
  have hnone : t.windowAt r.addr = none := by
    refine State.windowAt_eq_none fun w hmem hactive => ?_
    rw [hwindows] at hmem
    obtain ⟨x, hx, rfl⟩ := List.mem_map.mp hmem
    by_cases hof : x.ofView v = true
    · rw [if_pos hof] at hactive
      cases hactive
    · rw [if_neg hof] at hactive ⊢
      rw [← Bool.not_eq_true]
      exact fun hc => hof (honly x hx hactive hc)
  have hqueue : (t.withChannels [r] []).queuedReads < 16 := by
    rw [State.queuedReads, show (t.withChannels [r] []).passQueue = s.passQueue from hpass]
    exact hroom
  have hforward := State.acceptWaiting_forwards (s := t.withChannels [r] []) rfl rfl hnone hqueue
  have hrow := exec_makesRoom rfl ht
  rw [hreads, hwrites, hforward] at hrow
  exact ⟨_, hrow, hview, rfl, congrArg (· ++ [Request.read r]) hpass, hresponses⟩

end

/-- Settles O14: the heads of the channels by their room, each row by what it does at empty channels. -/
theorem waitingRequestsAccepted : Obligations.WaitingRequestsAccepted := by
  unfold Obligations.WaitingRequestsAccepted
  refine ⟨fun s => ?_, fun s => ⟨fun r hr i hi => ?_, fun w hw i hi => ?_⟩,
    fun s t i hi ht => exec_makesRoom hi ht, fun s e q r qs he hw hq hf hreads hwrites hno =>
      exec_arbiterGrant_lets he hw hq hf hreads hwrites hno,
    fun s v rec h hs r hr hheld hlen hrows he hd hk hreads hwrites ha =>
      exec_holdLimitExpiry_lets hr hheld hlen hrows (View.holdDue_iff.mpr ⟨he, hd, hk⟩) hreads hwrites ha,
    fun s sl v rec r ho hv hact hr hstate hreads hwrites ha hroom honly =>
      exec_viewControlDisable_lets ho hv hact hr hstate hreads hwrites ha hroom honly⟩
  · intro readRoom writeRoom readTaken writeTaken noRead noWrite drawn
    have hread (r : ReadReq) : s.canAcceptRead r = true ↔ readRoom r := s.canAcceptRead_iff r
    have hwrite (w : WriteReq) : s.canAcceptWrite w = true ↔ writeRoom w := s.canAcceptWrite_iff w
    have hreadNo (hno : noRead) : ∀ r rs, s.up.reads = r :: rs → s.canAcceptRead r = false :=
      fun r rs h => Bool.not_eq_true _ ▸ fun hc => hno r rs h ((hread r).mp hc)
    have hwriteNo (hno : noWrite) : ∀ w ws, s.up.writes = w :: ws → s.canAcceptWrite w = false :=
      fun w ws h => Bool.not_eq_true _ ▸ fun hc => hno w ws h ((hwrite w).mp hc)
    have hreadTake (t : State) (ht : t.up = s.up) (r : ReadReq) (rs : List ReadReq)
        (hreads : s.up.reads = r :: rs) : (t.takeRead r).acceptWaiting = readTaken t r rs := by
      rw [State.takeRead_eq, ht, hreads]
      rfl
    have hwriteTake (t : State) (ht : t.up = s.up) (w : WriteReq) (ws : List WriteReq)
        (hwrites : s.up.writes = w :: ws) : (t.takeWrite w).acceptWaiting = writeTaken t w ws := by
      rw [State.takeWrite_eq, ht, hwrites]
      rfl
    refine ⟨fun hr hw => State.acceptWaiting_of_none (State.acceptOne_none (hreadNo hr) (hwriteNo hw)),
      fun r rs hreads hroom hw => ?_, fun w ws hwrites hroom hr => ?_,
      fun r rs w ws hreads hwrites hr hw => ?_,
      fun hq r hwf hroom => exec_read_accepted rfl hwf hq ((hread r).mpr hroom),
      fun hq w hwf hroom => exec_write_accepted rfl hwf hq ((hwrite w).mpr hroom),
      fun reads writes r => acceptRead_ignoresChannels r s reads writes,
      fun reads writes w => acceptWrite_ignoresChannels w s reads writes⟩
    · rw [State.acceptWaiting_of_some (State.acceptOne_read hreads ((hread r).mpr hroom) (hwriteNo hw)),
        hreadTake s rfl r rs hreads]
    · rw [State.acceptWaiting_of_some (State.acceptOne_write hwrites ((hwrite w).mpr hroom) (hreadNo hr)),
        hwriteTake s rfl w ws hwrites]
    · rcases State.acceptOne_both hreads hwrites ((hread r).mpr hr) ((hwrite w).mpr hw) with h | h
      · rw [State.acceptWaiting_of_some h, hreadTake { s with draws := s.draws + 1 } rfl r rs hreads]
        exact .inl rfl
      · rw [State.acceptWaiting_of_some h, hwriteTake { s with draws := s.draws + 1 } rfl w ws hwrites]
        exact .inr rfl
  · have hwf : (Request.read r).wf = true := hr
    have hreq : requestOf i = some (.read r) := by
      simp only [List.mem_cons, List.not_mem_nil, or_false] at hi
      rcases hi with rfl | rfl | rfl <;> rfl
    rw [exec_of_requestOf s hreq, State.request, if_pos hwf]
    rfl
  · have hwf : (Request.write w).wf = true := hw
    have hreq : requestOf i = some (.write w) := by
      simp only [List.mem_cons, List.not_mem_nil, or_false] at hi
      rcases hi with rfl | rfl | rfl | rfl <;> rfl
    rw [exec_of_requestOf s hreq, State.request, if_pos hwf]
    rfl

end Sys2Proof.Machine
end

section
/-! PROOFS. The Hand-off Controller's transitions (O43, O44, O45). -/

namespace Sys2Proof.Machine

/-! ### Neighbours -/

theorem pairAbove_eq_some : ∀ (f : Fin 4) (p : Fin 3), pairAbove f = some p ↔ f = pairLow p := by decide

theorem pairBelow_eq_some : ∀ (f : Fin 4) (p : Fin 3), pairBelow f = some p ↔ f = pairHigh p := by decide

theorem nextUp_eq_some : ∀ f b : Fin 4, nextUp f = some b ↔ b.val = f.val + 1 := by decide

theorem nextDown_eq_some : ∀ f b : Fin 4, nextDown f = some b ↔ b.val + 1 = f.val := by decide

/-- The lowest-numbered source of a kind. -/
theorem find_lowest : ∀ (p : Fin 4 → Bool) (b : Fin 4), p b = true → (∀ a < b, p a = false) →
    ([0, 1, 2, 3] : List (Fin 4)).find? p = some b := by decide

/-- The highest-numbered source of a kind. -/
theorem find_highest : ∀ (p : Fin 4 → Bool) (b : Fin 4), p b = true → (∀ a, b < a → p a = false) →
    ([3, 2, 1, 0] : List (Fin 4)).find? p = some b := by decide

theorem StageInput.runs_iff {n : StageInput} {i : Fin 4} : n.runs i = true ↔ n.sources[i].state = .running :=
  beq_iff_eq

/-! ### The transition by state -/

section
variable {n : StageInput} {h : Handoff}

theorem Handoff.transition_settled (hs : h.state = .settled) : h.transition n = h.stepSettled n := by
  simp only [Handoff.transition, hs]

theorem Handoff.transition_prepare {p : Fin 3} {d : PairDir} {count : Nat}
    (hs : h.state = .prepare p d count) : h.transition n = h.stepPrepare n p d count := by
  simp only [Handoff.transition, hs]

theorem Handoff.transition_blend {p : Fin 3} {d : PairDir} {motion : BlendDir}
    (hs : h.state = .blend p d motion) : h.transition n = h.stepBlend n p d motion := by
  simp only [Handoff.transition, hs]

theorem Handoff.transition_frozen (hs : h.state = .frozen) : h.transition n = h.stepFrozen n := by
  simp only [Handoff.transition, hs]

/-! ### A blend whose cameras run (R74) -/

theorem Handoff.stepBlend_runs {p : Fin 3} {d : PairDir} {c : CalPair} (was : BlendDir)
    (hf : n.runs h.fromSrc = true) (ht : n.runs (toOf p d) = true) (hc : n.pair p = some c) :
    let motion := blendMotion c n.z d was
    let w := stepWeight h.weight c.step motion
    h.stepBlend n p d was =
      if motion = .forward ∧ w = 256 then
        (h.settleOnTo p d,
          [.mk' .handoffDone p.val (argWord h.fromSrc.val) (argWord (toOf p d).val),
           .mk' .cameraIdle h.fromSrc.val (argWord p.val) (argWord (toOf p d).val)])
      else if motion = .reverse ∧ w = 0 then
        (h.settleOnFrom, [.mk' .handoffReversed p.val (argWord h.fromSrc.val) (argWord (toOf p d).val)])
      else ({ h with state := .blend p d motion, weight := w }, []) := by
  intro motion w
  simp only [Handoff.stepBlend, hf, ht, hc, and_self, if_true]
  rfl

/-- The direction of a blend (R74). -/
theorem blendMotion_forward {c : CalPair} {z : Nat} {d : PairDir} {was : BlendDir}
    (hm : ((d = .up ∧ c.up ≤ z) ∨ (d = .down ∧ z < c.down)) ∧
        ¬ ((d = .up ∧ z < c.down) ∨ (d = .down ∧ c.up ≤ z)) ∨
      ¬ ((d = .up ∧ c.up ≤ z) ∨ (d = .down ∧ z < c.down)) ∧
        ¬ ((d = .up ∧ z < c.down) ∨ (d = .down ∧ c.up ≤ z)) ∧ was = .forward) :
    blendMotion c z d was = .forward := by
  cases d with
  | up =>
    simp only [true_and, reduceCtorEq, false_and, or_false] at hm
    rw [blendMotion, if_neg (by rcases hm with hm | hm <;> exact fun h => by omega)]
    rcases hm with ⟨ha, -⟩ | ⟨ha, -, hw⟩
    · rw [if_pos ha]
    · rw [if_neg ha, hw]
  | down =>
    simp only [true_and, reduceCtorEq, false_and, false_or] at hm
    rw [blendMotion, if_neg (by rcases hm with hm | hm <;> exact fun h => by omega)]
    rcases hm with ⟨ha, -⟩ | ⟨ha, -, hw⟩
    · rw [if_pos ha]
    · rw [if_neg ha, hw]

theorem blendMotion_reverse {c : CalPair} {z : Nat} {d : PairDir} {was : BlendDir}
    (hm : ((d = .up ∧ z < c.down) ∨ (d = .down ∧ c.up ≤ z)) ∨
      ¬ ((d = .up ∧ c.up ≤ z) ∨ (d = .down ∧ z < c.down)) ∧
        ¬ ((d = .up ∧ z < c.down) ∨ (d = .down ∧ c.up ≤ z)) ∧ was = .reverse) :
    blendMotion c z d was = .reverse := by
  cases d with
  | up =>
    simp only [true_and, reduceCtorEq, false_and, or_false] at hm
    rcases hm with hb | ⟨ha, hb, hw⟩
    · rw [blendMotion, if_pos hb]
    · rw [blendMotion, if_neg hb, if_neg ha, hw]
  | down =>
    simp only [true_and, reduceCtorEq, false_and, false_or] at hm
    rcases hm with hb | ⟨ha, hb, hw⟩
    · rw [blendMotion, if_pos hb]
    · rw [blendMotion, if_neg hb, if_neg ha, hw]

end

/-- Settles O44: the direction first, then the weight against its end. -/
theorem blendSteps : Obligations.BlendSteps := by
  unfold Obligations.BlendSteps
  intro n h p d was c hs hf ht hc ahead back forward reverse
  have hstep := Handoff.stepBlend_runs was hf ht hc
  rw [Handoff.transition_blend hs, hstep]
  refine ⟨fun hm hw => ?_, fun hm hw => ?_, fun hm hw => ?_, fun hm hw => ?_⟩
  · rw [blendMotion_forward hm, if_pos ⟨rfl, Nat.min_eq_left hw⟩]
    rfl
  · have hweight : stepWeight h.weight c.step .forward = h.weight + c.step := Nat.min_eq_right hw.le
    rw [blendMotion_forward hm, hweight, if_neg fun hn => hw.ne hn.2, if_neg (by rintro ⟨hn, -⟩; cases hn)]
  · have hweight : stepWeight h.weight c.step .reverse = 0 := Nat.sub_eq_zero_of_le hw
    rw [blendMotion_reverse hm, hweight, if_neg (by rintro ⟨hn, -⟩; cases hn), if_pos ⟨rfl, rfl⟩]
    rfl
  · have hweight : stepWeight h.weight c.step .reverse ≠ 0 := (Nat.sub_pos_of_lt hw).ne'
    rw [blendMotion_reverse hm, if_neg (by rintro ⟨hn, -⟩; cases hn),
      if_neg (by rintro ⟨-, hn⟩; exact hweight hn)]
    rfl

/-! ### Rescue (R65, R66) -/

section
variable {n : StageInput} {h : Handoff} {b : Fin 4}

/-- The narrower neighbour qualifies when it runs with its floor at or below z. -/
theorem rescueAbove_eq_some : (nextUp h.fromSrc).filter (fun i => n.runs i && decide (n.floor i ≤ n.z)) = some b ↔
    b.val = h.fromSrc.val + 1 ∧ n.sources[b].state = .running ∧ floorOf n.active b ≤ n.z := by
  rw [Option.filter_eq_some_iff, nextUp_eq_some, Bool.and_eq_true, StageInput.runs_iff, decide_eq_true_iff]
  rfl

theorem rescueBelow_eq_some : (nextDown h.fromSrc).filter (fun i => n.runs i) = some b ↔
    b.val + 1 = h.fromSrc.val ∧ n.sources[b].state = .running := by
  rw [Option.filter_eq_some_iff, nextDown_eq_some, StageInput.runs_iff]

theorem Handoff.rescueChoice_calibrated (hc : calibrated n.active h.fromSrc = true) : h.rescueChoice n =
    ((nextUp h.fromSrc).filter fun i => n.runs i && decide (n.floor i ≤ n.z)).or
      ((nextDown h.fromSrc).filter fun i => n.runs i) := if_pos hc

theorem Handoff.rescueChoice_uncalibrated (hc : calibrated n.active h.fromSrc = false) : h.rescueChoice n =
    ([0, 1, 2, 3] : List (Fin 4)).find? fun i => n.runs i && i != h.fromSrc :=
  if_neg (by rw [hc]; exact Bool.false_ne_true)

theorem Handoff.rescue_of_some (hr : h.rescueChoice n = some b) : h.rescue n = h.rescueTo b := by
  simp only [Handoff.rescue, hr]

theorem Handoff.rescue_of_none (hr : h.rescueChoice n = none) : h.rescue n = h.freeze := by
  simp only [Handoff.rescue, hr]

theorem option_eq_none {α : Type} {x : Option α} (h : ∀ b, x ≠ some b) : x = none := by
  cases x with
  | none => rfl
  | some b => exact absurd rfl (h b)

/-- The rescue of a calibrated source: its narrower neighbour, else its wider one, else none. -/
theorem Handoff.rescue_calibrated (hc : calibrated n.active h.fromSrc = true) :
    let above := fun b : Fin 4 =>
      b.val = h.fromSrc.val + 1 ∧ n.sources[b].state = .running ∧ floorOf n.active b ≤ n.z
    let below := fun b : Fin 4 => b.val + 1 = h.fromSrc.val ∧ n.sources[b].state = .running
    (∀ b, above b → h.rescue n = h.rescueTo b) ∧
    (∀ b, below b → (∀ a, ¬ above a) → h.rescue n = h.rescueTo b) ∧
    ((∀ b, ¬ above b ∧ ¬ below b) → h.rescue n = h.freeze) := by
  intro above below
  have hchoice := Handoff.rescueChoice_calibrated hc
  have hnone (hn : ∀ a, ¬ above a) :
      (nextUp h.fromSrc).filter (fun i => n.runs i && decide (n.floor i ≤ n.z)) = none :=
    option_eq_none fun a ha => hn a (rescueAbove_eq_some.mp ha)
  refine ⟨fun b hb => Handoff.rescue_of_some ?_, fun b hb hn => Handoff.rescue_of_some ?_,
    fun hn => Handoff.rescue_of_none ?_⟩
  · rw [hchoice, rescueAbove_eq_some.mpr hb, Option.some_or]
  · rw [hchoice, hnone hn, Option.none_or, rescueBelow_eq_some.mpr hb]
  · rw [hchoice, hnone fun a => (hn a).1, Option.none_or]
    exact option_eq_none fun b hb => (hn b).2 (rescueBelow_eq_some.mp hb)

theorem rescueOther_iff : (n.runs b && b != h.fromSrc) = true ↔
    b ≠ h.fromSrc ∧ n.sources[b].state = .running := by
  rw [Bool.and_eq_true, StageInput.runs_iff, bne_iff_ne, and_comm]

/-- The rescue of an uncalibrated source: the lowest-numbered other one that runs, else none. -/
theorem Handoff.rescue_uncalibrated (hc : calibrated n.active h.fromSrc = false) :
    let other := fun b : Fin 4 => b ≠ h.fromSrc ∧ n.sources[b].state = .running
    (∀ b, other b → (∀ a < b, ¬ other a) → h.rescue n = h.rescueTo b) ∧
    ((∀ b, ¬ other b) → h.rescue n = h.freeze) := by
  intro other
  have hchoice := Handoff.rescueChoice_uncalibrated hc
  refine ⟨fun b hb hlow => Handoff.rescue_of_some ?_, fun hn => Handoff.rescue_of_none ?_⟩
  · rw [hchoice]
    exact find_lowest _ b (rescueOther_iff.mpr hb) fun a ha =>
      Bool.not_eq_true _ ▸ fun ht => hlow a ha (rescueOther_iff.mp ht)
  · rw [hchoice, List.find?_eq_none]
    exact fun b _ ht => hn b (rescueOther_iff.mp ht)

/-! ### The exit from FROZEN (R76) -/

theorem frozenCovers_iff : (n.runs b && decide (n.floor b ≤ n.z)) = true ↔
    n.sources[b].state = .running ∧ floorOf n.active b ≤ n.z := by
  rw [Bool.and_eq_true, StageInput.runs_iff, decide_eq_true_iff]
  rfl

theorem Handoff.stepFrozen_of_some (hb : frozenChoice n = some b) : h.stepFrozen n =
    ({ h with state := .settled, fromSrc := b, weight := 0, fromCorr := .neutral, toCorr := .neutral,
              relaxPair := none },
      [.mk' .frozenExit b.val (argWord (n.floor b)) (argWord n.z)]) := by
  simp only [Handoff.stepFrozen, hb]

theorem frozenChoice_covers (hb : n.sources[b].state = .running ∧ floorOf n.active b ≤ n.z)
    (hhigh : ∀ a, b < a → ¬ (n.sources[a].state = .running ∧ floorOf n.active a ≤ n.z)) :
    frozenChoice n = some b := by
  have hfind := find_highest (fun i => n.runs i && decide (n.floor i ≤ n.z)) b (frozenCovers_iff.mpr hb)
    fun a ha => Bool.not_eq_true _ ▸ fun ht => hhigh a ha (frozenCovers_iff.mp ht)
  rw [frozenChoice, hfind, Option.some_or]

theorem frozenChoice_of_none_covers (hn : ∀ a : Fin 4,
    ¬ (n.sources[a].state = .running ∧ floorOf n.active a ≤ n.z)) :
    frozenChoice n = ([0, 1, 2, 3] : List (Fin 4)).find? fun i => n.runs i := by
  have hfind : (([3, 2, 1, 0] : List (Fin 4)).find? fun i => n.runs i && decide (n.floor i ≤ n.z)) = none :=
    List.find?_eq_none.mpr fun b _ ht => hn b (frozenCovers_iff.mp ht)
  rw [frozenChoice, hfind, Option.none_or]

end

/-- Settles O45: each state by which of its cameras run. -/
theorem handoffLosesCameras : Obligations.HandoffLosesCameras := by
  unfold Obligations.HandoffLosesCameras
  intro n h f runs above below other settled rescued frozen rescue
  have hnot {i : Fin 4} (hi : ¬ runs i) : ¬ n.runs i = true := fun hr => hi (StageInput.runs_iff.mp hr)
  have hfreeze {code lost : Nat} (hcode : h.state.code = code) (hlost : (h.toSrc.map Fin.val).getD 255 = lost) :
      h.freeze = frozen code lost := by
    subst hcode hlost
    rfl
  have hrescue {code lost : Nat} (htr : h.transition n = h.rescue n) (hfr : h.freeze = frozen code lost) :
      rescue code lost := by
    refine ⟨fun hc => ?_, fun hc => ?_⟩
    · obtain ⟨h1, h2, h3⟩ := Handoff.rescue_calibrated hc
      exact ⟨fun b hb => htr.trans (h1 b hb), fun b hb hn => htr.trans (h2 b hb hn),
        fun hn => htr.trans ((h3 hn).trans hfr)⟩
    · obtain ⟨h1, h2⟩ := Handoff.rescue_uncalibrated hc
      exact ⟨fun b hb hlow => htr.trans (h1 b hb hlow), fun hn => htr.trans ((h2 hn).trans hfr)⟩
  refine ⟨fun hs hf => ?_, fun p d count hs hf => ⟨fun ha => ?_, fun ha => ?_⟩, fun p d motion hs => ?_,
    fun hs => ?_⟩
  · refine hrescue ?_ (hfreeze (by rw [hs]; rfl) (by rw [Handoff.toSrc, hs]; rfl))
    rw [Handoff.transition_settled hs, Handoff.stepSettled, if_neg (hnot hf)]
  · rw [Handoff.transition_prepare hs, Handoff.stepPrepare, if_neg (hnot hf), if_pos ha]
    rfl
  · refine hrescue ?_ (hfreeze (by rw [hs]; rfl) (by rw [Handoff.toSrc, hs]; rfl))
    rw [Handoff.transition_prepare hs, Handoff.stepPrepare, if_neg (hnot hf),
      if_neg (by rw [ha]; exact Bool.false_ne_true)]
  · intro t
    rw [Handoff.transition_blend hs]
    refine ⟨fun hf ht => ?_, fun hf ht => ?_, fun hf ht => ?_⟩
    · rw [Handoff.stepBlend, if_neg fun hb => hnot ht hb.2, if_pos (StageInput.runs_iff.mpr hf)]
      rfl
    · rw [Handoff.stepBlend, if_neg fun hb => hnot hf hb.1, if_neg (hnot hf), if_pos (StageInput.runs_iff.mpr ht)]
      rfl
    · rw [Handoff.stepBlend, if_neg fun hb => hnot hf hb.1, if_neg (hnot hf), if_neg (hnot ht)]
      exact hfreeze (by rw [hs]; rfl) (by rw [Handoff.toSrc, hs]; rfl)
  · intro covers leaves
    rw [Handoff.transition_frozen hs]
    refine ⟨fun b hb hhigh => Handoff.stepFrozen_of_some (frozenChoice_covers hb hhigh),
      fun b hb hn hlow => Handoff.stepFrozen_of_some ?_, fun hn => ?_⟩
    · rw [frozenChoice_of_none_covers hn]
      exact find_lowest _ b (StageInput.runs_iff.mpr hb) fun a ha =>
        Bool.not_eq_true _ ▸ fun ht => hlow a ha (StageInput.runs_iff.mp ht)
    · have hnone : frozenChoice n = none := by
        rw [frozenChoice_of_none_covers fun a ha => hn a ha.1, List.find?_eq_none]
        exact fun b _ ht => hn b (StageInput.runs_iff.mp ht)
      simp only [Handoff.stepFrozen, hnone]

/-! ### Desire and start (R60, R64, R67 to R72) -/

section
variable {n : StageInput} {h : Handoff}

theorem Handoff.upDesired_eq_some {p : Fin 3} {c : CalPair} : h.upDesired n = some (p, c) ↔
    h.fromSrc = pairLow p ∧ n.pair p = some c ∧ c.up ≤ n.z ∧ h.supUp[p] = false := by
  unfold Handoff.upDesired
  rw [Option.bind_eq_some_iff]
  constructor
  · rintro ⟨q, hq, hb⟩
    obtain ⟨x, hx, hif⟩ := Option.bind_eq_some_iff.mp hb
    split at hif
    · next hc =>
      cases hif
      exact ⟨(pairAbove_eq_some _ _).mp hq, hx, hc.1, hc.2⟩
    · cases hif
  · rintro ⟨hf, hp, hup, hsup⟩
    exact ⟨p, (pairAbove_eq_some _ _).mpr hf, Option.bind_eq_some_iff.mpr ⟨c, hp, if_pos ⟨hup, hsup⟩⟩⟩

theorem Handoff.downDesired_eq_some {p : Fin 3} {c : CalPair} : h.downDesired n = some (p, c) ↔
    h.fromSrc = pairHigh p ∧ n.pair p = some c ∧ n.z < c.down ∧ h.supDown[p] = false := by
  unfold Handoff.downDesired
  rw [Option.bind_eq_some_iff]
  constructor
  · rintro ⟨q, hq, hb⟩
    obtain ⟨x, hx, hif⟩ := Option.bind_eq_some_iff.mp hb
    split at hif
    · next hc =>
      cases hif
      exact ⟨(pairBelow_eq_some _ _).mp hq, hx, hc.1, hc.2⟩
    · cases hif
  · rintro ⟨hf, hp, hdown, hsup⟩
    exact ⟨p, (pairBelow_eq_some _ _).mpr hf, Option.bind_eq_some_iff.mpr ⟨c, hp, if_pos ⟨hdown, hsup⟩⟩⟩

theorem Handoff.desired_up {p : Fin 3} {c : CalPair} (hu : h.upDesired n = some (p, c)) :
    h.desired n = some (p, .up, c) := by
  simp only [Handoff.desired, hu]

theorem Handoff.desired_down {p : Fin 3} {c : CalPair} (hu : h.upDesired n = none)
    (hd : h.downDesired n = some (p, c)) : h.desired n = some (p, .down, c) := by
  simp only [Handoff.desired, hu, hd, Option.map_some]

theorem Handoff.desired_none (hu : h.upDesired n = none) (hd : h.downDesired n = none) :
    h.desired n = none := by
  simp only [Handoff.desired, hu, hd, Option.map_none]

theorem stillDesired_iff {c : CalPair} {z : Nat} {d : PairDir} : stillDesired c z d = true ↔
    (d = .up ∧ c.up ≤ z) ∨ (d = .down ∧ z < c.down) := by
  cases d with
  | up => simp [stillDesired]
  | down => simp [stillDesired]

theorem matchGain_eq (g yf yt : Nat) : matchGain g yf yt =
    if yt = 0 then (if yf = 0 then 256 else 512)
    else max 128 (min 512 ((2 * g * yf + yt) / (2 * yt))) := by
  rw [matchGain, clampNat, Nat.min_comm]

theorem matchOffset_eq (d : Int) (cf ct : Nat) :
    matchOffset d cf ct = max (-32) (min 32 (d + chromaStep ((cf : Int) - ct))) := by
  rw [matchOffset, clampInt, Int.min_comm]

/-- The matched correction from two windows (R70 to R72). -/
theorem Handoff.matching_of_windows {p : Fin 3} {d : PairDir} {x y : Accum}
    (hx : n.window (fromOf p d) (d == .up) = some x) (hy : n.window (toOf p d) (d == .down) = some y) :
    h.matching n p d = matchCorrection h.fromCorr x y := by
  simp only [Handoff.matching, hx, hy]

theorem StageInput.window_of_store {i : Fin 4} {k : Nat} {st : FrameStore} (wider : Bool)
    (hk : chooseStore n.sources n.retiring i = some k) (hst : n.sources[i].stores[k]? = some st) :
    n.window i wider = some (st.matchWindow wider) := by
  rw [StageInput.window, hk, Option.bind_some, hst]
  rfl

end

/-- Settles O43: the desire of each state, then what it meets. -/
theorem handoffStarts : Obligations.HandoffStarts := by
  unfold Obligations.HandoffStarts
  intro n h hf wants desired started abandoned
  refine ⟨fun hs => ⟨fun p d c hd hup => ?_, fun hn => ?_⟩, fun p d count c hs hc => ?_, fun p d => ?_⟩
  · have hdesired : h.desired n = some (p, d, c) := by
      obtain ⟨hfrom, ⟨hpair, hz⟩, hsup⟩ := hd
      cases d with
      | up =>
        have hz : c.up ≤ n.z := by simpa using hz
        exact Handoff.desired_up (Handoff.upDesired_eq_some.mpr ⟨hfrom, hpair, hz, hsup⟩)
      | down =>
        have hz : n.z < c.down := by simpa using hz
        refine Handoff.desired_down (option_eq_none fun x hx => ?_)
          (Handoff.downDesired_eq_some.mpr ⟨hfrom, hpair, hz, hsup⟩)
        obtain ⟨h1, h2, h3, h4⟩ := Handoff.upDesired_eq_some.mp hx
        exact hup rfl x.1 x.2 ⟨h1, ⟨h2, .inl ⟨rfl, h3⟩⟩, h4⟩
    rw [Handoff.transition_settled hs, Handoff.stepSettled, if_pos hf, hdesired]
    refine ⟨fun ha => ?_, fun ha => ?_⟩
    · exact if_pos ha
    · exact if_neg (by rw [ha]; exact Bool.false_ne_true)
  · have hnone : h.desired n = none := by
      refine Handoff.desired_none (option_eq_none fun x hx => ?_) (option_eq_none fun x hx => ?_)
      · obtain ⟨h1, h2, h3, h4⟩ := Handoff.upDesired_eq_some.mp hx
        exact hn x.1 .up x.2 ⟨h1, ⟨h2, .inl ⟨rfl, h3⟩⟩, h4⟩
      · obtain ⟨h1, h2, h3, h4⟩ := Handoff.downDesired_eq_some.mp hx
        exact hn x.1 .down x.2 ⟨h1, ⟨h2, .inr ⟨rfl, h3⟩⟩, h4⟩
    rw [Handoff.transition_settled hs, Handoff.stepSettled, if_pos hf, hnone]
  · have hwants : wants p d c ↔ stillDesired c n.z d = true :=
      ⟨fun hw => stillDesired_iff.mpr hw.2, fun hw => ⟨hc, stillDesired_iff.mp hw⟩⟩
    rw [Handoff.transition_prepare hs, Handoff.stepPrepare, if_pos hf, hc]
    dsimp only
    refine ⟨fun hw => ?_, fun hw ha => ?_, fun hw ha => ⟨fun hl => ?_, fun hl => ?_⟩⟩
    · have hgone : stillDesired c n.z d = false := Bool.not_eq_true _ ▸ fun ht => hw (hwants.mpr ht)
      rw [hgone]
      rfl
    · rw [hwants.mp hw, ha]
      rfl
    · rw [hwants.mp hw, ha, if_pos hl]
      cases d <;> rfl
    · rw [hwants.mp hw, ha, if_neg hl]
      rfl
  · intro f t mean offset
    refine ⟨fun hn => ?_, fun a b sa sb ha hb hsa hsb => ?_⟩
    · have hwindow : n.window (fromOf p d) (d == .up) = none := by
        rw [StageInput.window, show chooseStore n.sources n.retiring (fromOf p d) = none from hn]
        rfl
      simp only [Handoff.matching, hwindow]
    · have hx := StageInput.window_of_store (d == .up) ha hsa
      have hy := StageInput.window_of_store (d == .down) hb hsb
      intro x y yf yt
      have hxw : sa.matchWindow (d == .up) = x := by cases d <;> rfl
      have hyw : sb.matchWindow (d == .down) = y := by cases d <;> rfl
      rw [hxw] at hx
      rw [hyw] at hy
      rw [Handoff.matching_of_windows hx hy, matchCorrection, matchGain_eq, matchOffset_eq, matchOffset_eq]
      rfl

end Sys2Proof.Machine
end

section
/-! PROOFS. The stages of a lead opening (O41, O42). -/

namespace Sys2Proof.Machine

/-! ### Band tests (R61, R62) -/

theorem StageInput.upBandLeft_eq (n : StageInput) (p : Fin 3) :
    n.upBandLeft p = (n.pair p).all fun c => decide (n.z + c.margin < c.up) := by
  unfold StageInput.upBandLeft
  cases n.pair p with
  | none => rfl
  | some c => exact decide_eq_decide.mpr (by omega)

theorem StageInput.downBandLeft_eq (n : StageInput) (p : Fin 3) :
    n.downBandLeft p = (n.pair p).all fun c => decide (c.down + c.margin ≤ n.z) := by
  unfold StageInput.downBandLeft
  cases n.pair p with
  | none => rfl
  | some c => rfl

/-- The flags of the given pairs, each changed from its own value. -/
def changeFlags (f : Fin 3 → Bool → Bool) (ps : List (Fin 3)) (x : Vector Bool 3) : Vector Bool 3 :=
  ps.foldl (fun x p => x.set p.val (f p x[p]) p.isLt) x

theorem changeFlags_all (f : Fin 3 → Bool → Bool) (x : Vector Bool 3) :
    changeFlags f [0, 1, 2] x = Vector.ofFn fun p => f p x[p] := by
  refine Vector.ext fun i hi => ?_
  have hcase : i = 0 ∨ i = 1 ∨ i = 2 := by omega
  rcases hcase with rfl | rfl | rfl <;> simp [changeFlags]

theorem Handoff.bandTests_list (n : StageInput) (ps : List (Fin 3)) (h : Handoff) :
    ps.foldl (Handoff.bandTest n) h = { h with
      supUp := changeFlags (fun p b => b && !n.upBandLeft p) ps h.supUp
      armUp := changeFlags (fun p b => b || n.upBandLeft p) ps h.armUp
      supDown := changeFlags (fun p b => b && !n.downBandLeft p) ps h.supDown
      armDown := changeFlags (fun p b => b || n.downBandLeft p) ps h.armDown } := by
  induction ps generalizing h with
  | nil => rfl
  | cons p ps ih =>
    rw [List.foldl_cons, ih]
    rfl

theorem Handoff.bandTests_eq (n : StageInput) (h : Handoff) : h.bandTests n = { h with
    supUp := Vector.ofFn fun p : Fin 3 => h.supUp[p] && !n.upBandLeft p
    armUp := Vector.ofFn fun p : Fin 3 => h.armUp[p] || n.upBandLeft p
    supDown := Vector.ofFn fun p : Fin 3 => h.supDown[p] && !n.downBandLeft p
    armDown := Vector.ofFn fun p : Fin 3 => h.armDown[p] || n.downBandLeft p } := by
  rw [Handoff.bandTests, Handoff.bandTests_list]
  simp only [changeFlags_all]

/-! ### The order of the stage (R59) -/

section
variable {n : StageInput} {h : Handoff}

theorem Handoff.relax_state (n : StageInput) (h : Handoff) : (h.relax n).state = h.state := rfl

theorem Handoff.stage_unsettled (hx : ((h.bandTests n).transition n).1.state ≠ .settled) :
    h.stage n = (h.bandTests n).transition n := by
  have hrelax : ¬ ((h.bandTests n).state = .settled ∧ ((h.bandTests n).transition n).1.state = .settled ∧
      ((h.bandTests n).transition n).1.fromSrc = (h.bandTests n).fromSrc) := fun hc => hx hc.2.1
  simp only [Handoff.stage, if_neg hrelax, if_neg hx]

theorem Handoff.bandTests_keeps (n : StageInput) (h : Handoff) :
    (h.bandTests n).state = h.state ∧ (h.bandTests n).fromSrc = h.fromSrc := by
  rw [Handoff.bandTests_eq]
  exact ⟨rfl, rfl⟩

/-- A stage that begins and ends its transition in SETTLED on one source relaxes. -/
theorem Handoff.stage_relaxes (hx : ((h.bandTests n).transition n).1.state = .settled)
    (hs : h.state = .settled) (hf : ((h.bandTests n).transition n).1.fromSrc = h.fromSrc) :
    h.stage n = (((((h.bandTests n).transition n).1.relax n).warmRequests n).1,
      ((h.bandTests n).transition n).2 ++ ((((h.bandTests n).transition n).1.relax n).warmRequests n).2) := by
  obtain ⟨hstate, hfrom⟩ := h.bandTests_keeps n
  have hrelax : (h.bandTests n).state = .settled ∧ ((h.bandTests n).transition n).1.state = .settled ∧
      ((h.bandTests n).transition n).1.fromSrc = (h.bandTests n).fromSrc :=
    ⟨hstate.trans hs, hx, hf.trans hfrom.symm⟩
  have hx' : (((h.bandTests n).transition n).1.relax n).state = .settled := hx
  simp only [Handoff.stage, if_pos hrelax, if_pos hx']

theorem Handoff.stage_warms (hx : ((h.bandTests n).transition n).1.state = .settled)
    (hs : h.state ≠ .settled ∨ ((h.bandTests n).transition n).1.fromSrc ≠ h.fromSrc) :
    h.stage n = ((((h.bandTests n).transition n).1.warmRequests n).1,
      ((h.bandTests n).transition n).2 ++ (((h.bandTests n).transition n).1.warmRequests n).2) := by
  obtain ⟨hstate, hfrom⟩ := h.bandTests_keeps n
  have hrelax : ¬ ((h.bandTests n).state = .settled ∧ ((h.bandTests n).transition n).1.state = .settled ∧
      ((h.bandTests n).transition n).1.fromSrc = (h.bandTests n).fromSrc) := by
    rintro ⟨h1, -, h3⟩
    rcases hs with hs | hs
    · exact hs (hstate.symm.trans h1)
    · exact hs (h3.trans hfrom)
  simp only [Handoff.stage, if_neg hrelax, if_pos hx]

/-! ### Relax (R77) -/

theorem Handoff.relax_of_corr {k : Correction} (hk : h.relaxedCorr n = k) :
    h.relax n = { h with fromCorr := k, relaxPair := if k = .neutral then none else h.relaxPair } := by
  subst hk
  rfl

theorem Handoff.relaxedCorr_pair {p : Fin 3} {c : CalPair} (hp : h.relaxPair = some p)
    (hc : n.pair p = some c) : h.relaxedCorr n = h.fromCorr.relaxed (relaxGain h.fromCorr.gain c.relax) := by
  simp only [Handoff.relaxedCorr, hp, hc]

theorem Handoff.relaxedCorr_gone {p : Fin 3} (hp : h.relaxPair = some p) (hc : n.pair p = none) :
    h.relaxedCorr n = .neutral := by
  simp only [Handoff.relaxedCorr, hp, hc]

theorem Handoff.relaxedCorr_none (hp : h.relaxPair = none) : h.relaxedCorr n = h.fromCorr.relaxed 256 := by
  simp only [Handoff.relaxedCorr, hp]

/-! ### Warm requests (R63) -/

theorem Handoff.warmAbove_requests {p : Fin 3} {c : CalPair} (hf : h.fromSrc = pairLow p)
    (hc : n.pair p = some c) (ha : h.armUp[p] = true) (hl : c.up ≤ n.z + c.margin) (hz : n.z < c.up) :
    h.warmAbove n = ({ h with armUp := h.armUp.set p.val false p.isLt },
      [⟨.warmRequest, 2, p.val + 1, BitVec.ofNat 32 p.val, 1⟩]) := by
  have hband : h.armUp[p] = true ∧ c.up - c.margin ≤ n.z ∧ n.z < c.up := ⟨ha, by omega, hz⟩
  simp only [Handoff.warmAbove, (pairAbove_eq_some _ _).mpr hf, hc, if_pos hband]
  rfl

theorem Handoff.warmBelow_requests {p : Fin 3} {c : CalPair} (hf : h.fromSrc = pairHigh p)
    (hc : n.pair p = some c) (ha : h.armDown[p] = true) (hl : c.down ≤ n.z) (hz : n.z < c.down + c.margin) :
    h.warmBelow n = ({ h with armDown := h.armDown.set p.val false p.isLt },
      [⟨.warmRequest, 2, p.val, BitVec.ofNat 32 p.val, 2⟩]) := by
  have hband : h.armDown[p] = true ∧ c.down ≤ n.z ∧ n.z < c.down + c.margin := ⟨ha, hl, hz⟩
  simp only [Handoff.warmBelow, (pairBelow_eq_some _ _).mpr hf, hc, if_pos hband]
  rfl

theorem Handoff.warmAbove_silent (hno : ∀ p c, ¬ (h.fromSrc = pairLow p ∧ n.pair p = some c ∧
    h.armUp[p] = true ∧ c.up ≤ n.z + c.margin ∧ n.z < c.up)) : h.warmAbove n = (h, []) := by
  unfold Handoff.warmAbove
  split
  · rfl
  · next p hp =>
    split
    · rfl
    · next c hc =>
      refine if_neg ?_
      rintro ⟨ha, hl, hz⟩
      exact hno p c ⟨(pairAbove_eq_some _ _).mp hp, hc, ha, by omega, hz⟩

theorem Handoff.warmBelow_silent (hno : ∀ p c, ¬ (h.fromSrc = pairHigh p ∧ n.pair p = some c ∧
    h.armDown[p] = true ∧ c.down ≤ n.z ∧ n.z < c.down + c.margin)) : h.warmBelow n = (h, []) := by
  unfold Handoff.warmBelow
  split
  · rfl
  · next p hp =>
    split
    · rfl
    · next c hc =>
      refine if_neg ?_
      rintro ⟨ha, hl, hz⟩
      exact hno p c ⟨(pairBelow_eq_some _ _).mp hp, hc, ha, hl, hz⟩

end

/-- Settles O42: each step of the stage, and their order. -/
theorem handoffStageSteps : Obligations.HandoffStageSteps := by
  unfold Obligations.HandoffStageSteps
  intro n h upLeft downLeft
  refine ⟨?_, ?_, ?_, ?_⟩
  · rw [Handoff.bandTests_eq]
    simp only [StageInput.upBandLeft_eq, StageInput.downBandLeft_eq]
    rfl
  · intro x settled
    exact ⟨Handoff.stage_unsettled, Handoff.stage_relaxes, Handoff.stage_warms⟩
  · intro toward relaxed
    refine ⟨fun p c hp hc => ⟨fun hg => ?_, fun hg => ?_⟩, fun p hp hc => ?_, fun hp => ?_⟩
    · have hgain : relaxGain h.fromCorr.gain c.relax = max 256 (h.fromCorr.gain - c.relax) := if_pos hg
      rw [← hgain]
      exact Handoff.relax_of_corr (Handoff.relaxedCorr_pair hp hc)
    · have hgain : relaxGain h.fromCorr.gain c.relax = min 256 (h.fromCorr.gain + c.relax) :=
        if_neg (Nat.not_lt.mpr hg)
      rw [← hgain]
      exact Handoff.relax_of_corr (Handoff.relaxedCorr_pair hp hc)
    · exact Handoff.relax_of_corr (Handoff.relaxedCorr_gone hp hc)
    · exact Handoff.relax_of_corr (Handoff.relaxedCorr_none hp)
  · intro warmUp warmDown
    exact ⟨fun p c hw => Handoff.warmAbove_requests hw.1 hw.2.1 hw.2.2.1 hw.2.2.2.1 hw.2.2.2.2,
      Handoff.warmAbove_silent, fun p c hw => Handoff.warmBelow_requests hw.1 hw.2.1 hw.2.2.1 hw.2.2.2.1 hw.2.2.2.2,
      Handoff.warmBelow_silent, rfl⟩

/-! ### Activation and the stages in order (R39, R93) -/

theorem HandoffState.allowsActivation_iff {x : HandoffState} :
    x.allowsActivation = true ↔ x = .settled ∨ x = .frozen := by
  cases x <;> simp [HandoffState.allowsActivation]

theorem State.activationStage_activates {s : State} {c : CalSet} (hp : s.phase = .running)
    (hc : s.cal.staged = some c) (hs : s.handoff.state = .settled ∨ s.handoff.state = .frozen) :
    s.activationStage = { s with
      cal := { s.cal with active := some c, staged := none }
      handoff := { s.handoff with armUp := #v[true, true, true], armDown := #v[true, true, true] }
      report := s.report.raise s.timeBase ⟨.calActive, 2, 0, BitVec.ofNat 32 c.count, c.crc⟩ } := by
  simp only [State.activationStage, hc, if_pos (HandoffState.allowsActivation_iff.mpr hs)]
  exact State.raise_of_running _ hp

theorem State.activationStage_waits {s : State} {c : CalSet} (hc : s.cal.staged = some c)
    (h1 : s.handoff.state ≠ .settled) (h2 : s.handoff.state ≠ .frozen) : s.activationStage = s := by
  have hno : ¬ s.handoff.state.allowsActivation = true := by
    rw [HandoffState.allowsActivation_iff]
    exact not_or.mpr ⟨h1, h2⟩
  simp only [State.activationStage, hc, if_neg hno]

theorem State.leadStages_of_running {s : State} (i : Fin 2) (hp : s.phase = .running) :
    let a := s.activationStage
    let h := a.handoff.stage ⟨a.zoom.proposed, a.cal.active, a.sources, a.views[i].plan⟩
    let z := a.zoom.clampStage a.cal.active h.1 a.zoom.proposed a.timeBase
    s.leadStages i = { a with
      handoff := h.1
      zoom := z.1
      report := (h.2 ++ z.2).foldl (fun r e => r.raise a.timeBase e) a.report } := by
  intro a h z
  have ha : a.phase = .running := (State.activationStage_phase s).trans hp
  exact State.raiseAll_of_running (s := { a with handoff := h.1, zoom := z.1 }) ha _

/-! ### The advance (R47) -/

theorem Zoom.proposed_reaches {z : Zoom} (h1 : z.current ≤ z.target + z.slew)
    (h2 : z.target ≤ z.current + z.slew) : z.proposed = z.target := by
  unfold Zoom.proposed
  split
  · rfl
  · exact if_pos ⟨h1, h2⟩

theorem Zoom.proposed_rises {z : Zoom} (hs : z.slew ≠ 0) (h : z.current + z.slew < z.target) :
    z.proposed = z.current + z.slew := by
  rw [Zoom.proposed, if_neg hs, if_neg (by omega), if_pos (by omega)]

theorem Zoom.proposed_falls {z : Zoom} (hs : z.slew ≠ 0) (h : z.target + z.slew < z.current) :
    z.proposed = z.current - z.slew := by
  rw [Zoom.proposed, if_neg hs, if_neg (by omega), if_neg (by omega)]

/-! ### The served floor (R48) -/

/-- The better of two sources for the floor: the larger floor, then the lower number. -/
def betterFloor (active : Option CalSet) (b i : Fin 4) : Fin 4 :=
  if floorOf active b < floorOf active i ∨ (floorOf active b = floorOf active i ∧ i < b) then i else b

theorem floorSource_eq (active : Option CalSet) (h : Handoff) :
    floorSource active h = h.named.foldl (betterFloor active) h.fromSrc := rfl

/-- One source serves at least as well as another for the floor. -/
def FloorAtLeast (active : Option CalSet) (b i : Fin 4) : Prop :=
  floorOf active i < floorOf active b ∨ (floorOf active i = floorOf active b ∧ b ≤ i)

theorem FloorAtLeast.refl (active : Option CalSet) (b : Fin 4) : FloorAtLeast active b b := .inr ⟨rfl, le_rfl⟩

theorem FloorAtLeast.trans {active : Option CalSet} {a b c : Fin 4} (h : FloorAtLeast active a b)
    (k : FloorAtLeast active b c) : FloorAtLeast active a c := by
  unfold FloorAtLeast at *
  omega

theorem betterFloor_atLeast (active : Option CalSet) (b i : Fin 4) :
    FloorAtLeast active (betterFloor active b i) b ∧ FloorAtLeast active (betterFloor active b i) i := by
  unfold betterFloor FloorAtLeast
  split <;> omega

theorem betterFloor_mem (active : Option CalSet) (b i : Fin 4) :
    betterFloor active b i = b ∨ betterFloor active b i = i := by
  unfold betterFloor
  split
  · exact .inr rfl
  · exact .inl rfl

theorem foldl_betterFloor (active : Option CalSet) (is : List (Fin 4)) (b : Fin 4) :
    is.foldl (betterFloor active) b ∈ b :: is ∧
      ∀ i ∈ b :: is, FloorAtLeast active (is.foldl (betterFloor active) b) i := by
  induction is generalizing b with
  | nil => exact ⟨List.mem_cons_self, fun i hi => List.mem_singleton.mp hi ▸ FloorAtLeast.refl ..⟩
  | cons x xs ih =>
    obtain ⟨hmem, hall⟩ := ih (betterFloor active b x)
    obtain ⟨hb, hx⟩ := betterFloor_atLeast active b x
    have hbest := hall _ List.mem_cons_self
    refine ⟨?_, fun i hi => ?_⟩
    · rw [List.foldl_cons]
      rcases List.mem_cons.mp hmem with h | h
      · rw [h]
        rcases betterFloor_mem active b x with h | h <;> rw [h] <;> simp
      · exact List.mem_cons_of_mem _ (List.mem_cons_of_mem _ h)
    · rcases List.mem_cons.mp hi with rfl | hi
      · exact hbest.trans hb
      · rcases List.mem_cons.mp hi with rfl | hi
        · exact hbest.trans hx
        · exact hall i (List.mem_cons_of_mem _ hi)

theorem floorSource_spec (active : Option CalSet) (h : Handoff) :
    floorSource active h ∈ h.named ∧ ∀ i ∈ h.named, FloorAtLeast active (floorSource active h) i := by
  obtain ⟨hmem, hall⟩ := foldl_betterFloor active h.named h.fromSrc
  refine ⟨?_, fun i hi => hall i (List.mem_cons_of_mem _ hi)⟩
  rw [floorSource_eq]
  rcases List.mem_cons.mp hmem with h' | h'
  · rw [h']
    exact List.mem_cons_self
  · exact h'

theorem floorOf_active {c : CalSet} {i : Fin 4} {m : CalSource} (hm : c.sources[i.val]? = some m) :
    floorOf (some c) i = if i.val < c.count then m.floor else 2048 := by
  unfold floorOf calSource
  rw [Option.bind_some]
  split
  · rw [hm]
    rfl
  · rfl

/-! ### The floor clamp (R49 to R52) -/

theorem Zoom.clampStage_eq (zm : Zoom) (active : Option CalSet) (h : Handoff) (z : Nat) (now : Word) :
    let src := floorSource active h
    let floor := servedFloor active h
    let current := max z floor
    let holding := z < floor ∧ zm.target < floor
    let reached := zm.reachArm = true ∧ zm.current ≠ zm.target ∧ current = zm.target
    zm.clampStage active h z now =
      ({ zm with
          current
          floorHold := decide holding
          reachArm := zm.reachArm && decide (zm.current ≠ zm.target ∧ current ≠ zm.target) },
        (if holding ∧ zm.floorHold = false then
          [⟨.zoomClamped, 2, src.val, 2, BitVec.ofNat 32 (floor + 65536 * zm.target)⟩] else []) ++
        (if reached then [⟨.zoomReached, 1, 0, BitVec.ofNat 32 zm.target, now⟩] else [])) := by
  intro src floor current holding reached
  have hreached : ((zm.reachArm && decide (zm.current ≠ zm.target)) = true ∧ current = zm.target) ↔ reached := by
    rw [Bool.and_eq_true, decide_eq_true_iff, and_assoc]
  have harm : ((zm.reachArm && decide (zm.current ≠ zm.target)) &&
      !decide ((zm.reachArm && decide (zm.current ≠ zm.target)) = true ∧ current = zm.target)) =
      (zm.reachArm && decide (zm.current ≠ zm.target ∧ current ≠ zm.target)) := by
    by_cases h1 : zm.current = zm.target
    · simp [h1]
    · by_cases h2 : current = zm.target
      · simp [h1, h2]
      · simp [h1, h2]
  unfold Zoom.clampStage
  refine Prod.ext ?_ ?_
  · simp only [← harm]
    rfl
  · exact congrArg₂ (· ++ ·) rfl (if_congr hreached rfl rfl)

/-- Settles O41: the stages in their order, and what each does. -/
theorem leadOpeningStages : Obligations.LeadOpeningStages := by
  unfold Obligations.LeadOpeningStages
  refine ⟨fun s hp => ⟨fun c hc => ⟨State.activationStage_activates hp hc, State.activationStage_waits hc⟩,
    fun hc => ?_, fun i => State.leadStages_of_running i hp⟩, fun z => ⟨fun hs => if_pos hs,
    Zoom.proposed_reaches, Zoom.proposed_rises, Zoom.proposed_falls⟩, fun active h => ?_⟩
  · simp only [State.activationStage, hc]
  · intro src
    obtain ⟨hmem, hall⟩ := floorSource_spec active h
    refine ⟨?_, hmem, rfl, fun i hi => ?_, fun i hi heq => ?_, fun c i m hc hm => ?_, fun hn i => ?_,
      fun zm z now => ⟨fun heq hfloor => ?_, zm.clampStage_eq active h z now⟩⟩
    · unfold Handoff.named Handoff.toSrc
      cases h.state <;> rfl
    · have := hall i hi
      unfold FloorAtLeast at this
      change floorOf active i ≤ floorOf active (floorSource active h)
      omega
    · have := hall i hi
      unfold FloorAtLeast at this
      change floorOf active i = floorOf active (floorSource active h) at heq
      change floorSource active h ≤ i
      omega
    · rw [hc]
      exact floorOf_active hm
    · rw [hn]
      rfl
    · have hproposed : zm.proposed = zm.target :=
        Zoom.proposed_reaches (by omega) (by omega)
      have hclamp := zm.clampStage_eq active h zm.proposed now
      rw [hclamp, hproposed, Nat.max_eq_left hfloor]
      have hhold : ¬ (zm.target < servedFloor active h ∧ zm.target < servedFloor active h) := by
        rintro ⟨hlt, -⟩
        omega
      simp only [hhold, heq, ne_eq, not_true_eq_false, false_and, and_false, decide_false, Bool.and_false, if_false,
        List.append_nil]

end Sys2Proof.Machine
end

section
/-! PROOFS. The plan that a view latches (O46) and its geometry (O47). -/

namespace Sys2Proof.Machine

/-! ### Mappings (R31, R32) -/

theorem mappingOf_calibrated {c : CalSet} {i : Fin 4} {x : CalSource} (r : SourceRecord)
    (hi : i.val < c.count) (hx : c.sources[i.val]? = some x) : mappingOf (some c) i r = x := by
  simp only [mappingOf, calSource, Option.bind_some, if_pos hi, hx, Option.getD_some]

theorem mappingOf_default {active : Option CalSet} {i : Fin 4} (r : SourceRecord)
    (h : active = none ∨ ∃ c, active = some c ∧ c.count ≤ i.val) : mappingOf active i r = defaultMapping r := by
  rcases h with rfl | ⟨c, rfl, hc⟩
  · rfl
  · simp only [mappingOf, calSource, Option.bind_some, if_neg (Nat.not_lt.mpr hc), Option.getD_none]

theorem defaultMapping_values (r : SourceRecord) :
    let m := defaultMapping r
    let k : ℚ := r.width / 4096
    (m.k : ℚ) / 65536 = k ∧ (m.oU : ℚ) / 65536 = ((r.width : ℚ) - 1) / 2 - k * 2048 ∧
      (m.oV : ℚ) / 65536 = ((r.height : ℚ) - 1) / 2 - k * 1536 ∧ m.floor = 2048 ∧ m.rect = none := by
  refine ⟨?_, ?_, ?_, rfl, rfl⟩
  · simp only [defaultMapping]
    push_cast
    ring
  · simp only [defaultMapping]
    push_cast
    ring
  · simp only [defaultMapping]
    push_cast
    ring

/-! ### The newest READY store (R13) -/

theorem Source.mem_readyStores {src : Source} {x : Nat × Nat} : x ∈ src.readyStores ↔
    ∃ st o, src.stores[x.1]? = some st ∧ st.state = .ready ∧ st.closeOrder = some o ∧ x.2 = src.behind o := by
  unfold Source.readyStores
  rw [List.mem_filterMap]
  constructor
  · rintro ⟨p, -, hp⟩
    split at hp
    · next st hst =>
      split at hp
      · next hready =>
        obtain ⟨o, ho, rfl⟩ := Option.map_eq_some_iff.mp hp
        exact ⟨st, o, hst, hready, ho, rfl⟩
      · cases hp
    · cases hp
  · rintro ⟨st, o, hst, hready, ho, hx⟩
    refine ⟨x.1, List.mem_range.mpr (List.getElem?_eq_some_iff.mp hst).1, ?_⟩
    simp only [hst, if_pos hready, ho, Option.map_some, ← hx]

theorem leastSecond_eq_none {l : List (Nat × Nat)} (h : leastSecond l = none) : l = [] := by
  cases l with
  | nil => rfl
  | cons x xs =>
    unfold leastSecond at h
    split at h
    · split at h <;> cases h
    · cases h

/-- The newest READY store is the one whose close order lies least behind. -/
theorem Source.newestReady_least {src : Source} {q : Nat} (h : src.newestReady = some q) :
    ∃ st o, src.stores[q]? = some st ∧ st.state = .ready ∧ st.closeOrder = some o ∧
      ∀ (j : Nat) (sj : FrameStore) (oj : Word), src.stores[j]? = some sj → sj.state = .ready →
        sj.closeOrder = some oj → (src.readyCount - o).toNat ≤ (src.readyCount - oj).toNat := by
  obtain ⟨x, hx, rfl⟩ := Option.map_eq_some_iff.mp h
  obtain ⟨st, o, hst, hready, ho, hbehind⟩ := Source.mem_readyStores.mp (leastSecond_mem _ _ hx)
  refine ⟨st, o, hst, hready, ho, fun j sj oj hj hjready hoj => ?_⟩
  have hmem : (j, src.behind oj) ∈ src.readyStores :=
    Source.mem_readyStores.mpr ⟨sj, oj, hj, hjready, hoj, rfl⟩
  have hle := leastSecond_le _ _ hx _ hmem
  rwa [hbehind] at hle

theorem Source.newestReady_eq_none {src : Source} (h : src.newestReady = none) {j : Nat} {sj : FrameStore}
    (hj : src.stores[j]? = some sj) (hready : sj.state = .ready) : sj.closeOrder = none := by
  have hnil := leastSecond_eq_none (Option.map_eq_none_iff.mp h)
  cases ho : sj.closeOrder with
  | none => rfl
  | some o =>
    have hmem : (j, src.behind o) ∈ src.readyStores := Source.mem_readyStores.mpr ⟨sj, o, hj, hready, ho, rfl⟩
    rw [hnil] at hmem
    cases hmem

/-! ### The store choice (R96) -/

theorem Plan.storeFor_of_side {p : Plan} {x : SidePlan} {i : Fin 4}
    (hx : p.fromSide = some x ∨ p.toSide = some x) (hi : x.source = i)
    (hfirst : ∀ y, p.fromSide = some y → y.source = i → y = x) : p.storeFor i = some x.store := by
  unfold Plan.storeFor
  have hfilter (ht : p.toSide = some x) :
      (p.toSide.filter fun b => b.source == i).map SidePlan.store = some x.store := by
    rw [ht, Option.filter_some, if_pos (beq_iff_eq.mpr hi), Option.map_some]
  cases hf : p.fromSide with
  | none =>
    rw [hf] at hx
    exact hfilter (hx.resolve_left (by simp))
  | some a =>
    by_cases ha : a.source = i
    · dsimp only
      rw [if_pos ha, hfirst a hf ha]
    · dsimp only
      rw [if_neg ha]
      refine hfilter (hx.resolve_left fun hax => ha ?_)
      rw [hf] at hax
      cases hax
      exact hi

theorem Plan.storeFor_of_no_side {p : Plan} {i : Fin 4}
    (h : ∀ x, (p.fromSide = some x ∨ p.toSide = some x) → x.source ≠ i) : p.storeFor i = none := by
  unfold Plan.storeFor
  have hfilter : (p.toSide.filter fun b => b.source == i).map SidePlan.store = none := by
    cases ht : p.toSide with
    | none => rfl
    | some b =>
      have hb : ¬ (b.source == i) = true := fun hb => h b (.inr ht) (beq_iff_eq.mp hb)
      rw [Option.filter_some, if_neg hb, Option.map_none]
  cases hf : p.fromSide with
  | none => exact hfilter
  | some a =>
    dsimp only
    rw [if_neg (h a (.inl hf))]
    exact hfilter

theorem chooseStore_newest {sources : Vector Source 4} {old : Option Plan} {i : Fin 4} {q : Nat}
    (h : sources[i].newestReady = some q) : chooseStore sources old i = some q := by
  rw [chooseStore, h, Option.some_or]

theorem chooseStore_retiring {sources : Vector Source 4} (old : Option Plan) {i : Fin 4}
    (h : sources[i].newestReady = none) : chooseStore sources old i = old.bind fun p => p.storeFor i := by
  rw [chooseStore, h, Option.none_or]

/-! ### The arrangement of sides (R96 to R98, R100) -/

section
variable {a b : Option SideChoice} {w : Nat}

theorem sidesWeight_from (a : Option SideChoice) (w : Nat) : sidesWeight a none w = 0 := by
  cases a <;> rfl

theorem Arrangement.degraded_from (a : Option SideChoice) (w : Nat) (level : DegradeLevel) :
    Arrangement.degraded ⟨a, none, w⟩ level = ⟨a, none, w⟩ := by
  cases level <;> cases a <;> rfl

theorem Arrangement.degraded_to (b : SideChoice) (w : Nat) (level : DegradeLevel) :
    Arrangement.degraded ⟨none, some b, w⟩ level = ⟨none, some b, w⟩ := by
  cases level <;> rfl

/-- The sides that a plan keeps, with its weight. -/
theorem arrangement_kept (a b : Option SideChoice) (w : Nat) (level : DegradeLevel) :
    Arrangement.degraded ⟨a, b, sidesWeight a b w⟩ level =
      match level, a, b with
      | .full, some _, some _ => (⟨a, b, w⟩ : Arrangement)
      | .single, some _, some _ => if w < 128 then ⟨a, none, 0⟩ else ⟨none, b, 256⟩
      | _, none, some _ => ⟨none, b, 256⟩
      | _, _, none => ⟨a, none, 0⟩ := by
  cases b with
  | none =>
    rw [sidesWeight_from, Arrangement.degraded_from]
    cases level <;> cases a <;> rfl
  | some y =>
    cases a with
    | none =>
      rw [Arrangement.degraded_to]
      cases level <;> rfl
    | some x => cases level <;> rfl

/-- With no side, the weight is 0. -/
theorem Arrangement.degraded_weight {a b : Option SideChoice} {w : Nat} {level : DegradeLevel}
    (hfrom : (Arrangement.degraded ⟨a, b, sidesWeight a b w⟩ level).fromSide = none)
    (hto : (Arrangement.degraded ⟨a, b, sidesWeight a b w⟩ level).toSide = none) :
    (Arrangement.degraded ⟨a, b, sidesWeight a b w⟩ level).weight = 0 := by
  rw [arrangement_kept] at hfrom hto ⊢
  cases b with
  | none =>
    cases level <;> cases a <;> rfl
  | some y =>
    cases a with
    | none => cases level <;> cases hto
    | some x =>
      cases level with
      | full => cases hto
      | single =>
        dsimp only at hfrom hto ⊢
        split at hfrom
        · cases hfrom
        · next h => rw [if_neg h] at hto; cases hto

end

section
variable (h : Handoff) (sources : Vector Source 4) (old : Option Plan) (level : DegradeLevel)

/-- The side that source `i` gives, with the correction `k`. -/
def pickSide (sources : Vector Source 4) (old : Option Plan) (i : Fin 4) (k : Correction) : Option SideChoice :=
  (chooseStore sources old i).map fun q => ⟨i, q, k⟩

theorem arrangement_frozen (hs : h.state = .frozen) :
    arrangement h sources old level = (frozenArrangement h old).degraded level := by
  rw [arrangement, if_pos hs]

theorem arrangement_blend {p : Fin 3} {d : PairDir} {m : BlendDir} (hs : h.state = .blend p d m) :
    arrangement h sources old level =
      Arrangement.degraded ⟨pickSide sources old h.fromSrc h.fromCorr, pickSide sources old (toOf p d) h.toCorr,
        sidesWeight (pickSide sources old h.fromSrc h.fromCorr) (pickSide sources old (toOf p d) h.toCorr)
          h.weight⟩ level := by
  have hno : ¬ h.state = .frozen := by rw [hs]; intro hn; cases hn
  rw [arrangement, if_neg hno]
  simp only [chosenArrangement, Handoff.sideSources, hs]
  rfl

theorem arrangement_single (hs : h.state = .settled ∨ ∃ p d n, h.state = .prepare p d n) :
    arrangement h sources old level = ⟨pickSide sources old h.fromSrc h.fromCorr, none, 0⟩ := by
  have hno : ¬ h.state = .frozen := by
    rcases hs with hs | ⟨p, d, n, hs⟩ <;> rw [hs] <;> intro hn <;> cases hn
  have hsides : h.sideSources = (h.fromSrc, none) := by
    rcases hs with hs | ⟨p, d, n, hs⟩ <;> simp only [Handoff.sideSources, hs]
  rw [arrangement, if_neg hno]
  simp only [chosenArrangement, hsides, Option.bind_none, sidesWeight_from]
  exact Arrangement.degraded_from _ _ _

theorem arrangement_weight (hfrom : (arrangement h sources old level).fromSide = none)
    (hto : (arrangement h sources old level).toSide = none) : (arrangement h sources old level).weight = 0 := by
  unfold arrangement at hfrom hto ⊢
  split at hfrom
  · next hs =>
    rw [if_pos hs] at hto ⊢
    exact Arrangement.degraded_weight hfrom hto
  · next hs =>
    rw [if_neg hs] at hto ⊢
    exact Arrangement.degraded_weight hfrom hto

end

/-! ### The box of a plan's sides (R54) -/

section
variable {a : Arrangement} {active : Option CalSet} {sources : Vector Source 4} {x y : SideChoice} {b c : Box}

theorem Arrangement.box_none (hfrom : a.fromSide = none) (hto : a.toSide = none) :
    a.box active sources = none := by
  simp only [Arrangement.box, hfrom, hto, Option.bind_none]

theorem Arrangement.box_from (hfrom : a.fromSide = some x) (hto : a.toSide = none)
    (hx : x.box active sources = some b) : a.box active sources = some b := by
  simp only [Arrangement.box, hfrom, hto, Option.bind_some, Option.bind_none, hx]

theorem Arrangement.box_to (hfrom : a.fromSide = none) (hto : a.toSide = some x)
    (hx : x.box active sources = some b) : a.box active sources = some b := by
  simp only [Arrangement.box, hfrom, hto, Option.bind_some, Option.bind_none, hx]

theorem Arrangement.box_both (hfrom : a.fromSide = some x) (hto : a.toSide = some y)
    (hx : x.box active sources = some b) (hy : y.box active sources = some c) :
    a.box active sources = some (b.inter c) := by
  simp only [Arrangement.box, hfrom, hto, Option.bind_some, hx, hy]

end

section
variable (r : ViewRecord) (number : Word) (level : DegradeLevel) (old : Option Plan) (sources : Vector Source 4)
  (active : Option CalSet) (zm : Zoom) (h : Handoff)

theorem latchPlan_centre : ((latchPlan r number level old sources active zm h).centreX,
    (latchPlan r number level old sources active zm h).centreY) =
      effectiveCentre zm.current r.width r.height zm.panX zm.panY
        ((arrangement h sources old level).box active sources) := rfl

theorem latchPlan_isFill (hfrom : (arrangement h sources old level).fromSide = none)
    (hto : (arrangement h sources old level).toSide = none) :
    (latchPlan r number level old sources active zm h).isFill = true := by
  simp only [Plan.isFill, latchPlan, hfrom, hto, Option.bind_none, Option.isNone_none, Bool.and_self]

end

/-- Settles O46: the mapping, the store, the sides and what they give the plan. -/
theorem planLatched : Obligations.PlanLatched := by
  unfold Obligations.PlanLatched
  refine ⟨fun active i r => ?_, fun src => ⟨fun q hq => Source.newestReady_least hq, fun hn j sj hj hready =>
    Source.newestReady_eq_none hn hj hready⟩, fun sources i old => ⟨fun q hq => chooseStore_newest hq,
    fun hn => ⟨fun p x hp hx hi hfirst => ?_, fun hno => ?_⟩⟩, fun h sources old level => ?_,
    fun r number level old sources active zm h => ?_⟩
  · intro m
    refine ⟨fun c x hc hi hx => ?_, fun hun => ?_⟩
    · simp only [m, hc]
      exact mappingOf_calibrated r hi hx
    · simp only [m, mappingOf_default r hun]
      exact defaultMapping_values r
  · rw [chooseStore_retiring old hn, hp, Option.bind_some]
    exact Plan.storeFor_of_side hx hi hfirst
  · rw [chooseStore_retiring old hn]
    cases hp : old with
    | none => rfl
    | some p =>
      rw [Option.bind_some]
      exact Plan.storeFor_of_no_side fun x hx => hno p x hp hx
  · intro pick kept
    refine ⟨fun hs => arrangement_single h sources old level hs, fun p d m hs => ?_, fun hs => ?_⟩
    · rw [arrangement_blend h sources old level hs]
      exact arrangement_kept _ _ _ _
    · rw [arrangement_frozen h sources old level hs]
      exact arrangement_kept _ _ _ _
  · intro p a side box
    have hcentre := latchPlan_centre r number level old sources active zm h
    refine ⟨rfl, rfl, rfl, rfl, rfl, fun hf ht => ⟨latchPlan_isFill r number level old sources active zm h hf ht,
      arrangement_weight h sources old level hf ht, ?_⟩, fun x b hf ht hx => ?_, fun x b hf ht hx => ?_,
      fun x y b c hf ht hx hy => ?_⟩
    · rw [hcentre, Arrangement.box_none hf ht]
      rfl
    · rw [hcentre, Arrangement.box_from hf ht hx]
    · rw [hcentre, Arrangement.box_to hf ht hx]
    · rw [hcentre, Arrangement.box_both hf ht hx hy]
      rfl

end Sys2Proof.Machine
end

section
/-! PROOFS. The geometry of a plan (O47). -/

namespace Sys2Proof.Machine

/-! ### Coverage boxes (R54) -/

theorem coverageBox_edges {m : CalSource} (r : SourceRecord) (hm : m.k ≠ 0) :
    let b := coverageBox m r
    b.xLo * m.k = -m.oU ∧ b.xHi * m.k = (r.width - 1) * 65536 - m.oU ∧
      b.yLo * m.k = -m.oV ∧ b.yHi * m.k = (r.height - 1) * 65536 - m.oV := by
  have hk : (m.k : ℚ) ≠ 0 := Nat.cast_ne_zero.mpr hm
  refine ⟨?_, div_mul_cancel₀ _ hk, ?_, div_mul_cancel₀ _ hk⟩
  · exact (div_mul_cancel₀ _ hk).trans (zero_sub _)
  · exact (div_mul_cancel₀ _ hk).trans (zero_sub _)

/-! ### Rounding (R55, R105, R106) -/

theorem abs_floor_half_sub (x : ℚ) : |((x + 1 / 2).floor : ℚ) - x| ≤ 1 / 2 := by
  have hle : ((x + 1 / 2).floor : ℚ) ≤ x + 1 / 2 := Int.floor_le _
  have hlt : x + 1 / 2 < ((x + 1 / 2).floor : ℚ) + 1 := Int.lt_floor_add_one _
  rw [abs_le]
  constructor <;> linarith

theorem roundAway_near (x : ℚ) : |(roundAway x : ℚ) - x| ≤ 1 / 2 := by
  unfold roundAway
  split
  · exact abs_floor_half_sub x
  · have hneg := abs_floor_half_sub (-x)
    rw [← abs_neg]
    have hcast : -(((-(-x + 1 / 2).floor : Int) : ℚ) - x) = ((-x + 1 / 2).floor : ℚ) - -x := by
      push_cast
      ring
    rw [hcast]
    exact hneg

theorem floor_intCast (n : Int) : ((n : ℚ)).floor = n := by
  change ⌊(n : ℚ)⌋ = n
  exact Int.floor_intCast n

/-- Half-way values go away from zero. -/
theorem roundAway_half (n : Int) : roundAway ((n : ℚ) + 1 / 2) = if 0 ≤ n then n + 1 else n := by
  unfold roundAway
  by_cases hn : 0 ≤ n
  · have hq : (0 : ℚ) ≤ n := Int.cast_nonneg hn
    have hx : (n : ℚ) + 1 / 2 + 1 / 2 = ((n + 1 : Int) : ℚ) := by
      push_cast
      ring
    rw [if_pos (by linarith), if_pos hn, hx, floor_intCast]
  · have hq : (n : ℚ) ≤ -1 := by
      have : n ≤ -1 := by omega
      exact_mod_cast this
    have hx : -((n : ℚ) + 1 / 2) + 1 / 2 = ((-n : Int) : ℚ) := by
      push_cast
      ring
    rw [if_neg (by linarith), if_neg hn, hx, floor_intCast, neg_neg]

theorem roundAway_intCast (n : Int) : roundAway n = n := by
  have hfloor (k : Int) : ((k : ℚ) + 1 / 2).floor = k := by
    change ⌊(k : ℚ) + 1 / 2⌋ = k
    refine Int.floor_eq_iff.mpr ⟨?_, ?_⟩ <;> linarith
  unfold roundAway
  split
  · exact hfloor n
  · have hx : -(n : ℚ) = ((-n : Int) : ℚ) := by push_cast; ring
    rw [hx, hfloor, neg_neg]

theorem roundAway_nonneg {x : ℚ} (hx : 0 ≤ x) : 0 ≤ roundAway x := by
  rw [roundAway, if_pos hx]
  change 0 ≤ ⌊x + 1 / 2⌋
  exact Int.floor_nonneg.mpr (by linarith)

/-! ### The effective centre (R55) -/

theorem holdFixed_range (i : Int) : -(2 ^ 31) ≤ holdFixed i ∧ holdFixed i < 2 ^ 31 := by
  unfold holdFixed
  split
  · next h => exact h
  · have hlo := BitVec.le_toInt (Config.wideCentre i)
    have hhi := BitVec.toInt_lt (x := Config.wideCentre i)
    exact ⟨hlo, hhi⟩

theorem holdFixed_inside {i : Int} (h1 : -(2 ^ 31) ≤ i) (h2 : i < 2 ^ 31) : holdFixed i = i := if_pos ⟨h1, h2⟩

section
variable {c lo hi half : ℚ}

theorem clampCentre_low (hbox : lo + half ≤ hi - half) (hc : c < lo + half) :
    clampCentre c lo hi half = lo + half := by
  rw [clampCentre, if_pos hbox]
  exact max_eq_left ((min_le_left _ _).trans hc.le)

theorem clampCentre_high (hbox : lo + half ≤ hi - half) (hc : hi - half < c) :
    clampCentre c lo hi half = hi - half := by
  rw [clampCentre, if_pos hbox, min_eq_right hc.le]
  exact max_eq_right hbox

theorem clampCentre_inside (h1 : lo + half ≤ c) (h2 : c ≤ hi - half) : clampCentre c lo hi half = c := by
  rw [clampCentre, if_pos (h1.trans h2), min_eq_left h2]
  exact max_eq_right h1

theorem clampCentre_midpoint (hbox : hi - half < lo + half) : clampCentre c lo hi half = (lo + hi) / 2 :=
  if_neg (not_le.mpr hbox)

end

/-- One coordinate of the effective centre, by where the pan target lies. -/
theorem heldCentre_spec (pan : Int) (lo hi half : ℚ) :
    let i := holdFixed (roundAway (65536 * clampCentre (pan / 65536) lo hi half))
    let held := fun x : ℚ =>
      -(2 ^ 31) ≤ roundAway (65536 * x) → roundAway (65536 * x) < 2 ^ 31 → i = roundAway (65536 * x);
    -(2 ^ 31) ≤ i ∧ i < 2 ^ 31 ∧
      (lo + half ≤ hi - half →
        ((pan : ℚ) / 65536 < lo + half → held (lo + half)) ∧
        (hi - half < (pan : ℚ) / 65536 → held (hi - half)) ∧
        (lo + half ≤ (pan : ℚ) / 65536 → (pan : ℚ) / 65536 ≤ hi - half →
          -(2 ^ 31) ≤ pan → pan < 2 ^ 31 → i = pan)) ∧
      (hi - half < lo + half → held ((lo + hi) / 2)) := by
  intro i held
  have hheld {x : ℚ} (hx : clampCentre ((pan : ℚ) / 65536) lo hi half = x) : held x := by
    intro h1 h2
    simp only [i, hx]
    exact holdFixed_inside h1 h2
  obtain ⟨hlo, hhi⟩ := holdFixed_range (roundAway (65536 * clampCentre (pan / 65536) lo hi half))
  refine ⟨hlo, hhi, fun hbox => ⟨fun hc => hheld (clampCentre_low hbox hc),
    fun hc => hheld (clampCentre_high hbox hc), fun h1 h2 h3 h4 => ?_⟩,
    fun hbox => hheld (clampCentre_midpoint hbox)⟩
  have hpan : roundAway (65536 * ((pan : ℚ) / 65536)) = pan := by
    rw [mul_div_cancel₀ (pan : ℚ) (by norm_num), roundAway_intCast]
  simp only [i, clampCentre_inside h1 h2, hpan]
  exact holdFixed_inside h3 h4

/-! ### The geometry of a side (R105, R106, R117) -/

theorem limitTo_eq (i : Int) (n : Nat) : limitTo i n = (max 0 (min i (n - 1 : Nat))).toNat := by
  unfold limitTo
  omega

theorem exactStep_nonneg (m : CalSource) (z width : Nat) : 0 ≤ exactStep m z width := by
  unfold exactStep spanOf
  positivity

theorem heldStep_eq (m : CalSource) (z width : Nat) :
    (heldStep m z width : Int) = roundAway (65536 * exactStep m z width) := by
  rw [heldStep, Int.toNat_of_nonneg]
  exact roundAway_nonneg (mul_nonneg (by norm_num) (exactStep_nonneg m z width))

/-! ### Source positions (R107, R108) -/

section
variable {origin : Int} {step x n : Nat}

theorem axisPos_before (h : origin + (x : Int) * step < 0) : axisPos origin step x n = ⟨0, 0, 1⟩ :=
  if_pos (by omega)

theorem axisPos_past (hn : 1 ≤ n) (h : 65536 * ((n : Int) - 1) ≤ origin + (x : Int) * step) :
    axisPos origin step x n = ⟨n - 1, 0, n - 1⟩ := by
  unfold axisPos
  dsimp only
  rw [if_neg (by omega), if_pos (by omega)]

theorem axisPos_inside (h0 : 0 ≤ origin + (x : Int) * step)
    (h1 : origin + (x : Int) * step < 65536 * ((n : Int) - 1)) :
    axisPos origin step x n = ⟨((origin + (x : Int) * step) / 65536).toNat,
      ((origin + (x : Int) * step) % 65536 / 256).toNat,
      ((origin + (x : Int) * step) / 65536).toNat + 1⟩ := by
  unfold axisPos
  dsimp only
  rw [if_neg (by omega), if_neg (by omega)]

end

/-- A position lies in its axis: before it, past it, or at a cell and fraction. -/
theorem axisPos_spec (origin : Int) (step x n : Nat) (hn : 2 ≤ n) :
    let q := origin + (x : Int) * step
    let a := axisPos origin step x n
    a.cell < n ∧ a.next < n ∧ a.frac ≤ 255 ∧ (q < 0 → a = ⟨0, 0, 1⟩) ∧
      (65536 * ((n : Int) - 1) ≤ q → a = ⟨n - 1, 0, n - 1⟩) ∧
      (0 ≤ q → q < 65536 * ((n : Int) - 1) →
        (65536 * (a.cell : Int) + 256 * a.frac ≤ q ∧ q < 65536 * (a.cell : Int) + 256 * a.frac + 256) ∧
        a.next = a.cell + 1) := by
  intro q a
  by_cases h0 : q < 0
  · have ha : a = ⟨0, 0, 1⟩ := axisPos_before h0
    rw [ha]
    exact ⟨by dsimp only; omega, hn, by dsimp only; omega, fun _ => rfl, fun h => by omega, fun h => by omega⟩
  · by_cases h1 : 65536 * ((n : Int) - 1) ≤ q
    · have ha : a = ⟨n - 1, 0, n - 1⟩ := axisPos_past (by omega) h1
      rw [ha]
      exact ⟨by dsimp only; omega, by dsimp only; omega, by dsimp only; omega, fun h => absurd h h0, fun _ => rfl,
        fun _ h => by omega⟩
    · have ha : a = ⟨(q / 65536).toNat, (q % 65536 / 256).toNat, (q / 65536).toNat + 1⟩ :=
        axisPos_inside (by omega) (by omega)
      rw [ha]
      exact ⟨by dsimp only; omega, by dsimp only; omega, by dsimp only; omega, fun h => absurd h h0,
        fun h => absurd h h1, fun _ _ => ⟨by dsimp only; omega, rfl⟩⟩

/-- Settles O47: the box, the rounding, the centre, the side and the positions, each from its formula. -/
theorem planGeometry : Obligations.PlanGeometry := by
  unfold Obligations.PlanGeometry
  refine ⟨fun m r hm => coverageBox_edges r hm, fun x => ⟨roundAway_near x, fun n hn => ?_⟩,
    fun z width height panX panY => ⟨rfl, fun b => ?_⟩, fun src store corr m r z width height centre => ?_,
    fun origin step x size hsize => axisPos_spec origin step x size hsize⟩
  · rw [hn]
    exact roundAway_half n
  · intro span hx hy held centre
    exact ⟨heldCentre_spec panX b.xLo b.xHi hx, heldCentre_spec panY b.yLo b.yHi hy⟩
  · intro p step origin column
    exact ⟨rfl, rfl, rfl, heldStep_eq m z width, rfl, rfl, limitTo_eq _ _, limitTo_eq _ _⟩

end Sys2Proof.Machine
end

section
/-! PROOFS. The composed pixel and the bytes of an answer (O48). -/

namespace Sys2Proof.Machine

/-! ### The bytes of an answer and the rows touched (R86, R90) -/

theorem mem_readOffsets {r : ReadReq} {base o : Nat} :
    o ∈ readOffsets r base ↔ ∃ n < 16 * r.beats, r.addr.toNat - base + n = o := by
  simp only [readOffsets, List.mem_map, List.mem_range]

theorem readOffsets_sorted (r : ReadReq) (base : Nat) : (readOffsets r base).Pairwise (· ≤ ·) :=
  (List.pairwise_lt_range.imp fun h => Nat.add_le_add_left (Nat.le_of_lt h) _).map _ fun _ _ h => h

theorem ViewRecord.activeByte_iff {v : ViewRecord} {o : Nat} :
    v.activeByte o = true ↔ o / v.stride < v.height ∧ o % v.stride < 4 * v.width := by
  simp only [ViewRecord.activeByte, Bool.and_eq_true, decide_eq_true_eq]

theorem ViewRecord.answerData_getElem? {v : ViewRecord} {r : ReadReq} (pixel : Nat → Nat → Nat → Nat) {n : Nat}
    (hn : n < 16 * r.beats) :
    (v.answerData r pixel)[n]? =
      let o := r.addr.toNat - v.base + n
      some (if o / v.stride < v.height ∧ o % v.stride < 4 * v.width ∧ o % v.stride % 4 ≠ 3 then
        BitVec.ofNat 8 (pixel (o % v.stride / 4) (o / v.stride) (o % v.stride % 4)) else 0) := by
  rw [ViewRecord.answerData, readOffsets, List.getElem?_map, List.getElem?_map, List.getElem?_range hn]
  simp only [Option.map_some, ViewRecord.activeByte_iff]
  congr 1
  split <;> split <;> simp_all

/-- A sorted list without its later duplicates is strictly sorted. -/
theorem eraseDups_strict : ∀ {l : List Nat}, l.Pairwise (· ≤ ·) → l.eraseDups.Pairwise (· < ·)
  | [], _ => List.Pairwise.nil
  | a :: l, h => by
    obtain ⟨hhead, htail⟩ := List.pairwise_cons.mp h
    rw [List.eraseDups_cons, List.pairwise_cons]
    refine ⟨fun b hb => ?_, eraseDups_strict (htail.filter _)⟩
    obtain ⟨hmem, hne⟩ := List.mem_filter.mp (List.mem_eraseDups.mp hb)
    have hba : b ≠ a := by simpa using hne
    exact lt_of_le_of_ne (hhead b hmem) hba.symm
termination_by l => l.length
decreasing_by exact Nat.lt_succ_of_le (List.length_filter_le _ _)

theorem ViewRecord.touched_strict (v : ViewRecord) (r : ReadReq) : (v.touched r).Pairwise (· < ·) :=
  eraseDups_strict (((readOffsets_sorted r v.base).filter _).map _ fun _ _ h => Nat.div_le_div_right h)

theorem ViewRecord.mem_touched {v : ViewRecord} {r : ReadReq} {y : Nat} :
    y ∈ v.touched r ↔ ∃ n < 16 * r.beats, (r.addr.toNat - v.base + n) / v.stride = y ∧ y < v.height ∧
      (r.addr.toNat - v.base + n) % v.stride < 4 * v.width := by
  simp only [ViewRecord.touched, List.mem_eraseDups, List.mem_map, List.mem_filter, mem_readOffsets,
    ViewRecord.activeByte_iff]
  constructor
  · rintro ⟨o, ⟨⟨n, hn, rfl⟩, hrow, hcol⟩, rfl⟩
    exact ⟨n, hn, rfl, hrow, hcol⟩
  · rintro ⟨n, hn, rfl, hrow, hcol⟩
    exact ⟨_, ⟨⟨n, hn, rfl⟩, hrow, hcol⟩, rfl⟩

theorem ViewRecord.coversLast_iff {v : ViewRecord} {r : ReadReq} :
    v.coversLast r = true ↔
      ∃ n < 16 * r.beats, r.addr.toNat - v.base + n = (v.height - 1) * v.stride + 4 * v.width - 1 := by
  rw [ViewRecord.coversLast, List.contains_iff_mem, mem_readOffsets, ViewRecord.lastByte]

theorem ViewRecord.fillPixel_eq (v : ViewRecord) :
    ∀ ch : Nat, v.fillPixel ch = (match ch with | 0 => v.fillY | 1 => v.fillCb | _ => v.fillCr).toNat
  | 0 => rfl
  | 1 => rfl
  | _ + 2 => rfl

theorem highestRow_spec {rows : List Nat} (h : rows ≠ []) :
    highestRow rows ∈ rows ∧ ∀ y ∈ rows, y ≤ highestRow rows := by
  have hmax : highestRow rows = rows.max h := (List.foldl_max_eq_max h).trans (Nat.zero_max _)
  rw [hmax]
  exact ⟨List.max_mem h, fun _ hy => List.le_max_of_mem hy⟩

/-! ### Samples, sides and their mix, within 8 bits (R107 to R112) -/

theorem View.sample_valid {v : View} {side : Side} {p : SidePlan} {row col ch : Nat} {n : Fin 16} {k : RowKey}
    {o : Word} {bytes : List Byte} {b : Byte} (hentry : v.entryOf ⟨side, p.source, p.store, row⟩ = some n)
    (hvalid : v.cache[n] = .valid k o bytes) (hbyte : bytes[4 * (col - p.cmin) + ch]? = some b) :
    v.sample side p row col ch = b.toNat := by
  simp only [View.sample, hentry, hvalid, hbyte, Option.map_some, Option.getD_some]

/-- A weighted sum of two values is at most the larger bound times the weights' sum. -/
theorem mix_le {a b m w : Nat} (ha : a ≤ m) (hb : b ≤ m) (hw : w ≤ 256) : a * (256 - w) + b * w ≤ m * 256 :=
  calc a * (256 - w) + b * w ≤ m * (256 - w) + m * w :=
        Nat.add_le_add (Nat.mul_le_mul_right _ ha) (Nat.mul_le_mul_right _ hb)
    _ = m * 256 := by rw [← Nat.mul_add, Nat.sub_add_cancel hw]

theorem interpolate_le {a b c d fu fv : Nat} (ha : a ≤ 255) (hb : b ≤ 255) (hc : c ≤ 255) (hd : d ≤ 255)
    (hu : fu ≤ 256) (hv : fv ≤ 256) : interpolate a b c d fu fv ≤ 255 := by
  have hsum := mix_le (mix_le ha hb hu) (mix_le hc hd hu) hv
  unfold interpolate
  dsimp only
  omega

theorem mixSides_le {a b w : Nat} (ha : a ≤ 255) (hb : b ≤ 255) (hw : w ≤ 256) : mixSides a b w ≤ 255 := by
  have hsum := mix_le ha hb hw
  unfold mixSides
  omega

theorem correctC_le (d : Int) (c : Nat) : correctC d c ≤ 255 := by
  unfold correctC clampInt
  omega

theorem Correction.apply_le (k : Correction) (ch x : Nat) : k.apply ch x ≤ 255 := by
  unfold Correction.apply
  split
  · exact Nat.min_le_left _ _
  · exact correctC_le _ _
  · exact correctC_le _ _

theorem sideValue_of_record {e : ViewEnv} {p : SidePlan} {r : SourceRecord} (v : View) (side : Side)
    (x y ch : Nat) (hr : e.sources[p.source].record = some r) :
    sideValue e v side p x y ch = p.value r (fun row col => v.sample side p row col ch) x y ch := by
  rw [sideValue, hr]

/-- Settles O48: each byte, row and sample at its place, and each stage of the arithmetic within 8 bits. -/
theorem pixelsComposed : Obligations.PixelsComposed := by
  unfold Obligations.PixelsComposed
  refine ⟨fun v r pixel => ?bytes, ⟨rfl, fun _ => highestRow_spec⟩, fun e v p x y ch => ?pixel,
    fun e v side p r x y hr => ?side, fun _ _ _ _ _ _ _ _ _ _ _ => View.sample_valid,
    fun _ _ _ _ _ _ => interpolate_le, Correction.apply_le, fun _ _ _ => mixSides_le⟩
  case bytes =>
    intro off row col
    refine ⟨?_, fun n hn => v.answerData_getElem? pixel hn, fun y => ViewRecord.mem_touched, v.touched_strict r,
      ViewRecord.coversLast_iff, ?_⟩
    · simp only [ViewRecord.answerData, readOffsets, List.length_map, List.length_range]
    · exact congrArg (fun pixel => okayAnswer r (v.answerData r pixel))
        (funext fun _ => funext fun _ => funext v.fillPixel_eq)
  case pixel =>
    refine ⟨fun hf ht => ?_, fun a hf ht => ?_, fun b hf ht => ?_, fun a b hf ht => ?_⟩
    · rw [composedPixel, hf, ht]
      exact e.conf.fillPixel_eq ch
    · rw [composedPixel, hf, ht]
    · rw [composedPixel, hf, ht]
    · rw [composedPixel, hf, ht]
      rfl
  case side =>
    intro h w sample mixed moved
    exact ⟨sideValue_of_record v side x y 0 hr, sideValue_of_record v side x y 1 hr,
      sideValue_of_record v side x y 2 hr⟩

end Sys2Proof.Machine
end
